-- ==== Sys2Proof/Word.lean ====
section
/-! DEFINITION. The word types and index types of the SC4: bytes, counts, addresses, and the numberings of 00_scope.md 7.2. -/

namespace Sys2Proof

/-- A byte of memory or of a frame. -/
abbrev Byte := BitVec 8

/-- A 32-bit count, cycle number or register. -/
abbrev Word := BitVec 32

/-- A 64-bit system-memory address. -/
abbrev Addr := BitVec 64

/-- Streams are numbered 0 to 255 (00_scope.md 7.2). -/
abbrev StreamId := Fin 256

/-- Ports are numbered 0 to 3 (00_scope.md 7.2). -/
abbrev PortId := Fin 4

/-- Tags are numbered 0 to 31 on each port (00_scope.md 7.2). -/
abbrev TagId := Fin 32

/-- Request array indices: 0 to 255 the streams, 256 to 259 the ports (00_scope.md 7.2). -/
abbrev ReqIx := Fin 260

/-- The 64 bytes of a host half or of the header, byte 0 in the low bits (little-endian). -/
abbrev Bytes64 := BitVec 512

/-- The 32 bytes of a port configuration block, byte 0 in the low bits. -/
abbrev Bytes32 := BitVec 256

/-- The 260 bytes of the REQ array, byte 0 in the low bits. -/
abbrev ReqArray := BitVec 2080

end Sys2Proof
end

