-- ==== Sys2Proof/Config.lean ====
section
/-! DEFINITION. What an implementation fixes and the one free value: constants of the part, and how many writes the link has taken when a drop cuts the posted-write path. -/

namespace Sys2Proof.Config

/-- FREE VALUE (log 6). R129 drops at a reset or a halt every write "that has not been issued on the link" and does not say
which have been. At the drop numbered `n` the link has taken the first `linkTaken n` entries of the path (all of them where that
is more than the path holds). Nothing constrains this function. -/
opaque linkTaken : Nat → Nat

/-- R128: the read tracker holds up to 16 reads in flight. -/
def trackerSize : Nat := 16

/-- R122: the pending outcome list holds up to 128 outcomes. -/
def pendingOutcomes : Nat := 128

/-- R54: each aperiodic queue holds at most 64 items. -/
def queueSize : Nat := 64

/-- R69: per node at most 8 tags are not FREE. -/
def nodeTags : Nat := 8

/-- R27: the cost of a PROBE, in line units. -/
def probeCost : Nat := 25

/-- R27: the START frame takes 12 units. -/
def startUnits : Nat := 12

/-- R27: the guard takes 8 units. -/
def guardUnits : Nat := 8

/-- R87, R88, R89: a LOST node is probed again after 16 cycles. -/
def lostProbeCycles : Word := 16

/-- R100: a port enters RUNNING at the START of cycle 8. -/
def runningCycle : Word := 8

/-- R127: a SCAN_PERIOD above 16 is taken as 16. -/
def maxScanPeriod : Byte := 16

/-- R150: vendor code 0x56A3, part code 0x34, revision 0x02. -/
def ident : Word := 0x023456A3

/-- 08_the_control_page.md 8.1: offset of the REQ array, also the fault detail of CONTROL_READ (R146). -/
def reqOffset : Nat := 0x0400

/-- 08_the_control_page.md 8.1: offset of the ACK array. -/
def ackOffset : Nat := 0x0600

/-- 08_the_control_page.md 8.1: offset of PRODUCED[0]. -/
def producedOffset : Nat := 0x0800

/-- 08_the_control_page.md 8.1: offset of CONSUMED[0]. -/
def consumedOffset : Nat := 0x0C00

/-- 08_the_control_page.md 8.1: offset of the stream table. -/
def streamOffset : Nat := 0x1000

/-- 08_the_control_page.md 8.1: offset of the port configuration blocks. -/
def portConfigOffset : Nat := 0x0040

/-- 08_the_control_page.md 8.1: offset of the port status blocks. -/
def portStatusOffset : Nat := 0x00C0

/-- R157: offset of ENGINE_EPOCH in the header. -/
def epochOffset : Nat := 0x20

/-- R157: offset of UPDATE_COUNT in the header. -/
def updateCountOffset : Nat := 0x24

/-- R157: offset of FAULT_CODE and FAULT_DETAIL in the header. -/
def faultOffset : Nat := 0x28

end Sys2Proof.Config
end

