-- ==== Sys2Proof/Syntax.lean ====
section
/-! DEFINITION. The commands of the SC4: one constructor per row of spec/opcode_table.json, with the row's operands. -/

namespace Sys2Proof

/-- How a read of system memory completes (R128): with its data in full, or as a read fault. The third way, a read timeout, is
the command SMI_READ_TIMEOUT. -/
inductive ReadResult (α : Type) where
  | data (d : α)
  | fault
  deriving DecidableEq, Repr

/-- What the part hears after one of its frames (R65): no reply began within 6 units, or a reply began and these bytes of it
were heard. -/
inductive Heard where
  | silence
  | reply (bytes : List Byte)
  deriving DecidableEq, Repr

/-- The eight registers of the window (10_registers_and_interrupt.md 10.1). -/
inductive Reg where
  | ident | control | status | pageLo | pageHi | intrStatus | intrEnable | intrHoldoff
  deriving DecidableEq, Repr

/-- The two PAGE registers (R153). -/
inductive PageReg where
  | lo | hi
  deriving DecidableEq, Repr

/-- The width of a register access (R150). Of the accesses that the spec calls narrower than 32 bits the model has those of 8 and of 16 bits:
the model's choice (log 40). -/
inductive Width where
  | byte | half | word
  deriving DecidableEq, Repr

/-- The commands. An operand `pos` is the position, in line units, of the port concerned at which the event is taken; it is used
where the event makes the Cycle Planner select on an idle line (R60, R61; log 3). -/
inductive Instr where
  /-- COLD_RESET (R148): power-on or PERST#. -/
  | coldReset
  /-- FUNCTION_RESET (R148): reset of the PCIe function. -/
  | functionReset
  /-- ENGINE_RESET (R148): CONTROL.ENGINE_RESET written 1. -/
  | engineReset
  /-- RUN_WRITTEN_1 (R140): CONTROL.RUN written 1. -/
  | runWritten1
  /-- RUN_WRITTEN_0 (R140): CONTROL.RUN written 0. -/
  | runWritten0
  /-- SCAN (R131): CONTROL.SCAN written 1. -/
  | scan
  /-- PAGE_WRITE (R153): a 32-bit write of PAGE_LO or PAGE_HI. -/
  | pageWrite (reg : PageReg) (value : Word)
  /-- INTR_STATUS_WRITE (R154): a 32-bit W1C write. -/
  | intrStatusWrite (value : Word)
  /-- INTR_ENABLE_WRITE (R155): a 32-bit write. -/
  | intrEnableWrite (value : Word)
  /-- INTR_HOLDOFF_WRITE (R155): a 32-bit write. -/
  | intrHoldoffWrite (value : Word)
  /-- REGISTER_WRITE_IGNORED (R150): a write to IDENT or STATUS, or a write narrower than 32 bits. -/
  | registerWriteIgnored (reg : Reg) (width : Width) (value : Word)
  /-- PCIE_CONFIG_WRITE (R156): the MSI enable bit and the interrupt disable bit as the configuration write leaves them. -/
  | pcieConfigWrite (msiEnable intxDisable : Bool)
  /-- SCAN_TIMER_EXPIRY (R131). -/
  | scanTimerExpiry
  /-- HOLDOFF_TIMER_EXPIRY (R155). -/
  | holdoffTimerExpiry
  /-- CYCLE_TIMER_EXPIRY (R99): expiry of the cycle timer of port `p`. -/
  | cycleTimerExpiry (p : PortId)
  /-- START_FRAME_END (R102): the bytes heard on the receive pair while the START frame was sent. -/
  | startFrameEnd (p : PortId) (echo : List Byte)
  /-- PORT_ENTER_RUNNING (R100): the START event of cycle 8 of a SYNCING port. -/
  | portEnterRunning (p : PortId)
  /-- DEADLINE_TIMEOUT (R77): a RUNNING START that finds a tag whose deadline has passed. -/
  | deadlineTimeout (p : PortId)
  /-- APERIODIC_WINDOW_CLOSE (R61): the position reaches cycle units - 8. -/
  | aperiodicWindowClose (p : PortId)
  /-- REQUEST_EXCHANGE_END (R73): the bytes heard while the REQUEST was sent, and what was heard after it. -/
  | requestExchangeEnd (p : PortId) (echo : List Byte) (heard : Heard)
  /-- FETCH_EXCHANGE_END (R76). -/
  | fetchExchangeEnd (p : PortId) (echo : List Byte) (heard : Heard)
  /-- PROBE_EXCHANGE_END (R79). -/
  | probeExchangeEnd (p : PortId) (echo : List Byte) (heard : Heard)
  /-- SCAN_SNAPSHOT_COMPLETE (R132). -/
  | scanSnapshotComplete (r : ReadResult ReqArray)
  /-- HEADER_READ_COMPLETE (R141). -/
  | headerReadComplete (r : ReadResult Bytes64)
  /-- FRESH_START_READ_COMPLETE (R142). -/
  | freshStartReadComplete (r : ReadResult ReqArray)
  /-- OPEN (R6): the entry fetch of a taken stream request returns a host half with ACTION OPEN. -/
  | openStream (hostHalf : Bytes64)
  /-- CLOSE (R10): the host half fetched has ACTION CLOSE. -/
  | closeStream (hostHalf : Bytes64) (pos : Nat)
  /-- FIRE (R20): the host half fetched has ACTION FIRE. -/
  | fire (hostHalf : Bytes64) (pos : Nat)
  /-- PAUSE (R14): the host half fetched has ACTION PAUSE. -/
  | pause (hostHalf : Bytes64) (pos : Nat)
  /-- RESUME (R15): the host half fetched has ACTION RESUME. -/
  | resume (hostHalf : Bytes64)
  /-- STREAM_BAD_ACTION (R5): the host half fetched has an ACTION that R5 refuses in the stream's state. -/
  | streamBadAction (hostHalf : Bytes64)
  /-- CONFIGURE (R96): the entry fetch of a taken port request returns a block with ACTION CONFIGURE. -/
  | configure (block : Bytes32)
  /-- START (R97): the block fetched has ACTION START. -/
  | startPort (block : Bytes32)
  /-- STOP (R98): the block fetched has ACTION STOP. -/
  | stopPort (block : Bytes32)
  /-- PORT_BAD_ACTION (R95): the block fetched has another ACTION. -/
  | portBadAction (block : Bytes32)
  /-- ENTRY_FAULT (R134): the entry fetch of a taken request ends in a fault. -/
  | entryFault
  /-- CONSUMED_READ_COMPLETE (R7). -/
  | consumedReadComplete (r : ReadResult Word)
  /-- SELECTOR_READ_COMPLETE (R51): the read numbered `rid` completes. -/
  | selectorReadComplete (rid : Nat) (r : ReadResult Byte) (pos : Nat)
  /-- HALF_READ_COMPLETE (R51, R159): the read numbered `rid`, one piece of a half, completes. -/
  | halfReadComplete (rid : Nat) (r : ReadResult (List Byte)) (pos : Nat)
  /-- CONSUMED_REFRESH_COMPLETE (R115): the refresh of stream `s` completes. -/
  | consumedRefreshComplete (s : StreamId) (r : ReadResult Word)
  /-- SMI_READ_TIMEOUT (R128): the completion timer of the read numbered `rid` expires. -/
  | smiReadTimeout (rid : Nat) (pos : Nat)
  /-- LATE_READ_DATA (R128): data of a read that is no longer in flight. -/
  | lateReadData (rid : Nat)
  /-- CANCELLED_OUTCOME_SETTLE (R123): the Result Writer settles the CANCELLED outcome of the CLOSE of stream `s`. -/
  | cancelledOutcomeSettle (s : StreamId)
  /-- ENGINE_ENTER_STOPPED (R145). -/
  | engineEnterStopped
  deriving DecidableEq, Repr

end Sys2Proof
end

