-- ==== Sys2Proof/Machine/State.lean ====
section
/-! DEFINITION. The state of the SC4: every register, flag, table, list and counter the spec gives the part, the queue of waiting commands, and the state after a cold reset. Plain data throughout. -/

namespace Sys2Proof.Machine

open Sys2Proof

/-- The outcome codes (R82, R159). -/
inductive OutcomeCode where
  | ok | rejected | timeout | silent | corrupt | lineError | noTag | nodeLost | portStopped
  | skipOverlap | skipNoTag | skipNodeLimit | sourceLate | sourceFault | cancelled
  deriving DecidableEq, Repr

/-- The stream request results (01_streams.md 1.12, R158). -/
inductive StreamResult where
  | none | accepted | noChange | badAction | badKind | badPort | badNode | badOperation | badLength | badInterval | badPhase
  | badWindow | badSource | portBudget | memoryBudget | tooLarge | notOpen | alreadyOpen | wrongKind | busy | held | paused
  | queueFull | entryFault
  deriving DecidableEq, Repr

/-- The port request results (R157). -/
inductive PortResult where
  | none | accepted | noChange | badAction | badConfig | streamsAdmitted | wrongState | entryFault
  deriving DecidableEq, Repr

/-- R139: the engine states. -/
inductive EngineState where
  | stopped | starting | running | stopping | halted
  deriving DecidableEq, Repr

/-- R139: the start results. -/
inductive StartResult where
  | none | started | pageUnset | headerBad | headerFault | startOverBudget
  deriving DecidableEq, Repr

/-- R139, R146: the fault codes. -/
inductive FaultCode where
  | none | controlRead | contextParity
  deriving DecidableEq, Repr

/-- R139 and R153: what Engine Control holds, with the two PAGE registers. `epoch` is ENGINE_EPOCH as read at check 2 of R141, held
for the fresh start (R142). -/
structure EngineCtl where
  state : EngineState
  startResult : StartResult
  fault : FaultCode
  detail : Word
  freshStart : Bool
  withdrawn : Bool
  pageBase : Addr
  pageLo : Word
  pageHi : Word
  epoch : Word
  deriving DecidableEq, Repr

/-- R139: the values after a cold reset. -/
def EngineCtl.reset : EngineCtl :=
  { state := .stopped, startResult := .none, fault := .none, detail := 0, freshStart := true, withdrawn := false,
    pageBase := 0, pageLo := 0, pageHi := 0, epoch := 0 }

/-- R154 to R156: the Interrupt Unit. Bits 0, 1, 2 of `status` and `enable` are STREAM, PORT, ENGINE (10.1). `timer` is the period
of a running holdoff timer. -/
structure IntrUnit where
  status : BitVec 3
  enable : BitVec 3
  holdoff : Byte
  timer : Option Byte
  msgPending : Bool
  intxLine : Bool
  msiEnable : Bool
  intxDisable : Bool
  deriving DecidableEq, Repr

/-- R156: the values after a cold reset; the two PCIe configuration bits are PRESUMED 0 (log 13). -/
def IntrUnit.reset : IntrUnit :=
  { status := 0, enable := 0, holdoff := 0, timer := none, msgPending := false, intxLine := false,
    msiEnable := false, intxDisable := false }

/-- R28: the cycle figures of a port; the period in µs, all others in line units. -/
structure Figures where
  period : Nat
  units : Nat
  usable : Nat
  cap : Nat
  minAperiodic : Nat
  oneShotLimit : Nat
  deriving DecidableEq, Repr

/-- R29: the cycle figures after a reset. -/
def Figures.reset : Figures :=
  { period := 0, units := 0, usable := 0, cap := 0, minAperiodic := 0, oneShotLimit := 0 }

/-- R29: the budget table of a port. -/
structure Budget where
  loads : Vector Nat 64
  cycleIndex : Byte
  capPct : Byte
  figures : Figures
  reservations : Nat
  deriving DecidableEq, Repr

/-- R29: a budget table after a reset. -/
def Budget.reset : Budget :=
  { loads := Vector.replicate 64 0, cycleIndex := 0, capPct := 0, figures := Figures.reset, reservations := 0 }

/-- R29: the Admission Unit: a budget table per port and the memory account. -/
structure Admission where
  budgets : Vector Budget 4
  memLoad : Nat
  memCap : Word
  deriving DecidableEq, Repr

/-- R29: the Admission Unit after a reset. -/
def Admission.reset : Admission :=
  { budgets := Vector.replicate 4 Budget.reset, memLoad := 0, memCap := 0 }

/-- The host-half fields KIND to SOURCE_BASE as a context keeps them (R1, R3), each coded as in memory (R158), so that "all 0"
after a reset is a value of it. -/
structure Params where
  kind : Byte
  port : Byte
  node : Byte
  operation : Byte
  outLen : Byte
  inLen : Byte
  interval : Byte
  phase : Byte
  cls : Byte
  retries : Byte
  delivery : Byte
  overflow : Byte
  notify : Byte
  item : BitVec 16
  windowBase : Addr
  slotCount : Byte
  sourceBase : Addr
  deriving DecidableEq, Repr

/-- R3: parameters as admitted after a reset: all 0. -/
def Params.zero : Params :=
  { kind := 0, port := 0, node := 0, operation := 0, outLen := 0, inLen := 0, interval := 0, phase := 0, cls := 0, retries := 0,
    delivery := 0, overflow := 0, notify := 0, item := 0, windowBase := 0, slotCount := 0, sourceBase := 0 }

/-- R131, R132: a scan in progress: its array read is asked and not complete, or it works from its snapshot and goes on at
position `next` of the examination order. -/
inductive Scan where
  | reading
  | examining (snapshot : ReqArray) (next : Nat)
  deriving DecidableEq, Repr

/-- R133: how far a take is: its entry fetch is asked, or an OPEN holds the scanner while its stream is OPENING, with the parameters
to be admitted. -/
inductive TakeStage where
  | fetching
  | opening (params : Params)
  deriving DecidableEq, Repr

/-- R133: the request in progress. -/
structure Take where
  ix : ReqIx
  req : Byte
  stage : TakeStage
  deriving DecidableEq, Repr

/-- R127, R130 to R137: the Request Scanner. -/
structure Scanner where
  period : Byte
  timer : Bool
  remembered : Bool
  scan : Option Scan
  take : Option Take
  ackCopy : Vector Byte 260
  deriving DecidableEq, Repr

/-- R137: the scanner after a reset. -/
def Scanner.reset : Scanner :=
  { period := 0, timer := false, remembered := false, scan := none, take := none, ackCopy := Vector.replicate 260 0 }

/-- What a read of system memory is for: the block that asked and what it does with the completion (R128). A source read names the
stay it belongs to (`job`, the number of its selector read; log 9); a half is read in pieces (R159). -/
inductive ReadFor where
  | scanArray
  | header
  | freshArray
  | entry (ix : ReqIx)
  | openConsumed (s : StreamId)
  | refresh (s : StreamId)
  | selector (s : StreamId) (job : Nat)
  | half (s : StreamId) (job : Nat) (piece : Nat)
  deriving DecidableEq, Repr

/-- A read asked of the System Memory Interface: its number (log 9), purpose, address and length. -/
structure Read where
  rid : Nat
  what : ReadFor
  addr : Addr
  len : Nat
  deriving DecidableEq, Repr

/-- One entry of the posted-write path: a write of system memory, or an MSI, which follows the writes of its event on the same
ordered path (R155). -/
inductive PathItem where
  | write (addr : Addr) (bytes : List Byte)
  | msi
  deriving DecidableEq, Repr

/-- R128, R129: the System Memory Interface. `link` records, oldest first, what has certainly left the path onto the link
(logs 6, 41). -/
structure Smi where
  inFlight : List Read
  waiting : List Read
  nextRid : Nat
  path : List PathItem
  link : List PathItem
  deriving DecidableEq, Repr

/-- R128, R129: the SMI after a cold reset. -/
def Smi.reset : Smi := { inFlight := [], waiting := [], nextRid := 0, path := [], link := [] }

/-- The stream states (01_streams.md 1.4). -/
inductive StreamState where
  | closed | opening | isOpen | closing
  deriving DecidableEq, Repr

/-- The one-shot states (01_streams.md 1.9). -/
inductive OneShot where
  | idle | queued | inFlight
  deriving DecidableEq, Repr

/-- The hold reasons in force (01_streams.md 1.8). -/
structure Holds where
  portNotRunning : Bool
  nodeLost : Bool
  memoryFault : Bool
  deriving DecidableEq, Repr

/-- R3: no hold reason. -/
def Holds.none : Holds := { portNotRunning := false, nodeLost := false, memoryFault := false }

/-- R25: the five counters of a stream. -/
structure Counters where
  occurrences : Word
  misses : Word
  overruns : Word
  timeouts : Word
  retriesUsed : Word
  deriving DecidableEq, Repr

/-- R3: the counters after a reset. -/
def Counters.zero : Counters := { occurrences := 0, misses := 0, overruns := 0, timeouts := 0, retriesUsed := 0 }

/-- R3: a stream context. `parityOk` is the parity that R4 keeps over it (log 11). -/
structure Ctx where
  state : StreamState
  params : Params
  phase : Byte
  cost : Nat
  memCost : Nat
  paused : Bool
  holds : Holds
  oneShot : OneShot
  retriesLeft : Nat
  tagRef : Option (TagId × BitVec 2)
  sourceOutstanding : Bool
  refreshOutstanding : Bool
  closeOutcome : Bool
  closeReq : Option Byte
  produced : Word
  cached : Word
  consumedInvalid : Bool
  lossMark : Bool
  signature : Option Word
  lastOutcome : Option OutcomeCode
  counters : Counters
  result : StreamResult
  resultReq : Byte
  parityOk : Bool
  deriving DecidableEq, Repr

/-- R3: a context after any reset. -/
def Ctx.reset : Ctx :=
  { state := .closed, params := Params.zero, phase := 0xFF, cost := 0, memCost := 0, paused := false, holds := Holds.none,
    oneShot := .idle, retriesLeft := 0, tagRef := none, sourceOutstanding := false, refreshOutstanding := false,
    closeOutcome := false, closeReq := none, produced := 0, cached := 0, consumedInvalid := false, lossMark := false,
    signature := none, lastOutcome := none, counters := Counters.zero, result := .none, resultReq := 0, parityOk := true }

/-- The source state of a plan entry or queue item (R46, R47, R51, R53): no data needed; not read yet (a queue item); waiting for the
selector or for the pieces of the half of the stay `job`; data present; faulted; late. -/
inductive Source where
  | noneNeeded
  | notRead
  | selector (job : Nat)
  | half (job : Nat) (pieces : List (Option (List Byte)))
  | present (data : List Byte)
  | faulted
  | late
  deriving DecidableEq, Repr

/-- An entry of a plan, or an item of the aperiodic queue (its class is the list it stands in; R46, R54). -/
structure Entry where
  stream : StreamId
  source : Source
  deriving DecidableEq, Repr

/-- R68: the tag states. -/
inductive TagState where
  | free | waiting | deferred | fetching
  deriving DecidableEq, Repr

/-- R68: an entry of the tag table. -/
structure Tag where
  state : TagState
  epoch : BitVec 2
  stream : StreamId
  node : Byte
  issue : Word
  ready : Word
  deadline : Word
  stamp : Word
  deriving DecidableEq, Repr

/-- R68: a tag after any reset. -/
def Tag.reset : Tag :=
  { state := .free, epoch := 0, stream := 0, node := 0, issue := 0, ready := 0, deadline := 0, stamp := 0 }

/-- R84: the node states. -/
inductive NodeState where
  | unknown | present | lost
  deriving DecidableEq, Repr

/-- R84: an entry of the node table. -/
structure Node where
  state : NodeState
  silence : Nat
  tagsHeld : Nat
  lastHeard : Word
  probeDue : Option Word
  corrupt : Nat
  deriving DecidableEq, Repr

/-- R84: a node entry after any reset. -/
def Node.reset : Node :=
  { state := .unknown, silence := 0, tagsHeld := 0, lastHeard := 0, probeDue := none, corrupt := 0 }

/-- The port states (06_segment_ports.md). -/
inductive PortState where
  | disabled | syncing | running | stopping | faulted
  deriving DecidableEq, Repr

/-- R105: the fault reasons of a port. -/
inductive PortFault where
  | none | startEcho
  deriving DecidableEq, Repr

/-- R58: the turn. -/
inductive Turn where
  | fetchList | queue
  deriving DecidableEq, Repr

/-- What is on the line of a port, with the bytes of the part's frame (the echo checker compares what it hears with them, R64,
R102). A REQUEST says whether it is an item of the periodic window. -/
inductive Line where
  | idle
  | start (frame : List Byte)
  | request (tag : TagId) (periodic : Bool) (frame : List Byte)
  | fetch (tag : TagId) (frame : List Byte)
  | probe (node : Byte) (frame : List Byte)
  deriving DecidableEq, Repr

/-- R92, R105: the node change record. -/
structure NodeChange where
  node : Byte
  state : NodeState
  heard : Word
  corrupt : Nat
  deriving DecidableEq, Repr

/-- R105: the record all 0. -/
def NodeChange.zero : NodeChange := { node := 0, state := .unknown, heard := 0, corrupt := 0 }

/-- A port: its Segment Engine (R68, R84, R94, R99, R102, R105) and its Cycle Planner (03_cycle_planning.md). Entry `a - 1` of
`nodes` is node address `a` (R84). -/
structure Port where
  state : PortState
  faultReason : PortFault
  configured : Bool
  silenceLimit : Byte
  deferTimeout : Byte
  nodeEnable : BitVec 64
  cycle : Word
  cycleTimer : Bool
  startMismatches : Nat
  result : PortResult
  resultReq : Byte
  change : NodeChange
  corruptCount : Word
  lineErrors : Word
  silentCount : Word
  tags : Vector Tag 32
  allocations : Word
  nodes : Vector Node 62
  nextPlan : List Entry
  current : List Entry
  urgent : List Entry
  normal : List Entry
  fetchList : List TagId
  turn : Turn
  windowOpen : Bool
  openingMade : Bool
  periodicUsed : Nat
  aperiodicUsed : Nat
  lastPeriodic : Nat
  lastAperiodic : Nat
  line : Line
  itemStart : Nat
  freeAt : Nat
  deriving DecidableEq, Repr

/-- R62, R68, R84, R94, R105, R108: a port after any reset. -/
def Port.reset : Port :=
  { state := .disabled, faultReason := .none, configured := false, silenceLimit := 0, deferTimeout := 0, nodeEnable := 0,
    cycle := 0, cycleTimer := false, startMismatches := 0, result := .none, resultReq := 0, change := NodeChange.zero,
    corruptCount := 0, lineErrors := 0, silentCount := 0, tags := Vector.replicate 32 Tag.reset, allocations := 0,
    nodes := Vector.replicate 62 Node.reset, nextPlan := [], current := [], urgent := [], normal := [], fetchList := [],
    turn := .fetchList, windowOpen := false, openingMade := false, periodicUsed := 0, aperiodicUsed := 0, lastPeriodic := 0,
    lastAperiodic := 0, line := .idle, itemStart := 0, freeAt := 0 }

/-- R82: what is handed to the Result Writer for one outcome. -/
structure Outcome where
  stream : StreamId
  code : OutcomeCode
  nodeCode : Byte
  issue : Word
  done : Word
  payload : List Byte
  deriving DecidableEq, Repr

/-- R122, R123: the Result Writer: the pending outcome list, and the CANCELLED outcomes of CLOSE events that wait for their own
settling event. -/
structure Writer where
  outcomes : List Outcome
  cancelled : List Outcome
  deriving DecidableEq, Repr

/-- R125: the Result Writer after a reset. -/
def Writer.reset : Writer := { outcomes := [], cancelled := [] }

/-- The machine. `pending` is the queue of commands that wait, first in first out; `free` counts the free values read (log 6). -/
structure State where
  pending : List Instr
  engine : EngineCtl
  intr : IntrUnit
  adm : Admission
  scanner : Scanner
  updateCount : Word
  smi : Smi
  ctxs : Vector Ctx 256
  ports : Vector Port 4
  writer : Writer
  free : Nat
  deriving DecidableEq, Repr

/-- The machine right after a cold reset (R148), with no command waiting. -/
def State.reset : State :=
  { pending := [], engine := EngineCtl.reset, intr := IntrUnit.reset, adm := Admission.reset, scanner := Scanner.reset,
    updateCount := 0, smi := Smi.reset, ctxs := Vector.replicate 256 Ctx.reset, ports := Vector.replicate 4 Port.reset,
    writer := Writer.reset, free := 0 }

/-- Why a step of this machine faults: never. The spec gives every command an effect, and the SC4's own faults (HALTED, FAULTED,
read faults) are states and results of the machine, so no constructor is needed; nobody raises one. -/
inductive Fault where
  deriving DecidableEq, Repr

/-- Why a command is refused. -/
inductive Refusal where
  /-- Raised by `exec` for a command that has no meaning yet (none is left); safe, the machine stops. -/
  | notModelled (mnemonic : String)
  deriving DecidableEq, Repr

end Sys2Proof.Machine
end

