-- ==== Sys2Proof/Decode.lean ====
section
/-! DEFINITION. The command a word spells (no row of spec/opcode_table.json gives bits: "fields" is empty in every row), and byte `i` of a block of memory as a read delivers it. -/

namespace Sys2Proof

/-- The command that a word spells by the table's bits: none, because no row of the table gives bits. -/
def decodeTableWord (_nbits _w : Nat) : Option Instr := none

/-- Byte `i` of a block of memory held with byte 0 in its low bits. -/
def byteAt {n : Nat} (b : BitVec n) (i : Nat) : Byte := b.extractLsb' (8 * i) 8

/-- The little-endian field of `len` bytes at byte offset `i` (00_scope.md 7.4). -/
def fieldAt {n : Nat} (b : BitVec n) (i len : Nat) : BitVec (8 * len) := b.extractLsb' (8 * i) (8 * len)

end Sys2Proof
end

