-- ==== Sys2Proof/WellFormed.lean ====
section
/-! DEFINITION. Which commands are well formed: the operands agree with the row's name (the ACTION byte of a request, the register of an ignored write) and with what a read or a receiver can deliver. -/

namespace Sys2Proof

/-- What was heard as a reply has at least its first byte: a reply that began (R65). -/
def Heard.wf : Heard → Bool
  | .silence => true
  | .reply bytes => !bytes.isEmpty

/-- A piece of a half is 1 to 64 bytes (R159). -/
def ReadResult.pieceWf : ReadResult (List Byte) → Bool
  | .data d => 1 ≤ d.length && d.length ≤ 64
  | .fault => true

/-- A command is well formed: its operands are ones its row can carry. A command that is not well formed names no event (log 1). -/
def Instr.wf : Instr → Bool
  | .registerWriteIgnored reg width _ => reg = .ident || reg = .status || width ≠ .word
  | .requestExchangeEnd _ _ heard => heard.wf
  | .fetchExchangeEnd _ _ heard => heard.wf
  | .probeExchangeEnd _ _ heard => heard.wf
  | .openStream hh => byteAt hh 0 = 1
  | .closeStream hh _ => byteAt hh 0 = 2
  | .fire hh _ => byteAt hh 0 = 3
  | .pause hh _ => byteAt hh 0 = 4
  | .resume hh => byteAt hh 0 = 5
  | .configure cb => byteAt cb 0 = 1
  | .startPort cb => byteAt cb 0 = 2
  | .stopPort cb => byteAt cb 0 = 3
  | .portBadAction cb => byteAt cb 0 = 0 || 4 ≤ (byteAt cb 0).toNat
  | .halfReadComplete _ r _ => r.pieceWf
  | .coldReset | .functionReset | .engineReset | .runWritten1 | .runWritten0 | .scan => true
  | .pageWrite _ _ | .intrStatusWrite _ | .intrEnableWrite _ | .intrHoldoffWrite _ | .pcieConfigWrite _ _ => true
  | .scanTimerExpiry | .holdoffTimerExpiry | .cycleTimerExpiry _ | .startFrameEnd _ _ | .portEnterRunning _ => true
  | .deadlineTimeout _ | .aperiodicWindowClose _ => true
  | .scanSnapshotComplete _ | .headerReadComplete _ | .freshStartReadComplete _ => true
  | .streamBadAction _ | .entryFault | .consumedReadComplete _ | .selectorReadComplete _ _ _ => true
  | .consumedRefreshComplete _ _ | .smiReadTimeout _ _ | .lateReadData _ => true
  | .cancelledOutcomeSettle _ | .engineEnterStopped => true

end Sys2Proof
end

