-- ==== Sys2Proof/Machine/Operands.lean ====
section
/-! DEFINITION. The operands of the commands: the fields of the host half, of the port configuration block and of the header as the part reads them (R157, R158), the costs and checks computed from them (R6, R26, R35), the register map (10.1), and the commands one register write stands for (R150, R151). -/

namespace Sys2Proof.Machine

open Sys2Proof

/-- Two cycle numbers compared in the modular sense of R56: the cycle `now` has reached the cycle `due`. -/
def cycleReached (now due : Word) : Bool := (now - due).toNat < 2 ^ 31

/-- "Rounded up to 16" (00_scope.md 7.3): the next multiple of 16; a multiple stays as it is. -/
def roundUp16 (n : Nat) : Nat := (n + 15) / 16 * 16

/-- Every stream index, ascending. -/
def allStreams : List StreamId := (List.range 256).map (Fin.ofNat 256)

/-- Every port, ascending. -/
def allPorts : List PortId := [0, 1, 2, 3]

/-- Every tag number, ascending. -/
def allTags : List TagId := (List.range 32).map (Fin.ofNat 32)

/-- Every node address, 1 to 62, ascending. -/
def allNodes : List Byte := (List.range 62).map (fun n => BitVec.ofNat 8 (n + 1))

/-- The index of the node table for address `a`, for the addresses 1 to 62 (R84). -/
def nodeIx? (a : Byte) : Option (Fin 62) :=
  if h : 1 ≤ a.toNat ∧ a.toNat ≤ 62 then some ⟨a.toNat - 1, by omega⟩ else none

/-! ### The host half (R1, R158) -/

/-- ACTION of a host half. -/
def hostAction (hh : Bytes64) : Byte := byteAt hh 0

/-- The fields KIND to SOURCE_BASE of a host half, at the offsets of R158. -/
def hostParams (hh : Bytes64) : Params :=
  { kind := byteAt hh 0x01, port := byteAt hh 0x02, node := byteAt hh 0x03, operation := byteAt hh 0x04,
    outLen := byteAt hh 0x05, inLen := byteAt hh 0x06, interval := byteAt hh 0x07, phase := byteAt hh 0x08,
    cls := byteAt hh 0x09, retries := byteAt hh 0x0A, delivery := byteAt hh 0x0B, overflow := byteAt hh 0x0C,
    notify := byteAt hh 0x0D, item := fieldAt hh 0x0E 2, windowBase := fieldAt hh 0x10 8, slotCount := byteAt hh 0x18,
    sourceBase := fieldAt hh 0x20 8 }

/-- KIND is PERIODIC. -/
def Params.periodic (q : Params) : Bool := q.kind = 1

/-- KIND is ONE_SHOT. -/
def Params.oneShot (q : Params) : Bool := q.kind = 2

/-- PORT as a port number; an admitted PORT is 0 to 3 (R6 check 2). -/
def Params.portId (q : Params) : PortId := Fin.ofNat 4 q.port.toNat

/-- CLASS is URGENT. -/
def Params.urgent (q : Params) : Bool := q.cls = 1

/-- DELIVERY is ON_CHANGE. -/
def Params.onChange (q : Params) : Bool := q.delivery = 2

/-- OVERFLOW is OVERWRITE. -/
def Params.overwrite (q : Params) : Bool := q.overflow = 2

/-- R1: the fields the part keeps: INTERVAL and PHASE of a one-shot are held as 0 and ANY, CLASS and RETRIES of a periodic stream as
NORMAL and 0, SOURCE_BASE as 0 while OUT_LEN is 0. -/
def Params.admitted (q : Params) : Params :=
  { q with
    interval := if q.oneShot then 0 else q.interval
    phase := if q.oneShot then 0xFF else q.phase
    cls := if q.periodic then 2 else q.cls
    retries := if q.periodic then 0 else q.retries
    sourceBase := if q.outLen = 0 then 0 else q.sourceBase }

/-- R26: the wire cost of one transaction: 24 + OUT_LEN + the larger of IN_LEN and 1. -/
def Params.cost (q : Params) : Nat := 24 + q.outLen.toNat + max q.inLen.toNat 1

/-- R27: the cost of a FETCH: 24 + the larger of IN_LEN and 1. -/
def Params.fetchCost (q : Params) : Nat := 24 + max q.inLen.toNat 1

/-- R35: the bytes of one occurrence: OUT_LEN + 20 + IN_LEN rounded up to 16. -/
def Params.occurrenceBytes (q : Params) : Nat := q.outLen.toNat + 20 + roundUp16 q.inLen.toNat

/-- R35: the memory cost under cycle index `k`: occurrence bytes × 2^(10 - k - n), in bytes per 128 ms. -/
def Params.memCost (q : Params) (k : Nat) : Nat := q.occurrenceBytes * 2 ^ (10 - k - q.interval.toNat)

/-- R109: the slot size: 16 bytes plus IN_LEN rounded up to 16. -/
def Params.slotSize (q : Params) : Nat := 16 + roundUp16 q.inLen.toNat

/-- R31: a stream with interval exponent `n` and phase `φ` loads bucket `b`: b mod 2^n = φ. -/
def bucketMatches (n φ b : Nat) : Bool := b % 2 ^ n = φ

/-- 01_streams.md 1.1: OUT_LEN and IN_LEN lie in the ranges the operation requires. -/
def Params.lengthsLegal (q : Params) : Bool :=
  let out := q.outLen.toNat
  let inn := q.inLen.toNat
  (q.operation = 1 && out = 0 && 1 ≤ inn && inn ≤ 240) ||
  (q.operation = 2 && 1 ≤ out && out ≤ 240 && inn = 0) ||
  (q.operation = 3 && 1 ≤ out && out ≤ 240 && 1 ≤ inn && inn ≤ 240)

/-- R6 check 10: window base, slot count, overflow, notify, and the window within the 64-bit address space. -/
def Params.windowLegal (q : Params) : Bool :=
  q.windowBase ≠ 0 && q.windowBase.toNat % 64 = 0 && 1 ≤ q.slotCount.toNat && q.slotCount.toNat ≤ 64 &&
  (q.overflow = 1 || q.overflow = 2) && (q.notify = 0 || q.notify = 1) &&
  q.windowBase.toNat + q.slotCount.toNat * q.slotSize ≤ 2 ^ 64

/-- R6 check 11: the source area, when OUT_LEN > 0. -/
def Params.sourceLegal (q : Params) : Bool :=
  q.outLen = 0 ||
  (q.sourceBase ≠ 0 && q.sourceBase.toNat % 16 = 0 &&
   q.sourceBase.toNat + 16 + 2 * roundUp16 q.outLen.toNat ≤ 2 ^ 64)

/-- R6: the field checks in their order; `nodeEnable` is NODE_ENABLE of the configuration last accepted on the port named. The
answer is the result of the first check that fails. -/
def Params.openRefusal (q : Params) (nodeEnable : BitVec 64) : Option StreamResult :=
  if ¬ (q.periodic ∨ q.oneShot) then some .badKind
  else if ¬ q.port.toNat ≤ 3 then some .badPort
  else if ¬ (1 ≤ q.node.toNat ∧ q.node.toNat ≤ 62 ∧ nodeEnable.getLsbD q.node.toNat) then some .badNode
  else if ¬ (q.operation = 1 ∨ q.operation = 2 ∨ q.operation = 3) then some .badOperation
  else if ¬ q.lengthsLegal then some .badLength
  else if q.periodic ∧ ¬ q.interval.toNat ≤ 6 then some .badInterval
  else if q.periodic ∧ ¬ (q.phase = 0xFF ∨ q.phase.toNat < 2 ^ q.interval.toNat) then some .badPhase
  else if q.oneShot ∧ ¬ ((q.cls = 1 ∨ q.cls = 2) ∧ q.retries.toNat ≤ 7) then some .badKind
  else if ¬ (q.delivery = 1 ∨ (q.delivery = 2 ∧ q.periodic ∧ (q.operation = 1 ∨ q.operation = 3))) then some .badKind
  else if ¬ q.windowLegal then some .badWindow
  else if ¬ q.sourceLegal then some .badSource
  else none

/-! ### The port configuration block and the header (R157) -/

/-- ACTION of a port configuration block. -/
def blockAction (cb : Bytes32) : Byte := byteAt cb 0

/-- CYCLE_INDEX of a block. -/
def blockCycleIndex (cb : Bytes32) : Byte := byteAt cb 1

/-- CAP_PCT of a block. -/
def blockCapPct (cb : Bytes32) : Byte := byteAt cb 2

/-- SILENCE_LIMIT of a block. -/
def blockSilenceLimit (cb : Bytes32) : Byte := byteAt cb 3

/-- DEFER_TIMEOUT of a block. -/
def blockDeferTimeout (cb : Bytes32) : Byte := byteAt cb 4

/-- NODE_ENABLE of a block. -/
def blockNodeEnable (cb : Bytes32) : BitVec 64 := fieldAt cb 8 8

/-- R96 step 2: every field of the block is in range. -/
def blockInRange (cb : Bytes32) : Bool :=
  (blockCycleIndex cb).toNat ≤ 4 && 50 ≤ (blockCapPct cb).toNat && (blockCapPct cb).toNat ≤ 90 &&
  1 ≤ (blockSilenceLimit cb).toNat && (blockSilenceLimit cb).toNat ≤ 15 && blockDeferTimeout cb ≠ 0 &&
  !(blockNodeEnable cb).getLsbD 0 && !(blockNodeEnable cb).getLsbD 63

/-- FORMAT of a header. -/
def headerFormat (h : Bytes64) : Word := fieldAt h 0x00 4

/-- MEMORY_CAP of a header. -/
def headerMemoryCap (h : Bytes64) : Word := fieldAt h 0x04 4

/-- R127: SCAN_PERIOD of a header, with a value above 16 taken as 16. -/
def headerScanPeriod (h : Bytes64) : Byte :=
  if (byteAt h 0x08).toNat ≤ 16 then byteAt h 0x08 else Config.maxScanPeriod

/-- ENGINE_EPOCH of a header. -/
def headerEpoch (h : Bytes64) : Word := fieldAt h 0x20 4

/-- REQ[i] of the array as read. -/
def reqByte (a : ReqArray) (i : ReqIx) : Byte := byteAt a i.val

/-! ### Indices of the request array (00_scope.md 7.2) -/

/-- The index of stream `s`. -/
def streamIx (s : StreamId) : ReqIx := ⟨s.val, by omega⟩

/-- The index of port `p`. -/
def portIx (p : PortId) : ReqIx := ⟨256 + p.val, by omega⟩

/-- The stream or the port an index belongs to. -/
def ixOwner (i : ReqIx) : StreamId ⊕ PortId :=
  if h : i.val < 256 then .inl ⟨i.val, h⟩ else .inr ⟨i.val - 256, by omega⟩

/-- R132: the index examined at position `k` of a scan: 256 to 259 first, then 0 to 255. -/
def scanOrder (k : Nat) : ReqIx := if k < 4 then Fin.ofNat 260 (256 + k) else Fin.ofNat 260 (k - 4)

/-! ### The register window (R150, R151) -/

/-- 10.1: the offset of a register in the window. -/
def regOffset : Reg → Nat
  | .ident => 0x00
  | .control => 0x04
  | .status => 0x08
  | .pageLo => 0x0C
  | .pageHi => 0x10
  | .intrStatus => 0x14
  | .intrEnable => 0x18
  | .intrHoldoff => 0x1C

/-- The eight registers. -/
def allRegs : List Reg := [.ident, .control, .status, .pageLo, .pageHi, .intrStatus, .intrEnable, .intrHoldoff]

/-- The bytes of an access: 1, 2 or 4 (the model's choice of widths, log 40). -/
def widthBytes : Width → Nat
  | .byte => 1
  | .half => 2
  | .word => 4

/-- R150: the register that an access at an offset addresses, and the first of its bytes that it addresses. An access that is not wholly
within one register of the map addresses none (log 29). -/
def registerAccess (offset : Nat) (width : Width) : Option (Reg × Nat) :=
  (allRegs.find? (fun r => regOffset r ≤ offset && offset + widthBytes width ≤ regOffset r + 4)).map (fun r => (r, offset - regOffset r))

/-- R151: the commands that one 32-bit write of CONTROL delivers, in order. -/
def controlWrite (v : Word) : List Instr :=
  if v.getLsbD 2 then [.engineReset]
  else (if v.getLsbD 0 then .runWritten1 else .runWritten0) :: (if v.getLsbD 1 then [.scan] else [])

/-- R150: the commands that one write to a register stands for. -/
def registerWrite (reg : Reg) (width : Width) (v : Word) : List Instr :=
  match width with
  | .byte | .half => [.registerWriteIgnored reg width v]
  | .word =>
    match reg with
    | .ident | .status => [.registerWriteIgnored reg width v]
    | .control => controlWrite v
    | .pageLo => [.pageWrite .lo v]
    | .pageHi => [.pageWrite .hi v]
    | .intrStatus => [.intrStatusWrite v]
    | .intrEnable => [.intrEnableWrite v]
    | .intrHoldoff => [.intrHoldoffWrite v]

/-- R150: the commands that one write at an offset of the window stands for. -/
def windowWrite (offset : Nat) (width : Width) (v : Word) : List Instr :=
  match registerAccess offset width with
  | some (r, _) => registerWrite r width v
  | none => []

end Sys2Proof.Machine
end

