-- ==== Sys2Proof/Machine/Formats.lean ====
section
/-! DEFINITION. What the part writes and sends, byte by byte: the part half, the port status block, the result slot (R157 to R159), the frames and replies (R160), the two CRCs (R161), and the occupancy of an exchange (R45, R65, R66). -/

namespace Sys2Proof.Machine

open Sys2Proof

/-! ### Little-endian fields (00_scope.md 7.4) -/

/-- A 16-bit field, least significant byte first. -/
def le2 (x : BitVec 16) : List Byte := [x.extractLsb' 0 8, x.extractLsb' 8 8]

/-- A 32-bit field, least significant byte first. -/
def le4 (x : Word) : List Byte := [x.extractLsb' 0 8, x.extractLsb' 8 8, x.extractLsb' 16 8, x.extractLsb' 24 8]

/-- A 64-bit field, least significant byte first. -/
def le8 (x : BitVec 64) : List Byte := le4 (x.extractLsb' 0 32) ++ le4 (x.extractLsb' 32 32)

/-- A natural number as a 32-bit field. -/
def le4Nat (n : Nat) : List Byte := le4 (BitVec.ofNat 32 n)

/-- `n` zero bytes. -/
def zeros (n : Nat) : List Byte := List.replicate n 0

/-- A flag as bit `i` of a byte. -/
def flagBit (b : Bool) (i : Nat) : Byte := if b then (1 : Byte) <<< i else 0

/-! ### Encodings (R157, R158, R159, 10.1) -/

/-- R159: the outcome codes. -/
def OutcomeCode.byte : OutcomeCode → Byte
  | .ok => 1 | .rejected => 2 | .timeout => 3 | .silent => 4 | .corrupt => 5 | .lineError => 6 | .noTag => 7 | .nodeLost => 8
  | .portStopped => 9 | .skipOverlap => 10 | .skipNoTag => 11 | .skipNodeLimit => 12 | .sourceLate => 13 | .sourceFault => 14
  | .cancelled => 15

/-- R158: the stream request result codes. -/
def StreamResult.byte : StreamResult → Byte
  | .none => 0 | .accepted => 1 | .noChange => 2 | .badAction => 3 | .badKind => 4 | .badPort => 5 | .badNode => 6
  | .badOperation => 7 | .badLength => 8 | .badInterval => 9 | .badPhase => 10 | .badWindow => 11 | .badSource => 12
  | .portBudget => 13 | .memoryBudget => 14 | .tooLarge => 15 | .notOpen => 16 | .alreadyOpen => 17 | .wrongKind => 18
  | .busy => 19 | .held => 20 | .paused => 21 | .queueFull => 22 | .entryFault => 23

/-- R157: the port request result codes. -/
def PortResult.byte : PortResult → Byte
  | .none => 0 | .accepted => 1 | .noChange => 2 | .badAction => 3 | .badConfig => 4 | .streamsAdmitted => 5 | .wrongState => 6
  | .entryFault => 7

/-- R158: STATE of a stream. -/
def StreamState.byte : StreamState → Byte
  | .closed => 0 | .opening => 1 | .isOpen => 2 | .closing => 3

/-- R158: ONESHOT_STATE. -/
def OneShot.byte : OneShot → Byte
  | .idle => 0 | .queued => 1 | .inFlight => 2

/-- R157, 10.1: the port states. -/
def PortState.byte : PortState → Byte
  | .disabled => 0 | .syncing => 1 | .running => 2 | .stopping => 3 | .faulted => 4

/-- R157: FAULT_REASON. -/
def PortFault.byte : PortFault → Byte
  | .none => 0 | .startEcho => 1

/-- R157: LAST_NODE_STATE. -/
def NodeState.byte : NodeState → Byte
  | .unknown => 0 | .present => 1 | .lost => 2

/-- R157, 10.1: the fault codes. -/
def FaultCode.code : FaultCode → Nat
  | .none => 0 | .controlRead => 1 | .contextParity => 2

/-- 10.1: the engine states. -/
def EngineState.code : EngineState → Nat
  | .stopped => 0 | .starting => 1 | .running => 2 | .stopping => 3 | .halted => 4

/-- 10.1: the start results. -/
def StartResult.code : StartResult → Nat
  | .none => 0 | .started => 1 | .pageUnset => 2 | .headerBad => 3 | .headerFault => 4 | .startOverBudget => 5

/-- At least one hold reason is in force (HELD, 01_streams.md 1.2). -/
def Holds.any (h : Holds) : Bool := h.portNotRunning || h.nodeLost || h.memoryFault

/-- R158: HOLD_REASON. -/
def Holds.byte (h : Holds) : Byte := flagBit h.portNotRunning 0 ||| flagBit h.nodeLost 1 ||| flagBit h.memoryFault 2

/-! ### Memory structures -/

/-- R158: the part half of a stream, bytes 0x40 to 0x7F of its entry. -/
def partHalf (c : Ctx) : List Byte :=
  [c.state.byte, flagBit c.paused 0 ||| flagBit c.holds.any 1 ||| flagBit c.consumedInvalid 2, c.holds.byte, c.oneShot.byte,
   c.result.byte, c.resultReq, c.phase, (match c.lastOutcome with | none => 0 | some o => o.byte)] ++
  le2 (BitVec.ofNat 16 c.cost) ++ zeros 2 ++ le4Nat c.memCost ++
  le4 c.counters.occurrences ++ le4 c.counters.misses ++ le4 c.counters.overruns ++ le4 c.counters.timeouts ++
  le4 c.counters.retriesUsed ++ zeros 28

/-- The node table entry of address `a`; an address outside 1 to 62 has none and reads as after a reset. -/
def Port.node (p : Port) (a : Byte) : Node :=
  match nodeIx? a with
  | some i => p.nodes.get i
  | none => Node.reset

/-- R105: one bit per node address whose entry is in state `st`; bits 0 and 63 are 0. -/
def Port.mask (p : Port) (st : NodeState) : BitVec 64 :=
  allNodes.foldl (fun m a => if (p.node a).state = st then m ||| ((1 : BitVec 64) <<< a.toNat) else m) 0

/-- R105, R157: the port status block, 64 bytes. -/
def statusBlock (p : Port) : List Byte :=
  [p.state.byte, p.faultReason.byte, p.result.byte, p.resultReq] ++ le4 p.cycle ++
  le8 (p.mask .present) ++ le8 (p.mask .lost) ++
  [p.change.node, p.change.state.byte, BitVec.ofNat 8 p.change.corrupt, 0] ++ le4 p.change.heard ++
  le4 p.corruptCount ++ le4 p.lineErrors ++ le4 p.silentCount ++ le4Nat p.lastPeriodic ++ le4Nat p.lastAperiodic ++ zeros 12

/-- R109, R159: the bytes of the slot for outcome `o` with sequence number `q`: the header, and for an OK outcome with IN_LEN > 0
the payload area. -/
def slotBytes (c : Ctx) (o : Outcome) (lapped : Bool) : List Byte :=
  let inLen := c.params.inLen.toNat
  let withPayload := o.code = .ok ∧ 0 < inLen
  le4 c.produced ++ le4 o.issue ++ le4 o.done ++
  [o.code.byte, o.nodeCode, flagBit c.lossMark 0 ||| flagBit lapped 1, if withPayload then c.params.inLen else 0] ++
  (if withPayload then o.payload ++ zeros (roundUp16 inLen - o.payload.length) else [])

/-- R109: the address of the slot for the stream's next sequence number. -/
def slotAddr (c : Ctx) : Addr :=
  c.params.windowBase + BitVec.ofNat 64 (c.produced.toNat % c.params.slotCount.toNat * c.params.slotSize)

/-! ### CRC (R161) -/

/-- One bit of the CRC-16: polynomial 0x1021, most significant bit first. -/
def crc16Bit (c : BitVec 16) : BitVec 16 := if c.getLsbD 15 then (c <<< 1) ^^^ 0x1021 else c <<< 1

/-- One byte of the CRC-16. -/
def crc16Byte (c : BitVec 16) (b : Byte) : BitVec 16 :=
  crc16Bit (crc16Bit (crc16Bit (crc16Bit (crc16Bit (crc16Bit (crc16Bit (crc16Bit (c ^^^ (b.setWidth 16 <<< 8)))))))))

/-- R161: the CRC-16 of a run of bytes. -/
def crc16 (bytes : List Byte) : BitVec 16 := bytes.foldl crc16Byte 0xFFFF

/-- One bit of the CRC-32 in its reflected form: polynomial 0x04C11DB7, least significant bit first. -/
def crc32Bit (c : Word) : Word := if c.getLsbD 0 then (c >>> 1) ^^^ 0xEDB88320 else c >>> 1

/-- One byte of the CRC-32. -/
def crc32Byte (c : Word) (b : Byte) : Word :=
  crc32Bit (crc32Bit (crc32Bit (crc32Bit (crc32Bit (crc32Bit (crc32Bit (crc32Bit (c ^^^ b.setWidth 32))))))))

/-- R161: the CRC-32 of a run of bytes. -/
def crc32 (bytes : List Byte) : Word := bytes.foldl crc32Byte 0xFFFFFFFF ^^^ 0xFFFFFFFF

/-! ### Frames sent (R63, R99, R160) -/

/-- A frame: its bytes, then their CRC-16, least significant byte first. -/
def withCrc (bytes : List Byte) : List Byte := bytes ++ le2 (crc16 bytes)

/-- R160: the tag byte: tag number in bits 4:0, epoch in bits 6:5. -/
def tagByte (t : TagId) (epoch : BitVec 2) : Byte := BitVec.ofNat 8 t.val ||| (epoch.setWidth 8 <<< 5)

/-- R99, R160: the START frame of a cycle. -/
def startFrame (cycle : Word) (k : Byte) : List Byte := withCrc ([0x01, 0] ++ le4 cycle ++ [k, 0, 0, 0])

/-- R63, R160: the REQUEST frame of a stream under a tag. -/
def requestFrame (q : Params) (t : TagId) (epoch : BitVec 2) (payload : List Byte) : List Byte :=
  withCrc ([0x02, q.node, tagByte t epoch, q.operation] ++ le2 q.item ++ [q.outLen, q.inLen] ++ payload)

/-- R63, R160: the FETCH frame for a tag. -/
def fetchFrame (node : Byte) (t : TagId) (epoch : BitVec 2) : List Byte :=
  withCrc [0x03, node, tagByte t epoch, 0, 0, 0, 0, 0]

/-- R63, R160: the PROBE frame for a node. -/
def probeFrame (node : Byte) : List Byte := withCrc [0x04, node, 0, 0, 0, 0, 0, 0]

/-- R63: SEGn_DE `elapsed` line units after the first byte of the item on the line: active for the whole of the frame (log 19). -/
def Line.driverEnable (l : Line) (elapsed : Nat) : Bool :=
  match l with
  | .idle => false
  | .start f | .request _ _ f | .fetch _ f | .probe _ f => elapsed < f.length

/-! ### Replies (R45, R65, R66, R160) -/

/-- The three frames that have a reply window. -/
inductive FrameKind where
  | request | fetch | probe
  deriving DecidableEq, Repr

/-- A good reply. -/
inductive Reply where
  | done (data : List Byte)
  | defer (hint : Byte)
  | reject (code : Byte)
  | pending (hint : Byte)
  | noTag
  | present
  deriving DecidableEq, Repr

/-- How an exchange ends (R67). -/
inductive Ending where
  | mismatch
  | silent
  | corrupt
  | good (r : Reply)
  deriving DecidableEq, Repr

/-- R45, R65: the occupancy of an exchange of frame length `frame` and item cost `cost`. A reply is received to the end of its
declared length or until the occupancy reaches the cost (log 10). -/
def occupancy (frame cost : Nat) (heard : Heard) : Nat :=
  match heard with
  | .silence => frame + 9
  | .reply bytes =>
    match bytes[3]? with
    | none => cost
    | some d => min cost (frame + 6 + (8 + d.toNat))

/-- R65, R66 check 1 (length): the reply as received, if it was heard to its declared length within the item's cost. -/
def wholeReply (frame cost : Nat) (bytes : List Byte) : Option (List Byte) :=
  match bytes[3]? with
  | none => none
  | some d =>
    if 8 + d.toNat ≤ bytes.length ∧ frame + 6 + (8 + d.toNat) ≤ cost then some (bytes.take (8 + d.toNat)) else none

/-- R66 checks 1 to 5 on a whole reply: the CRC, the node address, the tag byte (not for a PROBE), the kind and the body. -/
def parseReply (kind : FrameKind) (node tag : Byte) (inLen : Nat) (r : List Byte) : Option Reply :=
  let covered := r.take (r.length - 2)
  let body := covered.drop 6
  let first := body.headD 0
  if r.drop (r.length - 2) ≠ le2 (crc16 covered) then none
  else if r[1]? ≠ some node then none
  else if kind ≠ .probe ∧ r[2]? ≠ some tag then none
  else match r[0]? with
    | none => none
    | some ty =>
      if ty = 0x81 then
        if kind ≠ .probe ∧ body.length = inLen then some (.done body) else none
      else if ty = 0x82 then
        if kind = .request ∧ body.length = 1 ∧ 1 ≤ first.toNat ∧ first.toNat ≤ 15 then some (.defer first) else none
      else if ty = 0x83 then
        if kind ≠ .probe ∧ body.length = 1 ∧ first ≠ 0 then some (.reject first) else none
      else if ty = 0x84 then
        if kind = .fetch ∧ body.length = 1 ∧ 1 ≤ first.toNat ∧ first.toNat ≤ 15 then some (.pending first) else none
      else if ty = 0x85 then
        if kind = .fetch ∧ body.length = 1 then some .noTag else none
      else if ty = 0x86 then
        if kind = .probe ∧ body.length = 1 then some .present else none
      else none

/-- R64 to R66: how an exchange ends, from the frame sent, the bytes heard while it was sent and what was heard after it. -/
def ending (kind : FrameKind) (frame echo : List Byte) (node tag : Byte) (inLen cost : Nat) (heard : Heard) : Ending :=
  if echo ≠ frame then .mismatch
  else match heard with
    | .silence => .silent
    | .reply bytes =>
      match (wholeReply frame.length cost bytes).bind (parseReply kind node tag inLen) with
      | none => .corrupt
      | some r => .good r

end Sys2Proof.Machine
end

