-- ==== Sys2Proof/Machine/Flags.lean ====
section
/-! DEFINITION. The flags the part computes: what the registers read (R150 to R153), the interrupt condition and how an event signals (R154 to R156), the scheduling gate and the eligibility of a stream (R12, R19). -/

namespace Sys2Proof.Machine

open Sys2Proof

/-! ### Register reads -/

/-- R140, R151: RUN reads 1 while the engine is STARTING or RUNNING. -/
def EngineCtl.run (e : EngineCtl) : Bool := e.state = .starting || e.state = .running

/-- R152: STATUS, with the port states in their fields. -/
def statusReg (e : EngineCtl) (ports : Vector Port 4) : Word :=
  BitVec.ofNat 32 (e.state.code + e.fault.code * 2 ^ 4 + e.startResult.code * 2 ^ 8 +
    (ports.get 0).state.byte.toNat * 2 ^ 12 + (ports.get 1).state.byte.toNat * 2 ^ 16 +
    (ports.get 2).state.byte.toNat * 2 ^ 20 + (ports.get 3).state.byte.toNat * 2 ^ 24)

/-- R150: what a 32-bit read of a register returns. -/
def readReg (s : State) : Reg → Word
  | .ident => Config.ident
  | .control => if s.engine.run then 1 else 0
  | .status => statusReg s.engine s.ports
  | .pageLo => s.engine.pageLo
  | .pageHi => s.engine.pageHi
  | .intrStatus => s.intr.status.setWidth 32
  | .intrEnable => s.intr.enable.setWidth 32
  | .intrHoldoff => s.intr.holdoff.setWidth 32

/-- R150: a read of one byte of a register returns the addressed byte. -/
def readRegByte (s : State) (r : Reg) (i : Fin 4) : Byte := byteAt (readReg s r) i.val

/-- R150: a 16-bit read of a register returns its addressed half. -/
def readRegHalf (s : State) (r : Reg) (i : Fin 2) : BitVec 16 := (readReg s r).extractLsb' (16 * i.val) 16

/-- R150: what a read at an offset of the window returns: the addressed bytes of the register, the lowest first. -/
def windowRead (s : State) (offset : Nat) (width : Width) : Option (List Byte) :=
  (registerAccess offset width).map (fun x => (List.range (widthBytes width)).map (fun k => byteAt (readReg s x.1) (x.2 + k)))

/-- R164: a read at an offset of the window, made when the link has taken the first `taken` entries of the path: what is on the link ahead of
its completion, all of it issued before the read, and the bytes it returns (log 42). -/
def windowCompletion (s : State) (taken offset : Nat) (width : Width) : Option (List PathItem × List Byte) :=
  (windowRead s offset width).map (fun d => (s.smi.link ++ s.smi.path.take taken, d))

/-- R150: PAGE_LO keeps bits 31:12; bits 11:0 read 0. -/
def pageLoBits (v : Word) : Word := v &&& 0xFFFFF000

/-! ### Interrupts (R154 to R156) -/

/-- The STREAM bit. -/
def causeStream : BitVec 3 := 1

/-- The PORT bit. -/
def causePort : BitVec 3 := 2

/-- The ENGINE bit. -/
def causeEngine : BitVec 3 := 4

/-- 10.5: the interrupt condition holds while INTR_STATUS AND INTR_ENABLE is nonzero. -/
def IntrUnit.condition (u : IntrUnit) : Bool := (u.status &&& u.enable) ≠ 0

/-- R154: the causes of an event set their bits; in MSI mode an enabled bit that is set also sets the message-pending flag (R155),
whether or not the bit was set before. -/
def IntrUnit.raise (u : IntrUnit) (causes : BitVec 3) : IntrUnit :=
  { u with
    status := u.status ||| causes
    msgPending := u.msgPending || (u.msiEnable && (causes &&& u.enable) ≠ 0) }

/-- R155: an INTR_STATUS or INTR_ENABLE write after which the condition holds sets the message-pending flag (in MSI mode). -/
def IntrUnit.repend (u : IntrUnit) : IntrUnit :=
  { u with msgPending := u.msgPending || (u.msiEnable && u.condition) }

/-- R155: an MSI is sent at the end of the event: a message is pending, the condition holds and the holdoff timer is stopped. -/
def IntrUnit.sends (u : IntrUnit) : Bool := u.msiEnable && u.msgPending && u.condition && u.timer.isNone

/-- R155, R156: the Interrupt Unit at the end of an event. In MSI mode the line is deasserted, the pending flag is cleared where the
condition does not hold, and sending clears the flag and starts the timer if INTR_HOLDOFF is nonzero. In INTx mode the line follows
the condition and the disable bit, and the flag and the timer take no part (log 14). -/
def IntrUnit.settle (u : IntrUnit) : IntrUnit :=
  if u.msiEnable then
    if u.sends then
      { u with intxLine := false, msgPending := false, timer := if u.holdoff = 0 then none else some u.holdoff }
    else { u with intxLine := false, msgPending := u.msgPending && u.condition }
  else { u with intxLine := u.condition && !u.intxDisable }

/-- R148, R156: what an engine reset leaves of the Interrupt Unit. -/
def IntrUnit.engineReset (u : IntrUnit) : IntrUnit :=
  { u with status := 0, timer := none, msgPending := false, intxLine := false }

/-! ### Streams -/

/-- R19: the scheduling gate: the stream is OPEN, not paused, and no hold reason is in force. -/
def Ctx.gate (c : Ctx) : Bool := c.state = .isOpen && !c.paused && !c.holds.any

/-- A stream that is OPEN or CLOSING. -/
def Ctx.live (c : Ctx) : Bool := c.state = .isOpen || c.state = .closing

/-- R10: nothing outstanding keeps a close waiting. -/
def Ctx.nothingOutstanding (c : Ctx) : Bool :=
  c.tagRef.isNone && !c.sourceOutstanding && !c.refreshOutstanding && !c.closeOutcome

/-- R114: the fill of the window by the cached consumed count. -/
def Ctx.fill (c : Ctx) : Nat := (c.produced - c.cached).toNat

/-- R114: there is room by the cached count. -/
def Ctx.hasRoom (c : Ctx) : Bool := c.fill < c.params.slotCount.toNat

/-- R121: an OK outcome of an ON_CHANGE stream whose payload has the CRC-32 of the last one written is suppressed. -/
def Ctx.suppresses (c : Ctx) (o : Outcome) : Bool :=
  c.params.onChange && o.code = .ok && c.signature = some (crc32 o.payload)

/-- R25: the counters and the last outcome when an outcome is finished with; `lost` when it is lost for want of room or under R18.
The one-shot state becomes IDLE (R21). -/
def Ctx.finished (c : Ctx) (o : Outcome) (lost : Bool) : Ctx :=
  { c with
    counters := { c.counters with
      occurrences := c.counters.occurrences + 1
      misses := if o.code = .ok then c.counters.misses else c.counters.misses + 1
      timeouts := if o.code = .timeout then c.counters.timeouts + 1 else c.counters.timeouts
      overruns := if lost then c.counters.overruns + 1 else c.counters.overruns }
    lastOutcome := some o.code
    oneShot := .idle }

/-- R115: the value read is valid under the stream's overflow policy. -/
def Ctx.consumedValid (c : Ctx) (v : Word) : Bool :=
  if c.params.overwrite then (c.produced - v).toNat < 2 ^ 31 else (c.produced - v).toNat ≤ c.params.slotCount.toNat

/-- R115, R116: the context after a refresh with value `v`: the flag is cleared; a valid value becomes the cached count and clears the
consumed-invalid flag, an invalid one sets it. -/
def Ctx.refreshed (c : Ctx) (v : Word) : Ctx :=
  if c.consumedValid v then { c with refreshOutstanding := false, cached := v, consumedInvalid := false }
  else { c with refreshOutstanding := false, consumedInvalid := true }

end Sys2Proof.Machine
end

