-- ==== Sys2Proof/Machine/Ops.lean ====
section
/-! DEFINITION. The shared operations: accessors of the state, the event under way (R112), reads and writes of the System Memory Interface (R128, R129), the engine halt (R146) and the resets (R148). -/

namespace Sys2Proof.Machine

open Sys2Proof

/-! ### Accessors -/

/-- The context of stream `i`. -/
def State.ctx (s : State) (i : StreamId) : Ctx := s.ctxs.get i

/-- Port `p`. -/
def State.port (s : State) (p : PortId) : Port := s.ports.get p

/-- The budget table of port `p`. -/
def State.budget (s : State) (p : PortId) : Budget := s.adm.budgets.get p

/-- The state with another context for stream `i`. -/
def State.setCtx (s : State) (i : StreamId) (c : Ctx) : State := { s with ctxs := s.ctxs.set i.val c }

/-- The state with another port `p`. -/
def State.setPort (s : State) (p : PortId) (x : Port) : State := { s with ports := s.ports.set p.val x }

/-- The state with another budget table for port `p`. -/
def State.setBudget (s : State) (p : PortId) (b : Budget) : State :=
  { s with adm := { s.adm with budgets := s.adm.budgets.set p.val b } }

/-- A table with `f` applied at every index. -/
def tableMap {α : Type} {n : Nat} (v : Vector α n) (f : Nat → α → α) : Vector α n :=
  ⟨(v.toList.mapIdx f).toArray, by simp⟩

/-- The port with another entry for the node of address `a`; an address outside 1 to 62 has none. -/
def Port.setNode (p : Port) (a : Byte) (n : Node) : Port :=
  match nodeIx? a with
  | some i => { p with nodes := p.nodes.set i.val n }
  | none => p

/-- Tag `t` of a port. -/
def Port.tag (p : Port) (t : TagId) : Tag := p.tags.get t

/-- The port with another entry for tag `t`. -/
def Port.setTag (p : Port) (t : TagId) (g : Tag) : Port := { p with tags := p.tags.set t.val g }

/-! ### The System Memory Interface -/

/-- R128: waiting reads are issued, in the order they were asked, while the tracker has room. -/
def Smi.fill (m : Smi) : Smi :=
  let room := Config.trackerSize - m.inFlight.length
  { m with inFlight := m.inFlight ++ m.waiting.take room, waiting := m.waiting.drop room }

/-- R128: a read is asked: it waits behind the reads asked before it and is issued when the tracker has room. -/
def Smi.ask (m : Smi) (what : ReadFor) (addr : Addr) (len : Nat) : Smi :=
  Smi.fill { m with
    waiting := m.waiting ++ [{ rid := m.nextRid, what := what, addr := addr, len := len }]
    nextRid := m.nextRid + 1 }

/-- R128: the read numbered `rid` leaves the tracker, and a waiting read takes its entry. So it does where the same event then halts the
engine: the model's choice (log 39). -/
def Smi.complete (m : Smi) (rid : Nat) : Smi :=
  Smi.fill { m with inFlight := m.inFlight.filter (fun r => r.rid ≠ rid) }

/-- The read numbered `rid`, if it is in flight. -/
def Smi.flying (m : Smi) (rid : Nat) : Option Read := m.inFlight.find? (fun r => r.rid = rid)

/-- The read for `what`, if it is in flight. -/
def Smi.flyingFor (m : Smi) (what : ReadFor) : Option Read := m.inFlight.find? (fun r => r.what = what)

/-- A read for a source area of stream `s` (R51). -/
def ReadFor.sourceOf (w : ReadFor) (s : StreamId) : Bool :=
  match w with
  | .selector s' _ | .half s' _ _ => s' = s
  | _ => false

/-- Some source read of stream `s` is in flight or waiting (log 9). -/
def Smi.readsSource (m : Smi) (s : StreamId) : Bool :=
  m.inFlight.any (fun r => r.what.sourceOf s) || m.waiting.any (fun r => r.what.sourceOf s)

/-- R129: a drop of the writes not yet issued on the link. The link has taken the first `k` entries of the path (log 6). -/
def Smi.dropWrites (m : Smi) (k : Nat) : Smi := { m with link := m.link ++ m.path.take k, path := [] }

/-- R129: items are received by the posted-write path in order. -/
def Smi.post (m : Smi) (items : List PathItem) : Smi := { m with path := m.path ++ items }

/-- A message of the path. -/
def PathItem.isMsi : PathItem → Bool
  | .msi => true
  | .write _ _ => false

/-- R129: every write of the path is on the link, with the messages ahead of it; when a message behind the last write leaves the path is open
(log 6). -/
def Smi.issueWrites (m : Smi) : Smi :=
  { m with
    link := m.link ++ (m.path.reverse.dropWhile PathItem.isMsi).reverse
    path := (m.path.reverse.takeWhile PathItem.isMsi).reverse }

/-! ### Addresses in the control page (R126, R157, R158) -/

/-- R126: the address at an offset of the control page, at the page base in use. Where the sum passes the top of the 64-bit address space
the spec names no address; that it wraps modulo 2^64 is the model's choice (log 37). -/
def State.page (s : State) (offset : Nat) : Addr := s.engine.pageBase + BitVec.ofNat 64 offset

/-- R158: the write of the part half of stream `i`. -/
def State.partHalfWrite (s : State) (i : StreamId) : PathItem :=
  .write (s.page (Config.streamOffset + 128 * i.val + 0x40)) (partHalf (s.ctx i))

/-- R157: the write of the status block of port `p`. -/
def State.statusWrite (s : State) (p : PortId) : PathItem :=
  .write (s.page (Config.portStatusOffset + 64 * p.val)) (statusBlock (s.port p))

/-- The write of ACK[i]. -/
def State.ackWrite (s : State) (i : ReqIx) (v : Byte) : PathItem := .write (s.page (Config.ackOffset + i.val)) [v]

/-- The write of PRODUCED[i]. -/
def State.producedWrite (s : State) (i : StreamId) (v : Word) : PathItem :=
  .write (s.page (Config.producedOffset + 4 * i.val)) (le4 v)

/-- R157: the update count, one 4-byte write. -/
def State.updateCountWrite (s : State) (v : Word) : PathItem := .write (s.page Config.updateCountOffset) (le4 v)

/-- R157: the fault record, one 8-byte write. -/
def State.faultWrite (s : State) (code : FaultCode) (detail : Word) : PathItem :=
  .write (s.page Config.faultOffset) (le4Nat code.code ++ le4 detail)

/-! ### The event under way -/

/-- An event under way: the machine as changed so far, and what R112 sends out at its end: the slot and PRODUCED writes in the order
made, the streams whose part half is rewritten in the order first changed, the ports whose status block is rewritten, and the
acknowledges; the causes raised; and whether the event has halted the engine. -/
structure Ev where
  m : State
  slots : List PathItem
  dirty : List StreamId
  blocks : List PortId
  acks : List (ReqIx × Byte)
  causes : BitVec 3
  halted : Bool

/-- The start of an event. -/
def Ev.start (s : State) : Ev :=
  { m := s, slots := [], dirty := [], blocks := [], acks := [], causes := 0, halted := false }

/-- The next part of an event. Where the event has halted the engine it is not carried further (R4, R146). -/
def Ev.andThen (e : Ev) (f : Ev → Ev) : Ev := if e.halted then e else f e

/-- A part of an event made only under a condition. -/
def Ev.onlyIf (e : Ev) (b : Bool) (f : Ev → Ev) : Ev := if b then e.andThen f else e

/-- A part of an event made for each member of a list, in order. -/
def Ev.forEach {α : Type} (e : Ev) (xs : List α) (f : α → Ev → Ev) : Ev :=
  match xs with
  | [] => e
  | x :: rest => (e.andThen (f x)).forEach rest f

/-- The context of stream `i` as the event has left it. -/
def Ev.ctx (e : Ev) (i : StreamId) : Ctx := e.m.ctx i

/-- Port `p` as the event has left it. -/
def Ev.port (e : Ev) (p : PortId) : Port := e.m.port p

/-- Change the context of stream `i`. -/
def Ev.modCtx (e : Ev) (i : StreamId) (f : Ctx → Ctx) : Ev := { e with m := e.m.setCtx i (f (e.m.ctx i)) }

/-- Change port `p`. -/
def Ev.modPort (e : Ev) (p : PortId) (f : Port → Port) : Ev := { e with m := e.m.setPort p (f (e.m.port p)) }

/-- Change the budget table of port `p`. -/
def Ev.modBudget (e : Ev) (p : PortId) (f : Budget → Budget) : Ev :=
  { e with m := e.m.setBudget p (f (e.m.budget p)) }

/-- Change the memory load total. -/
def Ev.modMemLoad (e : Ev) (f : Nat → Nat) : Ev :=
  { e with m := { e.m with adm := { e.m.adm with memLoad := f e.m.adm.memLoad } } }

/-- Change the scanner. -/
def Ev.modScanner (e : Ev) (f : Scanner → Scanner) : Ev := { e with m := { e.m with scanner := f e.m.scanner } }

/-- Change Engine Control. -/
def Ev.modEngine (e : Ev) (f : EngineCtl → EngineCtl) : Ev := { e with m := { e.m with engine := f e.m.engine } }

/-- Change the Result Writer's lists. -/
def Ev.modWriter (e : Ev) (f : Writer → Writer) : Ev := { e with m := { e.m with writer := f e.m.writer } }

/-- Change the System Memory Interface. -/
def Ev.modSmi (e : Ev) (f : Smi → Smi) : Ev := { e with m := { e.m with smi := f e.m.smi } }

/-- R2: the part half of stream `i` is rewritten in this event, once. -/
def Ev.touch (e : Ev) (i : StreamId) : Ev := if i ∈ e.dirty then e else { e with dirty := e.dirty ++ [i] }

/-- Change the context of stream `i` and publish it (R2). -/
def Ev.publish (e : Ev) (i : StreamId) (f : Ctx → Ctx) : Ev := (e.modCtx i f).touch i

/-- R106: the status block of port `p` is rewritten in this event, once. -/
def Ev.block (e : Ev) (p : PortId) : Ev := if p ∈ e.blocks then e else { e with blocks := e.blocks ++ [p] }

/-- R154: causes raised by the event. -/
def Ev.cause (e : Ev) (c : BitVec 3) : Ev := { e with causes := e.causes ||| c }

/-- R106: the status block of port `p` is rewritten, and the PORT cause is raised. -/
def Ev.report (e : Ev) (p : PortId) : Ev := (e.block p).cause causePort

/-- R130, R154: ACK[i] := v, the copy set with it, and the cause of its owner: STREAM for a stream index, PORT for a port index. R112 step 4
speaks of one acknowledge; where one event completes several closes, the order of their ACK writes, the order in which the closes complete,
is the model's choice (log 36). -/
def Ev.ack (e : Ev) (i : ReqIx) (v : Byte) : Ev :=
  { e.modScanner (fun sc => { sc with ackCopy := sc.ackCopy.set i.val v }) with
    acks := e.acks ++ [(i, v)]
    causes := e.causes ||| (if i.val < 256 then causeStream else causePort) }

/-- R128: a read is asked of the SMI. -/
def Ev.ask (e : Ev) (what : ReadFor) (addr : Addr) (len : Nat) : Ev := e.modSmi (fun m => m.ask what addr len)

/-- R112: the writes of the event, in their order, without the update count. -/
def Ev.writes (e : Ev) : List PathItem :=
  e.slots ++ e.dirty.map e.m.partHalfWrite ++ e.blocks.map e.m.statusWrite ++ e.acks.map (fun a => e.m.ackWrite a.1 a.2)

/-- R155, R156: the Interrupt Unit, left as `u` by an event, signals at the end of the event, after the event's writes on the path. -/
def State.signal (s : State) (u : IntrUnit) : State :=
  { s with intr := u.settle, smi := if u.sends then s.smi.post [.msi] else s.smi }

/-- R164: the engine issues no memory access while it is STOPPED, so an event that leaves it STOPPED leaves no write to issue (log 41). -/
def State.issued (s : State) : State := if s.engine.state = .stopped then { s with smi := s.smi.issueWrites } else s

/-- R112, R136: the end of an event: its writes go to the posted-write path in order, followed, if there are any, by one increment of
UPDATE_COUNT; where the engine is STOPPED they are issued (R164); then the causes are raised and signalled. -/
def Ev.finish (e : Ev) : State :=
  let m :=
    if e.writes = [] then e.m
    else { e.m with
      updateCount := e.m.updateCount + 1
      smi := e.m.smi.post (e.writes ++ [e.m.updateCountWrite (e.m.updateCount + 1)]) }
  m.issued.signal (m.intr.raise e.causes)

/-! ### The engine halt -/

/-- R108: a port at the engine halt drops to DISABLED; its exchange is abandoned; the rest stays frozen. -/
def Port.halted (p : Port) : Port := { p with state := .disabled, cycleTimer := false, line := .idle }

/-- R146: the engine enters HALTED. The fault is recorded; ports drop to DISABLED; the scanner abandons its scan and take; writes not issued
and reads waiting are dropped (log 6, log 12); the one header write is issued; the ENGINE cause is raised. The reads dropped are those still
waiting when the halt comes: a read that took the tracker entry freed by the completion that halts stays in flight (log 39). -/
def Ev.halt (e : Ev) (code : FaultCode) (detail : Word) : Ev :=
  let smi := (e.m.smi.dropWrites (Config.linkTaken e.m.free)).post [e.m.faultWrite code detail]
  { m := { e.m with
      engine := { e.m.engine with state := .halted, fault := code, detail := detail }
      ports := tableMap e.m.ports (fun _ p => p.halted)
      scanner := { e.m.scanner with timer := false, scan := none, take := none }
      smi := { smi with waiting := [] }
      free := e.m.free + 1 }
    slots := [], dirty := [], blocks := [], acks := [], causes := causeEngine, halted := true }

/-- R4: a context is read with its parity checked; on a parity error the engine halts and the operation is not carried further. -/
def Ev.withCtx (e : Ev) (i : StreamId) (f : Ctx → Ev → Ev) : Ev :=
  if (e.ctx i).parityOk then f (e.ctx i) e else e.halt .contextParity (BitVec.ofNat 32 i.val)

/-- R4: contexts are read, in order, for a decision that changes none of them. -/
def Ev.checkCtxs (is : List StreamId) (e : Ev) : Ev := e.forEach is (fun i e => e.withCtx i (fun _ e => e))

/-- One event of the part, from its start to its end. In HALTED no block takes events (R146, R147), so nothing changes. -/
def State.event (s : State) (f : Ev → Ev) : State := if s.engine.state = .halted then s else (f (Ev.start s)).finish

/-- An event that a command names only under a condition; a command that names no event of the present state changes nothing (log 1). -/
def State.eventIf (s : State) (b : Bool) (f : Ev → Ev) : State := if b then s.event f else s

/-- Every meaning answers a next state: the spec gives every command an effect in every state, if only none. -/
abbrev Answer := Host.Outcome State Fault Refusal

/-! ### Resets -/

/-- R148: all internal state of every block takes its reset value, and unissued writes are dropped (R129). The commands that wait, the
link record and the numbering of reads are the model's own and stay. -/
def State.clear (s : State) (engine : EngineCtl) (intr : IntrUnit) : State :=
  { State.reset with
    pending := s.pending
    engine := engine
    intr := intr
    smi := { Smi.reset with link := (s.smi.dropWrites (Config.linkTaken s.free)).link, nextRid := s.smi.nextRid }
    free := s.free + 1 }

/-- R148: a cold reset or a function reset. -/
def State.coldReset (s : State) : State := s.clear EngineCtl.reset IntrUnit.reset

/-- R148: an engine reset keeps PAGE_LO, PAGE_HI, INTR_ENABLE and INTR_HOLDOFF (and the PCIe configuration, which is not the
engine's). -/
def State.engineReset (s : State) : State :=
  s.clear { EngineCtl.reset with pageLo := s.engine.pageLo, pageHi := s.engine.pageHi } s.intr.engineReset

end Sys2Proof.Machine
end

