-- ==== Sys2Proof/Machine/Admission.lean ====
section
/-! DEFINITION. The Admission Unit: cycle figures (R28), the configuration check (R30), the admission of a periodic stream (R32 to R38), the one-shot size check (R40), the release (R41) and the start check of the memory cap (R36). -/

namespace Sys2Proof.Machine

open Sys2Proof

/-- R28: the cycle figures of cycle index `k` and CAP_PCT `pct`. -/
def cycleFigures (k pct : Nat) : Figures :=
  let units := 625 * 2 ^ k / 2
  let usable := units - 20
  let cap := usable * pct / 100
  { period := 125 * 2 ^ k, units := units, usable := usable, cap := cap, minAperiodic := usable - cap,
    oneShotLimit := usable - cap - 25 }

/-- R31: the load of bucket `b`. -/
def Budget.load (t : Budget) (b : Fin 64) : Nat := t.loads.get b

/-- The buckets a phase loads, ascending (R31). -/
def bucketsOf (n φ : Nat) : List (Fin 64) := ((List.range 64).map (Fin.ofNat 64)).filter (fun b => bucketMatches n φ b.val)

/-- R33: the largest current load among the buckets a phase loads. -/
def Budget.largestLoad (t : Budget) (n φ : Nat) : Nat := (bucketsOf n φ).foldl (fun m b => max m (t.load b)) 0

/-- R33: the phase chosen for ANY: the candidate whose largest load is smallest, the lowest among equals. -/
def Budget.choosePhase (t : Budget) (n : Nat) : Nat :=
  (List.range (2 ^ n)).foldl (fun best q => if t.largestLoad n q < t.largestLoad n best then q else best) 0

/-- R32 step 2: the phase of an admission: the one chosen for ANY, otherwise the one given. -/
def Budget.phaseFor (t : Budget) (q : Params) : Nat :=
  if q.phase = 0xFF then t.choosePhase q.interval.toNat else q.phase.toNat

/-- R34: every bucket the phase would load stays within the cap. -/
def Budget.fits (t : Budget) (n φ cost : Nat) : Bool := (bucketsOf n φ).all (fun b => t.load b + cost ≤ t.figures.cap)

/-- R37: the memory step: no limit for cap 0, otherwise the sum is at most the cap. -/
def memoryFits (memLoad : Nat) (memCap : Word) (cost : Nat) : Bool := memCap = 0 || memLoad + cost ≤ memCap.toNat

/-- R32: the admission of a periodic stream: the refusal, or the phase reserved. -/
def Admission.verdict (a : Admission) (t : Budget) (q : Params) : StreamResult ⊕ Nat :=
  let φ := t.phaseFor q
  if t.figures.cap < q.cost then .inl .tooLarge
  else if ¬ t.fits q.interval.toNat φ q.cost then .inl .portBudget
  else if ¬ memoryFits a.memLoad a.memCap (q.memCost t.cycleIndex.toNat) then .inl .memoryBudget
  else .inr φ

/-- R38: the reservation in the budget table. -/
def Budget.reserve (t : Budget) (n φ cost : Nat) : Budget :=
  { t with
    loads := tableMap t.loads (fun b l => if bucketMatches n φ b then l + cost else l)
    reservations := t.reservations + 1 }

/-- R41: the release in the budget table. -/
def Budget.release (t : Budget) (n φ cost : Nat) : Budget :=
  { t with
    loads := tableMap t.loads (fun b l => if bucketMatches n φ b then l - cost else l)
    reservations := t.reservations - 1 }

/-- R38: the reservation of an admitted stream with parameters `q` and phase `φ`. -/
def Ev.reserve (q : Params) (φ : Nat) (e : Ev) : Ev :=
  let memCost := q.memCost (e.m.budget q.portId).cycleIndex.toNat
  (e.modBudget q.portId (fun t => t.reserve q.interval.toNat φ q.cost)).modMemLoad (· + memCost)

/-- R41: the release of the reservation that the context of a periodic stream holds; a one-shot stream releases nothing. -/
def Ev.releaseBudget (c : Ctx) (e : Ev) : Ev :=
  if c.params.periodic then
    (e.modBudget c.params.portId (fun t => t.release c.params.interval.toNat c.phase.toNat c.cost)).modMemLoad (· - c.memCost)
  else e

/-- R30: the one-shot streams of port `p` that are OPEN, ascending. -/
def State.openOneShots (s : State) (p : PortId) : List StreamId :=
  allStreams.filter (fun i =>
    let c := s.ctx i
    c.state = .isOpen && c.params.oneShot && c.params.portId = p)

/-- R30, second bullet: some one-shot stream of port `p` that is OPEN costs more than `limit`. That these costs are read from the Stream
Context Store with their parity checked (R4) is the model's choice (log 11); the check is made at `State.costsRead`. -/
def State.openOneShotAbove (s : State) (p : PortId) (limit : Nat) : Bool :=
  (s.openOneShots p).any (fun i => limit < (s.ctx i).cost)

/-- R30: CYCLE_INDEX or CAP_PCT changes. -/
def Budget.changes (t : Budget) (k pct : Byte) : Bool := k ≠ t.cycleIndex || pct ≠ t.capPct

/-- R30: a change of CYCLE_INDEX or CAP_PCT is refused while streams are admitted under the old values. -/
def State.configureRefused (s : State) (p : PortId) (k pct : Byte) : Bool :=
  let t := s.budget p
  t.changes k pct && (0 < t.reservations || s.openOneShotAbove p (cycleFigures k.toNat pct.toNat).oneShotLimit)

/-- R30, R4: the streams whose costs a configuration of port `p` reads: its OPEN one-shot streams, where CYCLE_INDEX or CAP_PCT changes and
no reservation refuses the change already (log 11). -/
def State.costsRead (s : State) (p : PortId) (k pct : Byte) : List StreamId :=
  let t := s.budget p
  if t.changes k pct && t.reservations = 0 then s.openOneShots p else []

/-- R28, R30: the budget table after an accepted configuration; the same values leave the figures as they were. -/
def Budget.configured (t : Budget) (k pct : Byte) : Budget :=
  if k = t.cycleIndex ∧ pct = t.capPct then t
  else { t with cycleIndex := k, capPct := pct, figures := cycleFigures k.toNat pct.toNat }

/-- R36: a start with a nonzero cap below the memory load total is over budget. -/
def Admission.overBudget (a : Admission) (cap : Word) : Bool := cap ≠ 0 && cap.toNat < a.memLoad

end Sys2Proof.Machine
end

