-- ==== Sys2Proof/Machine/Writer.lean ====
section
/-! DEFINITION. The Result Writer: settling an outcome (R110 to R122), the closing stream's outcomes (R123), the end of a consumed refresh (R115 to R117), and the completion of a close (R12). -/

namespace Sys2Proof.Machine

open Sys2Proof

/-! ### Completion of a close -/

/-- R12 steps 2 and 3: the context of a stream whose close completes, with the close REQ. -/
def Ctx.closed (c : Ctx) (req : Byte) : Ctx :=
  { c with
    state := .closed
    paused := false
    holds := Holds.none
    oneShot := .idle
    sourceOutstanding := false
    refreshOutstanding := false
    closeOutcome := false
    result := .accepted
    resultReq := req
    closeReq := none }

/-- R12: the close of stream `i` completes: the reservation is released, the stream becomes CLOSED with ACCEPTED for the close REQ, the
part half is written, and the acknowledge. -/
def Ev.completeClose (i : StreamId) (e : Ev) : Ev :=
  let c := e.ctx i
  let req := c.closeReq.getD 0
  ((e.releaseBudget c).publish i (fun c => c.closed req)).ack (streamIx i) req

/-- R12: the close of a CLOSING stream completes when nothing is outstanding any more. -/
def Ev.tryClose (i : StreamId) (e : Ev) : Ev :=
  e.onlyIf ((e.ctx i).state = .closing && (e.ctx i).nothingOutstanding) (Ev.completeClose i)

/-! ### Settling an outcome -/

/-- R82: an outcome without a frame, in cycle `cyc`. -/
def Outcome.bare (i : StreamId) (code : OutcomeCode) (cyc : Word) : Outcome :=
  { stream := i, code := code, nodeCode := 0, issue := cyc, done := cyc, payload := [] }

/-- R111 steps 2 to 5: the context after an outcome has been written as a slot. -/
def Ctx.slotWritten (c : Ctx) (o : Outcome) : Ctx :=
  { c.finished o false with
    produced := c.produced + 1
    lossMark := false
    signature := if c.params.onChange && o.code = .ok then some (crc32 o.payload) else c.signature }

/-- R119, R122: the context after an outcome has been lost. -/
def Ctx.lost (c : Ctx) (o : Outcome) : Ctx := { c.finished o true with lossMark := true }

/-- R111: the slot of outcome `o` and the PRODUCED write that announces it. -/
def State.slotWrites (s : State) (o : Outcome) (lapped : Bool) : List PathItem :=
  let c := s.ctx o.stream
  [.write (slotAddr c) (slotBytes c o lapped), s.producedWrite o.stream (c.produced + 1)]

/-- R111: the outcome is written as a slot under the produced count; `lapped` when it is written under R120. -/
def Ev.writeSlot (o : Outcome) (lapped : Bool) (e : Ev) : Ev :=
  let c := e.ctx o.stream
  let e := { e with slots := e.slots ++ e.m.slotWrites o lapped }.publish o.stream (fun c => c.slotWritten o)
  if c.params.notify = 1 then e.cause causeStream else e

/-- R121: a suppressed outcome is finished with; no slot. -/
def Ev.suppress (o : Outcome) (e : Ev) : Ev := e.publish o.stream (fun c => c.finished o false)

/-- R119, R122: a lost outcome is finished with and counted, and the loss mark is set. -/
def Ev.lose (o : Outcome) (e : Ev) : Ev := e.publish o.stream (fun c => c.lost o)

/-- R119, R120: an outcome with no room is settled under the overflow policy. -/
def Ev.noRoom (o : Outcome) (e : Ev) : Ev :=
  if (e.ctx o.stream).params.overwrite then e.writeSlot o true else e.lose o

/-- R123: an outcome of a CLOSING stream is discarded; a one-shot stream is IDLE from the discard (R21). -/
def Ev.discard (o : Outcome) (e : Ev) : Ev := e.modCtx o.stream (fun c => { c with oneShot := .idle })

/-- R122: the outcome joins the pending outcome list at the back. -/
def Ev.wait (o : Outcome) (e : Ev) : Ev := e.modWriter (fun w => { w with outcomes := w.outcomes ++ [o] })

/-- R122: the pending outcome list is full. -/
def Writer.full (w : Writer) : Bool := Config.pendingOutcomes ≤ w.outcomes.length

/-- R114: a refresh of stream `i` is asked: a read of CONSUMED[i]. -/
def Ev.askRefresh (i : StreamId) (e : Ev) : Ev :=
  (e.ask (.refresh i) (e.m.page (Config.consumedOffset + 4 * i.val)) 4).modCtx i (fun c => { c with refreshOutstanding := true })

/-- Some outcome of stream `i` waits in the pending outcome list. -/
def Writer.waits (w : Writer) (i : StreamId) : Bool := w.outcomes.any (fun o => o.stream = i)

/-- R114: the room test of an outcome of an OPEN stream, where the cached count shows no room. With MEMORY_FAULT in force and the list full
two rows of R114's table hold, lost (R122) and no room (R118): the model takes R118's, by the reading of log 35. -/
def Ev.testFull (o : Outcome) (e : Ev) : Ev :=
  if (e.ctx o.stream).holds.memoryFault then e.noRoom o
  else if e.m.writer.full then e.lose o
  else (e.wait o).askRefresh o.stream

/-- R110: an outcome reaches the Result Writer. An outcome that finds its stream's refresh outstanding waits behind the others
(R114). -/
def Ev.deliver (o : Outcome) (e : Ev) : Ev :=
  e.withCtx o.stream fun c e =>
    if c.state = .closing then e.discard o
    else if e.m.writer.waits o.stream || c.refreshOutstanding then
      if e.m.writer.full then e.lose o else e.wait o
    else if c.suppresses o then e.suppress o
    else if c.hasRoom then e.writeSlot o false
    else e.testFull o

/-! ### The end of a refresh -/

/-- R115, R116: a waiting outcome is settled at the end of the refresh: the change test, then the room test by the cached count (where
the value read was valid), then the overflow policy. -/
def Ev.settleWaiting (valid : Bool) (o : Outcome) (e : Ev) : Ev :=
  let c := e.ctx o.stream
  if c.suppresses o then e.suppress o
  else if valid && c.hasRoom then e.writeSlot o false
  else e.noRoom o

/-- The waiting outcomes of stream `i` are taken out of the pending outcome list. -/
def Ev.takeWaiting (i : StreamId) (e : Ev) : Ev :=
  e.modWriter (fun w => { w with outcomes := w.outcomes.filter (fun o => o.stream ≠ i) })

/-- The waiting outcomes of stream `i`, oldest first. -/
def Writer.waiting (w : Writer) (i : StreamId) : List Outcome := w.outcomes.filter (fun o => o.stream = i)

/-- R115, R116: a refresh of an OPEN stream completes with value `v`. The part half is rewritten where a field of it changes (R2). -/
def Ev.refreshData (i : StreamId) (v : Word) (e : Ev) : Ev :=
  let c := e.ctx i
  let os := e.m.writer.waiting i
  let e := e.modCtx i (fun c => c.refreshed v)
  let e := if (c.refreshed v).consumedInvalid = c.consumedInvalid then e else e.touch i
  (e.takeWaiting i).forEach os (Ev.settleWaiting (c.consumedValid v))

/-- R117: a refresh of an OPEN stream faults or times out. -/
def Ev.refreshFault (i : StreamId) (e : Ev) : Ev :=
  let os := e.m.writer.waiting i
  let e := e.publish i (fun c =>
    { c with refreshOutstanding := false, oneShot := .idle, holds := { c.holds with memoryFault := true } })
  (e.takeWaiting i).forEach os Ev.lose

/-- R115 to R117, R123: the refresh of stream `i` ends, with a value or (`none`) in a fault or a timeout. -/
def Ev.refreshEnd (i : StreamId) (v : Option Word) (e : Ev) : Ev :=
  e.withCtx i fun c e =>
    if c.state = .closing then (e.modCtx i (fun c => { c with refreshOutstanding := false })).tryClose i
    else match v with
      | some v => e.refreshData i v
      | none => e.refreshFault i

/-- R123: the CANCELLED outcome of the stream's own CLOSE is settled: the cached count alone, then the overflow policy. -/
def Ev.settleCancelled (o : Outcome) (e : Ev) : Ev :=
  e.withCtx o.stream fun c e =>
    let e := e.modWriter (fun w => { w with cancelled := w.cancelled.filter (fun x => x.stream ≠ o.stream) })
    let e := if c.hasRoom then e.writeSlot o false else e.noRoom o
    (e.modCtx o.stream (fun c => { c with closeOutcome := false })).tryClose o.stream

end Sys2Proof.Machine
end

