-- ==== Sys2Proof/Machine/Planner.lean ====
section
/-! DEFINITION. The Cycle Planner: source reads (R51 to R53), the aperiodic queue (R54, R55), the fetch list (R56), probes (R57), the plan (R46, R47), the issue of a REQUEST (R63, R69) and the selection (R59 to R61). -/

namespace Sys2Proof.Machine

open Sys2Proof

/-! ### The aperiodic queue -/

/-- R55: the head of the aperiodic queue. -/
def Port.head (p : Port) : Option Entry :=
  match p.urgent with
  | x :: _ => some x
  | [] => p.normal.head?

/-- How many items the aperiodic queue holds. -/
def Port.queueLength (p : Port) : Nat := p.urgent.length + p.normal.length

/-- R54: an item at the back of its class. -/
def Port.enqueue (urgent : Bool) (x : Entry) (p : Port) : Port :=
  if urgent then { p with urgent := p.urgent ++ [x] } else { p with normal := p.normal ++ [x] }

/-- The queue without the item of stream `i`. -/
def Port.dequeue (i : StreamId) (p : Port) : Port :=
  { p with urgent := p.urgent.filter (fun x => x.stream ≠ i), normal := p.normal.filter (fun x => x.stream ≠ i) }

/-- A new item for a stream: nothing is read before it becomes the head (R53). -/
def newItem (i : StreamId) (q : Params) : Entry :=
  { stream := i, source := if q.outLen = 0 then .noneNeeded else .notRead }

/-- An entry with another source state, if it belongs to stream `i`. -/
def Entry.setSource (i : StreamId) (src : Source) (x : Entry) : Entry := if x.stream = i then { x with source := src } else x

/-- The queue item of stream `i` with another source state. -/
def Port.setItemSource (i : StreamId) (src : Source) (p : Port) : Port :=
  { p with urgent := p.urgent.map (Entry.setSource i src), normal := p.normal.map (Entry.setSource i src) }

/-- The next plan's entry of stream `i` with another source state. -/
def Port.setPlanSource (i : StreamId) (src : Source) (p : Port) : Port :=
  { p with nextPlan := p.nextPlan.map (Entry.setSource i src) }

/-- The entry's data is there, or none is needed. -/
def Entry.ready (x : Entry) : Bool :=
  match x.source with
  | .noneNeeded | .present _ => true
  | _ => false

/-- The source data an entry holds: the payload of its REQUEST (R63). -/
def Entry.payload (x : Entry) : List Byte :=
  match x.source with
  | .present d => d
  | _ => []

/-! ### Source reads -/

/-- R51 step 1: the selector read is asked and the source read outstanding flag set; the stay's number is the read's. -/
def Ev.askSelector (i : StreamId) (c : Ctx) (e : Ev) : Ev :=
  (e.ask (.selector i e.m.smi.nextRid) c.params.sourceBase 1).modCtx i (fun c => { c with sourceOutstanding := true })

/-- R53: where the head of the queue of port `p` has not been read in this stay, its selector read is asked. -/
def Ev.headRead (p : PortId) (e : Ev) : Ev :=
  match (e.port p).head with
  | some { stream := i, source := .notRead } =>
    e.withCtx i fun c e =>
      (e.modPort p (Port.setItemSource i (.selector e.m.smi.nextRid))).askSelector i c
  | _ => e

/-- R53, R54: the item of stream `i` leaves the queue of port `p` with an outcome of its own: the one-shot state is IN_FLIGHT until the
Result Writer has finished with it (R19). The context is read with its parity checked (R4) before anything changes. -/
def Ev.removeItem (p : PortId) (code : OutcomeCode) (i : StreamId) (e : Ev) : Ev :=
  e.withCtx i fun _ e =>
    ((e.modPort p (Port.dequeue i)).publish i (fun c => { c with oneShot := .inFlight })).andThen
      (Ev.deliver (Outcome.bare i code (e.port p).cycle))

/-! ### Plans -/

/-- R46 step 1: the periodic streams of port `p` that load bucket `b`, by ascending interval exponent and stream index (step 3). -/
def State.loadedStreams (s : State) (p : PortId) (b : Nat) : List StreamId :=
  (List.range 7).flatMap (fun n =>
    allStreams.filter (fun i =>
      let c := s.ctx i
      c.live && c.params.periodic && c.params.portId = p && c.params.interval.toNat = n && bucketMatches n c.phase.toNat b))

/-- R46 steps 2 and 4: stream `i` gets an entry in the next plan of port `p` if the gate lets it. -/
def Ev.planStream (p : PortId) (i : StreamId) (e : Ev) : Ev :=
  e.withCtx i fun c e =>
    let add (src : Source) (e : Ev) : Ev :=
      e.modPort p (fun q => { q with nextPlan := q.nextPlan ++ [{ stream := i, source := src }] })
    if ¬ c.gate then e
    else if c.params.outLen = 0 then add .noneNeeded e
    else if c.sourceOutstanding then add .late e
    else (add (.selector e.m.smi.nextRid) e).askSelector i c

/-- R46: the plan for the cycle after the one port `p` is in. Which streams load the bucket is found from the contexts as they stand; each
stream so found is then read with its parity checked (log 11). -/
def Ev.planBuild (p : PortId) (e : Ev) : Ev :=
  let b := ((e.port p).cycle + 1).toNat % 64
  e.forEach (e.m.loadedStreams p b) (Ev.planStream p)

/-- R47: what an entry without its data ends with. -/
def Entry.lateOutcome (cyc : Word) (x : Entry) : Outcome :=
  Outcome.bare x.stream (if x.source = .faulted then .sourceFault else .sourceLate) cyc

/-- R47: the plan becomes the current list; entries without their data end here, in list order. -/
def Ev.handOver (p : PortId) (e : Ev) : Ev :=
  let plan := (e.port p).nextPlan
  let cyc := (e.port p).cycle
  (e.modPort p (fun q => { q with nextPlan := [], current := plan.filter Entry.ready })).forEach
    (plan.filter (fun x => !x.ready)) (fun x => Ev.deliver (x.lateOutcome cyc))

/-! ### Tags and the issue of a REQUEST -/

/-- R69: the lowest-numbered FREE tag. -/
def Port.freeTag (p : Port) : Option TagId := allTags.find? (fun t => (p.tag t).state = .free)

/-- R69: the port after the allocation of tag `t` for stream `i` of node `a`. -/
def Port.allocate (t : TagId) (i : StreamId) (a : Byte) (p : Port) : Port :=
  let g := p.tag t
  let n := p.node a
  { (p.setTag t { g with state := .waiting, epoch := g.epoch + 1, stream := i, node := a, issue := p.cycle, stamp := p.allocations
                }).setNode a { n with tagsHeld := n.tagsHeld + 1 } with
    allocations := p.allocations + 1 }

/-- An item starts on the line of the port, at the position from which the line is free. -/
def Port.startItem (l : Line) (p : Port) : Port := { p with line := l, itemStart := p.freeAt }

/-- R69, R71, R72: a tag is allocated for an entry and its REQUEST is sent. A one-shot stream becomes IN_FLIGHT (R21). -/
def Ev.issue (p : PortId) (periodic : Bool) (x : Entry) (c : Ctx) (e : Ev) : Ev :=
  match (e.port p).freeTag with
  | none => e
  | some t =>
    let epoch := ((e.port p).tag t).epoch + 1
    let frame := requestFrame c.params t epoch x.payload
    let e := e.modPort p (fun q => (q.allocate t x.stream c.params.node).startItem (.request t periodic frame))
    if periodic then e.modCtx x.stream (fun c => { c with tagRef := some (t, epoch) })
    else e.publish x.stream (fun c => { c with tagRef := some (t, epoch), oneShot := .inFlight })

/-! ### The fetch list -/

/-- R56: tag `a` stands before tag `b`: an earlier ready cycle, or an equal one and an earlier order stamp, both compared modulo
2^32. -/
def Tag.before (a b : Tag) : Bool :=
  if a.ready = b.ready then a.stamp ≠ b.stamp && (b.stamp - a.stamp).toNat < 2 ^ 31
  else (b.ready - a.ready).toNat < 2 ^ 31

/-- R56: a tag is placed on a fetch list. -/
def placeTag (tagOf : TagId → Tag) (t : TagId) : List TagId → List TagId
  | [] => [t]
  | u :: rest => if (tagOf t).before (tagOf u) then t :: u :: rest else u :: placeTag tagOf t rest

/-- R74, R76: tag `t` becomes DEFERRED with a ready cycle, and is placed on the fetch list. -/
def Port.deferTag (t : TagId) (ready : Word) (p : Port) : Port :=
  let p := p.setTag t { p.tag t with state := .deferred, ready := ready }
  { p with fetchList := placeTag p.tag t p.fetchList }

/-! ### Probes -/

/-- R57: the node whose due probe is chosen: the earliest due cycle, of equal due cycles the lowest node. -/
def Port.dueProbe (p : Port) : Option Byte :=
  (allNodes.foldl (fun best a =>
    match (p.node a).probeDue with
    | none => best
    | some d =>
      if cycleReached p.cycle d then
        match best with
        | none => some (a, d)
        | some (_, d') => if (p.cycle - d').toNat < (p.cycle - d).toNat then some (a, d) else best
      else best) (none : Option (Byte × Word))).map Prod.fst

/-! ### The selection -/

/-- What a list offers at a selection (R59, R60). -/
inductive Offer where
  | passes
  | fits
  | tooLong
  | parity (i : StreamId)
  deriving DecidableEq, Repr

/-- The other list. -/
def Turn.other : Turn → Turn
  | .fetchList => .queue
  | .queue => .fetchList

/-- R60: an item of a cost fits at the position from which the line is free. -/
def fitsAt (units position cost : Nat) : Bool := position + cost + Config.guardUnits ≤ units

/-- R55: the head of the queue may be issued: its data is present or not needed, a tag is FREE, and its node holds fewer than 8
tags. -/
def Port.eligible (p : Port) (x : Entry) (c : Ctx) : Bool :=
  x.ready && p.freeTag.isSome && (p.node c.params.node).tagsHeld < Config.nodeTags

/-- R59, R60: what a list of port `p` offers. The stream's context is read with its parity checked (R4). -/
def State.offer (s : State) (p : PortId) (l : Turn) : Offer :=
  let q := s.port p
  let units := (s.budget p).figures.units
  match l with
  | .fetchList =>
    match q.fetchList with
    | [] => .passes
    | t :: _ =>
      let c := s.ctx (q.tag t).stream
      if ¬ cycleReached q.cycle (q.tag t).ready then .passes
      else if ¬ c.parityOk then .parity (q.tag t).stream
      else if fitsAt units q.freeAt c.params.fetchCost then .fits else .tooLong
  | .queue =>
    match q.head with
    | none => .passes
    | some x =>
      let c := s.ctx x.stream
      if ¬ c.parityOk then .parity x.stream
      else if ¬ q.eligible x c then .passes
      else if fitsAt units q.freeAt c.cost then .fits else .tooLong

/-- R75: the head of the fetch list becomes FETCHING and its FETCH is sent. -/
def Ev.startFetch (p : PortId) (e : Ev) : Ev :=
  match (e.port p).fetchList with
  | [] => e
  | t :: rest =>
    e.modPort p (fun q =>
      let g := q.tag t
      ({ q with fetchList := rest }.setTag t { g with state := .fetching }).startItem
        (.fetch t (fetchFrame g.node t g.epoch)))

/-- R72: the head of the queue leaves it and is issued; the new head's source read starts (R53). -/
def Ev.startHead (p : PortId) (e : Ev) : Ev :=
  match (e.port p).head with
  | none => e
  | some x =>
    ((e.modPort p (Port.dequeue x.stream)).withCtx x.stream (fun c e => e.issue p false x c)).andThen (Ev.headRead p)

/-- R59: the head of a list is started, and the turn passes to the other list. -/
def Ev.startItem (p : PortId) (l : Turn) (e : Ev) : Ev :=
  (match l with
    | .fetchList => e.startFetch p
    | .queue => e.startHead p).andThen (fun e => e.modPort p (fun q => { q with turn := l.other }))

/-- R60: the window closes and the turn rests with a list. -/
def Ev.closeWindow (p : PortId) (turn : Turn) (e : Ev) : Ev := e.modPort p (fun q => { q with windowOpen := false, turn := turn })

/-- The effect of what the list offered second offers (R59 step 2, R60). `opening` says that this is the opening selection, and
`firstTooLong` that the list offered first was passed over because its head does not fit. Where the list offered first has no eligible
head and the other's head does not fit, the model's choice (log 26) at the opening selection is that nothing starts and the turn stays
with the list offered first: by R59 step 2 the second list would keep the turn, by R60 its head passes as though it were not eligible. -/
def Ev.second (p : PortId) (first : Turn) (opening firstTooLong : Bool) (e : Ev) : Ev :=
  match e.m.offer p first.other with
  | .parity i => e.halt .contextParity (BitVec.ofNat 32 i.val)
  | .fits => e.startItem p first.other
  | .passes => e
  | .tooLong =>
    if opening then (if firstTooLong then e.closeWindow p first else e)
    else e.closeWindow p first.other

/-- R59, R60: a selection of port `p`; `opening` for the opening selection of the cycle (log 26). -/
def Ev.selection (p : PortId) (opening : Bool) (e : Ev) : Ev :=
  let first := (e.port p).turn
  match e.m.offer p first with
  | .parity i => e.halt .contextParity (BitVec.ofNat 32 i.val)
  | .fits => e.startItem p first
  | .passes => e.second p first opening false
  | .tooLong => if opening then e.second p first opening true else e.closeWindow p first

/-- R60, R61: the selection that port `p` makes now: the opening one if none has been made in this cycle. -/
def Ev.select (p : PortId) (e : Ev) : Ev :=
  (e.modPort p (fun q => { q with openingMade := true })).selection p (!(e.port p).openingMade)

/-- R50, R57: the periodic window ends; in RUNNING the aperiodic window opens with a due probe or the opening selection. -/
def Ev.periodicEnd (p : PortId) (e : Ev) : Ev :=
  if (e.port p).state = .running then
    let e := e.modPort p (fun q => { q with windowOpen := true, openingMade := false })
    match (e.port p).dueProbe with
    | some a => e.modPort p (Port.startItem (.probe a (probeFrame a)))
    | none => e.select p
  else e

/-- R71: the skip check of a periodic entry. -/
def Port.skip (p : Port) (c : Ctx) : Option OutcomeCode :=
  if c.tagRef.isSome then some .skipOverlap
  else if p.freeTag.isNone then some .skipNoTag
  else if Config.nodeTags ≤ (p.node c.params.node).tagsHeld then some .skipNodeLimit
  else none

/-- R50, R71: the entries of the current list are taken up in order until one is issued; when none is left the window ends. -/
def Ev.takeUp (p : PortId) : List Entry → Ev → Ev
  | [], e => e.periodicEnd p
  | x :: rest, e =>
    (e.modPort p (fun q => { q with current := rest })).withCtx x.stream fun c e =>
      match (e.port p).skip c with
      | some code => (e.deliver (Outcome.bare x.stream code (e.port p).cycle)).andThen (Ev.takeUp p rest)
      | none => e.issue p true x c

/-- R50: the periodic window of port `p` goes on with its current list. -/
def Ev.periodic (p : PortId) (e : Ev) : Ev := e.takeUp p (e.port p).current

/-! ### Selections on an idle line (R61, log 20) -/

/-- What may make the planner select on an idle line: the head of each list, and whether it is eligible. -/
structure Heads where
  fetch : Option TagId
  fetchReady : Bool
  queue : Option StreamId
  queueReady : Bool
  deriving DecidableEq, Repr

/-- The heads of port `p` as they stand. The comparison reads no context with a check: the selection that follows it reads again, with the
check (log 11). -/
def State.heads (s : State) (p : PortId) : Heads :=
  let q := s.port p
  { fetch := q.fetchList.head?
    fetchReady := q.fetchList.head?.any (fun t => cycleReached q.cycle (q.tag t).ready)
    queue := q.head.map Entry.stream
    queueReady := q.head.any (fun x => q.eligible x (s.ctx x.stream)) }

/-- A list has gained a head, or a head has become eligible. -/
def Heads.gained (before after : Heads) : Bool :=
  (after.fetch.isSome && (before.fetch ≠ after.fetch || (!before.fetchReady && after.fetchReady))) ||
  (after.queue.isSome && (before.queue ≠ after.queue || (!before.queueReady && after.queueReady)))

/-- R61: on an open window with the line idle a selection is made at position `pos` if a list has gained a head, or a head has become
eligible, since `before`. -/
def Ev.reselect (p : PortId) (pos : Nat) (before : Heads) (e : Ev) : Ev :=
  if (e.port p).windowOpen ∧ (e.port p).line = .idle ∧ before.gained (e.m.heads p) then
    (e.modPort p (fun q => { q with freeAt := max q.freeAt pos })).select p
  else e

end Sys2Proof.Machine
end

