-- ==== Sys2Proof/Machine/Segment.lean ====
section
/-! DEFINITION. The Segment Engine: the release of a tag and the retry (R70, R78), the node table (R84 to R92), the START event (R99, R100, R77), the stop and the fault of a port (R98, R101, R103), and the ends of exchanges (R64, R73, R76, R79). -/

namespace Sys2Proof.Machine

open Sys2Proof

/-! ### The release of a tag -/

/-- R78: an outcome that a one-shot attempt may be retried for: SILENT, CORRUPT, or REJECTED with code 1 (BUSY). -/
def Outcome.retryable (o : Outcome) : Bool :=
  o.code = .silent || o.code = .corrupt || (o.code = .rejected && o.nodeCode = 1)

/-- R22: the retry of a failed one-shot attempt is taken. -/
def Ctx.mayRetry (c : Ctx) (q : Port) (o : Outcome) : Bool :=
  c.params.oneShot && o.retryable && 0 < c.retriesLeft && c.gate && q.queueLength < Config.queueSize

/-- R22: the retry: the item goes to the back of its class and the attempt makes no outcome. -/
def Ev.retry (p : PortId) (i : StreamId) (c : Ctx) (e : Ev) : Ev :=
  (e.modPort p (Port.enqueue c.params.urgent (newItem i c.params))).publish i (fun c =>
    { c with
      retriesLeft := c.retriesLeft - 1
      oneShot := .queued
      counters := { c.counters with retriesUsed := c.counters.retriesUsed + 1 } })

/-- R70 steps 1 to 3: the port after the release of tag `t`. -/
def Port.freeTagEntry (t : TagId) (p : Port) : Port :=
  let g := p.tag t
  let n := p.node g.node
  ({ p with fetchList := p.fetchList.filter (fun u => u ≠ t) }.setTag t { g with state := .free }).setNode g.node
    { n with tagsHeld := n.tagsHeld - 1 }

/-- R70: tag `t` of port `p` is released with an outcome; a one-shot outcome that R78 turns into a retry is not handed over. -/
def Ev.releaseTag (p : PortId) (t : TagId) (code : OutcomeCode) (nodeCode : Byte) (payload : List Byte) (e : Ev) : Ev :=
  let g := (e.port p).tag t
  let o : Outcome :=
    { stream := g.stream, code := code, nodeCode := nodeCode, issue := g.issue, done := (e.port p).cycle, payload := payload }
  e.withCtx g.stream fun c e =>
    let e := e.modPort p (Port.freeTagEntry t)
    (if c.mayRetry (e.port p) o then e.retry p g.stream c else e.deliver o).andThen fun e =>
      (e.modCtx g.stream (fun c => { c with tagRef := none })).tryClose g.stream

/-- The tags of port `p` that satisfy a test, ascending. -/
def Port.tagsWhere (p : Port) (f : Tag → Bool) : List TagId := allTags.filter (fun t => f (p.tag t))

/-- R80, R81: the tags of port `p` that satisfy a test are released, in ascending number. -/
def Ev.releaseTags (p : PortId) (code : OutcomeCode) (f : Tag → Bool) (e : Ev) : Ev :=
  e.forEach ((e.port p).tagsWhere f) (fun t => Ev.releaseTag p t code 0 [])

/-! ### Holds -/

/-- R16, R17: a change of the hold reasons of every live stream of port `p` that a test picks; a part half is written where they change.
The streams are found from the contexts as they stand, and each is read with its parity checked (R4, log 11). The spec names no order
among the streams: ascending stream index, and with it the order of their part halves (R112 step 2), is the model's choice (log 32). -/
def Ev.setHolds (p : PortId) (pick : Ctx → Bool) (f : Holds → Holds) (e : Ev) : Ev :=
  e.forEach allStreams (fun i e =>
    let c := e.ctx i
    if c.live && c.params.portId = p && pick c then
      e.withCtx i fun c e => if f c.holds ≠ c.holds then e.publish i (fun c => { c with holds := f c.holds }) else e
    else e)

/-- R16: PORT_NOT_RUNNING on the streams of port `p`. -/
def Ev.holdPort (p : PortId) (on : Bool) (e : Ev) : Ev := e.setHolds p (fun _ => true) (fun h => { h with portNotRunning := on })

/-- R17: NODE_LOST on the streams of port `p` and node `a`. -/
def Ev.holdNode (p : PortId) (a : Byte) (on : Bool) (e : Ev) : Ev :=
  e.setHolds p (fun c => c.params.node = a) (fun h => { h with nodeLost := on })

/-! ### The queue -/

/-- The streams of the queue items of a port, URGENT class first, in queue order (R54). -/
def Port.queued (p : Port) : List StreamId := (p.urgent ++ p.normal).map Entry.stream

/-- R54: the queue items of port `p` whose stream a test picks are removed with an outcome. The context of each item is read with its
parity checked (R4) before the test. -/
def Ev.removeItems (p : PortId) (code : OutcomeCode) (pick : Ctx → Bool) (e : Ev) : Ev :=
  e.forEach (e.port p).queued (fun i e => e.withCtx i fun c e => if pick c then e.removeItem p code i else e)

/-! ### The node table -/

/-- What an exchange reports to the node table (R67). -/
inductive Report where
  | heard
  | silence
  | corrupt
  | nothing
  deriving DecidableEq, Repr

/-- R67: what an ending reports. -/
def Ending.report : Ending → Report
  | .good _ => .heard
  | .silent => .silence
  | .corrupt => .corrupt
  | .mismatch => .nothing

/-- R67: the port's counters. -/
def Port.count (r : Report) (p : Port) : Port :=
  match r with
  | .heard => p
  | .silence => { p with silentCount := p.silentCount + 1 }
  | .corrupt => { p with corruptCount := p.corruptCount + 1 }
  | .nothing => { p with lineErrors := p.lineErrors + 1 }

/-- R92: the node change record of a state change of node `a`. -/
def Port.record (a : Byte) (p : Port) : Port :=
  let n := p.node a
  { p with change := { node := a, state := n.state, heard := n.lastHeard, corrupt := n.corrupt } }

/-- R87: a corrupt report counts, up to 255, in every state. -/
def Node.counted (n : Node) (r : Report) : Node :=
  if r = .corrupt then { n with corrupt := min 255 (n.corrupt + 1) } else n

/-- R86, R90: an entry after a good reply in cycle `c`. -/
def Node.afterHeard (n : Node) (probe : Bool) (c : Word) : Node :=
  match n.state with
  | .unknown => { n with state := .present, silence := 0, lastHeard := c, probeDue := none }
  | .present => { n with silence := 0, lastHeard := c }
  | .lost =>
    if probe then { n with state := .present, silence := 0, lastHeard := c, probeDue := none } else { n with lastHeard := c }

/-- R87, R88 step 1: an entry after a silent or corrupt report in cycle `c`, under a SILENCE_LIMIT. -/
def Node.afterSilence (n : Node) (probe : Bool) (c : Word) (limit : Nat) : Node :=
  match n.state with
  | .lost => if probe then { n with probeDue := some (c + Config.lostProbeCycles) } else n
  | .present =>
    if probe then n
    else if n.silence + 1 = limit then
      { n with state := .lost, silence := n.silence + 1, probeDue := some (c + Config.lostProbeCycles) }
    else { n with silence := n.silence + 1 }
  | .unknown =>
    if n.silence + 1 = limit then
      { n with state := .lost, silence := n.silence + 1, probeDue := some (c + Config.lostProbeCycles) }
    else { n with silence := n.silence + 1, probeDue := if probe then some (c + 1) else n.probeDue }

/-- R86, R87: an entry after a report. -/
def Node.after (n : Node) (r : Report) (probe : Bool) (c : Word) (limit : Nat) : Node :=
  match r with
  | .heard => n.afterHeard probe c
  | .silence | .corrupt => (n.counted r).afterSilence probe c limit
  | .nothing => n

/-- R88 steps 2 to 4: what the loss of node `a` ends and holds. -/
def Ev.nodeLoss (p : PortId) (a : Byte) (e : Ev) : Ev :=
  ((e.releaseTags p .nodeLost (fun g => g.node = a && g.state ≠ .free)).andThen
    (Ev.removeItems p .nodeLost (fun c => c.params.node = a))).andThen
    (Ev.holdNode p a true)

/-- R62, R89: the entry of node `a` of a port after a report: R86 to R88 whole in RUNNING; outside RUNNING (in STOPPING, R91) the probe due
field stays as it is, and all else is as they say (log 38). -/
def Port.nodeAfter (q : Port) (a : Byte) (probe : Bool) (r : Report) : Node :=
  let was := q.node a
  let now := was.after r probe q.cycle q.silenceLimit.toNat
  if q.state = .running then now else { now with probeDue := was.probeDue }

/-- R67, R86 to R92: an exchange with node `a` is reported: counters, entry, loss or recovery, and the status block of a state change. -/
def Ev.reportNode (p : PortId) (a : Byte) (probe : Bool) (r : Report) (e : Ev) : Ev :=
  let q := e.port p
  let was := q.node a
  let now := q.nodeAfter a probe r
  let e := e.modPort p (fun q => (q.count r).setNode a now)
  if now.state = was.state then e
  else
    (if now.state = .lost then e.nodeLoss p a else if was.state = .lost then e.holdNode p a false else e).andThen fun e =>
      (e.modPort p (Port.record a)).report p

/-! ### The START event -/

/-- R85: an entry of the node table at the entry to RUNNING. -/
def Node.atRunning (enabled : Bool) (n : Node) : Node :=
  { n with state := .unknown, silence := 0, lastHeard := 0, corrupt := 0,
           probeDue := if enabled then some Config.runningCycle else none }

/-- R100: port `p` enters RUNNING in its START event. The order in which the holds are cleared, LOST nodes ascending and then the port, is
the model's choice (log 32). -/
def Ev.enterRunning (p : PortId) (e : Ev) : Ev :=
  let lost := allNodes.filter (fun a => ((e.port p).node a).state = .lost)
  let e := e.modPort p (fun q =>
    { q with
      state := .running
      nodes := tableMap q.nodes (fun k n => n.atRunning (q.nodeEnable.getLsbD (k + 1)))
      change := NodeChange.zero })
  ((e.forEach lost (fun a => Ev.holdNode p a false)).andThen (Ev.holdPort p false)).andThen (fun e => e.report p)

/-- R44, R45, R99: the START frame of the port's cycle goes on the line: the counts of the cycle just ended become the last-cycle
figures, the window is closed. -/
def Port.sendStart (k : Byte) (p : Port) : Port :=
  { p with
    line := .start (startFrame p.cycle k)
    itemStart := 0
    freeAt := 0
    windowOpen := false
    openingMade := false
    lastPeriodic := p.periodicUsed
    lastAperiodic := p.aperiodicUsed
    periodicUsed := 0
    aperiodicUsed := 0 }

/-- R77: the deadline releases of a RUNNING START. -/
def Ev.deadlines (p : PortId) (e : Ev) : Ev :=
  let c := (e.port p).cycle
  e.releaseTags p .timeout (fun g => g.state = .deferred && g.deadline = c - 1)

/-- R99: the START event of the cycle port `p` has entered: the frame, the entry to RUNNING at cycle 8, the hand-over, the deadlines,
the plan for the next cycle, the bucket-0 refresh (log 5). -/
def Ev.startCycle (p : PortId) (e : Ev) : Ev :=
  let e := e.modPort p (Port.sendStart (e.m.budget p).cycleIndex)
  let entering := (e.port p).state = .syncing && (e.port p).cycle = Config.runningCycle
  ((((e.onlyIf entering (Ev.enterRunning p)).andThen (Ev.handOver p)).andThen
    (fun e => e.onlyIf ((e.port p).state = .running) (Ev.deadlines p))).andThen
    (Ev.planBuild p)).andThen
    (fun e => if (e.port p).cycle.toNat % 64 = 0 then e.block p else e)

/-- R99: the START of the next cycle. -/
def Ev.nextCycle (p : PortId) (e : Ev) : Ev := (e.modPort p (fun q => { q with cycle := q.cycle + 1 })).startCycle p

/-- R97: the entry of port `p` to SYNCING. -/
def Ev.enterSyncing (p : PortId) (e : Ev) : Ev :=
  ((e.modPort p (fun q =>
    { q with
      state := .syncing, faultReason := .none, cycle := 0, startMismatches := 0, nextPlan := [], current := [], urgent := [],
      normal := [], fetchList := [], turn := .fetchList, periodicUsed := 0, aperiodicUsed := 0, cycleTimer := true })).startCycle
    p).andThen (fun e => e.report p)

/-! ### Stops and faults of a port -/

/-- R49: the entries of a list of planned entries end with PORT_STOPPED, in order. -/
def Ev.stopEntries (p : PortId) (xs : List Entry) (e : Ev) : Ev :=
  e.forEach xs (fun x => Ev.deliver (Outcome.bare x.stream .portStopped (e.port p).cycle))

/-- R81, R54: every tag that is not FREE, then every queue item, ends with PORT_STOPPED. -/
def Ev.stopWork (p : PortId) (e : Ev) : Ev :=
  (e.releaseTags p .portStopped (fun g => g.state ≠ .free)).andThen (Ev.removeItems p .portStopped (fun _ => true))

/-- R101: a STOPPING port enters DISABLED at the end of its cycle. -/
def Ev.enterDisabled (p : PortId) (e : Ev) : Ev :=
  let plan := (e.port p).nextPlan
  (((e.modPort p (fun q => { q with nextPlan := [] })).stopEntries p plan).andThen (Ev.stopWork p)).andThen fun e =>
    (e.modPort p (fun q => { q with state := .disabled, cycleTimer := false })).report p

/-- R103: port `p` enters FAULTED. -/
def Ev.enterFaulted (p : PortId) (e : Ev) : Ev :=
  let q := e.port p
  let e := e.modPort p (fun q =>
    { q with line := .idle, cycleTimer := false, windowOpen := false, current := [], nextPlan := [] })
  (((e.stopEntries p (q.current ++ q.nextPlan)).andThen (Ev.stopWork p)).andThen
    (fun e => e.onlyIf (q.state = .running) (Ev.holdPort p true))).andThen fun e =>
    (e.modPort p (fun q => { q with state := .faulted, faultReason := .startEcho })).report p

/-- R98, R144: port `p` is ordered to stop: SYNCING and RUNNING enter STOPPING, FAULTED enters DISABLED. -/
def Ev.stopPort (p : PortId) (e : Ev) : Ev :=
  match (e.port p).state with
  | .syncing => (e.modPort p (fun q => { q with state := .stopping, windowOpen := false })).report p
  | .running =>
    ((e.modPort p (fun q => { q with state := .stopping, windowOpen := false })).holdPort p true).andThen (fun e => e.report p)
  | .faulted => (e.modPort p (fun q => { q with state := .disabled })).report p
  | .disabled | .stopping => e

/-! ### Ends of frames and exchanges -/

/-- R102: the port is SYNCING or RUNNING, so that the echo of its START frames counts. -/
def Port.cycling (p : Port) : Bool := p.state = .syncing || p.state = .running

/-- R102: the count and the line errors after a START frame with a mismatch. -/
def Port.startMismatch (p : Port) : Port :=
  { p with
    lineErrors := p.lineErrors + 1
    startMismatches := if p.cycling then p.startMismatches + 1 else p.startMismatches }

/-- R102: the count after a START frame that matches. -/
def Port.startMatch (p : Port) : Port :=
  { p with startMismatches := if p.cycling then 0 else p.startMismatches }

/-- R102, R103, R50: the end of a START frame of port `p` whose echo is checked: a second mismatch in a row faults the port; otherwise
the periodic window opens at position 12, outside SYNCING. -/
def Ev.startEnd (p : PortId) (ok : Bool) (e : Ev) : Ev :=
  let e := e.modPort p (fun q =>
    { if ok then q.startMatch else q.startMismatch with line := .idle, freeAt := Config.startUnits })
  if !ok && (e.port p).cycling && 2 ≤ (e.port p).startMismatches then e.enterFaulted p
  else if (e.port p).state = .syncing then e
  else e.periodic p

/-- R45: the item on the line of the port ends after an occupancy, counted in its window's units. -/
def Port.lineFree (periodic : Bool) (occ : Nat) (p : Port) : Port :=
  { p with
    line := .idle
    freeAt := p.itemStart + occ
    periodicUsed := if periodic then p.periodicUsed + occ else p.periodicUsed
    aperiodicUsed := if periodic then p.aperiodicUsed else p.aperiodicUsed + occ }

/-- What the end of an exchange makes of its tag: released with an outcome, or DEFERRED with a ready cycle and, from a DEFER, a
deadline. -/
inductive TagEnd where
  | released (code : OutcomeCode) (nodeCode : Byte) (payload : List Byte)
  | deferred (ready : Word) (deadline : Option Word)
  deriving DecidableEq, Repr

/-- R73, R74, R64: the end of a REQUEST exchange in cycle `c`. -/
def requestEnd (c : Word) (deferTimeout : Byte) : Ending → TagEnd
  | .good (.done d) => .released .ok 0 d
  | .good (.reject r) => .released .rejected r []
  | .good (.defer h) => .deferred (c + h.setWidth 32) (some (c + deferTimeout.setWidth 32))
  | .silent => .released .silent 0 []
  | .mismatch => .released .lineError 0 []
  | .corrupt | .good _ => .released .corrupt 0 []

/-- R76, R64: the end of a FETCH exchange in cycle `c`. -/
def fetchEnd (c : Word) : Ending → TagEnd
  | .good (.done d) => .released .ok 0 d
  | .good (.pending h) => .deferred (c + h.setWidth 32) none
  | .good .noTag => .released .noTag 0 []
  | .good (.reject r) => .released .rejected r []
  | .silent | .mismatch => .deferred (c + 1) none
  | .corrupt | .good _ => .released .corrupt 0 []

/-- The exchange's tag is settled. -/
def Ev.settleTag (p : PortId) (t : TagId) (x : TagEnd) (e : Ev) : Ev :=
  match x with
  | .released code nodeCode payload => e.releaseTag p t code nodeCode payload
  | .deferred ready deadline =>
    e.modPort p (fun q =>
      let g := q.tag t
      (q.setTag t { g with deadline := deadline.getD g.deadline }).deferTag t ready)

/-- R50, R61: what port `p` does once the item on its line has ended: the periodic window goes on, or the open aperiodic window has a
selection. -/
def Ev.proceed (p : PortId) (periodic : Bool) (e : Ev) : Ev :=
  if periodic then e.periodic p
  else if (e.port p).windowOpen then e.select p
  else e

/-- R67: the end of an exchange under tag `t`: the tag is settled with its retry decision, then the exchange is reported, then the queue's
new head is read, then the port goes on. Only the head left after the whole report is read: an item that is head only in between, and is
removed by the same report, has no read asked, and the head's read is asked after any refresh reads of the report. Both are the model's
choice (log 33). -/
def Ev.exchangeEnd (p : PortId) (t : TagId) (node : Byte) (periodic : Bool) (occ : Nat) (x : TagEnd) (r : Report) (e : Ev) : Ev :=
  ((((e.modPort p (Port.lineFree periodic occ)).settleTag p t x).andThen (Ev.reportNode p node false r)).andThen
    (Ev.headRead p)).andThen (Ev.proceed p periodic)

end Sys2Proof.Machine
end

