-- ==== Sys2Proof/Machine/Scanning.lean ====
section
/-! DEFINITION. The Request Scanner: scans (R131, R132), takes (R133), the answers to requests (R95, R133), and Engine Control's starts and stops (R141 to R145). -/

namespace Sys2Proof.Machine

open Sys2Proof

/-! ### Scans -/

/-- R132: a scan starts by asking for the REQ array. -/
def Ev.startScan (e : Ev) : Ev :=
  (e.modScanner (fun sc => { sc with scan := some .reading })).ask .scanArray (e.m.page Config.reqOffset) 260

/-- R131: a scan request: a scan starts, or is remembered while one is in progress. -/
def Ev.scanRequest (e : Ev) : Ev :=
  if e.m.scanner.scan.isNone then e.startScan else e.modScanner (fun sc => { sc with remembered := true })

/-- R131: the scan ends, and a remembered request starts a new one in the same event. -/
def Ev.endScan (e : Ev) : Ev :=
  let again := e.m.scanner.remembered
  let e := e.modScanner (fun sc => { sc with scan := none, remembered := false })
  if again then e.startScan else e

/-- R133: the offset in the control page and the length of the entry of an index. -/
def entryPlace (i : ReqIx) : Nat × Nat :=
  match ixOwner i with
  | .inl s => (Config.streamOffset + 128 * s.val, 64)
  | .inr p => (Config.portConfigOffset + 32 * p.val, 32)

/-- R133: the request at index `i` is taken with REQ value `v`, and its entry fetch is asked. -/
def Ev.take (i : ReqIx) (v : Byte) (e : Ev) : Ev :=
  (e.modScanner (fun sc => { sc with take := some { ix := i, req := v, stage := .fetching } })).ask (.entry i)
    (e.m.page (entryPlace i).1) (entryPlace i).2

/-- R132: the owner of an index lets its request be taken: always a port; a stream that is CLOSED or OPEN. The model's choice (log 11): this
look at the stream's state is no read of its context, and checks no parity; the context is read, with the check, in the event that decides
the request. -/
def State.takeable (s : State) (i : ReqIx) : Bool :=
  match ixOwner i with
  | .inl k => (s.ctx k).state = .closed || (s.ctx k).state = .isOpen
  | .inr _ => true

/-- R132: the scan examines the last `left` positions of its order, up to the first request it takes; it reads no stream context with a
check (log 11). -/
def Ev.examine (snap : ReqArray) : Nat → Ev → Ev
  | 0, e => e.endScan
  | left + 1, e =>
    let i := scanOrder (259 - left)
    if reqByte snap i ≠ e.m.scanner.ackCopy.get i && e.m.takeable i then
      (e.modScanner (fun sc => { sc with scan := some (.examining snap (260 - left)) })).take i (reqByte snap i)
    else e.examine snap left

/-- R133, R137: the take ends: the scan goes on at its next index, or ends if the engine is STOPPING. -/
def Ev.endTake (e : Ev) : Ev :=
  let e := e.modScanner (fun sc => { sc with take := none })
  match e.m.scanner.scan with
  | some (.examining snap next) =>
    if e.m.engine.state = .running then e.examine snap (260 - next)
    else e.modScanner (fun sc => { sc with scan := none })
  | _ => e

/-! ### The take in progress -/

/-- The stream take whose entry fetch is in flight: the stream, which is CLOSED or OPEN (R132), its REQ value, and the read. -/
def State.streamTake (s : State) : Option (StreamId × Byte × Read) :=
  match s.scanner.take with
  | some { ix := i, req := v, stage := .fetching } =>
    match ixOwner i, s.smi.flyingFor (.entry i) with
    | .inl k, some r => if s.takeable i then some (k, v, r) else none
    | _, _ => none
  | _ => none

/-- The port take whose entry fetch is in flight. -/
def State.portTake (s : State) : Option (PortId × Byte × Read) :=
  match s.scanner.take with
  | some { ix := i, req := v, stage := .fetching } =>
    match ixOwner i, s.smi.flyingFor (.entry i) with
    | .inr p, some r => some (p, v, r)
    | _, _ => none
  | _ => none

/-- The OPEN whose consumed read is in flight: the stream, which is OPENING (R7), its REQ value, the parameters to be admitted, and the read. -/
def State.openTake (s : State) : Option (StreamId × Byte × Params × Read) :=
  match s.scanner.take with
  | some { ix := i, req := v, stage := .opening q } =>
    match ixOwner i with
    | .inl k =>
      if (s.ctx k).state = .opening then (s.smi.flyingFor (.openConsumed k)).map (fun r => (k, v, q, r)) else none
    | .inr _ => none
  | _ => none

/-! ### Answers -/

/-- R133: the answer to a stream request: the result with the REQ value in the part half, then the acknowledge. -/
def Ev.answerStream (i : StreamId) (v : Byte) (result : StreamResult) (e : Ev) : Ev :=
  (e.publish i (fun c => { c with result := result, resultReq := v })).ack (streamIx i) v

/-- R95: the answer to a port request: the result with the REQ value in the status block, then the acknowledge. -/
def Ev.answerPort (p : PortId) (v : Byte) (result : PortResult) (e : Ev) : Ev :=
  ((e.modPort p (fun q => { q with result := result, resultReq := v })).report p).ack (portIx p) v

/-- R5: the result by which a stream request is refused against the stream's state. -/
def stateRefusal (st : StreamState) (action : Byte) : Option StreamResult :=
  if ¬ (1 ≤ action.toNat ∧ action.toNat ≤ 5) then some .badAction
  else if st = .closed ∧ action ≠ 1 then some .notOpen
  else if st = .isOpen ∧ action = 1 then some .alreadyOpen
  else none

/-- R1, R5, R133: the decision of the stream request whose entry fetch returned host half `hh`: the read completes, the context is read
(R4), R5 is applied, and `body` decides what R5 lets pass; the take ends. -/
def State.decideStream (s : State) (hh : Bytes64) (body : StreamId → Byte → Ctx → Ev → Ev) : State :=
  match s.streamTake with
  | none => s
  | some (i, v, r) =>
    s.event fun e =>
      (e.modSmi (fun m => m.complete r.rid)).withCtx i fun c e =>
        match stateRefusal c.state (hostAction hh) with
        | some result => (e.answerStream i v result).endTake
        | none => body i v c e

/-- R95, R133: the decision of the port request whose entry fetch completed: `body` changes the port and gives the result. -/
def State.decidePort (s : State) (body : PortId → Ev → Ev × PortResult) : State :=
  match s.portTake with
  | none => s
  | some (p, v, r) =>
    s.event fun e =>
      let (e, result) := body p (e.modSmi (fun m => m.complete r.rid))
      e.andThen fun e => (e.answerPort p v result).endTake

/-! ### Engine starts and stops -/

/-- R139, R154: the engine enters STOPPED, and the ENGINE cause is raised. -/
def Ev.enterStopped (e : Ev) : Ev := (e.modEngine (fun g => { g with state := .stopped })).cause causeEngine

/-- R141: a start check has failed. -/
def Ev.startFailed (result : StartResult) (e : Ev) : Ev := (e.modEngine (fun g => { g with startResult := result })).enterStopped

/-- R143: the start ends: RUNNING with the scan timer started, or STOPPED where RUN was written 0 meanwhile. -/
def Ev.endStart (e : Ev) : Ev :=
  if e.m.engine.withdrawn then e.enterStopped
  else
    ((e.modEngine (fun g => { g with state := .running })).modScanner (fun sc =>
      { sc with timer := sc.period ≠ 0, scan := none, remembered := false })).cause causeEngine

/-- R141 checks 3 and 4, R127: the header read of a start completed with data. -/
def Ev.headerData (h : Bytes64) (e : Ev) : Ev :=
  if headerFormat h ≠ 1 then e.startFailed .headerBad
  else if e.m.adm.overBudget (headerMemoryCap h) then e.startFailed .startOverBudget
  else
    let e := { e with m := { e.m with
      adm := { e.m.adm with memCap := headerMemoryCap h }
      scanner := { e.m.scanner with period := headerScanPeriod h }
      engine := { e.m.engine with startResult := .started, epoch := headerEpoch h } } }
    if e.m.engine.freshStart then e.ask .freshArray (e.m.page Config.reqOffset) 260 else e.endStart

/-- R142: the writes of a fresh start, in their order, but for the update count. -/
def State.freshWrites (s : State) (a : ReqArray) : List PathItem :=
  allStreams.map (fun i => s.producedWrite i 0) ++
  allStreams.map (fun i => .write (s.page (Config.streamOffset + 128 * i.val + 0x40)) (partHalf Ctx.reset)) ++
  allPorts.map (fun p => .write (s.page (Config.portStatusOffset + 64 * p.val)) (statusBlock Port.reset)) ++
  (List.range 260).map (fun k => s.ackWrite (Fin.ofNat 260 k) (reqByte a (Fin.ofNat 260 k))) ++
  [.write (s.page Config.epochOffset) (le4 (s.engine.epoch + 1)), s.faultWrite .none 0]

/-- R142: the REQ array of a fresh start has been read. -/
def Ev.freshData (a : ReqArray) (e : Ev) : Ev :=
  let e := { e with slots := e.slots ++ e.m.freshWrites a }
  ((e.modScanner (fun sc => { sc with ackCopy := Vector.ofFn (fun i => reqByte a i) })).modEngine (fun g =>
    { g with freshStart := false })).endStart

/-- R132, R142, R146: the REQ array could not be read. -/
def Ev.arrayFault (e : Ev) : Ev := e.halt .controlRead (BitVec.ofNat 32 Config.reqOffset)

/-- R144: an engine stop. The spec names no order among the ports: 0 to 3 ascending, and with it the order of their part halves and status
blocks, is the model's choice (log 32). -/
def Ev.engineStop (e : Ev) : Ev :=
  ((e.modEngine (fun g => { g with state := .stopping })).modScanner (fun sc =>
    { sc with timer := false, remembered := false })).forEach allPorts Ev.stopPort

/-- R145: what must hold for a STOPPING engine to enter STOPPED (log 27). -/
def State.writtenOut (s : State) : Bool :=
  s.engine.state = .stopping && allPorts.all (fun p => (s.port p).state = .disabled) && s.scanner.take.isNone &&
  s.smi.inFlight.isEmpty && s.smi.waiting.isEmpty && s.writer.outcomes.isEmpty && s.writer.cancelled.isEmpty &&
  allStreams.all (fun i => !(s.ctx i).refreshOutstanding)

end Sys2Proof.Machine
end

