-- ==== Sys2Proof/Machine/Cycle.lean ====
section
/-! DEFINITION. The meanings of CYCLE_TIMER_EXPIRY (R99, R101), PORT_ENTER_RUNNING (R100), DEADLINE_TIMEOUT (R77), START_FRAME_END (R102) and APERIODIC_WINDOW_CLOSE (R61). -/

namespace Sys2Proof.Machine

open Sys2Proof

/-- The cycle timer of port `p` runs and its line is free, as it is in the guard (R44). -/
def State.cycleEnds (s : State) (p : PortId) : Bool := (s.port p).cycleTimer && (s.port p).line = .idle

/-- R99: the expiry of the cycle timer: the next START, or in STOPPING the entry to DISABLED. -/
def Ev.cycleExpiry (p : PortId) (e : Ev) : Ev :=
  match (e.port p).state with
  | .syncing | .running => e.nextCycle p
  | .stopping => e.enterDisabled p
  | .disabled | .faulted => e

/-- CYCLE_TIMER_EXPIRY (R99, R101). -/
def execCycleTimerExpiry (p : PortId) (s : State) : Answer := .next (s.eventIf (s.cycleEnds p) (Ev.cycleExpiry p))

/-- PORT_ENTER_RUNNING (R100): the START event of cycle 8 of a SYNCING port (log 4). -/
def execPortEnterRunning (p : PortId) (s : State) : Answer :=
  .next (s.eventIf (s.cycleEnds p && (s.port p).state = .syncing && (s.port p).cycle + 1 = Config.runningCycle) (Ev.nextCycle p))

/-- Some DEFERRED tag of port `p` has the cycle now ending as its deadline (R77). -/
def Port.deadlinePassed (q : Port) : Bool := allTags.any (fun t => (q.tag t).state = .deferred && (q.tag t).deadline = q.cycle)

/-- DEADLINE_TIMEOUT (R77): the START event of a RUNNING port that finds a deadline passed (log 4). -/
def execDeadlineTimeout (p : PortId) (s : State) : Answer :=
  .next (s.eventIf (s.cycleEnds p && (s.port p).state = .running && (s.port p).deadlinePassed) (Ev.nextCycle p))

/-- START_FRAME_END (R102, R103, R50). -/
def execStartFrameEnd (p : PortId) (echo : List Byte) (s : State) : Answer :=
  .next (match (s.port p).line with
    | .start frame => s.event (Ev.startEnd p (echo = frame))
    | _ => s)

/-- APERIODIC_WINDOW_CLOSE (R61). -/
def execAperiodicWindowClose (p : PortId) (s : State) : Answer :=
  .next (s.eventIf (s.port p).windowOpen (fun e => e.modPort p (fun q => { q with windowOpen := false })))

end Sys2Proof.Machine
end

