-- ==== Sys2Proof/Machine/Exchange.lean ====
section
/-! DEFINITION. The meanings of REQUEST_EXCHANGE_END (R73), FETCH_EXCHANGE_END (R76) and PROBE_EXCHANGE_END (R79). -/

namespace Sys2Proof.Machine

open Sys2Proof

/-- R64 to R67, R73: a REQUEST exchange of port `p` under tag `t` ends. -/
def Ev.requestExchange (p : PortId) (t : TagId) (periodic : Bool) (frame echo : List Byte) (heard : Heard) (e : Ev) : Ev :=
  let q := e.port p
  let g := q.tag t
  e.withCtx g.stream fun c e =>
    let en := ending .request frame echo g.node (tagByte t g.epoch) c.params.inLen.toNat c.params.cost heard
    e.exchangeEnd p t g.node periodic (occupancy frame.length c.params.cost heard) (requestEnd q.cycle q.deferTimeout en) en.report

/-- REQUEST_EXCHANGE_END (R73). -/
def execRequestExchangeEnd (p : PortId) (echo : List Byte) (heard : Heard) (s : State) : Answer :=
  .next (match (s.port p).line with
    | .request t periodic frame => if heard.wf then s.event (Ev.requestExchange p t periodic frame echo heard) else s
    | _ => s)

/-- R64 to R67, R76: a FETCH exchange of port `p` under tag `t` ends. -/
def Ev.fetchExchange (p : PortId) (t : TagId) (frame echo : List Byte) (heard : Heard) (e : Ev) : Ev :=
  let q := e.port p
  let g := q.tag t
  e.withCtx g.stream fun c e =>
    let en := ending .fetch frame echo g.node (tagByte t g.epoch) c.params.inLen.toNat c.params.fetchCost heard
    e.exchangeEnd p t g.node false (occupancy frame.length c.params.fetchCost heard) (fetchEnd q.cycle en) en.report

/-- FETCH_EXCHANGE_END (R76). -/
def execFetchExchangeEnd (p : PortId) (echo : List Byte) (heard : Heard) (s : State) : Answer :=
  .next (match (s.port p).line with
    | .fetch t frame => if heard.wf then s.event (Ev.fetchExchange p t frame echo heard) else s
    | _ => s)

/-- R64 to R67, R79: a PROBE exchange of port `p` with node `a` ends. -/
def Ev.probeExchange (p : PortId) (a : Byte) (frame echo : List Byte) (heard : Heard) (e : Ev) : Ev :=
  let en := ending .probe frame echo a 0 1 Config.probeCost heard
  let e := e.modPort p (Port.lineFree false (occupancy frame.length Config.probeCost heard))
  ((e.reportNode p a true en.report).andThen (Ev.headRead p)).andThen (Ev.proceed p false)

/-- PROBE_EXCHANGE_END (R79). -/
def execProbeExchangeEnd (p : PortId) (echo : List Byte) (heard : Heard) (s : State) : Answer :=
  .next (match (s.port p).line with
    | .probe a frame => if heard.wf then s.event (Ev.probeExchange p a frame echo heard) else s
    | _ => s)

end Sys2Proof.Machine
end

