-- ==== Sys2Proof/Machine/Engine.lean ====
section
/-! DEFINITION. The meanings of RUN_WRITTEN_1, RUN_WRITTEN_0, HEADER_READ_COMPLETE, FRESH_START_READ_COMPLETE and ENGINE_ENTER_STOPPED (R140 to R145). -/

namespace Sys2Proof.Machine

open Sys2Proof

/-- R141 check 1: the page base in use taken from the PAGE registers. -/
def EngineCtl.pageRegs (g : EngineCtl) : Addr := g.pageHi ++ g.pageLo

/-- R141: a start: STARTING, the withdrawal mark cleared, check 1, and the header read asked. -/
def Ev.startEngine (e : Ev) : Ev :=
  let e := e.modEngine (fun g => { g with state := .starting, withdrawn := false, pageBase := g.pageRegs })
  if e.m.engine.pageBase = 0 then e.startFailed .pageUnset else e.ask .header (e.m.page 0) 64

/-- RUN_WRITTEN_1 (R140, R141): starts a STOPPED engine; no effect in the other states. -/
def execRunWritten1 (s : State) : Answer := .next (s.eventIf (s.engine.state = .stopped) Ev.startEngine)

/-- R140, R144: RUN written 0. -/
def Ev.runOff (e : Ev) : Ev :=
  match e.m.engine.state with
  | .starting => e.modEngine (fun g => { g with withdrawn := true })
  | .running => e.engineStop
  | .stopped | .stopping | .halted => e

/-- RUN_WRITTEN_0 (R140, R144): sets the withdrawal mark of a start, stops a RUNNING engine; no effect in the other states. -/
def execRunWritten0 (s : State) : Answer :=
  .next (s.eventIf (s.engine.state = .starting || s.engine.state = .running) Ev.runOff)

/-- R141: the header read of a start ends; the engine is STARTING while it is in flight. -/
def Ev.headerEnd (rid : Nat) (r : ReadResult Bytes64) (e : Ev) : Ev :=
  let e := e.modSmi (fun m => m.complete rid)
  if e.m.engine.state = .starting then
    match r with
    | .data h => e.headerData h
    | .fault => e.startFailed .headerFault
  else e

/-- HEADER_READ_COMPLETE (R141). -/
def execHeaderReadComplete (r : ReadResult Bytes64) (s : State) : Answer :=
  .next (match s.smi.flyingFor .header with
    | some f => s.event (Ev.headerEnd f.rid r)
    | none => s)

/-- R142: the fresh-start read ends; the engine is STARTING while it is in flight. -/
def Ev.freshEnd (rid : Nat) (r : ReadResult ReqArray) (e : Ev) : Ev :=
  let e := e.modSmi (fun m => m.complete rid)
  if e.m.engine.state = .starting then
    match r with
    | .data a => e.freshData a
    | .fault => e.arrayFault
  else e

/-- FRESH_START_READ_COMPLETE (R142, R143). -/
def execFreshStartReadComplete (r : ReadResult ReqArray) (s : State) : Answer :=
  .next (match s.smi.flyingFor .freshArray with
    | some f => s.event (Ev.freshEnd f.rid r)
    | none => s)

/-- ENGINE_ENTER_STOPPED (R145). -/
def execEngineEnterStopped (s : State) : Answer := .next (s.eventIf s.writtenOut Ev.enterStopped)

end Sys2Proof.Machine
end

