-- ==== Sys2Proof/Machine/PortRequests.lean ====
section
/-! DEFINITION. The meanings of the port requests CONFIGURE (R96), START (R97), STOP (R98) and PORT_BAD_ACTION (R95), and of ENTRY_FAULT (R134). -/

namespace Sys2Proof.Machine

open Sys2Proof

/-- R96: the result of a CONFIGURE. -/
def State.configureResult (s : State) (p : PortId) (cb : Bytes32) : PortResult :=
  if (s.port p).state ≠ .disabled then .wrongState
  else if ¬ blockInRange cb then .badConfig
  else if s.configureRefused p (blockCycleIndex cb) (blockCapPct cb) then .streamsAdmitted
  else .accepted

/-- R96 step 4: the configuration in force on port `p`, and its budget table (R28, R30). -/
def Ev.takeConfig (p : PortId) (cb : Bytes32) (e : Ev) : Ev :=
  (e.modPort p (fun q =>
    { q with
      configured := true
      silenceLimit := blockSilenceLimit cb
      deferTimeout := blockDeferTimeout cb
      nodeEnable := blockNodeEnable cb })).modBudget p (fun t => t.configured (blockCycleIndex cb) (blockCapPct cb))

/-- R4, R30: the contexts whose costs step 3 of a CONFIGURE reads, in a DISABLED port with a block in range (log 11). -/
def State.configureReads (s : State) (p : PortId) (cb : Bytes32) : List StreamId :=
  if (s.port p).state = .disabled && blockInRange cb then s.costsRead p (blockCycleIndex cb) (blockCapPct cb) else []

/-- CONFIGURE (R96). A bad parity among the costs read halts the engine (R4, log 11). -/
def execConfigure (block : Bytes32) (s : State) : Answer :=
  .next (if (Instr.configure block).wf then
    s.decidePort fun p e =>
      let result := e.m.configureResult p block
      ((e.checkCtxs (e.m.configureReads p block)).andThen (fun e => if result = .accepted then e.takeConfig p block else e), result)
  else s)

/-- R97: the result of a START. -/
def State.startResultFor (s : State) (p : PortId) : PortResult :=
  if s.engine.state = .stopping then .wrongState
  else match (s.port p).state with
    | .syncing | .running | .stopping => .noChange
    | .disabled => if (s.port p).configured then .accepted else .badConfig
    | .faulted => .accepted

/-- START (R97). The entry to SYNCING is in the event that answers; the status block shows both (R106). -/
def execStartPort (block : Bytes32) (s : State) : Answer :=
  .next (if (Instr.startPort block).wf then
    s.decidePort fun p e =>
      let result := e.m.startResultFor p
      (if result = .accepted then e.enterSyncing p else e, result)
  else s)

/-- R98: the result of a STOP. -/
def Port.stopResult (q : Port) : PortResult :=
  match q.state with
  | .disabled | .stopping => .noChange
  | .syncing | .running | .faulted => .accepted

/-- STOP (R98). -/
def execStopPort (block : Bytes32) (s : State) : Answer :=
  .next (if (Instr.stopPort block).wf then
    s.decidePort fun p e => (e.stopPort p, (e.port p).stopResult)
  else s)

/-- PORT_BAD_ACTION (R95). -/
def execPortBadAction (block : Bytes32) (s : State) : Answer :=
  .next (if (Instr.portBadAction block).wf then s.decidePort fun _ e => (e, .badAction) else s)

/-- R134: the entry fetch of the take in progress ends in a fault or a timeout. A stream's context is read with its parity checked
(R4). -/
def State.entryFault (s : State) : State :=
  match s.streamTake with
  | some (i, v, r) =>
    s.event fun e =>
      (e.modSmi (fun m => m.complete r.rid)).withCtx i fun _ e => (e.answerStream i v .entryFault).endTake
  | none => s.decidePort fun _ e => (e, .entryFault)

/-- ENTRY_FAULT (R134). -/
def execEntryFault (s : State) : Answer := .next s.entryFault

end Sys2Proof.Machine
end

