-- ==== Sys2Proof/Machine/Scan.lean ====
section
/-! DEFINITION. The meanings of SCAN, SCAN_TIMER_EXPIRY and SCAN_SNAPSHOT_COMPLETE (R131, R132). -/

namespace Sys2Proof.Machine

open Sys2Proof

/-- SCAN (R131): a scan request of a RUNNING engine; ignored in the other states. -/
def execScan (s : State) : Answer := .next (s.eventIf (s.engine.state = .running) Ev.scanRequest)

/-- SCAN_TIMER_EXPIRY (R131): the timer runs only in RUNNING. -/
def execScanTimerExpiry (s : State) : Answer :=
  .next (s.eventIf (s.engine.state = .running && s.scanner.timer) Ev.scanRequest)

/-- R132: the array read of a scan ends. In STOPPING the scan ends with it (R137, log 28). The freed tracker entry is refilled before a
fault halts the engine (log 39). -/
def Ev.snapshotEnd (rid : Nat) (r : ReadResult ReqArray) (e : Ev) : Ev :=
  let e := e.modSmi (fun m => m.complete rid)
  match r with
  | .data a => if e.m.engine.state = .running then e.examine a 260 else e.modScanner (fun sc => { sc with scan := none })
  | .fault => e.arrayFault

/-- SCAN_SNAPSHOT_COMPLETE (R132). -/
def execScanSnapshotComplete (r : ReadResult ReqArray) (s : State) : Answer :=
  .next (match s.smi.flyingFor .scanArray with
    | some f => s.event (Ev.snapshotEnd f.rid r)
    | none => s)

end Sys2Proof.Machine
end

