-- ==== Sys2Proof/Machine/StreamRequests.lean ====
section
/-! DEFINITION. The meanings of the stream requests: OPEN (R6, R7), CLOSE (R10), FIRE (R20), PAUSE (R14), RESUME (R15), STREAM_BAD_ACTION (R5), and of CONSUMED_READ_COMPLETE (R7 to R9). -/

namespace Sys2Proof.Machine

open Sys2Proof

/-! ### OPEN -/

/-- R6, R7: an OPEN of a CLOSED stream: the field checks, then OPENING and the read of CONSUMED. A refusal leaves the stream CLOSED in
the same event (log 16). -/
def Ev.openChecks (hh : Bytes64) (i : StreamId) (v : Byte) (e : Ev) : Ev :=
  let q := hostParams hh
  match q.openRefusal (e.port q.portId).nodeEnable with
  | some result => (e.answerStream i v result).endTake
  | none =>
    ((e.publish i (fun c => { c with state := .opening })).modScanner (fun sc =>
      { sc with take := some { ix := streamIx i, req := v, stage := .opening q.admitted } })).ask (.openConsumed i)
      (e.m.page (Config.consumedOffset + 4 * i.val)) 4

/-- OPEN (R5, R6). -/
def execOpenStream (hostHalf : Bytes64) (s : State) : Answer :=
  .next (if (Instr.openStream hostHalf).wf then s.decideStream hostHalf (fun i v _ e => e.openChecks hostHalf i v) else s)

/-- R9: the context of an accepted OPEN. -/
def Ctx.opened (c : Ctx) (q : Params) (φ : Byte) (memCost : Nat) (count : Word) (holds : Holds) (v : Byte) : Ctx :=
  { c with
    state := .isOpen, params := q, phase := φ, cost := q.cost, memCost := memCost, produced := count, cached := count,
    paused := false, holds := holds, oneShot := .idle, retriesLeft := 0, tagRef := none, sourceOutstanding := false,
    refreshOutstanding := false, closeOutcome := false, closeReq := none, consumedInvalid := false, lossMark := false,
    signature := none, lastOutcome := none, counters := Counters.zero, result := .accepted, resultReq := v }

/-- R9: the hold reasons of an accepted OPEN. -/
def State.openHolds (s : State) (q : Params) : Holds :=
  let p := s.port q.portId
  { portNotRunning := p.state ≠ .running, nodeLost := (p.node q.node).state = .lost, memoryFault := false }

/-- R8: the budget step of an OPEN: the refusal, or the phase and the memory cost. -/
def State.budgetStep (s : State) (q : Params) : StreamResult ⊕ (Byte × Nat) :=
  let t := s.budget q.portId
  if q.oneShot then
    if t.figures.oneShotLimit < q.cost then .inl .tooLarge else .inr (0xFF, 0)
  else
    match s.adm.verdict t q with
    | .inl r => .inl r
    | .inr φ => .inr (BitVec.ofNat 8 φ, q.memCost t.cycleIndex.toNat)

/-- R9, R38: the OPEN is accepted with the count read. -/
def Ev.openAccepted (i : StreamId) (v : Byte) (q : Params) (φ : Byte) (memCost : Nat) (count : Word) (e : Ev) : Ev :=
  let holds := e.m.openHolds q
  let e := if q.periodic then e.reserve q φ.toNat else e
  let e := e.publish i (fun c => c.opened q φ memCost count holds v)
  ({ e with slots := e.slots ++ [e.m.producedWrite i count] }.ack (streamIx i) v).endTake

/-- R6, R7, R8: the OPEN is refused in OPENING: the stream returns to CLOSED. -/
def Ev.openRefused (i : StreamId) (v : Byte) (result : StreamResult) (e : Ev) : Ev :=
  ((e.modCtx i (fun c => { c with state := .closed })).answerStream i v result).endTake

/-- R7 to R9: the consumed read of an OPEN ends, with the count or (`none`) in a fault or a timeout. -/
def Ev.openEnd (i : StreamId) (v : Byte) (q : Params) (count : Option Word) (e : Ev) : Ev :=
  e.withCtx i fun _ e =>
    match count with
    | none => e.openRefused i v .entryFault
    | some n =>
      match e.m.budgetStep q with
      | .inl result => e.openRefused i v result
      | .inr (φ, memCost) => e.openAccepted i v q φ memCost n

/-- The data of a read, or `none` for a fault. -/
def ReadResult.value? {α : Type} : ReadResult α → Option α
  | .data d => some d
  | .fault => none

/-- R7: the end of the consumed read of the OPEN in progress. -/
def State.endOpen (s : State) (count : Option Word) : State :=
  match s.openTake with
  | some (i, v, q, r) => s.event (fun e => (e.modSmi (fun m => m.complete r.rid)).openEnd i v q count)
  | none => s

/-- CONSUMED_READ_COMPLETE (R7). -/
def execConsumedReadComplete (r : ReadResult Word) (s : State) : Answer := .next (s.endOpen (ReadResult.value? r))

/-! ### CLOSE -/

/-- R10 steps 1 and 2: the stream's waiting outcomes are discarded and its plan entries removed. -/
def Ev.closeDiscards (i : StreamId) (p : PortId) (e : Ev) : Ev :=
  let waits := e.m.writer.waits i
  let e := (e.takeWaiting i).modCtx i (fun c =>
    { c with oneShot := if waits && c.oneShot = .inFlight then .idle else c.oneShot })
  e.modPort p (fun q =>
    { q with nextPlan := q.nextPlan.filter (fun x => x.stream ≠ i), current := q.current.filter (fun x => x.stream ≠ i) })

/-- R10 step 3: a queued item is removed; its CANCELLED outcome waits for its own event. -/
def Ev.closeQueued (i : StreamId) (p : PortId) (e : Ev) : Ev :=
  if (e.ctx i).oneShot = .queued then
    let o := Outcome.bare i .cancelled (e.port p).cycle
    ((e.modPort p (Port.dequeue i)).modCtx i (fun c => { c with oneShot := .inFlight, closeOutcome := true })).modWriter (fun w =>
      { w with cancelled := w.cancelled ++ [o] })
  else e

/-- R10: a CLOSE of an OPEN stream. The model's choice (log 34): the read of a new queue head (R53) is asked before the entry fetch of the
next request (R133). -/
def Ev.close (pos : Nat) (i : StreamId) (v : Byte) (c : Ctx) (e : Ev) : Ev :=
  let p := c.params.portId
  let before := e.m.heads p
  let e := (e.closeDiscards i p).closeQueued i p
  let e := e.publish i (fun c => { c with state := .closing, closeReq := some v })
  (((e.tryClose i).andThen (Ev.headRead p)).andThen (Ev.reselect p pos before)).andThen Ev.endTake

/-- CLOSE (R5, R10). -/
def execCloseStream (hostHalf : Bytes64) (pos : Nat) (s : State) : Answer :=
  .next (if (Instr.closeStream hostHalf pos).wf then s.decideStream hostHalf (Ev.close pos) else s)

/-! ### FIRE -/

/-- R20: the answer to a FIRE. -/
def fireResult (c : Ctx) (q : Port) : StreamResult :=
  if c.params.periodic then .wrongKind
  else if c.oneShot ≠ .idle then .busy
  else if c.holds.any then .held
  else if c.paused then .paused
  else if Config.queueSize ≤ q.queueLength then .queueFull
  else .accepted

/-- R20: a FIRE of an OPEN stream. The model's choice (log 34): the read of a new queue head (R53) is asked before the entry fetch of the
next request (R133). -/
def Ev.fire (pos : Nat) (i : StreamId) (v : Byte) (c : Ctx) (e : Ev) : Ev :=
  let p := c.params.portId
  let before := e.m.heads p
  let result := fireResult c (e.port p)
  if result = .accepted then
    let e := (e.modPort p (Port.enqueue c.params.urgent (newItem i c.params))).modCtx i (fun c =>
      { c with retriesLeft := c.params.retries.toNat, oneShot := .queued })
    (((e.answerStream i v result).headRead p).andThen (Ev.reselect p pos before)).andThen Ev.endTake
  else (e.answerStream i v result).endTake

/-- FIRE (R5, R20). -/
def execFire (hostHalf : Bytes64) (pos : Nat) (s : State) : Answer :=
  .next (if (Instr.fire hostHalf pos).wf then s.decideStream hostHalf (Ev.fire pos) else s)

/-! ### PAUSE and RESUME -/

/-- R14: a PAUSE of an OPEN stream. The model's choice (log 34): the read of a new queue head (R53) is asked before the entry fetch of the
next request (R133). -/
def Ev.pause (pos : Nat) (i : StreamId) (v : Byte) (c : Ctx) (e : Ev) : Ev :=
  let p := c.params.portId
  let before := e.m.heads p
  if c.paused then (e.answerStream i v .noChange).endTake
  else
    let e := (e.modCtx i (fun c => { c with paused := true })).answerStream i v .accepted
    (((e.onlyIf (c.oneShot = .queued) (Ev.removeItem p .cancelled i)).andThen (Ev.headRead p)).andThen
      (Ev.reselect p pos before)).andThen Ev.endTake

/-- PAUSE (R5, R14). -/
def execPause (hostHalf : Bytes64) (pos : Nat) (s : State) : Answer :=
  .next (if (Instr.pause hostHalf pos).wf then s.decideStream hostHalf (Ev.pause pos) else s)

/-- R15: a RESUME of an OPEN stream. -/
def Ev.resume (i : StreamId) (v : Byte) (c : Ctx) (e : Ev) : Ev :=
  if !c.paused && !c.holds.memoryFault then (e.answerStream i v .noChange).endTake
  else
    ((e.modCtx i (fun c => { c with paused := false, holds := { c.holds with memoryFault := false } })).answerStream i v
      .accepted).endTake

/-- RESUME (R5, R15). -/
def execResume (hostHalf : Bytes64) (s : State) : Answer :=
  .next (if (Instr.resume hostHalf).wf then s.decideStream hostHalf Ev.resume else s)

/-! ### STREAM_BAD_ACTION -/

/-- STREAM_BAD_ACTION (R5): the request that R5 refuses; an ACTION that R5 lets pass is another row's event (log 1). -/
def execStreamBadAction (hostHalf : Bytes64) (s : State) : Answer :=
  .next (match s.streamTake with
    | some (i, _, _) =>
      if (stateRefusal (s.ctx i).state (hostAction hostHalf)).isSome then s.decideStream hostHalf (fun _ _ _ e => e) else s
    | none => s)

end Sys2Proof.Machine
end

