-- ==== Sys2Proof/Machine/Reads.lean ====
section
/-! DEFINITION. The meanings of the source read completions (R51 to R53, R159), CONSUMED_REFRESH_COMPLETE (R115 to R117), SMI_READ_TIMEOUT and LATE_READ_DATA (R128), and CANCELLED_OUTCOME_SETTLE (R123). -/

namespace Sys2Proof.Machine

open Sys2Proof

/-! ### The owner of a source read -/

/-- The stay a source state waits for. -/
def Source.job? : Source → Option Nat
  | .selector job | .half job _ => some job
  | _ => none

/-- The next plan's entry of stream `i` that waits for the reads of stay `job`. -/
def Port.planOwner (q : Port) (i : StreamId) (job : Nat) : Option Entry :=
  q.nextPlan.find? (fun x => x.stream = i && x.source.job? = some job)

/-- The queue item of stream `i` that waits for the reads of stay `job`. -/
def Port.itemOwner (q : Port) (i : StreamId) (job : Nat) : Option Entry :=
  (q.urgent ++ q.normal).find? (fun x => x.stream = i && x.source.job? = some job)

/-- The entry or item of stream `i` that waits for the reads of stay `job`; none when it has ended or been removed (R52, R53). -/
def Port.owner (q : Port) (i : StreamId) (job : Nat) : Option Entry := (q.planOwner i job).or (q.itemOwner i job)

/-- The owner of stay `job` gets another source state. -/
def Port.setOwner (i : StreamId) (job : Nat) (src : Source) (q : Port) : Port :=
  if (q.planOwner i job).isSome then q.setPlanSource i src else q.setItemSource i src

/-- R51, R53: the source state of the owner becomes faulted: an entry keeps it for its START; an item leaves the queue with
SOURCE_FAULT. -/
def Ev.sourceFault (p : PortId) (i : StreamId) (job : Nat) (e : Ev) : Ev :=
  if ((e.port p).planOwner i job).isSome then e.modPort p (Port.setPlanSource i .faulted) else e.removeItem p .sourceFault i

/-! ### Halves -/

/-- R159: the offsets within a half, and the lengths, of its reads of at most 64 bytes. -/
def halfPieces (outLen : Nat) : List (Nat × Nat) := (List.range ((outLen + 63) / 64)).map (fun k => (64 * k, min 64 (outLen - 64 * k)))

/-- R51: the address of the half a selector names. -/
def halfAddr (q : Params) (selector : Byte) : Addr :=
  q.sourceBase + BitVec.ofNat 64 (16 + (if selector = 1 then roundUp16 q.outLen.toNat else 0))

/-- R51, R159: the reads of the half a selector names are asked, in ascending address order. -/
def Ev.askHalf (i : StreamId) (job : Nat) (q : Params) (selector : Byte) (e : Ev) : Ev :=
  e.forEach ((halfPieces q.outLen.toNat).zipIdx) (fun x =>
    (Ev.ask · (.half i job x.2) (halfAddr q selector + BitVec.ofNat 64 x.1.1) x.1.2))

/-- R51 step 2: the selector of the owner's stay has arrived. -/
def Ev.selectorData (p : PortId) (i : StreamId) (job : Nat) (q : Params) (v : Byte) (e : Ev) : Ev :=
  if v = 0 ∨ v = 1 then
    (e.modPort p (Port.setOwner i job (.half job ((halfPieces q.outLen.toNat).map (fun _ => none))))).askHalf i job q v
  else e.sourceFault p i job

/-- R159: the pieces of a half with one more; all of them together make the data. -/
def Source.withPiece (job piece : Nat) (d : List Byte) : Source → Source
  | .half _ pieces =>
    let pieces := pieces.set piece (some d)
    if pieces.all Option.isSome then .present (pieces.flatMap (fun x => x.getD [])) else .half job pieces
  | src => src

/-! ### Source completions -/

/-- R51 to R53: a source read of stream `i` in stay `job` ends; `f` is what its owner, if there is one, makes of it. The flag stays set
while another source read of the stream is out (log 9). A close may complete (R12), a new head is read, and a selection is made if a
head has become eligible (R61). -/
def Ev.sourceEnd (rid : Nat) (i : StreamId) (job pos : Nat) (f : PortId → Params → Entry → Ev → Ev) (e : Ev) : Ev :=
  (e.modSmi (fun m => m.complete rid)).withCtx i fun c e =>
    let p := c.params.portId
    let before := e.m.heads p
    (((match (e.port p).owner i job with
      | some x => f p c.params x e
      | none => e).andThen fun e =>
        (e.modCtx i (fun c => { c with sourceOutstanding := e.m.smi.readsSource i })).tryClose i).andThen
      (Ev.headRead p)).andThen (Ev.reselect p pos before)

/-- R51: a source read that faults or times out. -/
def Ev.sourceReadFault (rid : Nat) (i : StreamId) (job pos : Nat) (e : Ev) : Ev :=
  e.sourceEnd rid i job pos (fun p _ _ e => e.sourceFault p i job)

/-- SELECTOR_READ_COMPLETE (R51). -/
def execSelectorReadComplete (rid : Nat) (r : ReadResult Byte) (pos : Nat) (s : State) : Answer :=
  .next (match s.smi.flying rid with
    | some { what := .selector i job, .. } =>
      match r with
      | .data v => s.event (Ev.sourceEnd rid i job pos (fun p q _ e => e.selectorData p i job q v))
      | .fault => s.event (Ev.sourceReadFault rid i job pos)
    | _ => s)

/-- HALF_READ_COMPLETE (R51, R159): data of a read arrives in full (R128). -/
def execHalfReadComplete (rid : Nat) (r : ReadResult (List Byte)) (pos : Nat) (s : State) : Answer :=
  .next (match s.smi.flying rid with
    | some { what := .half i job piece, len := len, .. } =>
      match r with
      | .data d =>
        if d.length = len then
          s.event (Ev.sourceEnd rid i job pos (fun p _ x e => e.modPort p (Port.setOwner i job (x.source.withPiece job piece d))))
        else s
      | .fault => s.event (Ev.sourceReadFault rid i job pos)
    | _ => s)

/-! ### Refreshes, timeouts, late data -/

/-- R115 to R117: the refresh of stream `i` ends. -/
def State.endRefresh (s : State) (i : StreamId) (v : Option Word) : State :=
  match s.smi.flyingFor (.refresh i) with
  | some f => s.event (fun e => (e.modSmi (fun m => m.complete f.rid)).refreshEnd i v)
  | none => s

/-- CONSUMED_REFRESH_COMPLETE (R115 to R117). -/
def execConsumedRefreshComplete (i : StreamId) (r : ReadResult Word) (s : State) : Answer :=
  .next (s.endRefresh i (ReadResult.value? r))

/-- SMI_READ_TIMEOUT (R128): the read completes as a read timeout, reported to the block that asked for it, which treats it as its rule
treats a read fault. -/
def execSmiReadTimeout (rid pos : Nat) (s : State) : Answer :=
  .next (match s.smi.flying rid with
    | none => s
    | some f =>
      match f.what with
      | .scanArray => s.event (Ev.snapshotEnd rid .fault)
      | .header => s.event (Ev.headerEnd rid .fault)
      | .freshArray => s.event (Ev.freshEnd rid .fault)
      | .entry _ => s.entryFault
      | .openConsumed _ => s.endOpen none
      | .refresh i => s.endRefresh i none
      | .selector i job | .half i job _ => s.event (Ev.sourceReadFault rid i job pos))

/-- LATE_READ_DATA (R128): discarded and not reported. -/
def execLateReadData (_rid : Nat) (s : State) : Answer := .next s

/-- CANCELLED_OUTCOME_SETTLE (R123). -/
def execCancelledOutcomeSettle (i : StreamId) (s : State) : Answer :=
  .next (match s.writer.cancelled.find? (fun o => o.stream = i) with
    | some o => s.event (Ev.settleCancelled o)
    | none => s)

end Sys2Proof.Machine
end

