-- ==== Sys2Proof/Machine/Registers.lean ====
section
/-! DEFINITION. The meanings of the PAGE and interrupt register writes, of ignored writes, of the PCIe configuration write and of the holdoff timer's expiry (R150, R153 to R156). -/

namespace Sys2Proof.Machine

open Sys2Proof

/-- R153: the PAGE registers after a write in STOPPED. -/
def EngineCtl.writePage (g : EngineCtl) (reg : PageReg) (v : Word) : EngineCtl :=
  match reg with
  | .lo => { g with pageLo := pageLoBits v }
  | .hi => { g with pageHi := v }

/-- PAGE_WRITE (R153): taken in STOPPED, ignored in every other state. -/
def execPageWrite (reg : PageReg) (value : Word) (s : State) : Answer :=
  .next (if s.engine.state = .stopped then { s with engine := s.engine.writePage reg value } else s)

/-- INTR_STATUS_WRITE (R154, R155): clears each bit written 1. -/
def execIntrStatusWrite (value : Word) (s : State) : Answer :=
  .next (s.signal ({ s.intr with status := s.intr.status &&& ~~~(value.setWidth 3) } : IntrUnit).repend)

/-- INTR_ENABLE_WRITE (R155). -/
def execIntrEnableWrite (value : Word) (s : State) : Answer :=
  .next (s.signal ({ s.intr with enable := value.setWidth 3 } : IntrUnit).repend)

/-- INTR_HOLDOFF_WRITE (R155): the period for the next start of the timer. -/
def execIntrHoldoffWrite (value : Word) (s : State) : Answer :=
  .next (s.signal { s.intr with holdoff := value.setWidth 8 })

/-- REGISTER_WRITE_IGNORED (R150). -/
def execRegisterWriteIgnored (_reg : Reg) (_width : Width) (_value : Word) (s : State) : Answer := .next s

/-- R156: the Interrupt Unit after a configuration write; a change to MSI mode sets the pending flag if the condition holds. -/
def IntrUnit.configure (u : IntrUnit) (msiEnable intxDisable : Bool) : IntrUnit :=
  let v := { u with msiEnable := msiEnable, intxDisable := intxDisable }
  if !u.msiEnable && msiEnable then v.repend else v

/-- PCIE_CONFIG_WRITE (R156). -/
def execPcieConfigWrite (msiEnable intxDisable : Bool) (s : State) : Answer :=
  .next (s.signal (s.intr.configure msiEnable intxDisable))

/-- HOLDOFF_TIMER_EXPIRY (R155): the timer stops; a message that waits is sent and starts it again. -/
def execHoldoffTimerExpiry (s : State) : Answer :=
  .next (if s.intr.timer.isSome then s.signal { s.intr with timer := none } else s)

end Sys2Proof.Machine
end

