-- ==== Sys2Proof/Machine/Resets.lean ====
section
/-! DEFINITION. The meanings of COLD_RESET, FUNCTION_RESET and ENGINE_RESET (R148). -/

namespace Sys2Proof.Machine

open Sys2Proof

/-- COLD_RESET (R148). -/
def execColdReset (s : State) : Answer := .next s.coldReset

/-- FUNCTION_RESET (R148): acts like a cold reset. -/
def execFunctionReset (s : State) : Answer := .next s.coldReset

/-- ENGINE_RESET (R148). -/
def execEngineReset (s : State) : Answer := .next s.engineReset

end Sys2Proof.Machine
end

