-- ==== Sys2Proof/Machine/Dispatch.lean ====
section
/-! DEFINITION. The effect of every command on everything but the queue: one arm per constructor of Instr. -/

namespace Sys2Proof.Machine

open Sys2Proof

def exec (i : Instr) (s : State) : Host.Outcome State Fault Refusal :=
  match i with
  | .coldReset => Sys2Proof.Machine.execColdReset s
  | .functionReset => Sys2Proof.Machine.execFunctionReset s
  | .engineReset => Sys2Proof.Machine.execEngineReset s
  | .runWritten1 => Sys2Proof.Machine.execRunWritten1 s
  | .runWritten0 => Sys2Proof.Machine.execRunWritten0 s
  | .scan => Sys2Proof.Machine.execScan s
  | .pageWrite reg value => Sys2Proof.Machine.execPageWrite reg value s
  | .intrStatusWrite value => Sys2Proof.Machine.execIntrStatusWrite value s
  | .intrEnableWrite value => Sys2Proof.Machine.execIntrEnableWrite value s
  | .intrHoldoffWrite value => Sys2Proof.Machine.execIntrHoldoffWrite value s
  | .registerWriteIgnored reg width value => Sys2Proof.Machine.execRegisterWriteIgnored reg width value s
  | .pcieConfigWrite msiEnable intxDisable => Sys2Proof.Machine.execPcieConfigWrite msiEnable intxDisable s
  | .scanTimerExpiry => Sys2Proof.Machine.execScanTimerExpiry s
  | .holdoffTimerExpiry => Sys2Proof.Machine.execHoldoffTimerExpiry s
  | .cycleTimerExpiry p => Sys2Proof.Machine.execCycleTimerExpiry p s
  | .startFrameEnd p echo => Sys2Proof.Machine.execStartFrameEnd p echo s
  | .portEnterRunning p => Sys2Proof.Machine.execPortEnterRunning p s
  | .deadlineTimeout p => Sys2Proof.Machine.execDeadlineTimeout p s
  | .aperiodicWindowClose p => Sys2Proof.Machine.execAperiodicWindowClose p s
  | .requestExchangeEnd p echo heard => Sys2Proof.Machine.execRequestExchangeEnd p echo heard s
  | .fetchExchangeEnd p echo heard => Sys2Proof.Machine.execFetchExchangeEnd p echo heard s
  | .probeExchangeEnd p echo heard => Sys2Proof.Machine.execProbeExchangeEnd p echo heard s
  | .scanSnapshotComplete r => Sys2Proof.Machine.execScanSnapshotComplete r s
  | .headerReadComplete r => Sys2Proof.Machine.execHeaderReadComplete r s
  | .freshStartReadComplete r => Sys2Proof.Machine.execFreshStartReadComplete r s
  | .openStream hostHalf => Sys2Proof.Machine.execOpenStream hostHalf s
  | .closeStream hostHalf pos => Sys2Proof.Machine.execCloseStream hostHalf pos s
  | .fire hostHalf pos => Sys2Proof.Machine.execFire hostHalf pos s
  | .pause hostHalf pos => Sys2Proof.Machine.execPause hostHalf pos s
  | .resume hostHalf => Sys2Proof.Machine.execResume hostHalf s
  | .streamBadAction hostHalf => Sys2Proof.Machine.execStreamBadAction hostHalf s
  | .configure block => Sys2Proof.Machine.execConfigure block s
  | .startPort block => Sys2Proof.Machine.execStartPort block s
  | .stopPort block => Sys2Proof.Machine.execStopPort block s
  | .portBadAction block => Sys2Proof.Machine.execPortBadAction block s
  | .entryFault => Sys2Proof.Machine.execEntryFault s
  | .consumedReadComplete r => Sys2Proof.Machine.execConsumedReadComplete r s
  | .selectorReadComplete rid r pos => Sys2Proof.Machine.execSelectorReadComplete rid r pos s
  | .halfReadComplete rid r pos => Sys2Proof.Machine.execHalfReadComplete rid r pos s
  | .consumedRefreshComplete k r => Sys2Proof.Machine.execConsumedRefreshComplete k r s
  | .smiReadTimeout rid pos => Sys2Proof.Machine.execSmiReadTimeout rid pos s
  | .lateReadData rid => Sys2Proof.Machine.execLateReadData rid s
  | .cancelledOutcomeSettle k => Sys2Proof.Machine.execCancelledOutcomeSettle k s
  | .engineEnterStopped => Sys2Proof.Machine.execEngineEnterStopped s

end Sys2Proof.Machine
end

