-- ==== Sys2Proof/Safety.lean ====
section
/-! DEFINITION. What it means for a step to be safe, and the invariants of the machine that the spec's laws state: the budget laws (R31, R37), the bounds of the tracker, the queues and the pending outcome list (R54, R122, R128), what rests outside a run (R108), the state of the interrupt signals (R155, R156); and the terms the statements are written in: what an event sends out, how a take ends, what an answer and a halt leave. -/

namespace Sys2Proof.Machine

open Sys2Proof

/-- A step is safe when it neither faults nor refuses. -/
def State.safe (s : State) : Prop := ∃ t, step s = .next t

/-- R4: every context has good parity. -/
def State.parityGood (s : State) : Prop := ∀ i, (s.ctx i).parityOk = true

/-! ### Bounds -/

/-- R128: at most 16 reads in flight, and a read waits only while there are 16. -/
def Smi.bounded (m : Smi) : Prop :=
  m.inFlight.length ≤ Config.trackerSize ∧ (m.waiting = [] ∨ m.inFlight.length = Config.trackerSize)

/-- R54: each aperiodic queue holds at most 64 items. -/
def State.queuesBounded (s : State) : Prop := ∀ p, (s.port p).queueLength ≤ Config.queueSize

/-- R122: the pending outcome list holds at most 128 outcomes. -/
def Writer.bounded (w : Writer) : Prop := w.outcomes.length ≤ Config.pendingOutcomes

/-! ### What rests -/

/-- R108, R137 (09_engine_operation.md, table of the engine states): outside RUNNING and STOPPING every port is DISABLED and no request
is in progress; the scan timer runs in RUNNING alone. -/
def State.atRest (s : State) : Prop :=
  (s.engine.state ≠ .running → s.engine.state ≠ .stopping →
    (∀ p, (s.port p).state = .disabled) ∧ s.scanner.take = none) ∧
  (s.scanner.timer = true → s.engine.state = .running)

/-- R150: PAGE_LO bits 11:0 read 0. -/
def State.pageAligned (s : State) : Prop := s.engine.pageLo &&& 0xFFF = 0

/-- R155, R156: between events no message waits that could be sent, and in INTx mode the line follows the condition and the disable bit;
in MSI mode it is deasserted. -/
def IntrUnit.settled (u : IntrUnit) : Prop :=
  if u.msiEnable then u.intxLine = false ∧ (u.msgPending = true → u.condition = true ∧ u.timer.isSome = true)
  else u.intxLine = (u.condition && !u.intxDisable)

/-- R164: a STOPPED engine has no write left to issue: what is on the path are messages. -/
def State.writesIssued (s : State) : Prop := s.engine.state = .stopped → ∀ x ∈ s.smi.path, x = .msi

/-! ### What the planner leaves of a port -/

/-- What a node table entry says of presence: all but the tags-held count. -/
def Node.presence (n : Node) : Node := { n with tagsHeld := 0 }

/-- What planning, issuing and settling leave of a port as it is: its state, configuration, cycle, answers, counters and unit figures, and
what its node table says of presence. The tags, the tags-held counts, the plans, the lists, the turn, the window and the line are
blanked. -/
def Port.kept (q : Port) : Port :=
  { q with
    tags := Port.reset.tags, allocations := 0, nodes := q.nodes.map Node.presence, nextPlan := [], current := [],
    urgent := [], normal := [], fetchList := [], turn := .fetchList, windowOpen := false, openingMade := false, line := .idle,
    itemStart := 0, freeAt := 0 }

/-- What a report to the node table, with all that follows from it, leaves of a port. -/
def Port.keptByReport (q : Port) : Port :=
  { q.kept with
    nodes := Port.reset.nodes, change := NodeChange.zero, corruptCount := 0, lineErrors := 0, silentCount := 0 }

/-! ### What an event sends out -/

/-- R112, R136, R154, R155: machine `m` once an event has handed the writes `ws` to the posted-write path, with one increment of
UPDATE_COUNT last if there are any, has issued the writes of the path where the engine is STOPPED (R164, log 41), and has raised `causes` and
signalled. -/
def State.sends (m : State) (ws : List PathItem) (causes : BitVec 3) : State :=
  let m' :=
    if ws = [] then m
    else { m with
      updateCount := m.updateCount + 1
      smi := { m.smi with path := m.smi.path ++ (ws ++ [m.updateCountWrite (m.updateCount + 1)]) } }
  m'.issued.signal (m'.intr.raise causes)

/-- R155, R156: how the Interrupt Unit of `t` and the posted-write path signal, from `s`, for the values of INTR_STATUS, INTR_ENABLE and
INTR_HOLDOFF and the PCIe configuration that `t` holds; `timer` is the holdoff timer and `pend` the message-pending flag before the
signalling. In INTx mode the flag and the timer stay (log 14). -/
def State.signalled (s t : State) (timer : Option Byte) (pend : Bool) : Prop :=
  let u := t.intr
  let condition : Prop := u.status &&& u.enable ≠ 0
  (u.msiEnable = false →
    (u.intxLine = true ↔ condition ∧ u.intxDisable = false) ∧ u.msgPending = pend ∧ u.timer = timer ∧ t.smi.path = s.smi.path) ∧
  (u.msiEnable = true → u.intxLine = false) ∧
  (u.msiEnable = true → ¬ condition → u.msgPending = false ∧ u.timer = timer ∧ t.smi.path = s.smi.path) ∧
  (u.msiEnable = true → condition → pend = false → u.msgPending = false ∧ u.timer = timer ∧ t.smi.path = s.smi.path) ∧
  (u.msiEnable = true → condition → pend = true → timer ≠ none →
    u.msgPending = true ∧ u.timer = timer ∧ t.smi.path = s.smi.path) ∧
  (u.msiEnable = true → condition → pend = true → timer = none →
    u.msgPending = false ∧ u.timer = (if u.holdoff = 0 then none else some u.holdoff) ∧ t.smi.path = s.smi.path ++ [.msi])

/-- All that a write of an interrupt register may change: the Interrupt Unit and the posted-write path. -/
def State.sameButSignals (s t : State) : Prop := t = { s with intr := t.intr, smi := { s.smi with path := t.smi.path } }

/-! ### Holds -/

/-- R16: the streams of port `p` that are OPEN or CLOSING and not held with PORT_NOT_RUNNING, ascending: those whose part half is
written when the port leaves RUNNING. -/
def State.unheld (s : State) (p : PortId) : List StreamId :=
  allStreams.filter (fun i => (s.ctx i).live && (s.ctx i).params.portId = p && !(s.ctx i).holds.portNotRunning)

/-- R16: PORT_NOT_RUNNING set on every stream that is OPEN or CLOSING on one of the ports that `leaves` picks. -/
def State.portsHeld (s : State) (leaves : PortId → Bool) : State :=
  { s with ctxs := tableMap s.ctxs (fun _ c =>
      if c.live && leaves c.params.portId then { c with holds := { c.holds with portNotRunning := true } } else c) }

/-! ### How a take ends -/

/-- R130, R132: position `k` of the examination order holds a request that may be taken: the snapshot differs from the acknowledge copy,
and the owner is a port or a stream that is CLOSED or OPEN. -/
def State.pendingAt (m : State) (snap : ReqArray) (k : Nat) : Bool :=
  reqByte snap (scanOrder k) ≠ m.scanner.ackCopy.get (scanOrder k) && m.takeable (scanOrder k)

/-- R131 to R133: `u` is `m` after the scan has examined its snapshot from position `k` on: the first request that may be taken is taken
and its entry fetch asked; where there is none the scan ends, and a remembered request starts a new one. No parity is checked (log 11). -/
def State.examinedFrom (m u : State) (snap : ReqArray) (k : Nat) : Prop :=
  (∀ n, k ≤ n → n < 260 → m.pendingAt snap n = true → (∀ j, k ≤ j → j < n → m.pendingAt snap j = false) →
    u = { m with
      scanner := { m.scanner with
        take := some { ix := scanOrder n, req := reqByte snap (scanOrder n), stage := .fetching }
        scan := some (.examining snap (n + 1)) }
      smi := m.smi.ask (.entry (scanOrder n)) (m.page (entryPlace (scanOrder n)).1) (entryPlace (scanOrder n)).2 }) ∧
  ((∀ n, k ≤ n → n < 260 → m.pendingAt snap n = false) →
    u = { m with
      scanner := { m.scanner with scan := if m.scanner.remembered then some .reading else none, remembered := false }
      smi := if m.scanner.remembered then m.smi.ask .scanArray (m.page 0x400) 260 else m.smi })

/-- R133, R137: `u` is `m` after the take in progress has ended: the scan goes on at its next position, or ends where the engine is not
RUNNING. -/
def State.takeEnded (m u : State) : Prop :=
  let n := { m with scanner := { m.scanner with take := none } }
  match m.scanner.scan with
  | some (.examining snap k) =>
    if m.engine.state = .running then n.examinedFrom u snap k
    else u = { n with scanner := { n.scanner with scan := none } }
  | _ => u = n

/-! ### What an answer leaves -/

/-- R128: the read numbered `rid` is complete. -/
def State.completed (s : State) (rid : Nat) : State := { s with smi := s.smi.complete rid }

/-- R133: the answer to a stream request recorded: the result and the REQ value in the context of stream `i`, and the acknowledge
copy. -/
def State.answeredStream (s : State) (i : StreamId) (v : Byte) (result : StreamResult) : State :=
  { s.setCtx i { s.ctx i with result := result, resultReq := v } with
    scanner := { s.scanner with ackCopy := s.scanner.ackCopy.set i.val v } }

/-- R95: the answer to a port request recorded. -/
def State.answeredPort (s : State) (p : PortId) (v : Byte) (result : PortResult) : State :=
  { s.setPort p { s.port p with result := result, resultReq := v } with
    scanner := { s.scanner with ackCopy := s.scanner.ackCopy.set (256 + p.val) v } }

/-- R112: the writes of the answer to a stream request: the part half, then the acknowledge. -/
def State.streamAnswer (u : State) (i : StreamId) (v : Byte) : List PathItem := [u.partHalfWrite i, u.ackWrite (streamIx i) v]

/-- R112: the writes of the answer to a port request: the status block, then the acknowledge. -/
def State.portAnswer (u : State) (p : PortId) (v : Byte) : List PathItem := [u.statusWrite p, u.ackWrite (portIx p) v]

/-- R146, R108: `t` is `m` halted with a fault record. How much of the path the link had taken (`k`) is open (log 6); an MSI that waits on
it is dropped with the writes (log 7), and the event's own writes do not go out (log 12). The reads dropped are those that wait in `m`, in
which a completed read's tracker entry is refilled (log 39). -/
def State.haltedAs (m t : State) (code : FaultCode) (detail : Word) : Prop :=
  ∃ k, t = State.sends { m with
    engine := { m.engine with state := .halted, fault := code, detail := detail }
    ports := tableMap m.ports (fun _ q => { q with state := .disabled, cycleTimer := false, line := .idle })
    scanner := { m.scanner with timer := false, scan := none, take := none }
    smi := { m.smi with waiting := [], path := [m.faultWrite code detail], link := m.smi.link ++ m.smi.path.take k }
    free := m.free + 1 } [] causeEngine

/-! ### The budget laws -/

/-- A periodic stream that is OPEN or CLOSING on port `p` (R29). -/
def Ctx.reserves (c : Ctx) (p : PortId) : Bool := c.live && c.params.periodic && c.params.portId = p

/-- R31: what stream context `c` loads bucket `b` of port `p` with. -/
def Ctx.loadOf (c : Ctx) (p : PortId) (b : Nat) : Nat :=
  if c.reserves p && bucketMatches c.params.interval.toNat c.phase.toNat b then c.cost else 0

/-- R31: the sum of COST over the periodic streams of port `p` that are OPEN or CLOSING and match bucket `b`. -/
def State.bucketSum (s : State) (p : PortId) (b : Nat) : Nat := (allStreams.map (fun i => (s.ctx i).loadOf p b)).sum

/-- R29: how many periodic streams of port `p` are OPEN or CLOSING. -/
def State.reserving (s : State) (p : PortId) : Nat := (allStreams.map (fun i => if (s.ctx i).reserves p then 1 else 0)).sum

/-- R37: the sum of MEMORY_COST over the periodic streams that are OPEN or CLOSING. -/
def State.memorySum (s : State) : Nat :=
  (allStreams.map (fun i => if (s.ctx i).live && (s.ctx i).params.periodic then (s.ctx i).memCost else 0)).sum

/-- R29, R31, R37: the budget tables and the memory account equal the sums over the streams. -/
def State.balanced (s : State) : Prop :=
  (∀ p b, (s.budget p).load b = s.bucketSum p b.val) ∧
  (∀ p, (s.budget p).reservations = s.reserving p) ∧
  s.adm.memLoad = s.memorySum

/-- R31: every bucket load is at most the port's periodic cap. -/
def State.withinCaps (s : State) : Prop := ∀ p b, (s.budget p).load b ≤ (s.budget p).figures.cap

/-- R37: with a memory cap in force the memory load total is at most the cap. -/
def State.withinMemoryCap (s : State) : Prop := s.adm.memCap ≠ 0 → s.adm.memLoad ≤ s.adm.memCap.toNat

end Sys2Proof.Machine
end

