-- ==== Sys2Proof/Certificates/Slice0/Obligations.lean ====
section
/-! DEFINITION. The statements about the SC4 for the provers: one per rule or group of rules of spec/. Terms such as "the take of stream i with REQ value v whose entry read is r" are those of Sys2Proof/Safety.lean and Sys2Proof/Machine. -/

open Sys2Proof Sys2Proof.Machine

/-! ### Steps and registers -/

/-- A step takes one command, whole and indivisible (95_what_each_step_holds.md): a step with a command at the front of the queue is that
command's execution on the state with the queue's rest, and with no command waiting the block idles. The queue of commands is the model's
(log 21), and so is idling on an empty one (log 2). -/
def Obligations.StepRunsFrontCommand : Prop :=
  (∀ (c : Instr) (rest : List Instr) (s : State), step { s with pending := c :: rest } = exec c { s with pending := rest }) ∧
  (∀ s : State, s.pending = [] → step s = .next s)

/-- Every command answers a next state in every state, so no step faults or refuses. That a command which names no event of the present
state answers next too (log 1), and so does a step with no command waiting (log 2), are the model's choices. -/
def Obligations.EveryCommandAnswersNext : Prop :=
  (∀ (c : Instr) (s : State), ∃ t, exec c s = .next t) ∧ ∀ s : State, s.safe

/-- R150, R152, R153: what each register reads, in full and by its bytes and halves, and at its offset in the window; outside the 32 bytes
of the window nothing is read (an access not wholly within one register is none of the map's, log 29; narrower than 32 bits are 8 and 16
bits alone, log 40). R164: a read completes behind every write issued on the link before it (log 42). -/
def Obligations.RegisterReadValues : Prop :=
  ∀ s : State,
    readReg s .ident = 0x023456A3 ∧
    readReg s .control = (if s.engine.state = .starting ∨ s.engine.state = .running then 1 else 0) ∧
    (readReg s .status).extractLsb' 0 3 =
      (match s.engine.state with | .stopped => 0 | .starting => 1 | .running => 2 | .stopping => 3 | .halted => 4) ∧
    (readReg s .status).extractLsb' 4 2 =
      (match s.engine.fault with | .none => 0 | .controlRead => 1 | .contextParity => 2) ∧
    (readReg s .status).extractLsb' 8 3 =
      (match s.engine.startResult with
        | .none => 0 | .started => 1 | .pageUnset => 2 | .headerBad => 3 | .headerFault => 4 | .startOverBudget => 5) ∧
    (∀ p : PortId, (readReg s .status).extractLsb' (12 + 4 * p.val) 3 =
      (match (s.port p).state with | .disabled => 0 | .syncing => 1 | .running => 2 | .stopping => 3 | .faulted => 4)) ∧
    readReg s .status &&& 0xF88888C8 = 0 ∧
    readReg s .pageLo = s.engine.pageLo ∧ readReg s .pageHi = s.engine.pageHi ∧
    readReg s .intrStatus = s.intr.status.setWidth 32 ∧ readReg s .intrEnable = s.intr.enable.setWidth 32 ∧
    readReg s .intrHoldoff = s.intr.holdoff.setWidth 32 ∧
    (∀ (r : Reg) (i : Fin 4), readRegByte s r i = (readReg s r).extractLsb' (8 * i.val) 8) ∧
    (∀ (r : Reg) (i : Fin 2), readRegHalf s r i = (readReg s r).extractLsb' (16 * i.val) 16) ∧
    (∀ r : Reg,
      let offset := match r with
        | .ident => 0x00 | .control => 0x04 | .status => 0x08 | .pageLo => 0x0C | .pageHi => 0x10 | .intrStatus => 0x14
        | .intrEnable => 0x18 | .intrHoldoff => 0x1C
      let byte : Nat → Byte := fun k => (readReg s r).extractLsb' (8 * k) 8
      windowRead s offset .word = some [byte 0, byte 1, byte 2, byte 3] ∧
      (∀ k : Nat, k ≤ 2 → windowRead s (offset + k) .half = some [byte k, byte (k + 1)]) ∧
      (∀ k : Nat, k ≤ 3 → windowRead s (offset + k) .byte = some [byte k])) ∧
    (∀ (offset : Nat) (width : Width), 32 ≤ offset → windowRead s offset width = none) ∧
    (∀ (taken offset : Nat) (width : Width), windowCompletion s taken offset width =
      (windowRead s offset width).map (fun d => (s.smi.link ++ s.smi.path.take taken, d)))

/-- R150, R153: a write at an offset of the window is a write to the register the map has there, and outside the 32 bytes of the window it
is none (an access not wholly within one register is none of the map's, log 29; widths as of log 40); the commands that a write other than
to CONTROL stands for; an ignored one does nothing; PAGE_LO and PAGE_HI take writes in STOPPED alone, PAGE_LO keeping bits 31:12. -/
def Obligations.RegisterWriteCommands : Prop :=
  (∀ (r : Reg) (v : Word),
    let offset := match r with
      | .ident => 0x00 | .control => 0x04 | .status => 0x08 | .pageLo => 0x0C | .pageHi => 0x10 | .intrStatus => 0x14
      | .intrEnable => 0x18 | .intrHoldoff => 0x1C
    windowWrite offset .word v = registerWrite r .word v ∧
    (∀ k : Nat, k ≤ 2 → windowWrite (offset + k) .half v = [.registerWriteIgnored r .half v]) ∧
    (∀ k : Nat, k ≤ 3 → windowWrite (offset + k) .byte v = [.registerWriteIgnored r .byte v])) ∧
  (∀ (offset : Nat) (width : Width) (v : Word), 32 ≤ offset → windowWrite offset width v = []) ∧
  (∀ (reg : Reg) (width : Width) (v : Word), width ≠ .word ∨ reg = .ident ∨ reg = .status →
    registerWrite reg width v = [.registerWriteIgnored reg width v]) ∧
  (∀ (reg : Reg) (width : Width) (v : Word) (s : State), exec (.registerWriteIgnored reg width v) s = .next s) ∧
  (∀ v : Word,
    registerWrite .pageLo .word v = [.pageWrite .lo v] ∧ registerWrite .pageHi .word v = [.pageWrite .hi v] ∧
    registerWrite .intrStatus .word v = [.intrStatusWrite v] ∧ registerWrite .intrEnable .word v = [.intrEnableWrite v] ∧
    registerWrite .intrHoldoff .word v = [.intrHoldoffWrite v]) ∧
  (∀ (v : Word) (s : State),
    (s.engine.state = .stopped →
      exec (.pageWrite .lo v) s = .next { s with engine := { s.engine with pageLo := v &&& 0xFFFFF000 } } ∧
      exec (.pageWrite .hi v) s = .next { s with engine := { s.engine with pageHi := v } }) ∧
    (s.engine.state ≠ .stopped → ∀ reg, exec (.pageWrite reg v) s = .next s))

/-- R151: one write of CONTROL delivers ENGINE_RESET alone, or RUN and then SCAN; what a scan request finds after each (RUN 0 leaves a
RUNNING engine STOPPING where no context it reads has a parity error, R4); and what CONTROL reads. -/
def Obligations.ControlWriteDelivers : Prop :=
  (∀ v : Word, v.getLsbD 2 = true → registerWrite .control .word v = [.engineReset]) ∧
  (∀ s t : State, exec .engineReset s = .next t → readReg t .control = 0) ∧
  (∀ v : Word, v.getLsbD 2 = false → registerWrite .control .word v =
    [if v.getLsbD 0 then Instr.runWritten1 else Instr.runWritten0] ++ (if v.getLsbD 1 then [Instr.scan] else [])) ∧
  (∀ s t : State, s.engine.state = .stopped → exec .runWritten1 s = .next t → exec .scan t = .next t) ∧
  (∀ s t : State, s.engine.state = .running → exec .runWritten1 s = .next t → t = s) ∧
  (∀ s t : State, s.engine.state = .running → exec .runWritten0 s = .next t →
    exec .scan t = .next t ∧ (s.parityGood → t.engine.state = .stopping)) ∧
  (∀ s : State, readReg s .control = (if s.engine.state = .starting ∨ s.engine.state = .running then 1 else 0))

/-! ### Resets -/

/-- R148, R129, R156: a cold reset and a function reset clear the machine; an engine reset keeps PAGE_LO, PAGE_HI, INTR_ENABLE, INTR_HOLDOFF
and the PCIe configuration. Of the writes on the path, those the link has taken stay written and the rest are dropped (how many is open, log
6). The queue, the link record and the numbering of reads are the model's own, and where the spec gives no reset value the model's stands
(logs 13 and 15). An MSI that waits on the path is dropped with the writes (log 7). R164: a read of STATUS after a reset completes behind
every write issued before it, and none is left to issue (log 42). -/
def Obligations.ResetsClear : Prop :=
  ∀ s : State, ∃ k,
    let smi : Smi := { Smi.reset with link := s.smi.link ++ s.smi.path.take k, nextRid := s.smi.nextRid }
    let cleared : State := { State.reset with pending := s.pending, smi := smi, free := s.free + 1 }
    let kept : State := { cleared with
      engine := { State.reset.engine with pageLo := s.engine.pageLo, pageHi := s.engine.pageHi }
      intr := { s.intr with status := 0, timer := none, msgPending := false, intxLine := false } }
    exec .coldReset s = .next cleared ∧ exec .functionReset s = .next cleared ∧ exec .engineReset s = .next kept ∧
    ∀ t ∈ [cleared, kept], ∀ taken, windowCompletion t taken 0x08 .word = some (s.smi.link ++ s.smi.path.take k, [0, 0, 0, 0])

/-- The reset values the spec gives (R3, R29, R45, R62, R68, R84, R94, R105, R127, R130, R136, R137, R139, R150, R156); and the queue of
waiting commands, which is the model's own, is empty (log 21). -/
def Obligations.ResetValues : Prop :=
  let s := State.reset
  (s.engine.state = .stopped ∧ s.engine.startResult = .none ∧ s.engine.fault = .none ∧ s.engine.detail = 0 ∧
    s.engine.freshStart = true ∧ s.engine.withdrawn = false ∧ s.engine.pageBase = 0) ∧
  (readReg s .control = 0 ∧ readReg s .status = 0 ∧ readReg s .pageLo = 0 ∧ readReg s .pageHi = 0 ∧ readReg s .intrStatus = 0 ∧
    readReg s .intrEnable = 0 ∧ readReg s .intrHoldoff = 0) ∧
  (s.intr.msgPending = false ∧ s.intr.timer = none ∧ s.intr.intxLine = false) ∧
  (∀ i : StreamId,
    let c := s.ctx i
    c.state = .closed ∧ c.params = Params.zero ∧ c.phase = 0xFF ∧ c.cost = 0 ∧ c.memCost = 0 ∧ c.paused = false ∧
    c.holds = ⟨false, false, false⟩ ∧ c.oneShot = .idle ∧ c.retriesLeft = 0 ∧ c.tagRef = none ∧ c.sourceOutstanding = false ∧
    c.refreshOutstanding = false ∧ c.closeOutcome = false ∧ c.closeReq = none ∧ c.produced = 0 ∧ c.cached = 0 ∧
    c.consumedInvalid = false ∧ c.lossMark = false ∧ c.signature = none ∧ c.lastOutcome = none ∧ c.counters = ⟨0, 0, 0, 0, 0⟩ ∧
    c.result = .none ∧ c.resultReq = 0) ∧
  (∀ p : PortId,
    let q := s.port p
    let b := s.budget p
    q.state = .disabled ∧ q.faultReason = .none ∧ q.configured = false ∧ q.silenceLimit = 0 ∧ q.deferTimeout = 0 ∧
    q.nodeEnable = 0 ∧ q.cycle = 0 ∧ q.cycleTimer = false ∧
    q.startMismatches = 0 ∧ q.result = .none ∧ q.resultReq = 0 ∧ q.change = ⟨0, .unknown, 0, 0⟩ ∧ q.corruptCount = 0 ∧
    q.lineErrors = 0 ∧ q.silentCount = 0 ∧ q.allocations = 0 ∧ (∀ t, q.tag t = ⟨.free, 0, 0, 0, 0, 0, 0, 0⟩) ∧
    (∀ a, q.node a = ⟨.unknown, 0, 0, 0, none, 0⟩) ∧ q.nextPlan = [] ∧ q.current = [] ∧ q.urgent = [] ∧ q.normal = [] ∧
    q.fetchList = [] ∧ q.turn = .fetchList ∧ q.windowOpen = false ∧ q.periodicUsed = 0 ∧ q.aperiodicUsed = 0 ∧
    q.lastPeriodic = 0 ∧ q.lastAperiodic = 0 ∧
    (∀ j, b.load j = 0) ∧ b.cycleIndex = 0 ∧ b.capPct = 0 ∧ b.figures = ⟨0, 0, 0, 0, 0, 0⟩ ∧ b.reservations = 0) ∧
  (s.adm.memLoad = 0 ∧ s.adm.memCap = 0 ∧ s.updateCount = 0) ∧
  (s.scanner.period = 0 ∧ s.scanner.timer = false ∧ s.scanner.remembered = false ∧ s.scanner.scan = none ∧
    s.scanner.take = none ∧ ∀ i, s.scanner.ackCopy.get i = 0) ∧
  (s.smi.inFlight = [] ∧ s.smi.waiting = [] ∧ s.smi.path = [] ∧ s.writer.outcomes = [] ∧ s.pending = [])

/-! ### Interrupts -/

/-- R154, R155, R156: a write of INTR_STATUS clears each bit written 1; a write of INTR_ENABLE or INTR_HOLDOFF sets the register; and
the signalling that follows (in INTx mode the pending flag and the timer stay, log 14). -/
def Obligations.InterruptRegisterWrites : Prop :=
  ∀ (v : Word) (s : State),
    (∃ t, exec (.intrStatusWrite v) s = .next t ∧ s.sameButSignals t ∧
      t.intr.status = s.intr.status &&& ~~~ v.setWidth 3 ∧ t.intr.enable = s.intr.enable ∧ t.intr.holdoff = s.intr.holdoff ∧
      t.intr.msiEnable = s.intr.msiEnable ∧ t.intr.intxDisable = s.intr.intxDisable ∧
      s.signalled t s.intr.timer
        (s.intr.msgPending || (s.intr.msiEnable && decide (s.intr.status &&& ~~~ v.setWidth 3 &&& s.intr.enable ≠ 0)))) ∧
    (∃ t, exec (.intrEnableWrite v) s = .next t ∧ s.sameButSignals t ∧
      t.intr.status = s.intr.status ∧ t.intr.enable = v.setWidth 3 ∧ t.intr.holdoff = s.intr.holdoff ∧
      t.intr.msiEnable = s.intr.msiEnable ∧ t.intr.intxDisable = s.intr.intxDisable ∧
      s.signalled t s.intr.timer
        (s.intr.msgPending || (s.intr.msiEnable && decide (s.intr.status &&& v.setWidth 3 ≠ 0)))) ∧
    (∃ t, exec (.intrHoldoffWrite v) s = .next t ∧ s.sameButSignals t ∧
      t.intr.status = s.intr.status ∧ t.intr.enable = s.intr.enable ∧ t.intr.holdoff = v.setWidth 8 ∧
      t.intr.msiEnable = s.intr.msiEnable ∧ t.intr.intxDisable = s.intr.intxDisable ∧
      s.signalled t s.intr.timer s.intr.msgPending)

/-- R155: at its expiry the holdoff timer stops, and a message that waits is sent and starts it again; an expiry of a stopped timer is
no event (log 1). R156: a configuration write takes effect in its event; a change to MSI mode with the condition in force sets the
pending flag. -/
def Obligations.HoldoffExpiryAndConfiguration : Prop :=
  ∀ s : State,
    (s.intr.timer ≠ none → ∃ t, exec .holdoffTimerExpiry s = .next t ∧ s.sameButSignals t ∧
      t.intr.status = s.intr.status ∧ t.intr.enable = s.intr.enable ∧ t.intr.holdoff = s.intr.holdoff ∧
      t.intr.msiEnable = s.intr.msiEnable ∧ t.intr.intxDisable = s.intr.intxDisable ∧
      s.signalled t none s.intr.msgPending) ∧
    (s.intr.timer = none → exec .holdoffTimerExpiry s = .next s) ∧
    (∀ msi dis : Bool, ∃ t, exec (.pcieConfigWrite msi dis) s = .next t ∧ s.sameButSignals t ∧
      t.intr.status = s.intr.status ∧ t.intr.enable = s.intr.enable ∧ t.intr.holdoff = s.intr.holdoff ∧
      t.intr.msiEnable = msi ∧ t.intr.intxDisable = dis ∧
      s.signalled t s.intr.timer
        (s.intr.msgPending || (!s.intr.msiEnable && msi && decide (s.intr.status &&& s.intr.enable ≠ 0))))

/-- R112, R136, R154 to R156: the end of an event: slots and PRODUCED writes, part halves, status blocks and acknowledges go out in this
order with UPDATE_COUNT last; no write leaves the count; the causes set their bits and signal (in INTx mode the pending flag and the timer
stay, log 14; several acknowledges of one event go out in the order made, log 36). R164: an event that leaves the engine STOPPED leaves no
write on the path, but for messages behind the last one (log 41). R157, R158: the 64 bytes of a part half and of a port
status block. -/
def Obligations.EventEnd : Prop :=
  (∀ e : Ev, e.finish = e.m.sends
    (e.slots ++ e.dirty.map e.m.partHalfWrite ++ e.blocks.map e.m.statusWrite ++ e.acks.map (fun a => e.m.ackWrite a.1 a.2))
    e.causes) ∧
  (∀ (m : State) (ws : List PathItem) (causes : BitVec 3),
    let t := m.sends ws causes
    let sent := if ws = [] then m.smi.path
      else m.smi.path ++ ws ++ [.write (m.page 0x24) (le4 (m.updateCount + 1))]
    t = { m with intr := t.intr, updateCount := t.updateCount, smi := { m.smi with path := t.smi.path, link := t.smi.link } } ∧
    t.updateCount = (if ws = [] then m.updateCount else m.updateCount + 1) ∧
    t.intr.status = m.intr.status ||| causes ∧ t.intr.enable = m.intr.enable ∧ t.intr.holdoff = m.intr.holdoff ∧
    t.intr.msiEnable = m.intr.msiEnable ∧ t.intr.intxDisable = m.intr.intxDisable ∧
    ∃ gone left, sent = gone ++ left ∧ t.smi.link = m.smi.link ++ gone ∧ (m.engine.state ≠ .stopped → gone = []) ∧
      (m.engine.state = .stopped → (∀ x ∈ left, x = .msi) ∧ (gone = [] ∨ ∃ ahead a b, gone = ahead ++ [.write a b])) ∧
      State.signalled { m with smi := { m.smi with path := left } } t m.intr.timer
        (m.intr.msgPending || (m.intr.msiEnable && decide (causes &&& m.intr.enable ≠ 0)))) ∧
  (∀ c : Ctx,
    let le : Nat → Nat → List Byte := fun n x => (List.range n).map (fun k => BitVec.ofNat 8 (x / 256 ^ k))
    let bits : List Bool → Byte := fun bs => BitVec.ofNat 8 ((bs.zipIdx.map (fun b => if b.1 then 2 ^ b.2 else 0)).sum)
    let h := c.holds
    let state : Byte := match c.state with | .closed => 0 | .opening => 1 | .isOpen => 2 | .closing => 3
    let oneShot : Byte := match c.oneShot with | .idle => 0 | .queued => 1 | .inFlight => 2
    let result : Byte := match c.result with
      | .none => 0 | .accepted => 1 | .noChange => 2 | .badAction => 3 | .badKind => 4 | .badPort => 5 | .badNode => 6
      | .badOperation => 7 | .badLength => 8 | .badInterval => 9 | .badPhase => 10 | .badWindow => 11 | .badSource => 12
      | .portBudget => 13 | .memoryBudget => 14 | .tooLarge => 15 | .notOpen => 16 | .alreadyOpen => 17 | .wrongKind => 18
      | .busy => 19 | .held => 20 | .paused => 21 | .queueFull => 22 | .entryFault => 23
    let last : Byte := match c.lastOutcome with
      | none => 0 | some .ok => 1 | some .rejected => 2 | some .timeout => 3 | some .silent => 4 | some .corrupt => 5
      | some .lineError => 6 | some .noTag => 7 | some .nodeLost => 8 | some .portStopped => 9 | some .skipOverlap => 10
      | some .skipNoTag => 11 | some .skipNodeLimit => 12 | some .sourceLate => 13 | some .sourceFault => 14
      | some .cancelled => 15
    partHalf c = [state, bits [c.paused, h.portNotRunning || h.nodeLost || h.memoryFault, c.consumedInvalid],
        bits [h.portNotRunning, h.nodeLost, h.memoryFault], oneShot, result, c.resultReq, c.phase, last] ++
      le 2 c.cost ++ List.replicate 2 0 ++ le 4 c.memCost ++ le 4 c.counters.occurrences.toNat ++ le 4 c.counters.misses.toNat ++
      le 4 c.counters.overruns.toNat ++ le 4 c.counters.timeouts.toNat ++ le 4 c.counters.retriesUsed.toNat ++
      List.replicate 28 0 ∧
    (partHalf c).length = 64) ∧
  (∀ q : Port,
    let le : Nat → Nat → List Byte := fun n x => (List.range n).map (fun k => BitVec.ofNat 8 (x / 256 ^ k))
    let node : NodeState → Byte := fun st => match st with | .unknown => 0 | .present => 1 | .lost => 2
    let state : Byte := match q.state with | .disabled => 0 | .syncing => 1 | .running => 2 | .stopping => 3 | .faulted => 4
    let reason : Byte := match q.faultReason with | .none => 0 | .startEcho => 1
    let result : Byte := match q.result with
      | .none => 0 | .accepted => 1 | .noChange => 2 | .badAction => 3 | .badConfig => 4 | .streamsAdmitted => 5
      | .wrongState => 6 | .entryFault => 7
    ∃ present lost : BitVec 64,
      (∀ a : Nat, a < 64 →
        (present.getLsbD a = true ↔ 1 ≤ a ∧ a ≤ 62 ∧ (q.node (BitVec.ofNat 8 a)).state = .present) ∧
        (lost.getLsbD a = true ↔ 1 ≤ a ∧ a ≤ 62 ∧ (q.node (BitVec.ofNat 8 a)).state = .lost)) ∧
      statusBlock q = [state, reason, result, q.resultReq] ++ le 4 q.cycle.toNat ++ le 8 present.toNat ++ le 8 lost.toNat ++
        [q.change.node, node q.change.state, BitVec.ofNat 8 q.change.corrupt, 0] ++ le 4 q.change.heard.toNat ++
        le 4 q.corruptCount.toNat ++ le 4 q.lineErrors.toNat ++ le 4 q.silentCount.toNat ++ le 4 q.lastPeriodic ++
        le 4 q.lastAperiodic ++ List.replicate 12 0 ∧
      (statusBlock q).length = 64)

/-! ### The engine -/

/-- R140 and check 1 of R141: what RUN written 1 or 0 does in each engine state, and what RUN reads. A check 1 that fails copies the page
base too (log 23); RUN 0 leaves a RUNNING engine STOPPING where no context of a stream it holds has a parity error (R4, log 11). -/
def Obligations.RunWriteTable : Prop :=
  ∀ s : State,
    let base : Addr := s.engine.pageHi ++ s.engine.pageLo
    (s.engine.state = .stopped → base ≠ 0 → exec .runWritten1 s = .next (State.sends { s with
      engine := { s.engine with state := .starting, withdrawn := false, pageBase := base }
      smi := s.smi.ask .header base 64 } [] 0)) ∧
    (s.engine.state = .stopped → base = 0 → exec .runWritten1 s = .next (State.sends { s with
      engine := { s.engine with state := .stopped, withdrawn := false, pageBase := 0, startResult := .pageUnset } } [] causeEngine)) ∧
    (s.engine.state ≠ .stopped → exec .runWritten1 s = .next s) ∧
    (s.engine.state = .starting → exec .runWritten0 s = .next (State.sends { s with
      engine := { s.engine with withdrawn := true } } [] 0)) ∧
    (s.engine.state = .running →
      (∀ i, (s.ctx i).live = true → (s.port (s.ctx i).params.portId).state = .running → (s.ctx i).parityOk = true) →
      ∃ t, exec .runWritten0 s = .next t ∧ t.engine = { s.engine with state := .stopping }) ∧
    (s.engine.state = .stopped ∨ s.engine.state = .stopping ∨ s.engine.state = .halted → exec .runWritten0 s = .next s) ∧
    (readReg s .control).getLsbD 0 = decide (s.engine.state = .starting ∨ s.engine.state = .running)

/-- R144, R98: RUN written 0 in RUNNING: the scan timer stops, a remembered request is dropped, and every port is ordered to stop: the
streams of a RUNNING port are held, and each port whose state changes rewrites its status block. The premise is that no stream to be
held has a parity error (R4, log 11); the order of the ports and of the streams, ascending, is the model's (log 32). -/
def Obligations.EngineStopOrders : Prop :=
  ∀ s : State, s.engine.state = .running →
    (∀ i, (s.ctx i).live = true → (s.port (s.ctx i).params.portId).state = .running → (s.ctx i).parityOk = true) →
    let leaves : PortId → Bool := fun p => (s.port p).state = .running
    let moves : PortId → Bool := fun p => (s.port p).state ≠ .disabled && (s.port p).state ≠ .stopping
    let m : State := { s.portsHeld leaves with
      engine := { s.engine with state := .stopping }
      scanner := { s.scanner with timer := false, remembered := false }
      ports := tableMap s.ports (fun _ q =>
        if q.state = .syncing ∨ q.state = .running then { q with state := .stopping, windowOpen := false }
        else if q.state = .faulted then { q with state := .disabled } else q) }
    exec .runWritten0 s = .next (m.sends
      (((allPorts.filter leaves).flatMap s.unheld).map m.partHalfWrite ++ (allPorts.filter moves).map m.statusWrite)
      (if allPorts.any moves then causePort else 0))

/-- R141 checks 2 to 4, R127, R36, R142, R143: the end of the header read of a start. -/
def Obligations.HeaderReadDecides : Prop :=
  ∀ (s : State) (f : Read), s.smi.flyingFor .header = some f → s.engine.state = .starting →
    let m := s.completed f.rid
    let fails : StartResult → Answer := fun r =>
      .next (State.sends { m with engine := { m.engine with state := .stopped, startResult := r } } [] causeEngine)
    exec (.headerReadComplete .fault) s = fails .headerFault ∧
    ∀ h : Bytes64,
      let cap : Word := fieldAt h 4 4
      let taken : State := { m with
        adm := { m.adm with memCap := cap }
        scanner := { m.scanner with period := if (byteAt h 8).toNat ≤ 16 then byteAt h 8 else 16 }
        engine := { m.engine with startResult := .started, epoch := fieldAt h 0x20 4 } }
      ((fieldAt h 0 4 : Word) ≠ 1 → exec (.headerReadComplete (.data h)) s = fails .headerBad) ∧
      ((fieldAt h 0 4 : Word) = 1 → cap ≠ 0 → cap.toNat < s.adm.memLoad →
        exec (.headerReadComplete (.data h)) s = fails .startOverBudget) ∧
      ((fieldAt h 0 4 : Word) = 1 → cap = 0 ∨ s.adm.memLoad ≤ cap.toNat →
        (s.engine.freshStart = true → exec (.headerReadComplete (.data h)) s = .next (State.sends { taken with
          smi := taken.smi.ask .freshArray (s.page 0x400) 260 } [] 0)) ∧
        (s.engine.freshStart = false → s.engine.withdrawn = true → exec (.headerReadComplete (.data h)) s = .next
          (State.sends { taken with engine := { taken.engine with state := .stopped } } [] causeEngine)) ∧
        (s.engine.freshStart = false → s.engine.withdrawn = false → exec (.headerReadComplete (.data h)) s = .next
          (State.sends { taken with
            engine := { taken.engine with state := .running }
            scanner := { taken.scanner with timer := taken.scanner.period ≠ 0, scan := none, remembered := false } } []
            causeEngine)))

/-- R142, R143: the read of a fresh start ends with data: every area the part owns is written, in this order, and the engine enters RUNNING,
or STOPPED where RUN was written 0 meanwhile. A fault halts the engine (R146). The drop at the halt: how much of the path the link has taken
is open (log 6), and an MSI that waits on it is dropped with the writes (log 7). A read that waited for the tracker entry freed by the
completion that halts is issued, not dropped (the model's choice, log 39). -/
def Obligations.FreshStartWritesAll : Prop :=
  ∀ (s : State) (f : Read), s.smi.flyingFor .freshArray = some f → s.engine.state = .starting →
    let m := s.completed f.rid
    (∀ a : ReqArray,
      let ws : List PathItem :=
        (List.range 256).map (fun i => .write (s.page (0x800 + 4 * i)) (zeros 4)) ++
        (List.range 256).map (fun i => .write (s.page (0x1040 + 128 * i)) (zeros 6 ++ [0xFF] ++ zeros 57)) ++
        (List.range 4).map (fun p => .write (s.page (0xC0 + 64 * p)) (zeros 64)) ++
        (List.range 260).map (fun i => .write (s.page (0x600 + i)) [byteAt a i]) ++
        [.write (s.page 0x20) (le4 (s.engine.epoch + 1)), .write (s.page 0x28) (zeros 8)]
      let copied : State := { m with scanner := { m.scanner with ackCopy := Vector.ofFn (fun i => reqByte a i) } }
      (s.engine.withdrawn = false → exec (.freshStartReadComplete (.data a)) s = .next (State.sends { copied with
        engine := { s.engine with freshStart := false, state := .running }
        scanner := { copied.scanner with timer := s.scanner.period ≠ 0, scan := none, remembered := false } } ws causeEngine)) ∧
      (s.engine.withdrawn = true → exec (.freshStartReadComplete (.data a)) s = .next (State.sends { copied with
        engine := { s.engine with freshStart := false, state := .stopped } } ws causeEngine))) ∧
    ∃ t, exec (.freshStartReadComplete .fault) s = .next t ∧ m.haltedAs t .controlRead 0x400

/-- R145: a STOPPING engine with nothing left to do enters STOPPED; otherwise the command is no event (log 1, log 18). R164: entering
STOPPED leaves no read out and no write to issue (log 41), and a read of STATUS made then completes behind all of them (log 42). -/
def Obligations.EngineEntersStopped : Prop :=
  ∀ s : State,
    let done : Prop :=
      s.engine.state = .stopping ∧ (∀ p, (s.port p).state = .disabled) ∧ s.scanner.take = none ∧ s.smi.inFlight = [] ∧
      s.smi.waiting = [] ∧ s.writer.outcomes = [] ∧ s.writer.cancelled = [] ∧ ∀ i, (s.ctx i).refreshOutstanding = false
    let t := State.sends { s with engine := { s.engine with state := .stopped } } [] causeEngine
    (done → exec .engineEnterStopped s = .next t ∧ t.smi.inFlight = [] ∧ t.smi.waiting = [] ∧ (∀ x ∈ t.smi.path, x = .msi) ∧
      ∀ taken d, windowCompletion t taken 0x08 .word = some d → ∀ a b, .write a b ∈ s.smi.link ++ s.smi.path → .write a b ∈ d.1) ∧
    (¬ done → exec .engineEnterStopped s = .next s)

/-- R147, R146: a halted engine keeps its fault record: every command but the resets, the Interrupt Unit's own and the PCIe
configuration write changes nothing, those that signal leave Engine Control as it is and write nothing but an MSI, and a reset leaves
the engine STOPPED. -/
def Obligations.HaltedEngineFrozen : Prop :=
  ∀ (s : State) (c : Instr), s.engine.state = .halted →
    (c ∈ [Instr.coldReset, Instr.functionReset, Instr.engineReset] →
      ∃ t, exec c s = .next t ∧ t.engine.state = .stopped ∧ t.engine.fault = .none) ∧
    ((c = .holdoffTimerExpiry ∨ (∃ v, c = .intrStatusWrite v ∨ c = .intrEnableWrite v ∨ c = .intrHoldoffWrite v) ∨
        ∃ a b, c = .pcieConfigWrite a b) →
      ∃ t, exec c s = .next t ∧ s.sameButSignals t ∧ (t.smi.path = s.smi.path ∨ t.smi.path = s.smi.path ++ [.msi])) ∧
    (c ∉ [Instr.coldReset, Instr.functionReset, Instr.engineReset, Instr.holdoffTimerExpiry] →
      (∀ v, c ≠ .intrStatusWrite v ∧ c ≠ .intrEnableWrite v ∧ c ≠ .intrHoldoffWrite v) → (∀ a b, c ≠ .pcieConfigWrite a b) →
      exec c s = .next s)

/-! ### The scanner and the System Memory Interface -/

/-- R131, R132: a scan request of a RUNNING engine, by SCAN or by the scan timer, starts a scan or is remembered while one is in
progress; in the other states it is ignored. -/
def Obligations.ScanRequests : Prop :=
  ∀ (s : State) (c : Instr), (c = .scan ∨ (c = .scanTimerExpiry ∧ s.scanner.timer = true)) →
    (s.engine.state = .running → s.scanner.scan = none → exec c s = .next (State.sends { s with
      scanner := { s.scanner with scan := some .reading }
      smi := s.smi.ask .scanArray (s.page 0x400) 260 } [] 0)) ∧
    (s.engine.state = .running → s.scanner.scan ≠ none → exec c s = .next (State.sends { s with
      scanner := { s.scanner with remembered := true } } [] 0)) ∧
    (s.engine.state ≠ .running → exec c s = .next s)

/-- R132, R133, R137, R146: the array read of a scan ends: the first request that may be taken, in the order of the scan, is taken; a scan
of an engine that is not RUNNING ends (log 28); a fault halts the engine. The order is 256 to 259, then 0 to 255; a port's request may be
taken, and a stream's where it is CLOSED or OPEN; the entry fetch is 64 bytes of a stream's entry, or 32 of a port's. That an address of
the page wraps at 2^64 is the model's choice (log 37). The examination looks at a stream's state without a parity check
(the model's choice, log 11). The drop at the halt: how much of the path the link has taken is open (log 6), and an MSI that waits on it is
dropped with the writes (log 7). A read that waited for the tracker entry freed by the completion that halts is issued, not dropped (the
model's choice, log 39). -/
def Obligations.SnapshotTakesFirstRequest : Prop :=
  (∀ k : Nat, (k < 4 → (scanOrder k).val = 256 + k) ∧ (4 ≤ k → k < 260 → (scanOrder k).val = k - 4)) ∧
  (∀ (m : State) (i : ReqIx), 256 ≤ i.val → m.takeable i = true) ∧
  (∀ (m : State) (i : ReqIx) (k : StreamId), i.val = k.val →
    (m.takeable i = true ↔ (m.ctx k).state = .closed ∨ (m.ctx k).state = .isOpen)) ∧
  (∀ i : ReqIx, (i.val < 256 → entryPlace i = (0x1000 + 128 * i.val, 64)) ∧
    (256 ≤ i.val → entryPlace i = (0x40 + 32 * (i.val - 256), 32))) ∧
  (∀ (a : ReqArray) (i : ReqIx), reqByte a i = a.extractLsb' (8 * i.val) 8) ∧
  (∀ (m : State) (n : Nat), m.page n = m.engine.pageBase + BitVec.ofNat 64 n) ∧
  ∀ (s : State) (f : Read), s.smi.flyingFor .scanArray = some f → s.engine.state ≠ .halted →
    let m := s.completed f.rid
    (∀ a : ReqArray, s.engine.state = .running →
      ∃ u, m.examinedFrom u a 0 ∧ exec (.scanSnapshotComplete (.data a)) s = .next (u.sends [] 0)) ∧
    (∀ a : ReqArray, s.engine.state ≠ .running → exec (.scanSnapshotComplete (.data a)) s =
      .next (State.sends { m with scanner := { m.scanner with scan := none } } [] 0)) ∧
    ∃ t, exec (.scanSnapshotComplete .fault) s = .next t ∧ m.haltedAs t .controlRead 0x400

/-- R128: a read asked is issued while the tracker holds fewer than 16, and otherwise waits its turn; a read that ends leaves its entry
to the read that has waited longest; data of a read no longer in flight is discarded. -/
def Obligations.ReadTracker : Prop :=
  (∀ (m : Smi) (w : ReadFor) (a : Addr) (n : Nat), m.bounded →
    let r : Read := { rid := m.nextRid, what := w, addr := a, len := n }
    (m.inFlight.length < 16 → m.ask w a n = { m with inFlight := m.inFlight ++ [r], nextRid := m.nextRid + 1 }) ∧
    (m.inFlight.length = 16 → m.ask w a n = { m with waiting := m.waiting ++ [r], nextRid := m.nextRid + 1 })) ∧
  (∀ (m : Smi) (before after : List Read) (r : Read), m.inFlight = before ++ [r] ++ after →
    (∀ x ∈ before ++ after, x.rid ≠ r.rid) →
    (m.waiting = [] → m.complete r.rid = { m with inFlight := before ++ after }) ∧
    (∀ x rest, m.waiting = x :: rest → m.inFlight.length = 16 →
      m.complete r.rid = { m with inFlight := before ++ after ++ [x], waiting := rest })) ∧
  (∀ (rid : Nat) (s : State), exec (.lateReadData rid) s = .next s)

/-- R128: a read timeout is to the block that asked what a read fault is. -/
def Obligations.ReadTimeoutActsAsFault : Prop :=
  ∀ (s : State) (rid pos : Nat) (f : Read), s.smi.flying rid = some f → s.smi.flyingFor f.what = some f →
    ∃ t, exec (.smiReadTimeout rid pos) s = .next t ∧
      match f.what with
      | .scanArray => exec (.scanSnapshotComplete .fault) s = .next t
      | .header => exec (.headerReadComplete .fault) s = .next t
      | .freshArray => exec (.freshStartReadComplete .fault) s = .next t
      | .entry _ => exec .entryFault s = .next t
      | .openConsumed _ => exec (.consumedReadComplete .fault) s = .next t
      | .refresh i => exec (.consumedRefreshComplete i .fault) s = .next t
      | .selector _ _ => exec (.selectorReadComplete rid .fault pos) s = .next t
      | .half _ _ _ => exec (.halfReadComplete rid .fault pos) s = .next t

/-! ### Stream requests -/

/-- R5: a stream request refused against the stream's state, whichever command carries it (that the row of its ACTION and STREAM_BAD_ACTION
both carry it is the model's reading, log 31): the result, the part half, the acknowledge; everything else of the stream as it was; the take
ends (R133). The scan that goes on as the take ends looks at streams without a parity check (log 11). -/
def Obligations.RequestRefusedAgainstState : Prop :=
  ∀ (s : State) (i : StreamId) (v : Byte) (r : Read) (hh : Bytes64) (c : Instr) (result : StreamResult),
    s.streamTake = some (i, v, r) → s.engine.state ≠ .halted → (s.ctx i).parityOk = true →
    (c = .streamBadAction hh ∨
      (c.wf = true ∧
        (c = .openStream hh ∨ c = .resume hh ∨ ∃ pos, c = .closeStream hh pos ∨ c = .fire hh pos ∨ c = .pause hh pos))) →
    ((¬ (1 ≤ (byteAt hh 0).toNat ∧ (byteAt hh 0).toNat ≤ 5) ∧ result = .badAction) ∨
      (2 ≤ (byteAt hh 0).toNat ∧ (byteAt hh 0).toNat ≤ 5 ∧ (s.ctx i).state = .closed ∧ result = .notOpen) ∨
      (byteAt hh 0 = 1 ∧ (s.ctx i).state = .isOpen ∧ result = .alreadyOpen)) →
    ∃ u, ((s.completed r.rid).answeredStream i v result).takeEnded u ∧
      exec c s = .next (u.sends (u.streamAnswer i v) causeStream)

/-- R134: the entry fetch of a taken request faults: ENTRY_FAULT is the answer, and nothing else of the owner changes. (A stream whose
context has a parity error halts the engine instead, R4: stated in ParityErrorHalts.) The scan that goes on as the take ends looks at
streams without a parity check (log 11). -/
def Obligations.EntryFaultAnswered : Prop :=
  ∀ s : State, s.engine.state ≠ .halted →
    (∀ i v r, s.streamTake = some (i, v, r) → (s.ctx i).parityOk = true →
      ∃ u, ((s.completed r.rid).answeredStream i v .entryFault).takeEnded u ∧
        exec .entryFault s = .next (u.sends (u.streamAnswer i v) causeStream)) ∧
    (∀ p v r, s.portTake = some (p, v, r) →
      ∃ u, ((s.completed r.rid).answeredPort p v .entryFault).takeEnded u ∧
        exec .entryFault s = .next (u.sends (u.portAnswer p v) causePort))

/-- R6: the field checks of an OPEN, in the order of the table: the result is that of the first check that fails. -/
def Obligations.OpenChecksInOrder : Prop :=
  ∀ (q : Params) (enable : BitVec 64),
    let out := q.outLen.toNat
    let inn := q.inLen.toNat
    let up := fun n : Nat => (n + 15) / 16 * 16
    let periodic := q.kind = 1
    let rows : List (Bool × StreamResult) :=
      [(decide (q.kind = 1 ∨ q.kind = 2), .badKind),
       (decide (q.port.toNat ≤ 3), .badPort),
       (decide (1 ≤ q.node.toNat ∧ q.node.toNat ≤ 62 ∧ enable.getLsbD q.node.toNat = true), .badNode),
       (decide (1 ≤ q.operation.toNat ∧ q.operation.toNat ≤ 3), .badOperation),
       (decide ((q.operation = 1 ∧ out = 0 ∧ 1 ≤ inn ∧ inn ≤ 240) ∨ (q.operation = 2 ∧ 1 ≤ out ∧ out ≤ 240 ∧ inn = 0) ∨
         (q.operation = 3 ∧ 1 ≤ out ∧ out ≤ 240 ∧ 1 ≤ inn ∧ inn ≤ 240)), .badLength),
       (decide (periodic → q.interval.toNat ≤ 6), .badInterval),
       (decide (periodic → q.phase = 0xFF ∨ q.phase.toNat < 2 ^ q.interval.toNat), .badPhase),
       (decide (¬ periodic → (q.cls = 1 ∨ q.cls = 2) ∧ q.retries.toNat ≤ 7), .badKind),
       (decide (q.delivery = 1 ∨ (q.delivery = 2 ∧ periodic ∧ q.operation ≠ 2)), .badKind),
       (decide (q.windowBase ≠ 0 ∧ q.windowBase.toNat % 64 = 0 ∧ 1 ≤ q.slotCount.toNat ∧ q.slotCount.toNat ≤ 64 ∧
         (q.overflow = 1 ∨ q.overflow = 2) ∧ q.notify.toNat ≤ 1 ∧
         q.windowBase.toNat + q.slotCount.toNat * (16 + up inn) ≤ 2 ^ 64), .badWindow),
       (decide (0 < out → q.sourceBase ≠ 0 ∧ q.sourceBase.toNat % 16 = 0 ∧ q.sourceBase.toNat + 16 + 2 * up out ≤ 2 ^ 64),
         .badSource)]
    q.openRefusal enable = (rows.find? (fun row => !row.1)).map Prod.snd

/-- R1, R26, R27, R35, R109, R158: the fields an OPEN reads, those it keeps, and the costs and sizes computed from them. -/
def Obligations.ParametersAndCosts : Prop :=
  (∀ hh : Bytes64,
    let q := hostParams hh
    q.kind = byteAt hh 1 ∧ q.port = byteAt hh 2 ∧ q.node = byteAt hh 3 ∧ q.operation = byteAt hh 4 ∧ q.outLen = byteAt hh 5 ∧
    q.inLen = byteAt hh 6 ∧ q.interval = byteAt hh 7 ∧ q.phase = byteAt hh 8 ∧ q.cls = byteAt hh 9 ∧
    q.retries = byteAt hh 10 ∧ q.delivery = byteAt hh 11 ∧ q.overflow = byteAt hh 12 ∧ q.notify = byteAt hh 13 ∧
    q.item = hh.extractLsb' 112 16 ∧ q.slotCount = byteAt hh 24 ∧
    q.windowBase = hh.extractLsb' 128 64 ∧ q.sourceBase = hh.extractLsb' 256 64) ∧
  (∀ q : Params, q.kind = 1 ∨ q.kind = 2 →
    q.admitted = { q with
      interval := if q.kind = 2 then 0 else q.interval
      phase := if q.kind = 2 then 0xFF else q.phase
      cls := if q.kind = 1 then 2 else q.cls
      retries := if q.kind = 1 then 0 else q.retries
      sourceBase := if q.outLen = 0 then 0 else q.sourceBase }) ∧
  (∀ (q : Params) (k : Nat),
    let up := fun n : Nat => (n + 15) / 16 * 16
    q.cost = 24 + q.outLen.toNat + max q.inLen.toNat 1 ∧
    q.fetchCost = 24 + max q.inLen.toNat 1 ∧
    q.memCost k = (q.outLen.toNat + 20 + up q.inLen.toNat) * 2 ^ (10 - k - q.interval.toNat) ∧
    q.slotSize = 16 + up q.inLen.toNat)

/-- R6, R7: an OPEN taken for a CLOSED stream: a failed field check is the answer and the stream is CLOSED as before (log 16); otherwise the
stream is OPENING and CONSUMED is read, with the parameters to be admitted held in the take (the model's choice, log 25). The scan that goes
on as the take ends looks at streams without a parity check (log 11). -/
def Obligations.OpenTaken : Prop :=
  ∀ (s : State) (i : StreamId) (v : Byte) (r : Read) (hh : Bytes64),
    s.streamTake = some (i, v, r) → s.engine.state ≠ .halted → (s.ctx i).parityOk = true → (s.ctx i).state = .closed →
    byteAt hh 0 = 1 →
    let q := hostParams hh
    let m := s.completed r.rid
    let t : State := { m.setCtx i { m.ctx i with state := .opening } with
      scanner := { m.scanner with take := some { ix := streamIx i, req := v, stage := .opening q.admitted } }
      smi := m.smi.ask (.openConsumed i) (s.page (0xC00 + 4 * i.val)) 4 }
    (∀ result, q.openRefusal (s.port q.portId).nodeEnable = some result →
      ∃ u, (m.answeredStream i v result).takeEnded u ∧
        exec (.openStream hh) s = .next (u.sends (u.streamAnswer i v) causeStream)) ∧
    (q.openRefusal (s.port q.portId).nodeEnable = none →
      exec (.openStream hh) s = .next (t.sends [t.partHalfWrite i] 0))

/-- R8, R32, R37, R40: the budget step of an OPEN with admitted parameters `q`: for a one-shot stream the size check; for a periodic one
the admission steps in their order, with the phase given or chosen. -/
def Obligations.AdmissionSteps : Prop :=
  ∀ (s : State) (q : Params),
    let t := s.budget q.portId
    let n := q.interval.toNat
    let φ := if q.phase = 0xFF then t.choosePhase n else q.phase.toNat
    let mem := q.memCost t.cycleIndex.toNat
    (q.kind = 2 → t.figures.oneShotLimit < q.cost → s.budgetStep q = .inl .tooLarge) ∧
    (q.kind = 2 → q.cost ≤ t.figures.oneShotLimit → s.budgetStep q = .inr (0xFF, 0)) ∧
    (q.kind = 1 → t.figures.cap < q.cost → s.budgetStep q = .inl .tooLarge) ∧
    (q.kind = 1 → q.cost ≤ t.figures.cap →
      (∃ b : Fin 64, b.val % 2 ^ n = φ ∧ t.figures.cap < t.load b + q.cost) → s.budgetStep q = .inl .portBudget) ∧
    (q.kind = 1 → q.cost ≤ t.figures.cap → (∀ b : Fin 64, b.val % 2 ^ n = φ → t.load b + q.cost ≤ t.figures.cap) →
      (s.adm.memCap ≠ 0 ∧ s.adm.memCap.toNat < s.adm.memLoad + mem → s.budgetStep q = .inl .memoryBudget) ∧
      (s.adm.memCap = 0 ∨ s.adm.memLoad + mem ≤ s.adm.memCap.toNat → s.budgetStep q = .inr (BitVec.ofNat 8 φ, mem)))

/-- R33: the phase chosen for ANY: of the candidates 0 to 2^n - 1 the one whose largest load is smallest, the lowest among equals; it
depends on the loads alone, and where its buckets cannot take a cost no candidate's can. -/
def Obligations.AnyPhaseChoice : Prop :=
  (∀ (t : Budget) (n q : Nat),
    (∀ b : Fin 64, b.val % 2 ^ n = q → t.load b ≤ t.largestLoad n q) ∧
    (n ≤ 6 → q < 2 ^ n → ∃ b : Fin 64, b.val % 2 ^ n = q ∧ t.load b = t.largestLoad n q)) ∧
  (∀ (t : Budget) (n : Nat),
    t.choosePhase n < 2 ^ n ∧
    (∀ q, q < 2 ^ n → t.largestLoad n (t.choosePhase n) ≤ t.largestLoad n q) ∧
    (∀ q, q < t.choosePhase n → t.largestLoad n (t.choosePhase n) < t.largestLoad n q)) ∧
  (∀ t : Budget, t.choosePhase 0 = 0) ∧
  (∀ (t : Budget) (n cost : Nat), n ≤ 6 →
    (∃ b : Fin 64, b.val % 2 ^ n = t.choosePhase n ∧ t.figures.cap < t.load b + cost) →
    ∀ q, q < 2 ^ n → ∃ b : Fin 64, b.val % 2 ^ n = q ∧ t.figures.cap < t.load b + cost) ∧
  (∀ (t t' : Budget) (n : Nat), t.loads = t'.loads → t.choosePhase n = t'.choosePhase n) ∧
  (∀ (t : Budget) (q : Params), q.phase = 0xFF → t.phaseFor q = t.choosePhase q.interval.toNat)

/-- R7 to R9, R38, R113: the end of the consumed read of an OPEN: a fault or a refusal returns the stream to CLOSED with the budget as it
was; an acceptance sets every field of the context, its parameters from the take (log 25), reserves for a periodic stream, and writes
PRODUCED, the part half and the acknowledge. The scan that goes on as the take ends looks at streams without a parity check (log 11). -/
def Obligations.ConsumedReadDecidesOpen : Prop :=
  ∀ (s : State) (i : StreamId) (v : Byte) (q : Params) (r : Read),
    s.openTake = some (i, v, q, r) → s.engine.state ≠ .halted → (s.ctx i).parityOk = true →
    let m := s.completed r.rid
    let refused : ReadResult Word → StreamResult → Prop := fun x result =>
      ∃ u, ((m.setCtx i { m.ctx i with state := .closed }).answeredStream i v result).takeEnded u ∧
        exec (.consumedReadComplete x) s = .next (u.sends (u.streamAnswer i v) causeStream)
    refused .fault .entryFault ∧
    (∀ (n : Word) (result : StreamResult), s.budgetStep q = .inl result → refused (.data n) result) ∧
    (∀ (n : Word) (φ : Byte) (mem : Nat), s.budgetStep q = .inr (φ, mem) →
      let port := s.port q.portId
      let c : Ctx :=
        { state := .isOpen, params := q, phase := φ, cost := q.cost, memCost := mem, paused := false,
          holds := { portNotRunning := decide (port.state ≠ .running), nodeLost := decide ((port.node q.node).state = .lost),
                     memoryFault := false },
          oneShot := .idle, retriesLeft := 0, tagRef := none, sourceOutstanding := false, refreshOutstanding := false,
          closeOutcome := false, closeReq := none, produced := n, cached := n, consumedInvalid := false, lossMark := false,
          signature := none, lastOutcome := none, counters := ⟨0, 0, 0, 0, 0⟩, result := .accepted, resultReq := v,
          parityOk := true }
      let t := s.budget q.portId
      let adm : Admission :=
        if q.kind = 1 then
          { s.adm with
            budgets := s.adm.budgets.set q.portId.val { t with
              loads := tableMap t.loads (fun b load => if b % 2 ^ q.interval.toNat = φ.toNat then load + q.cost else load)
              reservations := t.reservations + 1 }
            memLoad := s.adm.memLoad + mem }
        else s.adm
      ∃ u, State.takeEnded { m.setCtx i c with
          adm := adm, scanner := { m.scanner with ackCopy := m.scanner.ackCopy.set i.val v } } u ∧
        exec (.consumedReadComplete (.data n)) s = .next (u.sends
          (.write (s.page (0x800 + 4 * i.val)) (le4 n) :: u.streamAnswer i v) causeStream))

/-- R10, R12, R41: a CLOSE of an OPEN stream: waiting outcomes discarded, plan entries removed, a queued item removed with its CANCELLED
outcome left to an event of its own; then CLOSING, or, with nothing outstanding, CLOSED with the reservation released and the acknowledge.
The planner then reads a new head and may select (R53, R61), and the take ends (in this order, log 34). The scan that goes on as the take
ends looks at streams without a parity check (log 11). -/
def Obligations.CloseTaken : Prop :=
  ∀ (s : State) (i : StreamId) (v : Byte) (r : Read) (hh : Bytes64) (pos : Nat),
    s.streamTake = some (i, v, r) → s.engine.state ≠ .halted → (s.ctx i).parityOk = true → (s.ctx i).state = .isOpen →
    byteAt hh 0 = 2 →
    let c := s.ctx i
    let p := c.params.portId
    let q := s.port p
    let m := s.completed r.rid
    let queued := decide (c.oneShot = .queued)
    let waits := s.writer.outcomes.any (fun o => o.stream = i)
    let others : List Entry → List Entry := fun xs => xs.filter (fun x => x.stream ≠ i)
    let c' : Ctx := { c with
      state := .closing, closeReq := some v
      oneShot := if queued then .inFlight else if waits && c.oneShot = .inFlight then .idle else c.oneShot
      closeOutcome := if queued then true else c.closeOutcome }
    let q' : Port := { q with
      nextPlan := others q.nextPlan, current := others q.current
      urgent := if queued then others q.urgent else q.urgent
      normal := if queued then others q.normal else q.normal }
    let cancelled : Outcome := ⟨i, .cancelled, 0, q.cycle, q.cycle, []⟩
    let w' : Writer :=
      { outcomes := s.writer.outcomes.filter (fun o => o.stream ≠ i)
        cancelled := if queued then s.writer.cancelled ++ [cancelled] else s.writer.cancelled }
    let closing : State := { (m.setCtx i c').setPort p q' with writer := w' }
    let t := s.budget p
    let closed : State := { closing.setCtx i { c' with
        state := .closed, paused := false, holds := ⟨false, false, false⟩, oneShot := .idle, sourceOutstanding := false,
        refreshOutstanding := false, closeOutcome := false, closeReq := none, result := .accepted, resultReq := v } with
      adm := if c.params.kind = 1 then
          { s.adm with
            budgets := s.adm.budgets.set p.val { t with
              loads := tableMap t.loads (fun b load =>
                if b % 2 ^ c.params.interval.toNat = c.phase.toNat then load - c.cost else load)
              reservations := t.reservations - 1 }
            memLoad := s.adm.memLoad - c.memCost }
        else s.adm
      scanner := { m.scanner with ackCopy := m.scanner.ackCopy.set i.val v } }
    let free := c.tagRef = none ∧ c.sourceOutstanding = false ∧ c.refreshOutstanding = false ∧ c'.closeOutcome = false
    let after : Ev → Ev := fun e => ((e.headRead p).andThen (Ev.reselect p pos (s.heads p))).andThen Ev.endTake
    (¬ free → exec (.closeStream hh pos) s = .next (after { Ev.start closing with dirty := [i] }).finish) ∧
    (free → exec (.closeStream hh pos) s =
      .next (after { Ev.start closed with dirty := [i], acks := [(streamIx i, v)], causes := causeStream }).finish)

/-- R20: FIRE of an OPEN stream: the first condition of the table that holds gives the result; an accepted FIRE queues an item at the back
of its class, and the planner reads a new head and may select (R53, R61) before the take ends (in this order, log 34). The scan that goes on
as the take ends looks at streams without a parity check (log 11). -/
def Obligations.FireTaken : Prop :=
  ∀ (s : State) (i : StreamId) (v : Byte) (r : Read) (hh : Bytes64) (pos : Nat),
    s.streamTake = some (i, v, r) → s.engine.state ≠ .halted → (s.ctx i).parityOk = true → (s.ctx i).state = .isOpen →
    byteAt hh 0 = 3 →
    let c := s.ctx i
    let p := c.params.portId
    let q := s.port p
    let m := s.completed r.rid
    let rows : List (Bool × StreamResult) :=
      [(decide (c.params.kind = 1), .wrongKind), (decide (c.oneShot ≠ .idle), .busy),
       (c.holds.portNotRunning || c.holds.nodeLost || c.holds.memoryFault, .held), (c.paused, .paused),
       (decide (64 ≤ q.urgent.length + q.normal.length), .queueFull)]
    let item : Entry := { stream := i, source := if c.params.outLen = 0 then .noneNeeded else .notRead }
    let q' : Port := if c.params.cls = 1 then { q with urgent := q.urgent ++ [item] } else { q with normal := q.normal ++ [item] }
    let t : State := { (m.setCtx i { c with
        retriesLeft := c.params.retries.toNat, oneShot := .queued, result := .accepted, resultReq := v }).setPort p q' with
      scanner := { m.scanner with ackCopy := m.scanner.ackCopy.set i.val v } }
    (∀ row, rows.find? Prod.fst = some row →
      ∃ u, (m.answeredStream i v row.2).takeEnded u ∧
        exec (.fire hh pos) s = .next (u.sends (u.streamAnswer i v) causeStream)) ∧
    (rows.find? Prod.fst = none → exec (.fire hh pos) s = .next
      ((((({ Ev.start t with dirty := [i], acks := [(streamIx i, v)], causes := causeStream } : Ev).headRead p).andThen
        (Ev.reselect p pos (s.heads p))).andThen Ev.endTake).finish))

/-- R14: PAUSE of an OPEN stream: NO_CHANGE where it is paused; otherwise the flag is set, and a queued item is removed with CANCELLED; the
planner then reads a new head and may select (R53, R61; logs 3, 20, 34). And R54, R19, R53: what the removal of an item does, here and
wherever an item is removed: it leaves its class, the one-shot state is IN_FLIGHT until the Result Writer has finished with the outcome, and
the outcome is delivered without a frame, with the port's cycle twice. The scan that goes on as the take ends looks at streams without a
parity check (log 11). -/
def Obligations.PauseTaken : Prop :=
  (∀ (e : Ev) (p : PortId) (code : OutcomeCode) (i : StreamId), e.halted = false → (e.ctx i).parityOk = true →
    let q := e.port p
    let others : List Entry → List Entry := fun xs => xs.filter (fun x => x.stream ≠ i)
    let left : Ev := { e with
      m := (e.m.setPort p { q with urgent := others q.urgent, normal := others q.normal }).setCtx i
        { e.ctx i with oneShot := .inFlight }
      dirty := if i ∈ e.dirty then e.dirty else e.dirty ++ [i] }
    e.removeItem p code i = left.deliver ⟨i, code, 0, q.cycle, q.cycle, []⟩) ∧
  (∀ (s : State) (i : StreamId) (v : Byte) (r : Read) (hh : Bytes64) (pos : Nat),
    s.streamTake = some (i, v, r) → s.engine.state ≠ .halted → (s.ctx i).parityOk = true → (s.ctx i).state = .isOpen →
    byteAt hh 0 = 4 →
    let c := s.ctx i
    let p := c.params.portId
    let m := s.completed r.rid
    let t : State := { m.setCtx i { c with paused := true, result := .accepted, resultReq := v } with
      scanner := { m.scanner with ackCopy := m.scanner.ackCopy.set i.val v } }
    let e : Ev := { Ev.start t with dirty := [i], acks := [(streamIx i, v)], causes := causeStream }
    (c.paused = true → ∃ u, (m.answeredStream i v .noChange).takeEnded u ∧
      exec (.pause hh pos) s = .next (u.sends (u.streamAnswer i v) causeStream)) ∧
    (c.paused = false → exec (.pause hh pos) s = .next
      (((((if c.oneShot = .queued then e.removeItem p .cancelled i else e).andThen (Ev.headRead p)).andThen
        (Ev.reselect p pos (s.heads p))).andThen Ev.endTake).finish)))

/-- R15: RESUME of an OPEN stream: NO_CHANGE where there is nothing to clear; otherwise the paused flag and MEMORY_FAULT are cleared and the
other hold reasons stay. The scan that goes on as the take ends looks at streams without a parity check (log 11). -/
def Obligations.ResumeTaken : Prop :=
  ∀ (s : State) (i : StreamId) (v : Byte) (r : Read) (hh : Bytes64),
    s.streamTake = some (i, v, r) → s.engine.state ≠ .halted → (s.ctx i).parityOk = true → (s.ctx i).state = .isOpen →
    byteAt hh 0 = 5 →
    let c := s.ctx i
    let m := s.completed r.rid
    (c.paused = false → c.holds.memoryFault = false → ∃ u, (m.answeredStream i v .noChange).takeEnded u ∧
      exec (.resume hh) s = .next (u.sends (u.streamAnswer i v) causeStream)) ∧
    (c.paused = true ∨ c.holds.memoryFault = true →
      ∃ u, ((m.setCtx i { c with paused := false, holds := { c.holds with memoryFault := false } }).answeredStream i v
          .accepted).takeEnded u ∧
        exec (.resume hh) s = .next (u.sends (u.streamAnswer i v) causeStream))

/-- R4, R146: a parity error met at any read of a context halts the engine with the stream's index, and the operation is not carried
further: for a request (the costs that a CONFIGURE reads among them, log 11), for a source read, a refresh or a CANCELLED outcome, for
planning and selection, for a transaction, for an outcome and for a change of hold reasons. What the event had changed before stays, and it
sends out the fault record alone (logs 6, 12); the order of the reads among several streams is ascending (logs 11, 32). An MSI that waits on
the path is dropped with the unissued writes (log 7). A read that waited for the tracker entry freed by the completion that halts is issued,
not dropped (the model's choice, log 39). -/
def Obligations.ParityErrorHalts : Prop :=
  (∀ (s : State) (i : StreamId), s.engine.state ≠ .halted → (s.ctx i).parityOk = false →
    let halts : State → Instr → Prop := fun m c =>
      ∃ t, exec c s = .next t ∧ m.haltedAs t .contextParity (BitVec.ofNat 32 i.val)
    (∀ (v : Byte) (r : Read) (hh : Bytes64) (c : Instr), s.streamTake = some (i, v, r) →
      (c = .entryFault ∨
        (c = .streamBadAction hh ∧
          (¬ (1 ≤ (byteAt hh 0).toNat ∧ (byteAt hh 0).toNat ≤ 5) ∨ ((s.ctx i).state = .closed ∧ byteAt hh 0 ≠ 1) ∨
            ((s.ctx i).state = .isOpen ∧ byteAt hh 0 = 1))) ∨
        (c.wf = true ∧
          (c = .openStream hh ∨ c = .resume hh ∨ ∃ pos, c = .closeStream hh pos ∨ c = .fire hh pos ∨ c = .pause hh pos))) →
      halts (s.completed r.rid) c) ∧
    (∀ (v : Byte) (q : Params) (r : Read) (x : ReadResult Word), s.openTake = some (i, v, q, r) →
      halts (s.completed r.rid) (.consumedReadComplete x)) ∧
    (∀ (r : Read) (x : ReadResult Word), s.smi.flyingFor (.refresh i) = some r →
      halts (s.completed r.rid) (.consumedRefreshComplete i x)) ∧
    (∀ (rid pos job : Nat) (f : Read), s.smi.flying rid = some f →
      (f.what = .selector i job → ∀ x, halts (s.completed rid) (.selectorReadComplete rid x pos)) ∧
      (∀ piece, f.what = .half i job piece →
        halts (s.completed rid) (.halfReadComplete rid .fault pos) ∧
        ∀ d, d.length = f.len → halts (s.completed rid) (.halfReadComplete rid (.data d) pos))) ∧
    (∀ o, s.writer.cancelled.find? (fun o => o.stream = i) = some o → halts s (.cancelledOutcomeSettle i)) ∧
    (∀ (p : PortId) (t : TagId) (frame echo : List Byte) (heard : Heard), heard ≠ .reply [] → ((s.port p).tag t).stream = i →
      (∀ periodic, (s.port p).line = .request t periodic frame → halts s (.requestExchangeEnd p echo heard)) ∧
      ((s.port p).line = .fetch t frame → halts s (.fetchExchangeEnd p echo heard))) ∧
    (∀ (p : PortId) (v : Byte) (r : Read) (cb : Bytes32), s.portTake = some (p, v, r) → byteAt cb 0 = 1 →
      (s.port p).state = .disabled → blockInRange cb = true →
      ¬ (byteAt cb 1 = (s.budget p).cycleIndex ∧ byteAt cb 2 = (s.budget p).capPct) → (s.budget p).reservations = 0 →
      let read : StreamId → Prop := fun j =>
        (s.ctx j).state = .isOpen ∧ (s.ctx j).params.kind = 2 ∧ (s.ctx j).params.portId = p
      read i → (∀ j, j < i → read j → (s.ctx j).parityOk = true) → halts (s.completed r.rid) (.configure cb))) ∧
  (∀ (e : Ev) (i : StreamId), e.halted = false → (e.ctx i).parityOk = false →
    let halt : Ev → Ev := fun e => e.halt .contextParity (BitVec.ofNat 32 i.val)
    (∀ f, e.withCtx i f = halt e) ∧
    (∀ o : Outcome, o.stream = i → e.deliver o = halt e) ∧
    (∀ (p : PortId) (code : OutcomeCode), e.planStream p i = halt e ∧ e.removeItem p code i = halt e) ∧
    (∀ (p : PortId) (t : TagId) (code : OutcomeCode) (nodeCode : Byte) (payload : List Byte), ((e.port p).tag t).stream = i →
      e.releaseTag p t code nodeCode payload = halt e) ∧
    (∀ (p : PortId) (x : Entry) (rest : List Entry), (e.port p).current = x :: rest → x.stream = i →
      e.periodic p = halt (e.modPort p (fun q => { q with current := rest }))) ∧
    (∀ (p : PortId) (t : TagId) (rest : List TagId), (e.port p).fetchList = t :: rest → ((e.port p).tag t).stream = i →
      ((e.port p).cycle - ((e.port p).tag t).ready).toNat < 2 ^ 31 → e.m.offer p .fetchList = .parity i) ∧
    (∀ (p : PortId) (x : Entry),
      (∃ rest, (e.port p).urgent = x :: rest ∨ ((e.port p).urgent = [] ∧ (e.port p).normal = x :: rest)) → x.stream = i →
      e.m.offer p .queue = .parity i ∧ (x.source = .notRead → e.headRead p = halt e)) ∧
    (∀ (p : PortId) (opening : Bool),
      let first := (e.port p).turn
      let a := e.m.offer p first
      let b := e.m.offer p (match first with | .fetchList => .queue | .queue => .fetchList)
      (a = .parity i → e.selection p opening = halt e) ∧
      (a = .passes ∨ (a = .tooLong ∧ opening = true) → b = .parity i → e.selection p opening = halt e)) ∧
    (∀ (p : PortId) (pick : Ctx → Bool) (f : Holds → Holds),
      let picked : Ctx → Bool := fun c => (c.state = .isOpen || c.state = .closing) && c.params.portId = p && pick c
      picked (e.ctx i) = true → (∀ j, j < i → picked (e.ctx j) = true → (e.ctx j).parityOk = true) →
      ∃ e' : Ev, e.setHolds p pick f = halt e' ∧ e'.m = { e.m with
        ctxs := tableMap e.m.ctxs (fun j c => if j < i.val && picked c then { c with holds := f c.holds } else c) })) ∧
  (∀ (e : Ev) (i : StreamId) (f : Ctx → Ev → Ev), (e.ctx i).parityOk = true → e.withCtx i f = f (e.ctx i) e) ∧
  (∀ (e : Ev) (f : Ev → Ev), e.andThen f = if e.halted then e else f e) ∧
  (∀ (e : Ev) (code : FaultCode) (detail : Word),
    (e.halt code detail).halted = true ∧ e.m.haltedAs (e.halt code detail).finish code detail)

/-! ### Port requests -/

/-- R28: the cycle figures of a cycle index 0 to 4 and a CAP_PCT 50 to 90, and the table of the spec at 80 %. -/
def Obligations.CycleFigures : Prop :=
  (∀ k pct : Nat, k ≤ 4 → 50 ≤ pct → pct ≤ 90 →
    let f := cycleFigures k pct
    f.period = 125 * 2 ^ k ∧
    2 * f.units ≤ 5 * f.period ∧ 5 * f.period < 2 * (f.units + 1) ∧
    f.usable + 20 = f.units ∧
    100 * f.cap ≤ f.usable * pct ∧ f.usable * pct < 100 * (f.cap + 1) ∧
    f.minAperiodic + f.cap = f.usable ∧ f.oneShotLimit + 25 = f.minAperiodic) ∧
  (List.range 5).map (fun k => cycleFigures k 80) =
    [⟨125, 312, 292, 233, 59, 34⟩, ⟨250, 625, 605, 484, 121, 96⟩, ⟨500, 1250, 1230, 984, 246, 221⟩,
     ⟨1000, 2500, 2480, 1984, 496, 471⟩, ⟨2000, 5000, 4980, 3984, 996, 971⟩]

/-- R95, R96, R30: CONFIGURE: the first failed step gives the result and changes nothing else; an accepted one takes all five fields, and
the cycle figures where they change. Where the costs of the OPEN one-shot streams of the port are read, none of their contexts has a parity
error (that the read is checked is the model's choice, log 11). A block with another ACTION is refused with BAD_ACTION. The scan that goes
on as the take ends looks at streams without a parity check (log 11). -/
def Obligations.ConfigureDecided : Prop :=
  ∀ (s : State) (p : PortId) (v : Byte) (r : Read) (cb : Bytes32),
    s.portTake = some (p, v, r) → s.engine.state ≠ .halted →
    let q := s.port p
    let b := s.budget p
    let m := s.completed r.rid
    let k := byteAt cb 1
    let pct := byteAt cb 2
    let same := k = b.cycleIndex ∧ pct = b.capPct
    let inRange := k.toNat ≤ 4 ∧ 50 ≤ pct.toNat ∧ pct.toNat ≤ 90 ∧ 1 ≤ (byteAt cb 3).toNat ∧ (byteAt cb 3).toNat ≤ 15 ∧
      byteAt cb 4 ≠ 0 ∧ cb.getLsbD 64 = false ∧ cb.getLsbD 127 = false
    let blocked := 0 < b.reservations ∨ ∃ i, (s.ctx i).state = .isOpen ∧ (s.ctx i).params.kind = 2 ∧
      (s.ctx i).params.portId = p ∧ (cycleFigures k.toNat pct.toNat).oneShotLimit < (s.ctx i).cost
    let good := ∀ i, (s.ctx i).state = .isOpen → (s.ctx i).params.kind = 2 → (s.ctx i).params.portId = p → (s.ctx i).parityOk = true
    let answered : State → Instr → PortResult → Prop := fun m c result =>
      ∃ u, (m.answeredPort p v result).takeEnded u ∧ exec c s = .next (u.sends (u.portAnswer p v) causePort)
    let taken := (m.setPort p { q with
      configured := true, silenceLimit := byteAt cb 3, deferTimeout := byteAt cb 4, nodeEnable := cb.extractLsb' 64 64 }).setBudget p
      (if same then b else { b with cycleIndex := k, capPct := pct, figures := cycleFigures k.toNat pct.toNat })
    (byteAt cb 0 = 1 →
      (q.state ≠ .disabled → answered m (.configure cb) .wrongState) ∧
      (q.state = .disabled → ¬ inRange → answered m (.configure cb) .badConfig) ∧
      (q.state = .disabled → inRange → ¬ same → blocked → 0 < b.reservations ∨ good → answered m (.configure cb) .streamsAdmitted) ∧
      (q.state = .disabled → inRange → same ∨ (¬ blocked ∧ good) → answered taken (.configure cb) .accepted)) ∧
    (byteAt cb 0 = 0 ∨ 4 ≤ (byteAt cb 0).toNat → answered m (.portBadAction cb) .badAction)

/-- R97, R99, R62: START of a port: refusals in the order of the rule; an accepted START enters SYNCING with cycle 0, sends the START frame
of cycle 0, builds the plan of cycle 1, and rewrites the status block. The scan that goes on as the take ends looks at streams without a
parity check (log 11). -/
def Obligations.StartDecided : Prop :=
  ∀ (s : State) (p : PortId) (v : Byte) (r : Read) (cb : Bytes32),
    s.portTake = some (p, v, r) → s.engine.state ≠ .halted → byteAt cb 0 = 2 →
    let q := s.port p
    let m := s.completed r.rid
    let answered : State → PortResult → Prop := fun m result =>
      ∃ u, (m.answeredPort p v result).takeEnded u ∧ exec (.startPort cb) s = .next (u.sends (u.portAnswer p v) causePort)
    let syncing := m.setPort p { q with
      state := .syncing, faultReason := .none, cycle := 0, startMismatches := 0, nextPlan := [], current := [], urgent := [],
      normal := [], fetchList := [], turn := .fetchList, cycleTimer := true, windowOpen := false, openingMade := false,
      periodicUsed := 0, aperiodicUsed := 0, lastPeriodic := 0, lastAperiodic := 0, itemStart := 0, freeAt := 0,
      line := .start (startFrame 0 (s.budget p).cycleIndex) }
    (s.engine.state = .stopping → answered m .wrongState) ∧
    (s.engine.state ≠ .stopping →
      (q.state = .syncing ∨ q.state = .running ∨ q.state = .stopping → answered m .noChange) ∧
      (q.state = .disabled → q.configured = false → answered m .badConfig) ∧
      (s.parityGood → (q.state = .disabled ∧ q.configured = true) ∨ q.state = .faulted →
        answered ((Ev.start syncing).planBuild p).m .accepted))

/-- R98: STOP of a port: NO_CHANGE in DISABLED and STOPPING; FAULTED enters DISABLED; SYNCING and RUNNING enter STOPPING with the aperiodic
window closed, and from RUNNING every live stream of the port is held, where none of them has a parity error (R4, log 11); the order of
their part halves, ascending, is the model's (log 32). The scan that goes on as the take ends looks at streams without a parity check (log
11). -/
def Obligations.StopDecided : Prop :=
  ∀ (s : State) (p : PortId) (v : Byte) (r : Read) (cb : Bytes32),
    s.portTake = some (p, v, r) → s.engine.state ≠ .halted → byteAt cb 0 = 3 →
    let q := s.port p
    let m := s.completed r.rid
    let answered : State → List StreamId → PortResult → Prop := fun m held result =>
      ∃ u, (m.answeredPort p v result).takeEnded u ∧
        exec (.stopPort cb) s = .next (u.sends (held.map u.partHalfWrite ++ u.portAnswer p v) causePort)
    (q.state = .disabled ∨ q.state = .stopping → answered m [] .noChange) ∧
    (q.state = .faulted → answered (m.setPort p { q with state := .disabled }) [] .accepted) ∧
    (q.state = .syncing → answered (m.setPort p { q with state := .stopping, windowOpen := false }) [] .accepted) ∧
    (q.state = .running → (∀ i, (s.ctx i).live = true → (s.ctx i).params.portId = p → (s.ctx i).parityOk = true) →
      answered ((m.portsHeld (fun r => r = p)).setPort p { q with state := .stopping, windowOpen := false })
      (s.unheld p) .accepted)

/-! ### Cycles and ports -/

/-- R99, R45, R47, R77, R46, R100, R106: the START event of a SYNCING or RUNNING port, in its order: the next cycle's START frame, the entry
to RUNNING at cycle 8, the hand-over of the plan with its late and faulted entries, the deadline releases of a RUNNING port, the plan
of the cycle after, the bucket-0 refresh. PORT_ENTER_RUNNING and DEADLINE_TIMEOUT name the same event (log 4); the order of the
hand-over before the deadlines is the model's (log 5). -/
def Obligations.StartEventOrder : Prop :=
  ∀ (s : State) (p : PortId), s.engine.state ≠ .halted → (s.port p).cycleTimer = true → (s.port p).line = .idle →
    (s.port p).state = .syncing ∨ (s.port p).state = .running →
    let q := s.port p
    let c := q.cycle + 1
    let enters := q.state = .syncing ∧ c = 8
    let expired : Tag → Bool := fun g => g.state = .deferred && g.deadline = q.cycle
    let started := Ev.start (s.setPort p { q with
      cycle := c, line := .start (startFrame c (s.budget p).cycleIndex), itemStart := 0, freeAt := 0, windowOpen := false,
      openingMade := false, lastPeriodic := q.periodicUsed, lastAperiodic := q.aperiodicUsed, periodicUsed := 0,
      aperiodicUsed := 0 })
    let handOver : Ev → Ev := fun e =>
      (e.modPort p (fun q => { q with nextPlan := [], current := q.nextPlan.filter Entry.ready })).forEach
        ((e.port p).nextPlan.filter (fun x => !x.ready))
        (fun x => Ev.deliver ⟨x.stream, if x.source = .faulted then .sourceFault else .sourceLate, 0, c, c, []⟩)
    let deadlines : Ev → Ev := fun e =>
      if (e.port p).state = .running then
        e.forEach (allTags.filter (fun t => expired ((e.port p).tag t))) (fun t => Ev.releaseTag p t .timeout 0 [])
      else e
    let refresh : Ev → Ev := fun e => if c.toNat % 64 = 0 then e.block p else e
    let t := (((((if enters then started.enterRunning p else started).andThen handOver).andThen deadlines).andThen
      (Ev.planBuild p)).andThen refresh).finish
    exec (.cycleTimerExpiry p) s = .next t ∧
    (enters → exec (.portEnterRunning p) s = .next t) ∧
    (q.state = .running → (∃ g, expired (q.tag g) = true) → exec (.deadlineTimeout p) s = .next t)

/-- R99, R77, R47, R4: what the START event of a RUNNING port leaves: the cycle, the frame, the last-cycle figures, the current list, and
every tag whose deadline was the cycle just ended FREE and off the fetch list; the other ports and the engine as they were. -/
def Obligations.RunningStartLeaves : Prop :=
  ∀ (s : State) (p : PortId), s.engine.state ≠ .halted → s.parityGood → (s.port p).cycleTimer = true →
    (s.port p).line = .idle → (s.port p).state = .running →
    let q := s.port p
    let expired : TagId → Bool := fun t => (q.tag t).state = .deferred && (q.tag t).deadline = q.cycle
    ∃ t, exec (.cycleTimerExpiry p) s = .next t ∧
      (let q' := t.port p
       q'.state = .running ∧ q'.cycle = q.cycle + 1 ∧ q'.line = .start (startFrame (q.cycle + 1) (s.budget p).cycleIndex) ∧
       q'.lastPeriodic = q.periodicUsed ∧ q'.lastAperiodic = q.aperiodicUsed ∧ q'.periodicUsed = 0 ∧ q'.aperiodicUsed = 0 ∧
       q'.windowOpen = false ∧ q'.turn = q.turn ∧ q'.cycleTimer = true ∧ q'.allocations = q.allocations ∧
       q'.current = q.nextPlan.filter Entry.ready ∧
       (∀ g, q'.tag g = if expired g then { q.tag g with state := .free } else q.tag g) ∧
       q'.fetchList = q.fetchList.filter (fun g => !expired g)) ∧
      (∀ r, r ≠ p → t.port r = s.port r) ∧ t.engine = s.engine

/-- R16, R17: a change of hold reasons reaches the live streams of the port that are picked, and marks the part half of each that changes:
PORT_NOT_RUNNING picks all of them, NODE_LOST those of the node; and R100, R85, R2: the entry to RUNNING sets the node table, clears the
holds of the port and of its LOST nodes, marks the part half of each stream whose hold reasons change, and reports. The streams concerned
have no parity error (R4; ParityErrorHalts says what one does); their order, those of the LOST nodes, node by node, before the rest, each
ascending, is the model's (log 32). -/
def Obligations.HoldsAndRunningEntry : Prop :=
  (∀ (e : Ev) (p : PortId) (pick : Ctx → Bool) (f : Holds → Holds), e.halted = false →
    let picked : Ctx → Bool := fun c => (c.state = .isOpen || c.state = .closing) && c.params.portId = p && pick c
    (∀ i, picked (e.ctx i) = true → (e.ctx i).parityOk = true) →
    e.setHolds p pick f = { e with
      m := { e.m with ctxs := tableMap e.m.ctxs (fun _ c => if picked c then { c with holds := f c.holds } else c) }
      dirty := e.dirty ++ allStreams.filter (fun i =>
        picked (e.ctx i) && decide (f (e.ctx i).holds ≠ (e.ctx i).holds) && decide (i ∉ e.dirty)) }) ∧
  (∀ (e : Ev) (p : PortId) (on : Bool), e.holdPort p on = e.setHolds p (fun _ => true) (fun h => { h with portNotRunning := on })) ∧
  (∀ (e : Ev) (p : PortId) (a : Byte) (on : Bool),
    e.holdNode p a on = e.setHolds p (fun c => decide (c.params.node = a)) (fun h => { h with nodeLost := on })) ∧
  (∀ (e : Ev) (p : PortId), e.halted = false →
    (∀ i, (e.ctx i).live = true → (e.ctx i).params.portId = p → (e.ctx i).parityOk = true) →
    let q := e.port p
    let e' := e.enterRunning p
    let q' := e'.port p
    let clean : StreamId → Bool := fun i =>
      ((e.ctx i).state = .isOpen || (e.ctx i).state = .closing) && (e.ctx i).params.portId = p && decide (i ∉ e.dirty)
    let ofLost : StreamId → Bool := fun i => (e.ctx i).holds.nodeLost && (q.node (e.ctx i).params.node).state = .lost
    e'.halted = false ∧
    q' = { q with state := .running, nodes := q'.nodes, change := ⟨0, .unknown, 0, 0⟩ } ∧
    (∀ a : Byte, 1 ≤ a.toNat → a.toNat ≤ 62 → q'.node a =
      { state := .unknown, silence := 0, tagsHeld := (q.node a).tagsHeld, lastHeard := 0,
        probeDue := if q.nodeEnable.getLsbD a.toNat then some 8 else none, corrupt := 0 }) ∧
    (∀ r, r ≠ p → e'.port r = e.port r) ∧
    (∀ i, e'.ctx i =
      let c := e.ctx i
      if (c.state = .isOpen ∨ c.state = .closing) ∧ c.params.portId = p then
        { c with holds := { c.holds with
            portNotRunning := false
            nodeLost := if (q.node c.params.node).state = .lost then false else c.holds.nodeLost } }
      else c) ∧
    e'.dirty = e.dirty ++
      allNodes.flatMap (fun a => allStreams.filter (fun i => clean i && ofLost i && (e.ctx i).params.node = a)) ++
      allStreams.filter (fun i => clean i && !ofLost i && (e.ctx i).holds.portNotRunning) ∧
    p ∈ e'.blocks ∧ e'.causes = e.causes ||| causePort ∧ e'.slots = e.slots ∧ e'.acks = e.acks)

/-- R101, R81, R54: the cycle timer of a STOPPING port expires: the next plan's entries, then the tags, then the queue end with
PORT_STOPPED, and the port enters DISABLED and reports; what that leaves of the port. No selector read is asked for an item that is head
only while the queue is emptied (the model's choice, log 33). -/
def Obligations.StoppingPortEndsItsCycle : Prop :=
  ∀ (s : State) (p : PortId), s.engine.state ≠ .halted → (s.port p).cycleTimer = true → (s.port p).line = .idle →
    (s.port p).state = .stopping →
    let q := s.port p
    let entries : Ev → Ev := fun e =>
      e.forEach q.nextPlan (fun x => Ev.deliver ⟨x.stream, .portStopped, 0, q.cycle, q.cycle, []⟩)
    let tags : Ev → Ev := fun e =>
      e.forEach (allTags.filter (fun t => ((e.port p).tag t).state ≠ .free)) (fun t => Ev.releaseTag p t .portStopped 0 [])
    let items : Ev → Ev := fun e =>
      e.forEach (((e.port p).urgent ++ (e.port p).normal).map Entry.stream) (Ev.removeItem p .portStopped)
    let disable : Ev → Ev := fun e => (e.modPort p (fun q => { q with state := .disabled, cycleTimer := false })).report p
    let t := ((((entries (Ev.start (s.setPort p { q with nextPlan := [] }))).andThen tags).andThen items).andThen disable).finish
    exec (.cycleTimerExpiry p) s = .next t ∧
    (s.parityGood →
      let q' := t.port p
      q'.state = .disabled ∧ q'.cycleTimer = false ∧ q'.cycle = q.cycle ∧ q'.nextPlan = [] ∧ q'.current = q.current ∧
      q'.urgent = [] ∧ q'.normal = [] ∧ q'.allocations = q.allocations ∧
      (∀ g, q'.tag g = { q.tag g with state := .free }) ∧
      q'.fetchList = q.fetchList.filter (fun g => (q.tag g).state = .free) ∧
      (∀ r, r ≠ p → t.port r = s.port r) ∧ t.engine = s.engine)

/-- R102, R103, R50: the end of a START frame: the count of mismatches and the line errors; a second mismatch in a row faults the port;
otherwise the line is free at position 12, silent in SYNCING, and the periodic window runs in RUNNING and STOPPING. At the fault no selector
read is asked for an item that is head only while the queue is emptied (the model's choice, log 33). -/
def Obligations.StartFrameEnds : Prop :=
  ∀ (s : State) (p : PortId) (frame echo : List Byte), s.engine.state ≠ .halted → (s.port p).line = .start frame →
    let q := s.port p
    let counts := q.state = .syncing ∨ q.state = .running
    let q' : Port := { q with
      line := .idle, freeAt := 12
      lineErrors := if echo = frame then q.lineErrors else q.lineErrors + 1
      startMismatches := if counts then (if echo = frame then 0 else q.startMismatches + 1) else q.startMismatches }
    let e := Ev.start (s.setPort p q')
    let faults := counts ∧ echo ≠ frame ∧ 1 ≤ q.startMismatches
    (¬ faults → q.state = .syncing → exec (.startFrameEnd p echo) s = .next ((s.setPort p q').sends [] 0)) ∧
    (¬ faults → q.state ≠ .syncing → exec (.startFrameEnd p echo) s = .next (e.periodic p).finish) ∧
    (faults →
      let ended := Ev.start (s.setPort p { q' with cycleTimer := false, windowOpen := false, current := [], nextPlan := [] })
      let entries : Ev → Ev := fun e =>
        e.forEach (q.current ++ q.nextPlan) (fun x => Ev.deliver ⟨x.stream, .portStopped, 0, q.cycle, q.cycle, []⟩)
      let tags : Ev → Ev := fun e =>
        e.forEach (allTags.filter (fun t => ((e.port p).tag t).state ≠ .free)) (fun t => Ev.releaseTag p t .portStopped 0 [])
      let items : Ev → Ev := fun e =>
        e.forEach (((e.port p).urgent ++ (e.port p).normal).map Entry.stream) (Ev.removeItem p .portStopped)
      let holds : Ev → Ev := fun e => if q.state = .running then e.holdPort p true else e
      let fault : Ev → Ev := fun e => (e.modPort p (fun q => { q with state := .faulted, faultReason := .startEcho })).report p
      exec (.startFrameEnd p echo) s =
        .next (((((entries ended).andThen tags).andThen items).andThen holds).andThen fault).finish)

/-- R50, R57, R71: the periodic window goes on with its current list: an entry is skipped with the first condition that holds, or issued;
with no entry left a RUNNING port opens its aperiodic window with a due probe (the earliest due, the lowest node among equals) or the
opening selection. R61: at position cycle units - 8 an open aperiodic window closes; where none is open the command is no event (log 1).
-/
def Obligations.PeriodicAndAperiodicWindow : Prop :=
  (∀ (e : Ev) (p : PortId), (e.port p).current = [] →
    let opened := e.modPort p (fun q => { q with windowOpen := true, openingMade := false })
    ((e.port p).state ≠ .running → e.periodic p = e) ∧
    ((e.port p).state = .running → (e.port p).dueProbe = none → e.periodic p = opened.select p) ∧
    (∀ a, (e.port p).state = .running → (e.port p).dueProbe = some a → e.periodic p =
      opened.modPort p (fun q => { q with line := .probe a (probeFrame a), itemStart := q.freeAt }))) ∧
  (∀ (e : Ev) (p : PortId) (x : Entry) (rest : List Entry), e.halted = false → (e.port p).current = x :: rest →
    (e.ctx x.stream).parityOk = true →
    let q := e.port p
    let c := e.ctx x.stream
    let e' := e.modPort p (fun q => { q with current := rest })
    let skipped : OutcomeCode → Prop := fun code =>
      e.periodic p = (e'.deliver ⟨x.stream, code, 0, q.cycle, q.cycle, []⟩).andThen (fun e => e.periodic p)
    let noFree := ∀ t, (q.tag t).state ≠ .free
    (c.tagRef ≠ none → skipped .skipOverlap) ∧
    (c.tagRef = none → noFree → skipped .skipNoTag) ∧
    (c.tagRef = none → ¬ noFree → 8 ≤ (q.node c.params.node).tagsHeld → skipped .skipNodeLimit) ∧
    (c.tagRef = none → ¬ noFree → (q.node c.params.node).tagsHeld < 8 → e.periodic p = e'.issue p true x c)) ∧
  (∀ (q : Port) (a : Byte), q.dueProbe = some a →
    ∃ d, (q.node a).probeDue = some d ∧ (q.cycle - d).toNat < 2 ^ 31 ∧
      ∀ (a' : Byte) (d' : Word), (q.node a').probeDue = some d' → (q.cycle - d').toNat < 2 ^ 31 →
        (q.cycle - d').toNat < (q.cycle - d).toNat ∨ ((q.cycle - d').toNat = (q.cycle - d).toNat ∧ a.toNat ≤ a'.toNat)) ∧
  (∀ (q : Port) (a : Byte) (d : Word), (q.node a).probeDue = some d → (q.cycle - d).toNat < 2 ^ 31 → q.dueProbe ≠ none) ∧
  (∀ (s : State) (p : PortId), s.engine.state ≠ .halted →
    ((s.port p).windowOpen = true → exec (.aperiodicWindowClose p) s =
      .next ((s.setPort p { s.port p with windowOpen := false }).sends [] 0)) ∧
    ((s.port p).windowOpen = false → exec (.aperiodicWindowClose p) s = .next s))

/-- R69, R71, R72, R63: the issue of a REQUEST under the lowest FREE tag. R75: the head of the fetch list is started: it leaves the list,
is FETCHING, and its FETCH goes out with its number, epoch and node; its epoch, issue cycle, deadline and stamp stay. R72, R53: the head of
the queue is started: it leaves the queue and is issued, and the new head is read; a head not read yet has its selector read asked and
the source read outstanding flag set. R160, R161, R99: the bytes of the four frames; and R63: SEGn_DE is active for the whole of a frame
and at no other time (as a function of the frame on the line and the units since its first byte, log 19). -/
def Obligations.RequestAndFetchIssued : Prop :=
  (∀ (e : Ev) (p : PortId) (periodic : Bool) (x : Entry) (c : Ctx) (t : TagId),
    ((e.port p).tag t).state = .free → (∀ u, u < t → ((e.port p).tag u).state ≠ .free) →
    let q := e.port p
    let a := c.params.node
    let epoch := (q.tag t).epoch + 1
    let frame := requestFrame c.params t epoch (match x.source with | .present d => d | _ => [])
    let q' : Port := { (q.setTag t { q.tag t with
        state := .waiting, epoch := epoch, stream := x.stream, node := a, issue := q.cycle, stamp := q.allocations }).setNode a
        { q.node a with tagsHeld := (q.node a).tagsHeld + 1 } with
      allocations := q.allocations + 1, line := .request t periodic frame, itemStart := q.freeAt }
    let k := e.ctx x.stream
    let k' : Ctx := { k with tagRef := some (t, epoch), oneShot := if periodic then k.oneShot else .inFlight }
    e.issue p periodic x c = { e with
      m := (e.m.setPort p q').setCtx x.stream k'
      dirty := if periodic ∨ x.stream ∈ e.dirty then e.dirty else e.dirty ++ [x.stream] }) ∧
  (∀ (e : Ev) (p : PortId) (t : TagId) (rest : List TagId), (e.port p).fetchList = t :: rest →
    let q := e.port p
    let g := q.tag t
    e.startFetch p = { e with m := e.m.setPort p ({ q with
      fetchList := rest
      line := .fetch t (withCrc [0x03, g.node, tagByte t g.epoch, 0, 0, 0, 0, 0])
      itemStart := q.freeAt }.setTag t { g with state := .fetching }) }) ∧
  (∀ (e : Ev) (p : PortId),
    let q := e.port p
    let head : Entry → Prop := fun x => ∃ rest, q.urgent = x :: rest ∨ (q.urgent = [] ∧ q.normal = x :: rest)
    ((∀ x, head x → x.source ≠ .notRead) → e.headRead p = e) ∧
    (∀ i, head ⟨i, .notRead⟩ → (e.ctx i).parityOk = true →
      let c := e.ctx i
      let job := e.m.smi.nextRid
      let waits : List Entry → List Entry := fun xs => xs.map (fun x => if x.stream = i then { x with source := .selector job } else x)
      e.headRead p = { e with m := { (e.m.setPort p { q with urgent := waits q.urgent, normal := waits q.normal }).setCtx i
          { c with sourceOutstanding := true } with
        smi := e.m.smi.ask (.selector i job) c.params.sourceBase 1 } }) ∧
    ((∀ x, ¬ head x) → e.startHead p = e) ∧
    (∀ x, head x → e.halted = false → (e.ctx x.stream).parityOk = true →
      let others : List Entry → List Entry := fun xs => xs.filter (fun y => y.stream ≠ x.stream)
      let left : Ev := { e with m := e.m.setPort p { q with urgent := others q.urgent, normal := others q.normal } }
      e.startHead p = (left.issue p false x (e.ctx x.stream)).headRead p)) ∧
  (∀ (bytes : List Byte) (cycle : Word) (k node : Byte) (q : Params) (t : TagId) (epoch : BitVec 2) (data : List Byte),
    let start := startFrame cycle k
    let request := requestFrame q t epoch data
    let fetch := fetchFrame node t epoch
    let probe := probeFrame node
    withCrc bytes = bytes ++ [(crc16 bytes).extractLsb' 0 8, (crc16 bytes).extractLsb' 8 8] ∧
    (tagByte t epoch).extractLsb' 0 5 = BitVec.ofNat 5 t.val ∧ (tagByte t epoch).extractLsb' 5 2 = epoch ∧
    (tagByte t epoch).getLsbD 7 = false ∧
    start = withCrc [0x01, 0, cycle.extractLsb' 0 8, cycle.extractLsb' 8 8, cycle.extractLsb' 16 8, cycle.extractLsb' 24 8, k, 0, 0, 0] ∧
    request = withCrc ([0x02, q.node, tagByte t epoch, q.operation, q.item.extractLsb' 0 8, q.item.extractLsb' 8 8, q.outLen,
      q.inLen] ++ data) ∧
    fetch = withCrc [0x03, node, tagByte t epoch, 0, 0, 0, 0, 0] ∧ probe = withCrc [0x04, node, 0, 0, 0, 0, 0, 0] ∧
    start.length = 12 ∧ request.length = 10 + data.length ∧ fetch.length = 10 ∧ probe.length = 10) ∧
  crc16 [0x31, 0x32, 0x33, 0x34, 0x35, 0x36, 0x37, 0x38, 0x39] = 0x29B1 ∧
  crc32 [0x31, 0x32, 0x33, 0x34, 0x35, 0x36, 0x37, 0x38, 0x39] = 0xCBF43926 ∧
  (∀ (l : Line) (n : Nat), l.driverEnable n = true ↔
    ∃ f, n < f.length ∧
      (l = .start f ∨ (∃ t periodic, l = .request t periodic f) ∨ (∃ t, l = .fetch t f) ∨ ∃ a, l = .probe a f))

/-- R55, R56, R59, R60, R61: what each list offers at a selection, and what the selection does; at the opening selection a head that does
not fit passes, and where the list offered second alone had an eligible head that does not fit the turn stays with the first (log 26).
R61: on an idle line of an open window a list has gained a head, or a head has become eligible, where across the event it has another
head, or the same head newly eligible (log 20); the selection is made at the position of the event, or where the line became free if that
is later (log 3). -/
def Obligations.SelectionRules : Prop :=
  (∀ (s : State) (p : PortId),
    let q := s.port p
    let units := (s.budget p).figures.units
    (q.fetchList = [] → s.offer p .fetchList = .passes) ∧
    (∀ t rest, q.fetchList = t :: rest →
      let c := s.ctx (q.tag t).stream
      (2 ^ 31 ≤ (q.cycle - (q.tag t).ready).toNat → s.offer p .fetchList = .passes) ∧
      ((q.cycle - (q.tag t).ready).toNat < 2 ^ 31 → c.parityOk = true →
        s.offer p .fetchList = if q.freeAt + (24 + max c.params.inLen.toNat 1) + 8 ≤ units then .fits else .tooLong)) ∧
    (q.urgent = [] → q.normal = [] → s.offer p .queue = .passes) ∧
    (∀ x, (∃ rest, q.urgent = x :: rest ∨ (q.urgent = [] ∧ q.normal = x :: rest)) →
      let c := s.ctx x.stream
      let eligible := (x.source = .noneNeeded ∨ ∃ d, x.source = .present d) ∧ (∃ t, (q.tag t).state = .free) ∧
        (q.node c.params.node).tagsHeld < 8
      c.parityOk = true →
      (¬ eligible → s.offer p .queue = .passes) ∧
      (eligible → s.offer p .queue = if q.freeAt + c.cost + 8 ≤ units then .fits else .tooLong))) ∧
  (∀ (e : Ev) (p : PortId) (opening : Bool),
    let first := (e.port p).turn
    let other : Turn := match first with | .fetchList => .queue | .queue => .fetchList
    let starts : Turn → Ev := fun l =>
      (match l with | .fetchList => e.startFetch p | .queue => e.startHead p).andThen (fun e => e.modPort p (fun q =>
        { q with turn := match l with | .fetchList => .queue | .queue => .fetchList }))
    let closes : Turn → Ev := fun l => e.modPort p (fun q => { q with windowOpen := false, turn := l })
    let a := e.m.offer p first
    let b := e.m.offer p other
    (a = .fits → e.selection p opening = starts first) ∧
    (a = .passes → b = .fits → e.selection p opening = starts other) ∧
    (a = .passes → b = .passes → e.selection p opening = e) ∧
    (a = .passes → b = .tooLong → opening = false → e.selection p opening = closes other) ∧
    (a = .passes → b = .tooLong → opening = true → e.selection p opening = e) ∧
    (a = .tooLong → opening = false → e.selection p opening = closes first) ∧
    (a = .tooLong → opening = true → b = .fits → e.selection p opening = starts other) ∧
    (a = .tooLong → opening = true → b = .passes → e.selection p opening = e) ∧
    (a = .tooLong → opening = true → b = .tooLong → e.selection p opening = closes first) ∧
    e.select p = (e.modPort p (fun q => { q with openingMade := true })).selection p (!(e.port p).openingMade)) ∧
  (∀ (e : Ev) (p : PortId) (pos : Nat) (before : Heads),
    ((e.port p).windowOpen = false ∨ (e.port p).line ≠ .idle ∨ before = e.m.heads p → e.reselect p pos before = e) ∧
    ((e.port p).windowOpen = true → (e.port p).line = .idle → before.gained (e.m.heads p) = true →
      e.reselect p pos before = (e.modPort p (fun q => { q with freeAt := max q.freeAt pos })).select p) ∧
    ((e.port p).windowOpen = true → (e.port p).line = .idle → before.gained (e.m.heads p) = false →
      e.reselect p pos before = e)) ∧
  (∀ before after : Heads, before.gained after = true ↔
    (∃ t, after.fetch = some t ∧ before.fetch ≠ some t) ∨
    (after.fetch ≠ none ∧ before.fetchReady = false ∧ after.fetchReady = true) ∨
    (∃ i, after.queue = some i ∧ before.queue ≠ some i) ∨
    (after.queue ≠ none ∧ before.queueReady = false ∧ after.queueReady = true)) ∧
  (∀ (s : State) (p : PortId),
    let q := s.port p
    let h := s.heads p
    let head : Entry → Prop := fun x => ∃ rest, q.urgent = x :: rest ∨ (q.urgent = [] ∧ q.normal = x :: rest)
    (∀ t, h.fetch = some t ↔ ∃ rest, q.fetchList = t :: rest) ∧
    (h.fetchReady = true ↔ ∃ t rest, q.fetchList = t :: rest ∧ (q.cycle - (q.tag t).ready).toNat < 2 ^ 31) ∧
    (∀ i, h.queue = some i ↔ ∃ x, head x ∧ x.stream = i) ∧
    (h.queueReady = true ↔ ∃ x, head x ∧ (x.source = .noneNeeded ∨ ∃ d, x.source = .present d) ∧
      (∃ t, (q.tag t).state = .free) ∧ (q.node (s.ctx x.stream).params.node).tagsHeld < 8))

/-- R46, R51, R19: the plan of the next cycle: the gated periodic streams of the port that load its bucket, by interval and index, each
with the source state of the rule; the selector reads asked in plan order, with the flag of each stream that has one set; and nothing else
is changed. -/
def Obligations.PlanBuilt : Prop :=
  ∀ (e : Ev) (p : PortId), e.halted = false → e.m.parityGood →
    let q := e.port p
    let b := (q.cycle + 1).toNat % 64
    let loaded := e.m.loadedStreams p b
    let planned := loaded.filter (fun i =>
      (e.ctx i).state = .isOpen && !(e.ctx i).paused && !(e.ctx i).holds.portNotRunning && !(e.ctx i).holds.nodeLost &&
      !(e.ctx i).holds.memoryFault)
    let read := planned.filter (fun i => (e.ctx i).params.outLen ≠ 0 && !(e.ctx i).sourceOutstanding)
    let e' := e.planBuild p
    let q' := e'.port p
    (∀ i, i ∈ loaded ↔
      let c := e.ctx i
      (c.state = .isOpen ∨ c.state = .closing) ∧ c.params.kind = 1 ∧ c.params.portId = p ∧ c.params.interval.toNat ≤ 6 ∧
      b % 2 ^ c.params.interval.toNat = c.phase.toNat) ∧
    loaded.Pairwise (fun i j =>
      (e.ctx i).params.interval.toNat < (e.ctx j).params.interval.toNat ∨
      ((e.ctx i).params.interval = (e.ctx j).params.interval ∧ i < j)) ∧
    e' = { e with m := { e.m with
      ctxs := e'.m.ctxs
      ports := e'.m.ports
      smi := read.foldl (fun m i => m.ask (.selector i m.nextRid) (e.ctx i).params.sourceBase 1) e.m.smi } } ∧
    (∀ i, e'.ctx i = if i ∈ read then { e.ctx i with sourceOutstanding := true } else e.ctx i) ∧
    (∀ r, r ≠ p → e'.port r = e.port r) ∧
    q' = { q with nextPlan := q'.nextPlan } ∧ q'.nextPlan.take q.nextPlan.length = q.nextPlan ∧
    (q'.nextPlan.drop q.nextPlan.length).map Entry.stream = planned ∧
    (∀ x ∈ q'.nextPlan.drop q.nextPlan.length,
      let c := e.ctx x.stream
      (c.params.outLen = 0 → x.source = .noneNeeded) ∧
      (c.params.outLen ≠ 0 → c.sourceOutstanding = true → x.source = .late) ∧
      (c.params.outLen ≠ 0 → c.sourceOutstanding = false → ∃ job, x.source = .selector job ∧
        { rid := job, what := .selector x.stream job, addr := c.params.sourceBase, len := 1 } ∈
          e'.m.smi.inFlight ++ e'.m.smi.waiting ∧
        (e'.ctx x.stream).sourceOutstanding = true))

/-! ### Exchanges, tags and nodes -/

/-- R64 to R66, R160, R161: how an exchange ends: an echo mismatch first; then silence; then a good reply, which is whole within the
item's cost, has its CRC, node and tag byte (not for a PROBE) right, and is of a kind and length allowed after the frame; every other
reply is corrupt. -/
def Obligations.ReplyDecoded : Prop :=
  ∀ (kind : FrameKind) (frame echo : List Byte) (node tag : Byte) (inLen cost : Nat) (heard : Heard),
    let en := ending kind frame echo node tag inLen cost heard
    let fits : Byte → List Byte → Reply → Prop := fun ty body r =>
      (ty = 0x81 ∧ kind ≠ .probe ∧ body.length = inLen ∧ r = .done body) ∨
      (∃ h : Byte, body = [h] ∧
        ((ty = 0x82 ∧ kind = .request ∧ 1 ≤ h.toNat ∧ h.toNat ≤ 15 ∧ r = .defer h) ∨
         (ty = 0x83 ∧ kind ≠ .probe ∧ h ≠ 0 ∧ r = .reject h) ∨
         (ty = 0x84 ∧ kind = .fetch ∧ 1 ≤ h.toNat ∧ h.toNat ≤ 15 ∧ r = .pending h) ∨
         (ty = 0x85 ∧ kind = .fetch ∧ r = .noTag) ∨ (ty = 0x86 ∧ kind = .probe ∧ r = .present)))
    (echo ≠ frame → en = .mismatch) ∧
    (echo = frame → heard = .silence → en = .silent) ∧
    (∀ r : Reply, echo = frame → (en = .good r ↔
      ∃ (ty tg x y : Byte) (body rest : List Byte),
        heard = .reply (withCrc ([ty, node, tg, BitVec.ofNat 8 body.length, x, y] ++ body) ++ rest) ∧ body.length < 256 ∧
        frame.length + 6 + (8 + body.length) ≤ cost ∧ (kind ≠ .probe → tg = tag) ∧ fits ty body r)) ∧
    (∀ bytes, echo = frame → heard = .reply bytes → (∀ r, en ≠ .good r) → en = .corrupt)

/-- R45, R67, R73, R74, R76, R64: the occupancy of an exchange, what each ending makes of the tag of a REQUEST or a FETCH, and what it
reports to the node table. -/
def Obligations.ExchangeTables : Prop :=
  (∀ frame cost : Nat, occupancy frame cost .silence = frame + 9 ∧
    (∀ bytes : List Byte, bytes[3]? = none → occupancy frame cost (.reply bytes) = cost) ∧
    (∀ (bytes : List Byte) (d : Byte), bytes[3]? = some d →
      occupancy frame cost (.reply bytes) = min cost (frame + 6 + (8 + d.toNat)))) ∧
  (∀ (c : Word) (limit : Byte) (d : List Byte) (h : Byte),
    requestEnd c limit (.good (.done d)) = .released .ok 0 d ∧
    requestEnd c limit (.good (.reject h)) = .released .rejected h [] ∧
    requestEnd c limit (.good (.defer h)) = .deferred (c + h.setWidth 32) (some (c + limit.setWidth 32)) ∧
    requestEnd c limit .silent = .released .silent 0 [] ∧ requestEnd c limit .corrupt = .released .corrupt 0 [] ∧
    requestEnd c limit .mismatch = .released .lineError 0 [] ∧
    fetchEnd c (.good (.done d)) = .released .ok 0 d ∧ fetchEnd c (.good (.pending h)) = .deferred (c + h.setWidth 32) none ∧
    fetchEnd c (.good .noTag) = .released .noTag 0 [] ∧ fetchEnd c (.good (.reject h)) = .released .rejected h [] ∧
    fetchEnd c .silent = .deferred (c + 1) none ∧ fetchEnd c .corrupt = .released .corrupt 0 [] ∧
    fetchEnd c .mismatch = .deferred (c + 1) none) ∧
  (∀ r : Reply, (Ending.good r).report = .heard) ∧ Ending.silent.report = .silence ∧ Ending.corrupt.report = .corrupt ∧
  Ending.mismatch.report = .nothing

/-- R73, R76, R79, R67, R45, R50, R61: the end of a REQUEST, a FETCH or a PROBE exchange: the line is free after the occupancy, which is
counted; the tag is settled; the exchange is reported to the node table; the head then left of the queue is read where it is new (it alone,
log 33); then the periodic window goes on, or the open aperiodic window has a selection. -/
def Obligations.ExchangeEnds : Prop :=
  ∀ (s : State) (p : PortId) (echo : List Byte) (heard : Heard), s.engine.state ≠ .halted → heard ≠ .reply [] →
    let q := s.port p
    let freed : Bool → Nat → Ev := fun periodic occ => Ev.start (s.setPort p { q with
      line := .idle, freeAt := q.itemStart + occ
      periodicUsed := if periodic then q.periodicUsed + occ else q.periodicUsed
      aperiodicUsed := if periodic then q.aperiodicUsed else q.aperiodicUsed + occ })
    let goesOn : Bool → Ev → Ev := fun periodic e =>
      if periodic then e.periodic p else if (e.port p).windowOpen then e.select p else e
    (∀ t periodic frame, q.line = .request t periodic frame → (s.ctx (q.tag t).stream).parityOk = true →
      let g := q.tag t
      let c := s.ctx g.stream
      let en := ending .request frame echo g.node (tagByte t g.epoch) c.params.inLen.toNat c.params.cost heard
      exec (.requestExchangeEnd p echo heard) s = .next
        (((((freed periodic (occupancy frame.length c.params.cost heard)).settleTag p t
          (requestEnd q.cycle q.deferTimeout en)).andThen (Ev.reportNode p g.node false en.report)).andThen
          (Ev.headRead p)).andThen (goesOn periodic)).finish) ∧
    (∀ t frame, q.line = .fetch t frame → (s.ctx (q.tag t).stream).parityOk = true →
      let g := q.tag t
      let c := s.ctx g.stream
      let cost := 24 + max c.params.inLen.toNat 1
      let en := ending .fetch frame echo g.node (tagByte t g.epoch) c.params.inLen.toNat cost heard
      exec (.fetchExchangeEnd p echo heard) s = .next
        (((((freed false (occupancy frame.length cost heard)).settleTag p t
          (fetchEnd q.cycle en)).andThen (Ev.reportNode p g.node false en.report)).andThen
          (Ev.headRead p)).andThen (goesOn false)).finish) ∧
    (∀ a frame, q.line = .probe a frame →
      let en := ending .probe frame echo a 0 1 25 heard
      exec (.probeExchangeEnd p echo heard) s = .next
        ((((freed false (occupancy frame.length 25 heard)).reportNode p a true en.report).andThen
          (Ev.headRead p)).andThen (goesOn false)).finish)

/-- R70, R74, R76, R78, R22: a tag is released: it leaves the fetch list, is FREE with its epoch, its node holds one tag less, and its
outcome is delivered, or a one-shot attempt is retried at the back of its class; then the stream's tag reference is cleared and a close
may complete. A tag that stays is DEFERRED with its ready cycle and placed on the fetch list. -/
def Obligations.TagSettled : Prop :=
  (∀ (e : Ev) (p : PortId) (t : TagId) (code : OutcomeCode) (nodeCode : Byte) (payload : List Byte), e.halted = false →
    (e.ctx ((e.port p).tag t).stream).parityOk = true →
    let q := e.port p
    let g := q.tag t
    let i := g.stream
    let c := e.ctx i
    let freed : Port := (({ q with fetchList := q.fetchList.filter (fun u => u ≠ t) } : Port).setTag t { g with state := .free }).setNode
      g.node { q.node g.node with tagsHeld := (q.node g.node).tagsHeld - 1 }
    let clears : Ev → Ev := fun e => (e.modCtx i (fun c => { c with tagRef := none })).tryClose i
    let retried := c.params.kind = 2 ∧ (code = .silent ∨ code = .corrupt ∨ (code = .rejected ∧ nodeCode = 1)) ∧ 0 < c.retriesLeft ∧
      c.state = .isOpen ∧ c.paused = false ∧ c.holds = ⟨false, false, false⟩ ∧ q.urgent.length + q.normal.length < 64
    let item : Entry := { stream := i, source := if c.params.outLen = 0 then .noneNeeded else .notRead }
    let requeued : Port :=
      if c.params.cls = 1 then { freed with urgent := freed.urgent ++ [item] } else { freed with normal := freed.normal ++ [item] }
    let counted : Counters := { c.counters with retriesUsed := c.counters.retriesUsed + 1 }
    let again : Ctx → Ctx := fun c => { c with retriesLeft := c.retriesLeft - 1, oneShot := .queued, counters := counted }
    (¬ retried → e.settleTag p t (.released code nodeCode payload) =
      (({ e with m := e.m.setPort p freed } : Ev).deliver ⟨i, code, nodeCode, g.issue, q.cycle, payload⟩).andThen clears) ∧
    (retried → e.settleTag p t (.released code nodeCode payload) =
      clears (Ev.publish { e with m := e.m.setPort p requeued } i again))) ∧
  (∀ (e : Ev) (p : PortId) (t : TagId) (ready : Word) (deadline : Option Word),
    let q := e.port p
    let g := q.tag t
    let tagged := q.setTag t { g with state := .deferred, ready := ready, deadline := deadline.getD g.deadline }
    e.settleTag p t (.deferred ready deadline) =
      { e with m := e.m.setPort p { tagged with fetchList := placeTag tagged.tag t q.fetchList } }) ∧
  (∀ (tagOf : TagId → Tag) (t : TagId) (xs : List TagId), ∃ before after, xs = before ++ after ∧
    placeTag tagOf t xs = before ++ t :: after ∧ (∀ u ∈ before, (tagOf t).before (tagOf u) = false) ∧
    (∀ u rest, after = u :: rest → (tagOf t).before (tagOf u) = true)) ∧
  (∀ a b : Tag, a.before b = true ↔
    (a.ready ≠ b.ready ∧ (b.ready - a.ready).toNat < 2 ^ 31) ∨
    (a.ready = b.ready ∧ a.stamp ≠ b.stamp ∧ (b.stamp - a.stamp).toNat < 2 ^ 31))

/-- R67, R86 to R92: what a report makes of a node's entry, of the port's counters, and, where the entry changes state, of the node's tags,
queue items and streams, with the node change record and the status block. No selector read is asked within the report for an item that is
head only between its removals (the model's choice, log 33), and the streams are held in ascending order (log 32). A report made outside
RUNNING (in STOPPING) leaves the probe due field as it is (R62, R89) and acts on all else; that R86 to R88 give way to them in that one
field is the model's reading (log 38). -/
def Obligations.NodeReports : Prop :=
  (∀ (n : Node) (probe : Bool) (c : Word) (limit : Nat),
    let heard : Node := { n with silence := 0, lastHeard := c }
    let back : Node := { n with state := .present, silence := 0, lastHeard := c, probeDue := none }
    (n.state = .unknown → n.after .heard probe c limit = back) ∧
    (n.state = .present → n.after .heard probe c limit = heard) ∧
    (n.state = .lost → n.after .heard true c limit = back) ∧
    (n.state = .lost → n.after .heard false c limit = { n with lastHeard := c }) ∧
    n.after .nothing probe c limit = n ∧
    (∀ r : Report, r = .silence ∨ r = .corrupt →
      let k : Node := if r = .corrupt then { n with corrupt := min 255 (n.corrupt + 1) } else n
      let lost : Node := { k with state := .lost, silence := n.silence + 1, probeDue := some (c + 16) }
      (n.state = .lost → n.after r true c limit = { k with probeDue := some (c + 16) }) ∧
      (n.state = .lost → n.after r false c limit = k) ∧
      (n.state ≠ .lost → probe = false ∨ n.state = .unknown → n.silence + 1 = limit → n.after r probe c limit = lost) ∧
      (n.state ≠ .lost → n.silence + 1 ≠ limit → n.after r false c limit = { k with silence := n.silence + 1 }) ∧
      (n.state = .unknown → n.silence + 1 ≠ limit →
        n.after r true c limit = { k with silence := n.silence + 1, probeDue := some (c + 1) }))) ∧
  (∀ (e : Ev) (p : PortId) (a : Byte) (probe : Bool) (r : Report),
    let q := e.port p
    let was := q.node a
    let after := was.after r probe q.cycle q.silenceLimit.toNat
    let now := if q.state = .running then after else { after with probeDue := was.probeDue }
    let counted : Port := { q with
      silentCount := if r = .silence then q.silentCount + 1 else q.silentCount
      corruptCount := if r = .corrupt then q.corruptCount + 1 else q.corruptCount
      lineErrors := if r = .nothing then q.lineErrors + 1 else q.lineErrors }
    let e' : Ev := { e with m := e.m.setPort p (counted.setNode a now) }
    let recorded : Ev → Ev := fun e => (e.modPort p (fun q =>
      { q with change := ⟨a, (q.node a).state, (q.node a).lastHeard, (q.node a).corrupt⟩ })).report p
    let loses : Ev → Ev := fun e =>
      ((e.forEach (allTags.filter (fun t => ((e.port p).tag t).node = a && ((e.port p).tag t).state ≠ .free))
          (fun t => Ev.releaseTag p t .nodeLost 0 [])).andThen (fun e => e.forEach
            (((e.port p).urgent ++ (e.port p).normal).map Entry.stream)
            (fun i e => e.withCtx i (fun c e => if c.params.node = a then e.removeItem p .nodeLost i else e)))).andThen
        (Ev.holdNode p a true)
    (now.state = was.state → e.reportNode p a probe r = e') ∧
    (now.state ≠ was.state → now.state = .lost → e.reportNode p a probe r = (loses e').andThen recorded) ∧
    (now.state ≠ was.state → was.state = .lost → e.reportNode p a probe r = (e'.holdNode p a false).andThen recorded) ∧
    (now.state ≠ was.state → now.state ≠ .lost → was.state ≠ .lost → e.reportNode p a probe r = e'.andThen recorded))

/-! ### Outcomes -/

/-- R109, R111, R119, R121, R25: what writing an outcome as a slot, losing it and suppressing it do. -/
def Obligations.OutcomeEffects : Prop :=
  ∀ (e : Ev) (o : Outcome) (lapped : Bool),
    let i := o.stream
    let c := e.ctx i
    let q := c.produced
    let inLen := c.params.inLen.toNat
    let whole := o.code = .ok ∧ 0 < inLen
    let up := (inLen + 15) / 16 * 16
    let addr : Addr := c.params.windowBase + BitVec.ofNat 64 (q.toNat % c.params.slotCount.toNat * (16 + up))
    let flags : Byte := (if c.lossMark then 1 else 0) ||| (if lapped then 2 else 0)
    let bytes : List Byte := le4 q ++ le4 o.issue ++ le4 o.done ++
      [o.code.byte, o.nodeCode, flags, if whole then c.params.inLen else 0] ++
      (if whole then o.payload ++ zeros (up - o.payload.length) else [])
    let finished : Ctx := { c with
      counters := { c.counters with
        occurrences := c.counters.occurrences + 1
        misses := if o.code = .ok then c.counters.misses else c.counters.misses + 1
        timeouts := if o.code = .timeout then c.counters.timeouts + 1 else c.counters.timeouts }
      lastOutcome := some o.code, oneShot := .idle }
    let touched := if i ∈ e.dirty then e.dirty else e.dirty ++ [i]
    e.writeSlot o lapped = { e with
      m := e.m.setCtx i { finished with
        produced := q + 1, lossMark := false
        signature := if c.params.delivery = 2 ∧ o.code = .ok then some (crc32 o.payload) else c.signature }
      slots := e.slots ++ [.write addr bytes, .write (e.m.page (0x800 + 4 * i.val)) (le4 (q + 1))]
      dirty := touched
      causes := if c.params.notify = 1 then e.causes ||| causeStream else e.causes } ∧
    e.lose o = { e with
      m := e.m.setCtx i { finished with
        lossMark := true, counters := { finished.counters with overruns := c.counters.overruns + 1 } }
      dirty := touched } ∧
    e.suppress o = { e with m := e.m.setCtx i finished, dirty := touched }

/-- R110, R114, R118 to R123: how an outcome is settled when it reaches the Result Writer. An outcome that finds a refresh outstanding waits
behind the others. With MEMORY_FAULT in force and the list full it is settled under R118, not lost under R122 (the model's reading, log 35).
-/
def Obligations.OutcomeSettled : Prop :=
  ∀ (e : Ev) (o : Outcome), (e.ctx o.stream).parityOk = true →
    let i := o.stream
    let c := e.ctx i
    let waiting := e.m.writer.outcomes
    let repeats := c.params.delivery = 2 ∧ o.code = .ok ∧ c.signature = some (crc32 o.payload)
    let room := (c.produced - c.cached).toNat < c.params.slotCount.toNat
    let behind := (∃ x ∈ waiting, x.stream = i) ∨ c.refreshOutstanding = true
    let listed : State := { e.m with writer := { e.m.writer with outcomes := waiting ++ [o] } }
    let joined : Ev := { e with m := listed }
    let asked : Smi := e.m.smi.ask (.refresh i) (e.m.page (0xC00 + 4 * i.val)) 4
    let refreshing : Ev := { e with m := { listed.setCtx i { c with refreshOutstanding := true } with smi := asked } }
    (c.state = .closing → e.deliver o = { e with m := e.m.setCtx i { c with oneShot := .idle } }) ∧
    (c.state ≠ .closing →
      (behind → 128 ≤ waiting.length → e.deliver o = e.lose o) ∧
      (behind → waiting.length < 128 → e.deliver o = joined) ∧
      (¬ behind → repeats → e.deliver o = e.suppress o) ∧
      (¬ behind → ¬ repeats → room → e.deliver o = e.writeSlot o false) ∧
      (¬ behind → ¬ repeats → ¬ room → c.holds.memoryFault = true →
        e.deliver o = if c.params.overflow = 2 then e.writeSlot o true else e.lose o) ∧
      (¬ behind → ¬ repeats → ¬ room → c.holds.memoryFault = false → 128 ≤ waiting.length → e.deliver o = e.lose o) ∧
      (¬ behind → ¬ repeats → ¬ room → c.holds.memoryFault = false → waiting.length < 128 →
        e.deliver o = refreshing))

/-- R115 to R117, R123: the refresh of a stream ends: its waiting outcomes are settled, oldest first, against the value read, or lost
after a fault, which holds the stream with MEMORY_FAULT; for a CLOSING stream the value or fault is ignored. -/
def Obligations.RefreshEnds : Prop :=
  (∀ (s : State) (i : StreamId) (f : Read), s.smi.flyingFor (.refresh i) = some f → s.engine.state ≠ .halted →
    (s.ctx i).parityOk = true →
    let c := s.ctx i
    let m := s.completed f.rid
    let rest : Writer := { s.writer with outcomes := s.writer.outcomes.filter (fun o => o.stream ≠ i) }
    let waited := s.writer.outcomes.filter (fun o => o.stream = i)
    let held : Ctx := { c with refreshOutstanding := false, oneShot := .idle, holds := { c.holds with memoryFault := true } }
    let faulted : State := { m.setCtx i held with writer := rest }
    (c.state = .closing → ∀ r, exec (.consumedRefreshComplete i r) s =
      .next (((Ev.start (m.setCtx i { c with refreshOutstanding := false })).tryClose i).finish)) ∧
    (c.state ≠ .closing → exec (.consumedRefreshComplete i .fault) s =
      .next (({ Ev.start faulted with dirty := [i] } : Ev).forEach waited Ev.lose).finish) ∧
    (c.state ≠ .closing → ∀ v : Word,
      let fill := (c.produced - v).toNat
      let valid := decide (if c.params.overflow = 2 then fill < 2 ^ 31 else fill ≤ c.params.slotCount.toNat)
      let c' : Ctx := { c with
        refreshOutstanding := false, cached := if valid then v else c.cached, consumedInvalid := !valid }
      let read : State := { m.setCtx i c' with writer := rest }
      let touched : List StreamId := if (!valid) = c.consumedInvalid then [] else [i]
      exec (.consumedRefreshComplete i (.data v)) s =
        .next (({ Ev.start read with dirty := touched } : Ev).forEach waited (Ev.settleWaiting valid)).finish)) ∧
  (∀ (e : Ev) (valid : Bool) (o : Outcome),
    let c := e.ctx o.stream
    let repeats := c.params.delivery = 2 ∧ o.code = .ok ∧ c.signature = some (crc32 o.payload)
    let room := valid = true ∧ (c.produced - c.cached).toNat < c.params.slotCount.toNat
    (repeats → e.settleWaiting valid o = e.suppress o) ∧
    (¬ repeats → room → e.settleWaiting valid o = e.writeSlot o false) ∧
    (¬ repeats → ¬ room → e.settleWaiting valid o = if c.params.overflow = 2 then e.writeSlot o true else e.lose o))

/-- R12, R41, R123: a close completes when nothing of a CLOSING stream is outstanding any more; and the CANCELLED outcome of a CLOSE is
settled by the cached count and the overflow policy alone, after which the close may complete. The acknowledge of a close goes behind those
the event has made before (log 36). -/
def Obligations.CancelledOutcomeSettled : Prop :=
  (∀ (s : State) (i : StreamId) (o : Outcome), s.writer.cancelled.find? (fun o => o.stream = i) = some o →
    s.engine.state ≠ .halted → (s.ctx i).parityOk = true →
    let c := s.ctx i
    let e := Ev.start { s with writer := { s.writer with cancelled := s.writer.cancelled.filter (fun x => x.stream ≠ i) } }
    let settled := if (c.produced - c.cached).toNat < c.params.slotCount.toNat then e.writeSlot o false
      else if c.params.overflow = 2 then e.writeSlot o true else e.lose o
    exec (.cancelledOutcomeSettle i) s =
      .next (((settled.modCtx i (fun c => { c with closeOutcome := false })).tryClose i).finish)) ∧
  (∀ (e : Ev) (i : StreamId), e.halted = false →
    let c := e.ctx i
    let p := c.params.portId
    let t := e.m.budget p
    let req := c.closeReq.getD 0
    let free := c.state = .closing ∧ c.tagRef = none ∧ c.sourceOutstanding = false ∧ c.refreshOutstanding = false ∧
      c.closeOutcome = false
    (¬ free → e.tryClose i = e) ∧
    (free → e.tryClose i = { e with
      m := { e.m.setCtx i { c with
          state := .closed, paused := false, holds := ⟨false, false, false⟩, oneShot := .idle, sourceOutstanding := false,
          refreshOutstanding := false, closeOutcome := false, closeReq := none, result := .accepted, resultReq := req } with
        adm := if c.params.kind = 1 then
            { e.m.adm with
              budgets := e.m.adm.budgets.set p.val { t with
                loads := tableMap t.loads (fun b load =>
                  if b % 2 ^ c.params.interval.toNat = c.phase.toNat then load - c.cost else load)
                reservations := t.reservations - 1 }
              memLoad := e.m.adm.memLoad - c.memCost }
          else e.m.adm
        scanner := { e.m.scanner with ackCopy := e.m.scanner.ackCopy.set i.val req } }
      dirty := if i ∈ e.dirty then e.dirty else e.dirty ++ [i]
      acks := e.acks ++ [(streamIx i, req)]
      causes := e.causes ||| causeStream }))

/-- R51 to R53, R159: the end of a source read: the selector asks for its half in reads of at most 64 bytes, in ascending address order,
or makes the source faulted; a piece of the half completes the data with the last one; a read whose entry or item is gone is discarded;
a piece of another length than asked for is no event and changes nothing (log 1).
Then the flag is cleared once no source read of the stream is out (log 9), a close may complete, a new head is read, and a selection is
made where a head has become eligible. The owner of a read is the next plan's entry of its stream that waits for the reads of its stay, or
else the queue item that does; a change of its source state changes nothing else; and a source read of a stream is out while a selector
or half read of it is in flight or waiting. -/
def Obligations.SourceReadEnds : Prop :=
  (∀ (q : Port) (i : StreamId) (job : Nat),
    let waits : Entry → Prop := fun x => x.stream = i ∧ (x.source = .selector job ∨ ∃ pieces, x.source = .half job pieces)
    let first : List Entry → Entry → Prop := fun xs x => ∃ before after, xs = before ++ x :: after ∧ waits x ∧ ∀ y ∈ before, ¬ waits y
    let turned : Source → List Entry → List Entry := fun src xs => xs.map (fun x => if x.stream = i then { x with source := src } else x)
    (∀ x, q.planOwner i job = some x ↔ first q.nextPlan x) ∧
    (∀ x, q.owner i job = some x ↔
      first q.nextPlan x ∨ ((∀ y ∈ q.nextPlan, ¬ waits y) ∧ first (q.urgent ++ q.normal) x)) ∧
    (∀ src, q.setPlanSource i src = { q with nextPlan := turned src q.nextPlan }) ∧
    (∀ src, (∃ x ∈ q.nextPlan, waits x) → q.setOwner i job src = { q with nextPlan := turned src q.nextPlan }) ∧
    (∀ src, (∀ x ∈ q.nextPlan, ¬ waits x) →
      q.setOwner i job src = { q with urgent := turned src q.urgent, normal := turned src q.normal })) ∧
  (∀ (m : Smi) (i : StreamId), m.readsSource i = true ↔ ∃ r ∈ m.inFlight ++ m.waiting,
    (∃ job, r.what = .selector i job) ∨ ∃ job piece, r.what = .half i job piece) ∧
  ∀ (s : State) (rid pos : Nat) (f : Read) (i : StreamId) (job : Nat), s.smi.flying rid = some f → s.engine.state ≠ .halted →
    (s.ctx i).parityOk = true →
    let c := s.ctx i
    let q := c.params
    let p := q.portId
    let e := Ev.start (s.completed rid)
    let up := (q.outLen.toNat + 15) / 16 * 16
    let ends : Ev → State := fun e =>
      ((((e.andThen (fun e => (e.modCtx i (fun c => { c with sourceOutstanding := e.m.smi.readsSource i })).tryClose i)).andThen
        (Ev.headRead p)).andThen (Ev.reselect p pos (s.heads p))).finish)
    let faulted : Ev :=
      if ((s.port p).planOwner i job).isSome then e.modPort p (Port.setPlanSource i .faulted) else e.removeItem p .sourceFault i
    (f.what = .selector i job →
      ((s.port p).owner i job = none → ∀ r, exec (.selectorReadComplete rid r pos) s = .next (ends e)) ∧
      (∀ x, (s.port p).owner i job = some x →
        exec (.selectorReadComplete rid .fault pos) s = .next (ends faulted) ∧
        (∀ v : Byte, 2 ≤ v.toNat → exec (.selectorReadComplete rid (.data v) pos) s = .next (ends faulted)) ∧
        (∀ v : Byte, v.toNat ≤ 1 →
          let count := (q.outLen.toNat + 63) / 64
          let base := q.sourceBase + BitVec.ofNat 64 (16 + if v = 1 then up else 0)
          let asked := (List.range count).foldl (fun e k =>
              e.ask (.half i job k) (base + BitVec.ofNat 64 (64 * k)) (min 64 (q.outLen.toNat - 64 * k)))
            (e.modPort p (Port.setOwner i job (.half job (List.replicate count none))))
          exec (.selectorReadComplete rid (.data v) pos) s = .next (ends asked)))) ∧
    (∀ piece, f.what = .half i job piece →
      (∀ d, d.length ≠ f.len → exec (.halfReadComplete rid (.data d) pos) s = .next s) ∧
      ((s.port p).owner i job = none →
        exec (.halfReadComplete rid .fault pos) s = .next (ends e) ∧
        ∀ d, d.length = f.len → exec (.halfReadComplete rid (.data d) pos) s = .next (ends e)) ∧
      (∀ x, (s.port p).owner i job = some x →
        exec (.halfReadComplete rid .fault pos) s = .next (ends faulted) ∧
        ∀ pieces d, x.source = .half job pieces → d.length = f.len →
          let pieces' := pieces.set piece (some d)
          let src : Source := if ∀ y ∈ pieces', y ≠ none then .present (pieces'.flatMap (fun y => y.getD [])) else .half job pieces'
          exec (.halfReadComplete rid (.data d) pos) s = .next (ends (e.modPort p (Port.setOwner i job src)))))

/-! ### What every step keeps -/

/-- R29, R31, R37: the budget laws: every bucket load, every reservation count and the memory load total equal the sums over the streams
that are OPEN or CLOSING, every bucket load is within its port's cap, and the memory load total within the cap in force. -/
def Obligations.BudgetLawsKept : Prop :=
  ∀ s t : State, s.atRest → s.balanced ∧ s.withinCaps ∧ s.withinMemoryCap → step s = .next t →
    t.balanced ∧ t.withinCaps ∧ t.withinMemoryCap

/-- R128, R54, R122: at most 16 reads are in flight and none waits while there is room, each aperiodic queue holds at most 64 items, and
the pending outcome list at most 128 outcomes. -/
def Obligations.BoundsKept : Prop :=
  ∀ s t : State, s.atRest → s.smi.bounded ∧ s.queuesBounded ∧ s.writer.bounded → step s = .next t →
    t.smi.bounded ∧ t.queuesBounded ∧ t.writer.bounded

/-- R108, R137, R150, R155, R156: outside RUNNING and STOPPING every port is DISABLED and no request is in progress, and the scan timer
runs in RUNNING alone; PAGE_LO bits 11:0 stay 0; no message that could be sent waits, and in INTx mode the line follows the condition; and
(R164) a STOPPED engine has no write left to issue (log 41). -/
def Obligations.RestAndSignalsKept : Prop :=
  ∀ s t : State, s.atRest → step s = .next t →
    t.atRest ∧ (s.pageAligned → t.pageAligned) ∧ (s.intr.settled → t.intr.settled) ∧ (s.writesIssued → t.writesIssued)

/-- The premises and the invariants of the three statements above hold after a reset. That every context has good parity after a reset is
the model's (log 11). -/
def Obligations.InvariantsAtReset : Prop :=
  let s := State.reset
  s.atRest ∧ s.balanced ∧ s.withinCaps ∧ s.withinMemoryCap ∧ s.smi.bounded ∧ s.queuesBounded ∧ s.writer.bounded ∧ s.pageAligned ∧
  s.intr.settled ∧ s.writesIssued ∧ s.parityGood
end

