-- ==== Sys2Proof/Laws/State.lean ====
section
/-! SUPPORT. What each update of the state and of an event under way leaves of every field: one lemma per field per update, true by rfl; and reading a table after writing it. -/

namespace Sys2Proof.Machine

open Sys2Proof

/-! ### Tables -/

theorem get_eq {α : Type} {n : Nat} (v : Vector α n) (i : Fin n) : v.get i = v[i.val] := rfl

theorem get_set {α : Type} {n : Nat} (v : Vector α n) (i j : Fin n) (x : α) :
    (v.set i.val x).get j = if j = i then x else v.get j := by
  rw [get_eq, get_eq, Vector.getElem_set]; simp only [Fin.ext_iff, eq_comm]

theorem get_tableMap {α : Type} {n : Nat} (v : Vector α n) (f : Nat → α → α) (j : Fin n) :
    (tableMap v f).get j = f j.val (v.get j) := by
  simp [tableMap, get_eq]

theorem get_replicate {α : Type} {n : Nat} (x : α) (j : Fin n) : (Vector.replicate n x).get j = x := by
  simp [get_eq]

/-! ### The setters of the state -/

@[simp] theorem State.setCtx_pending (s : State) (i : StreamId) (c : Ctx) : (s.setCtx i c).pending = s.pending := rfl
@[simp] theorem State.setCtx_engine (s : State) (i : StreamId) (c : Ctx) : (s.setCtx i c).engine = s.engine := rfl
@[simp] theorem State.setCtx_intr (s : State) (i : StreamId) (c : Ctx) : (s.setCtx i c).intr = s.intr := rfl
@[simp] theorem State.setCtx_adm (s : State) (i : StreamId) (c : Ctx) : (s.setCtx i c).adm = s.adm := rfl
@[simp] theorem State.setCtx_scanner (s : State) (i : StreamId) (c : Ctx) : (s.setCtx i c).scanner = s.scanner := rfl
@[simp] theorem State.setCtx_updateCount (s : State) (i : StreamId) (c : Ctx) : (s.setCtx i c).updateCount = s.updateCount := rfl
@[simp] theorem State.setCtx_smi (s : State) (i : StreamId) (c : Ctx) : (s.setCtx i c).smi = s.smi := rfl
@[simp] theorem State.setCtx_ports (s : State) (i : StreamId) (c : Ctx) : (s.setCtx i c).ports = s.ports := rfl
@[simp] theorem State.setCtx_writer (s : State) (i : StreamId) (c : Ctx) : (s.setCtx i c).writer = s.writer := rfl
@[simp] theorem State.setCtx_free (s : State) (i : StreamId) (c : Ctx) : (s.setCtx i c).free = s.free := rfl
@[simp] theorem State.setPort_pending (s : State) (p : PortId) (q : Port) : (s.setPort p q).pending = s.pending := rfl
@[simp] theorem State.setPort_engine (s : State) (p : PortId) (q : Port) : (s.setPort p q).engine = s.engine := rfl
@[simp] theorem State.setPort_intr (s : State) (p : PortId) (q : Port) : (s.setPort p q).intr = s.intr := rfl
@[simp] theorem State.setPort_adm (s : State) (p : PortId) (q : Port) : (s.setPort p q).adm = s.adm := rfl
@[simp] theorem State.setPort_scanner (s : State) (p : PortId) (q : Port) : (s.setPort p q).scanner = s.scanner := rfl
@[simp] theorem State.setPort_updateCount (s : State) (p : PortId) (q : Port) : (s.setPort p q).updateCount = s.updateCount := rfl
@[simp] theorem State.setPort_smi (s : State) (p : PortId) (q : Port) : (s.setPort p q).smi = s.smi := rfl
@[simp] theorem State.setPort_ctxs (s : State) (p : PortId) (q : Port) : (s.setPort p q).ctxs = s.ctxs := rfl
@[simp] theorem State.setPort_writer (s : State) (p : PortId) (q : Port) : (s.setPort p q).writer = s.writer := rfl
@[simp] theorem State.setPort_free (s : State) (p : PortId) (q : Port) : (s.setPort p q).free = s.free := rfl
@[simp] theorem State.setBudget_pending (s : State) (p : PortId) (b : Budget) : (s.setBudget p b).pending = s.pending := rfl
@[simp] theorem State.setBudget_engine (s : State) (p : PortId) (b : Budget) : (s.setBudget p b).engine = s.engine := rfl
@[simp] theorem State.setBudget_intr (s : State) (p : PortId) (b : Budget) : (s.setBudget p b).intr = s.intr := rfl
@[simp] theorem State.setBudget_scanner (s : State) (p : PortId) (b : Budget) : (s.setBudget p b).scanner = s.scanner := rfl
@[simp] theorem State.setBudget_updateCount (s : State) (p : PortId) (b : Budget) : (s.setBudget p b).updateCount = s.updateCount := rfl
@[simp] theorem State.setBudget_smi (s : State) (p : PortId) (b : Budget) : (s.setBudget p b).smi = s.smi := rfl
@[simp] theorem State.setBudget_ctxs (s : State) (p : PortId) (b : Budget) : (s.setBudget p b).ctxs = s.ctxs := rfl
@[simp] theorem State.setBudget_ports (s : State) (p : PortId) (b : Budget) : (s.setBudget p b).ports = s.ports := rfl
@[simp] theorem State.setBudget_writer (s : State) (p : PortId) (b : Budget) : (s.setBudget p b).writer = s.writer := rfl
@[simp] theorem State.setBudget_free (s : State) (p : PortId) (b : Budget) : (s.setBudget p b).free = s.free := rfl
@[simp] theorem State.setBudget_memLoad (s : State) (p : PortId) (b : Budget) : (s.setBudget p b).adm.memLoad = s.adm.memLoad := rfl
@[simp] theorem State.setBudget_memCap (s : State) (p : PortId) (b : Budget) : (s.setBudget p b).adm.memCap = s.adm.memCap := rfl

theorem State.ctx_setCtx (s : State) (i j : StreamId) (c : Ctx) : (s.setCtx i c).ctx j = if j = i then c else s.ctx j :=
  get_set _ _ _ _
@[simp] theorem State.ctx_setCtx_same (s : State) (i : StreamId) (c : Ctx) : (s.setCtx i c).ctx i = c := by
  rw [State.ctx_setCtx, if_pos rfl]
@[simp] theorem State.ctx_setPort (s : State) (p : PortId) (q : Port) (j : StreamId) : (s.setPort p q).ctx j = s.ctx j := rfl
@[simp] theorem State.ctx_setBudget (s : State) (p : PortId) (b : Budget) (j : StreamId) : (s.setBudget p b).ctx j = s.ctx j := rfl
theorem State.port_setPort (s : State) (p r : PortId) (q : Port) : (s.setPort p q).port r = if r = p then q else s.port r :=
  get_set _ _ _ _
@[simp] theorem State.port_setPort_same (s : State) (p : PortId) (q : Port) : (s.setPort p q).port p = q := by
  rw [State.port_setPort, if_pos rfl]
@[simp] theorem State.port_setCtx (s : State) (i : StreamId) (c : Ctx) (r : PortId) : (s.setCtx i c).port r = s.port r := rfl
@[simp] theorem State.port_setBudget (s : State) (p : PortId) (b : Budget) (r : PortId) : (s.setBudget p b).port r = s.port r := rfl
theorem State.budget_setBudget (s : State) (p r : PortId) (b : Budget) :
    (s.setBudget p b).budget r = if r = p then b else s.budget r := get_set _ _ _ _
@[simp] theorem State.budget_setBudget_same (s : State) (p : PortId) (b : Budget) : (s.setBudget p b).budget p = b := by
  rw [State.budget_setBudget, if_pos rfl]
@[simp] theorem State.budget_setCtx (s : State) (i : StreamId) (c : Ctx) (r : PortId) : (s.setCtx i c).budget r = s.budget r := rfl
@[simp] theorem State.budget_setPort (s : State) (p : PortId) (q : Port) (r : PortId) : (s.setPort p q).budget r = s.budget r := rfl

/-! ### The changes of an event under way -/

@[simp] theorem State.setCtx_setCtx (s : State) (i : StreamId) (c c' : Ctx) : (s.setCtx i c).setCtx i c' = s.setCtx i c' := by
  simp [State.setCtx]
@[simp] theorem State.setPort_setPort (s : State) (p : PortId) (q q' : Port) : (s.setPort p q).setPort p q' = s.setPort p q' := by
  simp [State.setPort]
theorem State.setPort_setCtx (s : State) (p : PortId) (q : Port) (i : StreamId) (c : Ctx) :
    (s.setPort p q).setCtx i c = (s.setCtx i c).setPort p q := rfl
/-- Two changes of one context are one. -/
theorem Ev.modCtx_modCtx (e : Ev) (i : StreamId) (f g : Ctx → Ctx) : (e.modCtx i f).modCtx i g = e.modCtx i (fun c => g (f c)) := by
  unfold Ev.modCtx; simp
/-- Two changes of one port are one. -/
theorem Ev.modPort_modPort (e : Ev) (p : PortId) (f g : Port → Port) : (e.modPort p f).modPort p g = e.modPort p (fun q => g (f q)) := by
  unfold Ev.modPort; simp
@[simp] theorem Ev.modCtx_m (e : Ev) (i : StreamId) (f : Ctx → Ctx) : (e.modCtx i f).m = e.m.setCtx i (f (e.m.ctx i)) := rfl
@[simp] theorem Ev.modCtx_slots (e : Ev) (i : StreamId) (f : Ctx → Ctx) : (e.modCtx i f).slots = e.slots := rfl
@[simp] theorem Ev.modCtx_dirty (e : Ev) (i : StreamId) (f : Ctx → Ctx) : (e.modCtx i f).dirty = e.dirty := rfl
@[simp] theorem Ev.modCtx_blocks (e : Ev) (i : StreamId) (f : Ctx → Ctx) : (e.modCtx i f).blocks = e.blocks := rfl
@[simp] theorem Ev.modCtx_acks (e : Ev) (i : StreamId) (f : Ctx → Ctx) : (e.modCtx i f).acks = e.acks := rfl
@[simp] theorem Ev.modCtx_causes (e : Ev) (i : StreamId) (f : Ctx → Ctx) : (e.modCtx i f).causes = e.causes := rfl
@[simp] theorem Ev.modCtx_halted (e : Ev) (i : StreamId) (f : Ctx → Ctx) : (e.modCtx i f).halted = e.halted := rfl
@[simp] theorem Ev.modPort_m (e : Ev) (p : PortId) (f : Port → Port) : (e.modPort p f).m = e.m.setPort p (f (e.m.port p)) := rfl
@[simp] theorem Ev.modPort_slots (e : Ev) (p : PortId) (f : Port → Port) : (e.modPort p f).slots = e.slots := rfl
@[simp] theorem Ev.modPort_dirty (e : Ev) (p : PortId) (f : Port → Port) : (e.modPort p f).dirty = e.dirty := rfl
@[simp] theorem Ev.modPort_blocks (e : Ev) (p : PortId) (f : Port → Port) : (e.modPort p f).blocks = e.blocks := rfl
@[simp] theorem Ev.modPort_acks (e : Ev) (p : PortId) (f : Port → Port) : (e.modPort p f).acks = e.acks := rfl
@[simp] theorem Ev.modPort_causes (e : Ev) (p : PortId) (f : Port → Port) : (e.modPort p f).causes = e.causes := rfl
@[simp] theorem Ev.modPort_halted (e : Ev) (p : PortId) (f : Port → Port) : (e.modPort p f).halted = e.halted := rfl
@[simp] theorem Ev.modBudget_m (e : Ev) (p : PortId) (f : Budget → Budget) : (e.modBudget p f).m = e.m.setBudget p (f (e.m.budget p)) := rfl
@[simp] theorem Ev.modBudget_slots (e : Ev) (p : PortId) (f : Budget → Budget) : (e.modBudget p f).slots = e.slots := rfl
@[simp] theorem Ev.modBudget_dirty (e : Ev) (p : PortId) (f : Budget → Budget) : (e.modBudget p f).dirty = e.dirty := rfl
@[simp] theorem Ev.modBudget_blocks (e : Ev) (p : PortId) (f : Budget → Budget) : (e.modBudget p f).blocks = e.blocks := rfl
@[simp] theorem Ev.modBudget_acks (e : Ev) (p : PortId) (f : Budget → Budget) : (e.modBudget p f).acks = e.acks := rfl
@[simp] theorem Ev.modBudget_causes (e : Ev) (p : PortId) (f : Budget → Budget) : (e.modBudget p f).causes = e.causes := rfl
@[simp] theorem Ev.modBudget_halted (e : Ev) (p : PortId) (f : Budget → Budget) : (e.modBudget p f).halted = e.halted := rfl
@[simp] theorem Ev.modMemLoad_m (e : Ev) (f : Nat → Nat) : (e.modMemLoad f).m = { e.m with adm := { e.m.adm with memLoad := f e.m.adm.memLoad } } := rfl
@[simp] theorem Ev.modMemLoad_slots (e : Ev) (f : Nat → Nat) : (e.modMemLoad f).slots = e.slots := rfl
@[simp] theorem Ev.modMemLoad_dirty (e : Ev) (f : Nat → Nat) : (e.modMemLoad f).dirty = e.dirty := rfl
@[simp] theorem Ev.modMemLoad_blocks (e : Ev) (f : Nat → Nat) : (e.modMemLoad f).blocks = e.blocks := rfl
@[simp] theorem Ev.modMemLoad_acks (e : Ev) (f : Nat → Nat) : (e.modMemLoad f).acks = e.acks := rfl
@[simp] theorem Ev.modMemLoad_causes (e : Ev) (f : Nat → Nat) : (e.modMemLoad f).causes = e.causes := rfl
@[simp] theorem Ev.modMemLoad_halted (e : Ev) (f : Nat → Nat) : (e.modMemLoad f).halted = e.halted := rfl
@[simp] theorem Ev.modScanner_m (e : Ev) (f : Scanner → Scanner) : (e.modScanner f).m = { e.m with scanner := f e.m.scanner } := rfl
@[simp] theorem Ev.modScanner_slots (e : Ev) (f : Scanner → Scanner) : (e.modScanner f).slots = e.slots := rfl
@[simp] theorem Ev.modScanner_dirty (e : Ev) (f : Scanner → Scanner) : (e.modScanner f).dirty = e.dirty := rfl
@[simp] theorem Ev.modScanner_blocks (e : Ev) (f : Scanner → Scanner) : (e.modScanner f).blocks = e.blocks := rfl
@[simp] theorem Ev.modScanner_acks (e : Ev) (f : Scanner → Scanner) : (e.modScanner f).acks = e.acks := rfl
@[simp] theorem Ev.modScanner_causes (e : Ev) (f : Scanner → Scanner) : (e.modScanner f).causes = e.causes := rfl
@[simp] theorem Ev.modScanner_halted (e : Ev) (f : Scanner → Scanner) : (e.modScanner f).halted = e.halted := rfl
@[simp] theorem Ev.modEngine_m (e : Ev) (f : EngineCtl → EngineCtl) : (e.modEngine f).m = { e.m with engine := f e.m.engine } := rfl
@[simp] theorem Ev.modEngine_slots (e : Ev) (f : EngineCtl → EngineCtl) : (e.modEngine f).slots = e.slots := rfl
@[simp] theorem Ev.modEngine_dirty (e : Ev) (f : EngineCtl → EngineCtl) : (e.modEngine f).dirty = e.dirty := rfl
@[simp] theorem Ev.modEngine_blocks (e : Ev) (f : EngineCtl → EngineCtl) : (e.modEngine f).blocks = e.blocks := rfl
@[simp] theorem Ev.modEngine_acks (e : Ev) (f : EngineCtl → EngineCtl) : (e.modEngine f).acks = e.acks := rfl
@[simp] theorem Ev.modEngine_causes (e : Ev) (f : EngineCtl → EngineCtl) : (e.modEngine f).causes = e.causes := rfl
@[simp] theorem Ev.modEngine_halted (e : Ev) (f : EngineCtl → EngineCtl) : (e.modEngine f).halted = e.halted := rfl
@[simp] theorem Ev.modWriter_m (e : Ev) (f : Writer → Writer) : (e.modWriter f).m = { e.m with writer := f e.m.writer } := rfl
@[simp] theorem Ev.modWriter_slots (e : Ev) (f : Writer → Writer) : (e.modWriter f).slots = e.slots := rfl
@[simp] theorem Ev.modWriter_dirty (e : Ev) (f : Writer → Writer) : (e.modWriter f).dirty = e.dirty := rfl
@[simp] theorem Ev.modWriter_blocks (e : Ev) (f : Writer → Writer) : (e.modWriter f).blocks = e.blocks := rfl
@[simp] theorem Ev.modWriter_acks (e : Ev) (f : Writer → Writer) : (e.modWriter f).acks = e.acks := rfl
@[simp] theorem Ev.modWriter_causes (e : Ev) (f : Writer → Writer) : (e.modWriter f).causes = e.causes := rfl
@[simp] theorem Ev.modWriter_halted (e : Ev) (f : Writer → Writer) : (e.modWriter f).halted = e.halted := rfl
@[simp] theorem Ev.modSmi_m (e : Ev) (f : Smi → Smi) : (e.modSmi f).m = { e.m with smi := f e.m.smi } := rfl
@[simp] theorem Ev.modSmi_slots (e : Ev) (f : Smi → Smi) : (e.modSmi f).slots = e.slots := rfl
@[simp] theorem Ev.modSmi_dirty (e : Ev) (f : Smi → Smi) : (e.modSmi f).dirty = e.dirty := rfl
@[simp] theorem Ev.modSmi_blocks (e : Ev) (f : Smi → Smi) : (e.modSmi f).blocks = e.blocks := rfl
@[simp] theorem Ev.modSmi_acks (e : Ev) (f : Smi → Smi) : (e.modSmi f).acks = e.acks := rfl
@[simp] theorem Ev.modSmi_causes (e : Ev) (f : Smi → Smi) : (e.modSmi f).causes = e.causes := rfl
@[simp] theorem Ev.modSmi_halted (e : Ev) (f : Smi → Smi) : (e.modSmi f).halted = e.halted := rfl
@[simp] theorem Ev.ask_m (e : Ev) (w : ReadFor) (a : Addr) (n : Nat) : (e.ask w a n).m = { e.m with smi := e.m.smi.ask w a n } := rfl
@[simp] theorem Ev.ask_slots (e : Ev) (w : ReadFor) (a : Addr) (n : Nat) : (e.ask w a n).slots = e.slots := rfl
@[simp] theorem Ev.ask_dirty (e : Ev) (w : ReadFor) (a : Addr) (n : Nat) : (e.ask w a n).dirty = e.dirty := rfl
@[simp] theorem Ev.ask_blocks (e : Ev) (w : ReadFor) (a : Addr) (n : Nat) : (e.ask w a n).blocks = e.blocks := rfl
@[simp] theorem Ev.ask_acks (e : Ev) (w : ReadFor) (a : Addr) (n : Nat) : (e.ask w a n).acks = e.acks := rfl
@[simp] theorem Ev.ask_causes (e : Ev) (w : ReadFor) (a : Addr) (n : Nat) : (e.ask w a n).causes = e.causes := rfl
@[simp] theorem Ev.ask_halted (e : Ev) (w : ReadFor) (a : Addr) (n : Nat) : (e.ask w a n).halted = e.halted := rfl
@[simp] theorem Ev.cause_m (e : Ev) (c : BitVec 3) : (e.cause c).m = e.m := rfl
@[simp] theorem Ev.cause_slots (e : Ev) (c : BitVec 3) : (e.cause c).slots = e.slots := rfl
@[simp] theorem Ev.cause_dirty (e : Ev) (c : BitVec 3) : (e.cause c).dirty = e.dirty := rfl
@[simp] theorem Ev.cause_blocks (e : Ev) (c : BitVec 3) : (e.cause c).blocks = e.blocks := rfl
@[simp] theorem Ev.cause_acks (e : Ev) (c : BitVec 3) : (e.cause c).acks = e.acks := rfl
@[simp] theorem Ev.cause_halted (e : Ev) (c : BitVec 3) : (e.cause c).halted = e.halted := rfl
@[simp] theorem Ev.ack_m (e : Ev) (i : ReqIx) (v : Byte) : (e.ack i v).m = { e.m with scanner := { e.m.scanner with ackCopy := e.m.scanner.ackCopy.set i.val v } } := rfl
@[simp] theorem Ev.ack_slots (e : Ev) (i : ReqIx) (v : Byte) : (e.ack i v).slots = e.slots := rfl
@[simp] theorem Ev.ack_dirty (e : Ev) (i : ReqIx) (v : Byte) : (e.ack i v).dirty = e.dirty := rfl
@[simp] theorem Ev.ack_blocks (e : Ev) (i : ReqIx) (v : Byte) : (e.ack i v).blocks = e.blocks := rfl
@[simp] theorem Ev.ack_halted (e : Ev) (i : ReqIx) (v : Byte) : (e.ack i v).halted = e.halted := rfl
@[simp] theorem Ev.touch_m (e : Ev) (i : StreamId) : (e.touch i).m = e.m := by unfold Ev.touch; split <;> rfl
@[simp] theorem Ev.touch_slots (e : Ev) (i : StreamId) : (e.touch i).slots = e.slots := by unfold Ev.touch; split <;> rfl
@[simp] theorem Ev.touch_blocks (e : Ev) (i : StreamId) : (e.touch i).blocks = e.blocks := by unfold Ev.touch; split <;> rfl
@[simp] theorem Ev.touch_acks (e : Ev) (i : StreamId) : (e.touch i).acks = e.acks := by unfold Ev.touch; split <;> rfl
@[simp] theorem Ev.touch_causes (e : Ev) (i : StreamId) : (e.touch i).causes = e.causes := by unfold Ev.touch; split <;> rfl
@[simp] theorem Ev.touch_halted (e : Ev) (i : StreamId) : (e.touch i).halted = e.halted := by unfold Ev.touch; split <;> rfl
@[simp] theorem Ev.block_m (e : Ev) (p : PortId) : (e.block p).m = e.m := by unfold Ev.block; split <;> rfl
@[simp] theorem Ev.block_slots (e : Ev) (p : PortId) : (e.block p).slots = e.slots := by unfold Ev.block; split <;> rfl
@[simp] theorem Ev.block_dirty (e : Ev) (p : PortId) : (e.block p).dirty = e.dirty := by unfold Ev.block; split <;> rfl
@[simp] theorem Ev.block_acks (e : Ev) (p : PortId) : (e.block p).acks = e.acks := by unfold Ev.block; split <;> rfl
@[simp] theorem Ev.block_causes (e : Ev) (p : PortId) : (e.block p).causes = e.causes := by unfold Ev.block; split <;> rfl
@[simp] theorem Ev.block_halted (e : Ev) (p : PortId) : (e.block p).halted = e.halted := by unfold Ev.block; split <;> rfl
@[simp] theorem Ev.publish_m (e : Ev) (i : StreamId) (f : Ctx → Ctx) : (e.publish i f).m = e.m.setCtx i (f (e.m.ctx i)) := by
  simp [Ev.publish]
@[simp] theorem Ev.publish_halted (e : Ev) (i : StreamId) (f : Ctx → Ctx) : (e.publish i f).halted = e.halted := by simp [Ev.publish]
@[simp] theorem Ev.publish_slots (e : Ev) (i : StreamId) (f : Ctx → Ctx) : (e.publish i f).slots = e.slots := by simp [Ev.publish]
@[simp] theorem Ev.publish_blocks (e : Ev) (i : StreamId) (f : Ctx → Ctx) : (e.publish i f).blocks = e.blocks := by simp [Ev.publish]
@[simp] theorem Ev.publish_acks (e : Ev) (i : StreamId) (f : Ctx → Ctx) : (e.publish i f).acks = e.acks := by simp [Ev.publish]
@[simp] theorem Ev.publish_causes (e : Ev) (i : StreamId) (f : Ctx → Ctx) : (e.publish i f).causes = e.causes := by simp [Ev.publish]
@[simp] theorem Ev.report_m (e : Ev) (p : PortId) : (e.report p).m = e.m := by simp [Ev.report]
@[simp] theorem Ev.report_halted (e : Ev) (p : PortId) : (e.report p).halted = e.halted := by simp [Ev.report]
@[simp] theorem Ev.halt_halted (e : Ev) (c : FaultCode) (d : Word) : (e.halt c d).halted = true := rfl
@[simp] theorem Ev.start_m (s : State) : (Ev.start s).m = s := rfl
@[simp] theorem Ev.start_halted (s : State) : (Ev.start s).halted = false := rfl
@[simp] theorem Ev.ctx_eq (e : Ev) (i : StreamId) : e.ctx i = e.m.ctx i := rfl
@[simp] theorem Ev.port_eq (e : Ev) (p : PortId) : e.port p = e.m.port p := rfl

/-! ### The parts of an event -/

theorem Ev.andThen_of_not_halted {e : Ev} (h : e.halted = false) (f : Ev → Ev) : e.andThen f = f e := by simp [Ev.andThen, h]
theorem Ev.andThen_of_halted {e : Ev} (h : e.halted = true) (f : Ev → Ev) : e.andThen f = e := by simp [Ev.andThen, h]
theorem Ev.withCtx_of_good {e : Ev} {i : StreamId} (h : (e.m.ctx i).parityOk = true) (f : Ctx → Ev → Ev) :
    e.withCtx i f = f (e.m.ctx i) e := by simp [Ev.withCtx, h]
theorem Ev.withCtx_of_bad {e : Ev} {i : StreamId} (h : (e.m.ctx i).parityOk = false) (f : Ctx → Ev → Ev) :
    e.withCtx i f = e.halt .contextParity (BitVec.ofNat 32 i.val) := by simp [Ev.withCtx, h]
@[simp] theorem Ev.forEach_nil {α : Type} (e : Ev) (f : α → Ev → Ev) : e.forEach [] f = e := rfl
theorem Ev.forEach_cons {α : Type} (e : Ev) (x : α) (xs : List α) (f : α → Ev → Ev) :
    e.forEach (x :: xs) f = (e.andThen (f x)).forEach xs f := rfl

/-! ### The end of an event -/

@[simp] theorem State.signal_pending (s : State) (u : IntrUnit) : (s.signal u).pending = s.pending := rfl
@[simp] theorem State.signal_engine (s : State) (u : IntrUnit) : (s.signal u).engine = s.engine := rfl
@[simp] theorem State.signal_adm (s : State) (u : IntrUnit) : (s.signal u).adm = s.adm := rfl
@[simp] theorem State.signal_scanner (s : State) (u : IntrUnit) : (s.signal u).scanner = s.scanner := rfl
@[simp] theorem State.signal_ctxs (s : State) (u : IntrUnit) : (s.signal u).ctxs = s.ctxs := rfl
@[simp] theorem State.signal_ports (s : State) (u : IntrUnit) : (s.signal u).ports = s.ports := rfl
@[simp] theorem State.signal_writer (s : State) (u : IntrUnit) : (s.signal u).writer = s.writer := rfl
@[simp] theorem State.signal_free (s : State) (u : IntrUnit) : (s.signal u).free = s.free := rfl
@[simp] theorem State.signal_updateCount (s : State) (u : IntrUnit) : (s.signal u).updateCount = s.updateCount := rfl
@[simp] theorem State.signal_intr (s : State) (u : IntrUnit) : (s.signal u).intr = u.settle := rfl
@[simp] theorem State.signal_inFlight (s : State) (u : IntrUnit) : (s.signal u).smi.inFlight = s.smi.inFlight := by
  unfold State.signal; dsimp only; split <;> rfl
@[simp] theorem State.signal_waiting (s : State) (u : IntrUnit) : (s.signal u).smi.waiting = s.smi.waiting := by
  unfold State.signal; dsimp only; split <;> rfl
@[simp] theorem State.signal_link (s : State) (u : IntrUnit) : (s.signal u).smi.link = s.smi.link := by
  unfold State.signal; dsimp only; split <;> rfl
@[simp] theorem State.signal_path (s : State) (u : IntrUnit) :
    (s.signal u).smi.path = s.smi.path ++ (if u.sends then [.msi] else []) := by
  unfold State.signal; dsimp only; split <;> simp [Smi.post]
@[simp] theorem State.signal_ctx (s : State) (u : IntrUnit) (i : StreamId) : (s.signal u).ctx i = s.ctx i := rfl
@[simp] theorem State.signal_port (s : State) (u : IntrUnit) (p : PortId) : (s.signal u).port p = s.port p := rfl
@[simp] theorem State.signal_budget (s : State) (u : IntrUnit) (p : PortId) : (s.signal u).budget p = s.budget p := rfl
/-- R129: issuing the writes of the path moves its front onto the link and changes nothing between the two. -/
theorem Smi.issueWrites_all (m : Smi) : m.issueWrites.link ++ m.issueWrites.path = m.link ++ m.path := by
  unfold Smi.issueWrites
  rw [List.append_assoc, ← List.reverse_append, List.takeWhile_append_dropWhile, List.reverse_reverse]
/-- R164: with its writes issued the path holds messages alone. -/
theorem Smi.issueWrites_msi (m : Smi) : ∀ x ∈ m.issueWrites.path, x = .msi := by
  intro x hx
  have h : x.isMsi = true := List.all_eq_true.1 List.all_takeWhile x (List.mem_reverse.1 hx)
  cases x with
  | msi => rfl
  | write _ _ => cases h
theorem span_of_all {α : Type} {f : α → Bool} (xs : List α) (h : ∀ x ∈ xs, f x = true) : xs.takeWhile f = xs ∧ xs.dropWhile f = [] := by
  induction xs with
  | nil => exact ⟨rfl, rfl⟩
  | cons x xs ih =>
    have hx := h x List.mem_cons_self
    have ih := ih (fun y hy => h y (List.mem_cons_of_mem x hy))
    rw [List.takeWhile_cons_of_pos hx, List.dropWhile_cons_of_pos hx, ih.1, ih.2]
    exact ⟨rfl, rfl⟩
/-- Where the path holds messages alone, issuing its writes changes nothing. -/
theorem Smi.issueWrites_of_msi {m : Smi} (h : ∀ x ∈ m.path, x = .msi) : m.issueWrites = m := by
  have hs := span_of_all (f := PathItem.isMsi) m.path.reverse (fun x hx => by rw [h x (List.mem_reverse.1 hx)]; rfl)
  unfold Smi.issueWrites
  rw [hs.1, hs.2, List.reverse_reverse]
  simp
@[simp] theorem State.issued_pending (s : State) : s.issued.pending = s.pending := by unfold State.issued; split <;> rfl
@[simp] theorem State.issued_engine (s : State) : s.issued.engine = s.engine := by unfold State.issued; split <;> rfl
@[simp] theorem State.issued_intr (s : State) : s.issued.intr = s.intr := by unfold State.issued; split <;> rfl
@[simp] theorem State.issued_adm (s : State) : s.issued.adm = s.adm := by unfold State.issued; split <;> rfl
@[simp] theorem State.issued_scanner (s : State) : s.issued.scanner = s.scanner := by unfold State.issued; split <;> rfl
@[simp] theorem State.issued_ctxs (s : State) : s.issued.ctxs = s.ctxs := by unfold State.issued; split <;> rfl
@[simp] theorem State.issued_ports (s : State) : s.issued.ports = s.ports := by unfold State.issued; split <;> rfl
@[simp] theorem State.issued_writer (s : State) : s.issued.writer = s.writer := by unfold State.issued; split <;> rfl
@[simp] theorem State.issued_free (s : State) : s.issued.free = s.free := by unfold State.issued; split <;> rfl
@[simp] theorem State.issued_updateCount (s : State) : s.issued.updateCount = s.updateCount := by unfold State.issued; split <;> rfl
@[simp] theorem State.issued_inFlight (s : State) : s.issued.smi.inFlight = s.smi.inFlight := by unfold State.issued; split <;> rfl
@[simp] theorem State.issued_waiting (s : State) : s.issued.smi.waiting = s.smi.waiting := by unfold State.issued; split <;> rfl
@[simp] theorem State.issued_nextRid (s : State) : s.issued.smi.nextRid = s.smi.nextRid := by unfold State.issued; split <;> rfl
theorem State.issued_of_running {s : State} (h : s.engine.state ≠ .stopped) : s.issued = s := if_neg h
theorem State.issued_of_stopped {s : State} (h : s.engine.state = .stopped) : s.issued = { s with smi := s.smi.issueWrites } := if_pos h
@[simp] theorem Ev.finish_pending (e : Ev) : e.finish.pending = e.m.pending := by unfold Ev.finish; simp only [State.signal_pending, State.issued_pending]; split <;> rfl
@[simp] theorem Ev.finish_engine (e : Ev) : e.finish.engine = e.m.engine := by unfold Ev.finish; simp only [State.signal_engine, State.issued_engine]; split <;> rfl
@[simp] theorem Ev.finish_adm (e : Ev) : e.finish.adm = e.m.adm := by unfold Ev.finish; simp only [State.signal_adm, State.issued_adm]; split <;> rfl
@[simp] theorem Ev.finish_scanner (e : Ev) : e.finish.scanner = e.m.scanner := by unfold Ev.finish; simp only [State.signal_scanner, State.issued_scanner]; split <;> rfl
@[simp] theorem Ev.finish_ctxs (e : Ev) : e.finish.ctxs = e.m.ctxs := by unfold Ev.finish; simp only [State.signal_ctxs, State.issued_ctxs]; split <;> rfl
@[simp] theorem Ev.finish_ports (e : Ev) : e.finish.ports = e.m.ports := by unfold Ev.finish; simp only [State.signal_ports, State.issued_ports]; split <;> rfl
@[simp] theorem Ev.finish_writer (e : Ev) : e.finish.writer = e.m.writer := by unfold Ev.finish; simp only [State.signal_writer, State.issued_writer]; split <;> rfl
@[simp] theorem Ev.finish_free (e : Ev) : e.finish.free = e.m.free := by unfold Ev.finish; simp only [State.signal_free, State.issued_free]; split <;> rfl
@[simp] theorem Ev.finish_ctx (e : Ev) (i : StreamId) : e.finish.ctx i = e.m.ctx i := by simp [State.ctx]
@[simp] theorem Ev.finish_port (e : Ev) (p : PortId) : e.finish.port p = e.m.port p := by simp [State.port]
@[simp] theorem Ev.finish_budget (e : Ev) (p : PortId) : e.finish.budget p = e.m.budget p := by simp [State.budget]
@[simp] theorem Ev.finish_inFlight (e : Ev) : e.finish.smi.inFlight = e.m.smi.inFlight := by
  unfold Ev.finish; simp only [State.signal_inFlight, State.issued_inFlight]; split <;> rfl
@[simp] theorem Ev.finish_waiting (e : Ev) : e.finish.smi.waiting = e.m.smi.waiting := by
  unfold Ev.finish; simp only [State.signal_waiting, State.issued_waiting]; split <;> rfl
@[simp] theorem Ev.finish_intr (e : Ev) : e.finish.intr = (e.m.intr.raise e.causes).settle := by
  unfold Ev.finish; simp only [State.signal_intr]; split <;> rfl
@[simp] theorem Ev.finish_updateCount (e : Ev) :
    e.finish.updateCount = if e.writes = [] then e.m.updateCount else e.m.updateCount + 1 := by
  unfold Ev.finish; simp only [State.signal_updateCount, State.issued_updateCount]; split <;> rfl

/-- R112, R136, R155: what an event sends out, on the link record and the path together: its writes, one update count if there are any, and
then the MSI if one is sent. -/
theorem Ev.finish_out (e : Ev) :
    e.finish.smi.link ++ e.finish.smi.path =
      e.m.smi.link ++ e.m.smi.path ++ (if e.writes = [] then [] else e.writes ++ [e.m.updateCountWrite (e.m.updateCount + 1)]) ++
        (if (e.m.intr.raise e.causes).sends then [.msi] else []) := by
  have h : ∀ s : State, s.issued.smi.link ++ s.issued.smi.path = s.smi.link ++ s.smi.path := fun s => by
    unfold State.issued; split
    · exact s.smi.issueWrites_all
    · rfl
  unfold Ev.finish
  simp only [State.signal_link, State.signal_path]
  rw [← List.append_assoc, h]
  split <;> simp [Smi.post]

/-- R164: an event that leaves the engine STOPPED leaves no write to issue. -/
theorem Ev.finish_path_of_stopped (e : Ev) (h : e.m.engine.state = .stopped) : ∀ x ∈ e.finish.smi.path, x = .msi := by
  have hs : ∀ (s : State), s.engine.state = .stopped → ∀ u : IntrUnit, ∀ x ∈ (s.issued.signal u).smi.path, x = .msi := by
    intro s hs u x hx
    rw [State.signal_path, State.issued_of_stopped hs] at hx
    rcases List.mem_append.1 hx with hx | hx
    · exact s.smi.issueWrites_msi x hx
    · split at hx
      · exact List.mem_singleton.1 hx
      · cases hx
  unfold Ev.finish
  exact hs _ (by split <;> exact h) _

/-- R146, R147: a halted engine takes no event. -/
theorem State.event_of_halted {s : State} (h : s.engine.state = .halted) (f : Ev → Ev) : s.event f = s := by simp [State.event, h]
theorem State.event_of_not_halted {s : State} (h : s.engine.state ≠ .halted) (f : Ev → Ev) : s.event f = (f (Ev.start s)).finish := by
  simp [State.event, h]

end Sys2Proof.Machine
end

