-- ==== Sys2Proof/Laws/Moves.lean ====
section
/-! SUPPORT. What an event can do, said once: every shared operation is a run of the moves below, none of which is made after the event has halted the engine (Ev.Does). Invariants are proved by one case per move. -/

namespace Sys2Proof.Machine

open Sys2Proof

/-- The fields of a stream context that the budget laws and R4 depend on are the same. -/
def Ctx.sameBook (c c' : Ctx) : Prop :=
  c'.live = c.live ∧ c'.parityOk = c.parityOk ∧
  (c.live = true → c'.params = c.params ∧ c'.phase = c.phase ∧ c'.cost = c.cost ∧ c'.memCost = c.memCost)

/-- What an event is allowed: which changes of which port, and whether it may change the state of the engine other than by a halt. -/
structure Allow where
  port : PortId → Port → Port → Prop
  engine : Bool

/-- One move of an event under what is allowed. -/
inductive Ev.Move (K : Allow) : Ev → Ev → Prop where
  /-- What the event sends out changes; the machine does not. -/
  | out {e e' : Ev} : e'.m = e.m → e'.halted = e.halted → Move K e e'
  /-- A context changes outside what the budget laws see. -/
  | ctx {e : Ev} (i : StreamId) (f : Ctx → Ctx) : Ctx.sameBook (e.m.ctx i) (f (e.m.ctx i)) → Move K e (e.modCtx i f)
  /-- R9, R38: an OPEN is accepted. -/
  | opened {e : Ev} (i : StreamId) (v : Byte) (q : Params) (φ : Byte) (mc : Nat) (n : Word) (h : Holds) :
      (e.m.ctx i).live = false → e.m.budgetStep q = .inr (φ, mc) →
      Move K e ((if q.periodic then e.reserve q φ.toNat else e).modCtx i (fun c => c.opened q φ mc n h v))
  /-- R12, R41: a close completes. -/
  | closed {e : Ev} (i : StreamId) (f : Ctx → Ctx) :
      (e.m.ctx i).state = .closing → (f (e.m.ctx i)).live = false → (f (e.m.ctx i)).parityOk = (e.m.ctx i).parityOk →
      Move K e ((e.releaseBudget (e.m.ctx i)).modCtx i f)
  /-- R30: a configuration is taken into a budget table. -/
  | config {e : Ev} (p : PortId) (k pct : Byte) :
      e.m.configureRefused p k pct = false → Move K e (e.modBudget p (fun t => t.configured k pct))
  /-- A port changes as allowed. -/
  | port {e : Ev} (p : PortId) (f : Port → Port) : K.port p (e.m.port p) (f (e.m.port p)) → Move K e (e.modPort p f)
  /-- R128: a read is asked. -/
  | ask {e : Ev} (w : ReadFor) (a : Addr) (n : Nat) : Move K e (e.ask w a n)
  /-- R128: a read completes. -/
  | complete {e : Ev} (rid : Nat) : Move K e (e.modSmi (fun m => m.complete rid))
  /-- R122: the Result Writer's lists change within the bound. -/
  | writer {e : Ev} (f : Writer → Writer) :
      (e.m.writer.bounded → (f e.m.writer).bounded) → Move K e (e.modWriter f)
  /-- The scanner changes; a take begins only in RUNNING (R131, R133), and the timer is not started. -/
  | scanner {e : Ev} (f : Scanner → Scanner) :
      ((f e.m.scanner).take ≠ none → e.m.scanner.take ≠ none ∨ e.m.engine.state = .running) →
      ((f e.m.scanner).timer = true → e.m.scanner.timer = true) → Move K e (e.modScanner f)
  /-- R139 to R145: Engine Control changes, with the scan timer; the PAGE registers stay. -/
  | engine {e : Ev} (f : EngineCtl → EngineCtl) (g : Scanner → Scanner) :
      K.engine = true →
      (f e.m.engine).pageLo = e.m.engine.pageLo → (f e.m.engine).pageHi = e.m.engine.pageHi →
      (f e.m.engine).state ≠ .halted → (g e.m.scanner).take = e.m.scanner.take →
      ((g e.m.scanner).timer = true → (f e.m.engine).state = .running) →
      ((f e.m.engine).state ≠ .running → (f e.m.engine).state ≠ .stopping →
        (e.m.engine.state = .running ∨ e.m.engine.state = .stopping) →
        (∀ p, (e.m.port p).state = .disabled) ∧ e.m.scanner.take = none) →
      Move K e ((e.modEngine f).modScanner g)
  /-- R36, R127, R141: the header of a start is taken. -/
  | header {e : Ev} (cap : Word) (per : Byte) (g : EngineCtl) :
      e.m.adm.overBudget cap = false → g.pageLo = e.m.engine.pageLo → g.pageHi = e.m.engine.pageHi →
      g.state = e.m.engine.state →
      Move K e { e with m := { e.m with
        adm := { e.m.adm with memCap := cap }, scanner := { e.m.scanner with period := per }, engine := g } }
  /-- R4, R146: the engine halts on a context whose parity is bad. -/
  | halt {e : Ev} (i : StreamId) : (e.m.ctx i).parityOk = false → Move K e (e.halt .contextParity (BitVec.ofNat 32 i.val))
  /-- R132, R142, R146: the engine halts on a REQ array that could not be read. -/
  | arrayFault {e : Ev} : K.engine = true → Move K e e.arrayFault

/-- A run of moves, none of them made after the engine has halted. -/
inductive Ev.Does (K : Allow) : Ev → Ev → Prop where
  | refl {e : Ev} : Does K e e
  | step {a b c : Ev} : Does K a b → b.halted = false → Ev.Move K b c → Does K a c

variable {K : Allow}

theorem Ev.Move.mono {K' : Allow} (h : ∀ r q q', K.port r q q' → K'.port r q q') (he : K.engine = true → K'.engine = true) {a b : Ev}
    (m : Ev.Move K a b) : Ev.Move K' a b := by
  cases m with
  | port p f hk => exact .port p f (h _ _ _ hk)
  | out h1 h2 => exact .out h1 h2
  | ctx i f h1 => exact .ctx i f h1
  | opened i v q φ mc n hh h1 h2 => exact .opened i v q φ mc n hh h1 h2
  | closed i f h1 h2 h3 => exact .closed i f h1 h2 h3
  | config p k pct h1 => exact .config p k pct h1
  | ask w a n => exact .ask w a n
  | complete rid => exact .complete rid
  | writer f h1 => exact .writer f h1
  | scanner f h1 h2 => exact .scanner f h1 h2
  | engine f g h0 h1 h2 h3 h4 h5 h6 => exact .engine f g (he h0) h1 h2 h3 h4 h5 h6
  | header cap per g h1 h2 h3 h4 => exact .header cap per g h1 h2 h3 h4
  | halt i h1 => exact .halt i h1
  | arrayFault h1 => exact .arrayFault (he h1)

/-- What is done under stricter port changes is done under laxer ones. -/
theorem Ev.Does.mono {K' : Allow} (h : ∀ r q q', K.port r q q' → K'.port r q q') (he : K.engine = true → K'.engine = true) {a b : Ev}
    (d : Ev.Does K a b) : Ev.Does K' a b := by
  induction d with
  | refl => exact .refl
  | step _ hb m ih => exact .step ih hb (m.mono h he)

theorem Ev.Does.trans {a b c : Ev} (h1 : Ev.Does K a b) (h2 : Ev.Does K b c) : Ev.Does K a c := by
  induction h2 with
  | refl => exact h1
  | step _ hb m ih => exact .step ih hb m

/-- One move of an event that has not halted. -/
theorem Ev.Does.one {a b : Ev} (h : a.halted = false) (m : Ev.Move K a b) : Ev.Does K a b := .step .refl h m

/-- A next part of the event. -/
theorem Ev.Does.andThen {a b : Ev} {f : Ev → Ev} (h1 : Ev.Does K a b) (h2 : b.halted = false → Ev.Does K b (f b)) :
    Ev.Does K a (b.andThen f) := by
  unfold Ev.andThen
  cases hb : b.halted with
  | true => simpa [hb] using h1
  | false => simpa [hb] using h1.trans (h2 hb)

theorem Ev.Does.onlyIf {a b : Ev} {f : Ev → Ev} {c : Bool} (h1 : Ev.Does K a b)
    (h2 : c = true → b.halted = false → Ev.Does K b (f b)) : Ev.Does K a (b.onlyIf c f) := by
  unfold Ev.onlyIf
  cases c with
  | true => exact h1.andThen (h2 rfl)
  | false => exact h1

/-- A part made for each member of a list. -/
theorem Ev.Does.forEach {α : Type} {f : α → Ev → Ev} (h : ∀ x e, e.halted = false → Ev.Does K e (f x e)) (xs : List α) :
    ∀ {a b : Ev}, Ev.Does K a b → Ev.Does K a (b.forEach xs f) := by
  induction xs with
  | nil => intro a b h1; exact h1
  | cons x xs ih => intro a b h1; exact ih (h1.andThen (h x b))

/-- A part that reads a context with its parity checked (R4). -/
theorem Ev.Does.withCtx {a b : Ev} {i : StreamId} {f : Ctx → Ev → Ev} (h1 : Ev.Does K a b) (hb : b.halted = false)
    (h2 : (b.m.ctx i).parityOk = true → Ev.Does K b (f (b.m.ctx i) b)) : Ev.Does K a (b.withCtx i f) := by
  cases hp : (b.m.ctx i).parityOk with
  | true => rw [Ev.withCtx_of_good hp]; exact h1.trans (h2 hp)
  | false => rw [Ev.withCtx_of_bad hp]; exact .step h1 hb (.halt i hp)

/-- Contexts read for a decision that changes none of them (R4). -/
theorem Ev.does_checkCtxs (is : List StreamId) (e : Ev) : Ev.Does K e (e.checkCtxs is) :=
  Ev.Does.forEach (fun _ _ h => Ev.Does.withCtx .refl h (fun _ => .refl)) _ .refl

/-- Contexts read for a decision leave the event as it was, unless they halt the engine. -/
theorem Ev.checkCtxs_eq (is : List StreamId) : ∀ e : Ev, (e.checkCtxs is).halted = false → e.checkCtxs is = e := by
  induction is with
  | nil => intro e _; rfl
  | cons i is ih =>
    intro e h
    unfold Ev.checkCtxs Ev.forEach at h ⊢
    cases hh : e.halted with
    | true => simp only [Ev.andThen, hh, if_true] at h ⊢; exact ih e h
    | false =>
      simp only [Ev.andThen, hh, Bool.false_eq_true, if_false] at h ⊢
      cases hp : (e.m.ctx i).parityOk with
      | true => rw [Ev.withCtx_of_good hp] at h ⊢; exact ih e h
      | false =>
        rw [Ev.withCtx_of_bad hp] at h ⊢
        change (Ev.checkCtxs is _).halted = false at h
        rw [ih _ h, Ev.halt_halted] at h
        cases h

/-! ### The moves by name -/

theorem Ev.does_slots (e : Ev) (ws : List PathItem) (h : e.halted = false) : Ev.Does K e { e with slots := ws } :=
  .one h (.out rfl rfl)
theorem Ev.does_touch (e : Ev) (i : StreamId) (h : e.halted = false) : Ev.Does K e (e.touch i) := .one h (.out (by simp) (by simp))
theorem Ev.does_block (e : Ev) (p : PortId) (h : e.halted = false) : Ev.Does K e (e.block p) := .one h (.out (by simp) (by simp))
theorem Ev.does_cause (e : Ev) (c : BitVec 3) (h : e.halted = false) : Ev.Does K e (e.cause c) := .one h (.out rfl rfl)
theorem Ev.does_report (e : Ev) (p : PortId) (h : e.halted = false) : Ev.Does K e (e.report p) := .one h (.out (by simp) (by simp))

theorem Ev.does_modCtx (e : Ev) (i : StreamId) (f : Ctx → Ctx) (h : e.halted = false)
    (hf : Ctx.sameBook (e.m.ctx i) (f (e.m.ctx i))) : Ev.Does K e (e.modCtx i f) := .one h (.ctx i f hf)

theorem Ev.does_publish (e : Ev) (i : StreamId) (f : Ctx → Ctx) (h : e.halted = false)
    (hf : Ctx.sameBook (e.m.ctx i) (f (e.m.ctx i))) : Ev.Does K e (e.publish i f) :=
  (e.does_modCtx i f h hf).trans (Ev.does_touch _ i h)

theorem Ev.does_modPort (e : Ev) (p : PortId) (f : Port → Port) (h : e.halted = false)
    (hf : K.port p (e.m.port p) (f (e.m.port p))) : Ev.Does K e (e.modPort p f) := .one h (.port p f hf)

theorem Ev.does_modWriter (e : Ev) (f : Writer → Writer) (h : e.halted = false)
    (hf : e.m.writer.bounded → (f e.m.writer).bounded) : Ev.Does K e (e.modWriter f) := .one h (.writer f hf)

theorem Ev.does_ask (e : Ev) (w : ReadFor) (a : Addr) (n : Nat) (h : e.halted = false) : Ev.Does K e (e.ask w a n) := .one h (.ask w a n)

theorem Ev.does_ack (e : Ev) (i : ReqIx) (v : Byte) (h : e.halted = false) : Ev.Does K e (e.ack i v) :=
  .step (.one h (.scanner (fun sc => { sc with ackCopy := sc.ackCopy.set i.val v }) (fun x => .inl x) id)) h (.out rfl rfl)

/-! ### What a run of moves leaves of the ports -/

theorem Ev.reserve_port (e : Ev) (q : Params) (φ : Nat) (r : PortId) : (e.reserve q φ).m.port r = e.m.port r := rfl
theorem Ev.releaseBudget_port (e : Ev) (c : Ctx) (r : PortId) : (e.releaseBudget c).m.port r = e.m.port r := by
  unfold Ev.releaseBudget; split <;> rfl

/-- A move that does not halt the engine leaves a port as it is, or changes it as allowed. -/
theorem Ev.Move.port_or {a b : Ev} (m : Ev.Move K a b) (hb : b.halted = false) (r : PortId) :
    b.m.port r = a.m.port r ∨ K.port r (a.m.port r) (b.m.port r) := by
  cases m with
  | out h1 _ => exact .inl (by rw [h1])
  | port p f hk =>
    by_cases hr : r = p
    · subst hr; exact .inr (by simpa using hk)
    · exact .inl (by simp [State.port_setPort, hr])
  | opened i v q φ mc n hh _ _ =>
    refine .inl ?_
    show (if q.periodic then a.reserve q φ.toNat else a).m.port r = a.m.port r
    split <;> rfl
  | closed i f _ _ _ => exact .inl (Ev.releaseBudget_port a _ r)
  | halt i h1 => simp at hb
  | arrayFault h1 => simp [Ev.arrayFault] at hb
  | _ => exact .inl rfl

/-- A run of moves that does not halt the engine changes a port by a run of allowed changes. -/
theorem Ev.Does.port {R : PortId → Port → Port → Prop} (hr : ∀ r q, R r q q)
    (ht : ∀ r q q' q'', R r q q' → K.port r q' q'' → R r q q'') {a b : Ev} (d : Ev.Does K a b) (hb : b.halted = false) (r : PortId) :
    R r (a.m.port r) (b.m.port r) := by
  induction d with
  | refl => exact hr _ _
  | step _ hm m ih =>
    rcases m.port_or hb r with he | hk
    · rw [he]; exact ih hm
    · exact ht _ _ _ _ (ih hm) hk

/-! ### What does not halt -/

theorem Ev.releaseBudget_ctxs (e : Ev) (c : Ctx) : (e.releaseBudget c).m.ctxs = e.m.ctxs := by
  unfold Ev.releaseBudget; split <;> rfl

theorem Ev.releaseBudget_ctx (e : Ev) (c : Ctx) (i : StreamId) : (e.releaseBudget c).m.ctx i = e.m.ctx i := by
  unfold Ev.releaseBudget; split <;> rfl

/-- Every move leaves the parity of every context as it is. -/
theorem Ev.Move.parity {a b : Ev} (m : Ev.Move K a b) (i : StreamId) : (b.m.ctx i).parityOk = (a.m.ctx i).parityOk := by
  have set : ∀ (s : State) (j : StreamId) (c : Ctx), c.parityOk = (s.ctx j).parityOk →
      ((s.setCtx j c).ctx i).parityOk = (s.ctx i).parityOk := fun s j c h => by
    rw [State.ctx_setCtx]; split
    · rename_i hj; rw [hj, h]
    · rfl
  cases m with
  | out h1 _ => rw [h1]
  | ctx j f hf => exact set _ _ _ hf.2.1
  | opened j v q φ mc n hh _ _ =>
    cases q.periodic
    · exact set a.m j _ rfl
    · exact set (a.reserve q φ.toNat).m j _ rfl
  | closed j f _ _ h3 =>
    have := set (a.releaseBudget (a.m.ctx j)).m j (f (a.m.ctx j)) (by rw [h3, Ev.releaseBudget_ctx])
    rw [Ev.releaseBudget_ctx] at this
    rw [← this]
    show (((a.releaseBudget (a.m.ctx j)).m.setCtx j (f ((a.releaseBudget (a.m.ctx j)).m.ctx j))).ctx i).parityOk = _
    rw [Ev.releaseBudget_ctx]
  | _ => rfl

/-- R4: where every context has good parity, an event that may not change the state of the engine does not halt it. -/
theorem Ev.Does.runs {a b : Ev} (hK : K.engine = false) (d : Ev.Does K a b) (ha : a.halted = false) (h : a.m.parityGood) :
    b.halted = false ∧ b.m.parityGood := by
  induction d with
  | refl => exact ⟨ha, h⟩
  | @step b c _ hb m ih =>
    refine ⟨?_, fun i => (m.parity i).trans (ih.2 i)⟩
    cases m with
    | out _ h2 => rw [h2]; exact hb
    | opened j v q φ mc n hh _ _ => cases q.periodic <;> exact hb
    | closed j f _ _ _ => unfold Ev.releaseBudget; split <;> exact hb
    | halt i h1 => rw [ih.2 i] at h1; cases h1
    | arrayFault h1 => rw [hK] at h1; cases h1
    | _ => exact hb

end Sys2Proof.Machine
end

