-- ==== Sys2Proof/Laws/Writer.lean ====
section
/-! SUPPORT. What the Result Writer's operations and the completion of a close can do: each is a run of moves (Ev.Does) that changes no port; and whether it halts the engine. -/

namespace Sys2Proof.Machine

open Sys2Proof

variable {K : Allow}

/-! ### Halting -/

@[simp] theorem Ev.releaseBudget_halted (e : Ev) (c : Ctx) : (e.releaseBudget c).halted = e.halted := by
  unfold Ev.releaseBudget; split <;> rfl
@[simp] theorem Ev.reserve_halted (e : Ev) (q : Params) (φ : Nat) : (e.reserve q φ).halted = e.halted := rfl
@[simp] theorem Ev.completeClose_halted (e : Ev) (i : StreamId) : (e.completeClose i).halted = e.halted := by
  simp [Ev.completeClose]
@[simp] theorem Ev.tryClose_halted (e : Ev) (i : StreamId) : (e.tryClose i).halted = e.halted := by
  unfold Ev.tryClose Ev.onlyIf Ev.andThen
  split
  · split <;> simp
  · rfl
@[simp] theorem Ev.writeSlot_halted (e : Ev) (o : Outcome) (l : Bool) : (e.writeSlot o l).halted = e.halted := by
  unfold Ev.writeSlot; dsimp only; split <;> simp
@[simp] theorem Ev.suppress_halted (e : Ev) (o : Outcome) : (e.suppress o).halted = e.halted := by simp [Ev.suppress]
@[simp] theorem Ev.lose_halted (e : Ev) (o : Outcome) : (e.lose o).halted = e.halted := by simp [Ev.lose]
@[simp] theorem Ev.noRoom_halted (e : Ev) (o : Outcome) : (e.noRoom o).halted = e.halted := by
  unfold Ev.noRoom; split <;> simp
@[simp] theorem Ev.discard_halted (e : Ev) (o : Outcome) : (e.discard o).halted = e.halted := rfl
@[simp] theorem Ev.wait_halted (e : Ev) (o : Outcome) : (e.wait o).halted = e.halted := rfl
@[simp] theorem Ev.askRefresh_halted (e : Ev) (i : StreamId) : (e.askRefresh i).halted = e.halted := rfl
@[simp] theorem Ev.testFull_halted (e : Ev) (o : Outcome) : (e.testFull o).halted = e.halted := by
  unfold Ev.testFull
  split
  · simp
  · split <;> simp
@[simp] theorem Ev.settleWaiting_halted (e : Ev) (v : Bool) (o : Outcome) : (e.settleWaiting v o).halted = e.halted := by
  unfold Ev.settleWaiting
  dsimp only
  split
  · simp
  · split <;> simp
@[simp] theorem Ev.takeWaiting_halted (e : Ev) (i : StreamId) : (e.takeWaiting i).halted = e.halted := rfl

/-! ### The completion of a close -/

theorem Ev.does_completeClose (e : Ev) (i : StreamId) (h : e.halted = false) (hc : (e.m.ctx i).state = .closing) :
    Ev.Does K e (e.completeClose i) :=
  ((Ev.Does.one h (.closed i (fun c => c.closed ((e.m.ctx i).closeReq.getD 0)) hc rfl rfl)).trans
    (Ev.does_touch _ i (by simpa using h))).trans (Ev.does_ack _ _ _ (by simpa using h))

theorem Ev.does_tryClose (e : Ev) (i : StreamId) (h : e.halted = false) : Ev.Does K e (e.tryClose i) :=
  Ev.Does.onlyIf .refl (fun hc _ => e.does_completeClose i h (by
    rw [Bool.and_eq_true] at hc; exact of_decide_eq_true hc.1))

/-! ### Settling an outcome -/

theorem Ctx.sameBook_of_eq {c c' : Ctx} (h1 : c'.state = c.state) (h2 : c'.parityOk = c.parityOk) (h3 : c'.params = c.params)
    (h4 : c'.phase = c.phase) (h5 : c'.cost = c.cost) (h6 : c'.memCost = c.memCost) : Ctx.sameBook c c' :=
  ⟨by simp [Ctx.live, h1], h2, fun _ => ⟨h3, h4, h5, h6⟩⟩

theorem Ev.does_writeSlot (e : Ev) (o : Outcome) (l : Bool) (h : e.halted = false) : Ev.Does K e (e.writeSlot o l) := by
  unfold Ev.writeSlot
  have h1 : Ev.Does K e ({ e with slots := e.slots ++ e.m.slotWrites o l }.publish o.stream (fun c => c.slotWritten o)) :=
    (e.does_slots _ h).trans (Ev.does_publish _ _ _ h (Ctx.sameBook_of_eq rfl rfl rfl rfl rfl rfl))
  dsimp only
  split
  · exact h1.trans (Ev.does_cause _ _ (by simpa using h))
  · exact h1

theorem Ev.does_suppress (e : Ev) (o : Outcome) (h : e.halted = false) : Ev.Does K e (e.suppress o) :=
  e.does_publish _ _ h (Ctx.sameBook_of_eq rfl rfl rfl rfl rfl rfl)

theorem Ev.does_lose (e : Ev) (o : Outcome) (h : e.halted = false) : Ev.Does K e (e.lose o) :=
  e.does_publish _ _ h (Ctx.sameBook_of_eq rfl rfl rfl rfl rfl rfl)

theorem Ev.does_noRoom (e : Ev) (o : Outcome) (h : e.halted = false) : Ev.Does K e (e.noRoom o) := by
  unfold Ev.noRoom; split
  · exact e.does_writeSlot o true h
  · exact e.does_lose o h

theorem Ev.does_discard (e : Ev) (o : Outcome) (h : e.halted = false) : Ev.Does K e (e.discard o) :=
  e.does_modCtx _ _ h (Ctx.sameBook_of_eq rfl rfl rfl rfl rfl rfl)

theorem Ev.does_wait (e : Ev) (o : Outcome) (h : e.halted = false) (hf : e.m.writer.full = false) : Ev.Does K e (e.wait o) := by
  refine e.does_modWriter _ h (fun _ => ?_)
  have hf := of_decide_eq_false hf
  simp only [Config.pendingOutcomes] at hf
  simp only [Writer.bounded, Config.pendingOutcomes, List.length_append, List.length_cons, List.length_nil]
  omega

theorem Ev.does_askRefresh (e : Ev) (i : StreamId) (h : e.halted = false) : Ev.Does K e (e.askRefresh i) :=
  (e.does_ask _ _ _ h).trans (Ev.does_modCtx _ _ _ h (Ctx.sameBook_of_eq rfl rfl rfl rfl rfl rfl))

theorem Ev.does_testFull (e : Ev) (o : Outcome) (h : e.halted = false) : Ev.Does K e (e.testFull o) := by
  unfold Ev.testFull; split
  · exact e.does_noRoom o h
  · split
    · exact e.does_lose o h
    · rename_i hf
      exact (e.does_wait o h (by simpa using hf)).trans (Ev.does_askRefresh _ _ h)

/-- R110: what the arrival of an outcome can do. -/
theorem Ev.does_deliver (e : Ev) (o : Outcome) (h : e.halted = false) : Ev.Does K e (e.deliver o) := by
  unfold Ev.deliver
  refine Ev.Does.withCtx .refl h (fun _ => ?_)
  split
  · exact e.does_discard o h
  split
  · split
    · exact e.does_lose o h
    · rename_i hf
      exact e.does_wait o h (by simpa using hf)
  split
  · exact e.does_suppress o h
  split
  · exact e.does_writeSlot o false h
  · exact e.does_testFull o h

/-! ### The end of a refresh -/

theorem Ev.does_settleWaiting (e : Ev) (v : Bool) (o : Outcome) (h : e.halted = false) : Ev.Does K e (e.settleWaiting v o) := by
  unfold Ev.settleWaiting
  dsimp only
  split
  · exact e.does_suppress o h
  split
  · exact e.does_writeSlot o false h
  · exact e.does_noRoom o h

theorem Ev.does_takeWaiting (e : Ev) (i : StreamId) (h : e.halted = false) : Ev.Does K e (e.takeWaiting i) :=
  e.does_modWriter _ h (fun hb => Nat.le_trans (List.length_filter_le _ _) hb)

theorem Ctx.refreshed_sameBook (c : Ctx) (v : Word) : Ctx.sameBook c (c.refreshed v) := by
  unfold Ctx.refreshed; split <;> exact Ctx.sameBook_of_eq rfl rfl rfl rfl rfl rfl

theorem Ev.does_refreshData (e : Ev) (i : StreamId) (v : Word) (h : e.halted = false) : Ev.Does K e (e.refreshData i v) := by
  unfold Ev.refreshData
  dsimp only
  refine Ev.Does.forEach (fun o e h => e.does_settleWaiting _ o h) _ ?_
  have h1 : Ev.Does K e (e.modCtx i (fun c => c.refreshed v)) := e.does_modCtx _ _ h (Ctx.refreshed_sameBook _ _)
  split
  · exact h1.trans (Ev.does_takeWaiting _ i h)
  · exact (h1.trans (Ev.does_touch _ i h)).trans (Ev.does_takeWaiting _ i (by simpa using h))

theorem Ev.does_refreshFault (e : Ev) (i : StreamId) (h : e.halted = false) : Ev.Does K e (e.refreshFault i) := by
  unfold Ev.refreshFault
  exact Ev.Does.forEach (fun o e h => e.does_lose o h) _
    ((e.does_publish _ _ h (Ctx.sameBook_of_eq rfl rfl rfl rfl rfl rfl)).trans (Ev.does_takeWaiting _ i (by simpa using h)))

/-- R115 to R117: what the end of a refresh can do. -/
theorem Ev.does_refreshEnd (e : Ev) (i : StreamId) (v : Option Word) (h : e.halted = false) : Ev.Does K e (e.refreshEnd i v) := by
  unfold Ev.refreshEnd
  refine Ev.Does.withCtx .refl h (fun _ => ?_)
  split
  · exact (e.does_modCtx _ _ h (Ctx.sameBook_of_eq rfl rfl rfl rfl rfl rfl)).trans (Ev.does_tryClose _ i h)
  · split
    · exact e.does_refreshData i _ h
    · exact e.does_refreshFault i h

/-- R123: what the settling of a CANCELLED outcome can do. -/
theorem Ev.does_settleCancelled (e : Ev) (o : Outcome) (h : e.halted = false) : Ev.Does K e (e.settleCancelled o) := by
  unfold Ev.settleCancelled
  refine Ev.Does.withCtx .refl h (fun _ => ?_)
  dsimp only
  have h1 : Ev.Does K e (e.modWriter (fun w => { w with cancelled := w.cancelled.filter (fun x => x.stream ≠ o.stream) })) :=
    e.does_modWriter _ h id
  split
  · exact ((h1.trans (Ev.does_writeSlot _ o false h)).trans
      (Ev.does_modCtx _ _ _ (by simpa using h) (Ctx.sameBook_of_eq rfl rfl rfl rfl rfl rfl))).trans
      (Ev.does_tryClose _ _ (by simpa using h))
  · exact ((h1.trans (Ev.does_noRoom _ o h)).trans
      (Ev.does_modCtx _ _ _ (by simpa using h) (Ctx.sameBook_of_eq rfl rfl rfl rfl rfl rfl))).trans
      (Ev.does_tryClose _ _ (by simpa using h))

end Sys2Proof.Machine
end

