-- ==== Sys2Proof/Laws/Planner.lean ====
section
/-! SUPPORT. What the Cycle Planner's operations can do: each is a run of moves that changes port `p` alone, and of it only what the planner owns (Port.planned). -/

namespace Sys2Proof.Machine

open Sys2Proof

/-- A change of a port that the planner may make: what it does not own is kept, and the queue stays within its bound. -/
def Port.planned (q q' : Port) : Prop :=
  q'.kept = q.kept ∧ (q.queueLength ≤ Config.queueSize → q'.queueLength ≤ Config.queueSize)

/-- Changes of port `p` alone, as `R` allows. -/
def Only (p : PortId) (R : Port → Port → Prop) : Allow := { port := fun r q q' => r = p ∧ R q q', engine := false }

theorem Port.planned_refl (q : Port) : q.planned q := ⟨rfl, id⟩
theorem Port.planned_trans {a b c : Port} (h1 : a.planned b) (h2 : b.planned c) : a.planned c :=
  ⟨h2.1.trans h1.1, fun h => h2.2 (h1.2 h)⟩

/-! ### Single changes of a port -/

theorem map_set {α β : Type} {n : Nat} (v : Vector α n) (i : Nat) (h : i < n) (x : α) (f : α → β) (hx : f x = f v[i]) :
    (v.set i x).map f = v.map f := by
  apply Vector.ext
  intro j hj
  simp only [Vector.getElem_map, Vector.getElem_set]
  split
  · subst_vars; exact hx
  · rfl

theorem Port.setNode_kept (q : Port) (a : Byte) (n : Node) (h : n.presence = (q.node a).presence) : (q.setNode a n).kept = q.kept := by
  unfold Port.setNode
  split
  · rename_i i hi
    have h' : n.presence = Node.presence q.nodes[i.val] := by rw [h]; simp [Port.node, hi, get_eq]
    exact congrArg (fun ns => { q.kept with nodes := ns }) (map_set q.nodes i.val i.isLt n Node.presence h')
  · rfl

@[simp] theorem Port.setNode_queueLength (q : Port) (a : Byte) (n : Node) : (q.setNode a n).queueLength = q.queueLength := by
  unfold Port.setNode; split <;> rfl

theorem Port.planned_of_kept {q q' : Port} (h : q'.kept = q.kept) (hu : q'.urgent = q.urgent) (hn : q'.normal = q.normal) :
    q.planned q' := ⟨h, by simp [Port.queueLength, hu, hn]⟩

theorem Port.planned_dequeue (q : Port) (i : StreamId) : q.planned (q.dequeue i) := by
  refine ⟨rfl, fun h => Nat.le_trans ?_ h⟩
  exact Nat.add_le_add (List.length_filter_le _ _) (List.length_filter_le _ _)

theorem Port.planned_setItemSource (q : Port) (i : StreamId) (src : Source) : q.planned (q.setItemSource i src) :=
  ⟨rfl, by simp [Port.queueLength, Port.setItemSource]⟩

theorem Port.planned_setPlanSource (q : Port) (i : StreamId) (src : Source) : q.planned (q.setPlanSource i src) :=
  Port.planned_of_kept rfl rfl rfl

theorem Port.planned_enqueue (q : Port) (u : Bool) (x : Entry) (h : q.queueLength < Config.queueSize) : q.planned (q.enqueue u x) := by
  unfold Port.enqueue
  split
  · exact ⟨rfl, fun _ => by simp only [Port.queueLength, List.length_append, List.length_cons, List.length_nil] at *; omega⟩
  · exact ⟨rfl, fun _ => by simp only [Port.queueLength, List.length_append, List.length_cons, List.length_nil] at *; omega⟩

theorem Port.planned_setTag (q : Port) (t : TagId) (g : Tag) : q.planned (q.setTag t g) := Port.planned_of_kept rfl rfl rfl

theorem Port.planned_setNode (q : Port) (a : Byte) (k : Nat) : q.planned (q.setNode a { q.node a with tagsHeld := k }) :=
  ⟨q.setNode_kept a _ rfl, by simp⟩

@[simp] theorem Port.setTag_node (q : Port) (t : TagId) (g : Tag) (a : Byte) : (q.setTag t g).node a = q.node a := rfl

theorem Port.planned_allocate (q : Port) (t : TagId) (i : StreamId) (a : Byte) : q.planned (q.allocate t i a) := by
  unfold Port.allocate
  refine Port.planned_trans ?_ (Port.planned_of_kept (q := ((q.setTag t _).setNode a _)) rfl rfl rfl)
  exact Port.planned_trans (Port.planned_setTag _ _ _) (Port.planned_setNode _ _ _)

theorem Port.planned_startItem (q : Port) (l : Line) : q.planned (q.startItem l) := Port.planned_of_kept rfl rfl rfl

theorem Port.planned_deferTag (q : Port) (t : TagId) (r : Word) : q.planned (q.deferTag t r) := Port.planned_of_kept rfl rfl rfl

/-! ### The operations -/

/-- What the planner of port `p` may do. -/
def Plans (p : PortId) : Allow := Only p Port.planned

theorem Ev.does_plan (e : Ev) (p : PortId) (f : Port → Port) (h : e.halted = false) (hf : (e.m.port p).planned (f (e.m.port p))) :
    Ev.Does (Plans p) e (e.modPort p f) := e.does_modPort p f h ⟨rfl, hf⟩

@[simp] theorem Ev.askSelector_halted (e : Ev) (i : StreamId) (c : Ctx) : (e.askSelector i c).halted = e.halted := rfl

theorem Ev.does_askSelector {K : Allow} (e : Ev) (i : StreamId) (c : Ctx) (h : e.halted = false) :
    Ev.Does K e (e.askSelector i c) :=
  (e.does_ask _ _ _ h).trans (Ev.does_modCtx _ _ _ h (Ctx.sameBook_of_eq rfl rfl rfl rfl rfl rfl))

theorem Ev.does_headRead (e : Ev) (p : PortId) (h : e.halted = false) : Ev.Does (Plans p) e (e.headRead p) := by
  unfold Ev.headRead
  split
  · refine Ev.Does.withCtx .refl h (fun _ => ?_)
    exact (e.does_plan p _ h (Port.planned_setItemSource _ _ _)).trans (Ev.does_askSelector _ _ _ h)
  · exact .refl

theorem Ev.does_removeItem (e : Ev) (p : PortId) (code : OutcomeCode) (i : StreamId) (h : e.halted = false) :
    Ev.Does (Plans p) e (e.removeItem p code i) := by
  unfold Ev.removeItem
  refine Ev.Does.withCtx .refl h (fun _ => ?_)
  exact ((e.does_plan p _ h (Port.planned_dequeue _ _)).trans
    (Ev.does_publish _ _ _ h (Ctx.sameBook_of_eq rfl rfl rfl rfl rfl rfl))).andThen (fun h => Ev.does_deliver _ _ h)

theorem Ev.does_planStream (e : Ev) (p : PortId) (i : StreamId) (h : e.halted = false) : Ev.Does (Plans p) e (e.planStream p i) := by
  unfold Ev.planStream
  refine Ev.Does.withCtx .refl h (fun _ => ?_)
  dsimp only
  split
  · exact .refl
  split
  · exact e.does_plan p _ h (Port.planned_of_kept rfl rfl rfl)
  split
  · exact e.does_plan p _ h (Port.planned_of_kept rfl rfl rfl)
  · exact (e.does_plan p _ h (Port.planned_of_kept rfl rfl rfl)).trans (Ev.does_askSelector _ _ _ h)

/-- R46: what building a plan can do. -/
theorem Ev.does_planBuild (e : Ev) (p : PortId) (_h : e.halted = false) : Ev.Does (Plans p) e (e.planBuild p) :=
  Ev.Does.forEach (fun i e h => e.does_planStream p i h) _ .refl

/-- R47: what the hand-over can do. -/
theorem Ev.does_handOver (e : Ev) (p : PortId) (h : e.halted = false) : Ev.Does (Plans p) e (e.handOver p) :=
  Ev.Does.forEach (fun _ e h => e.does_deliver _ h) _ (e.does_plan p _ h (Port.planned_of_kept rfl rfl rfl))

/-- R69, R71, R72: what an issue can do. -/
theorem Ev.does_issue (e : Ev) (p : PortId) (per : Bool) (x : Entry) (c : Ctx) (h : e.halted = false) :
    Ev.Does (Plans p) e (e.issue p per x c) := by
  unfold Ev.issue
  split
  · exact .refl
  · dsimp only
    split
    · exact (e.does_plan p _ h (Port.planned_trans (Port.planned_allocate _ _ _ _) (Port.planned_startItem _ _))).trans
        (Ev.does_modCtx _ _ _ h (Ctx.sameBook_of_eq rfl rfl rfl rfl rfl rfl))
    · exact (e.does_plan p _ h (Port.planned_trans (Port.planned_allocate _ _ _ _) (Port.planned_startItem _ _))).trans
        (Ev.does_publish _ _ _ h (Ctx.sameBook_of_eq rfl rfl rfl rfl rfl rfl))

theorem Ev.does_startFetch (e : Ev) (p : PortId) (h : e.halted = false) : Ev.Does (Plans p) e (e.startFetch p) := by
  unfold Ev.startFetch
  split
  · exact .refl
  · exact e.does_plan p _ h (Port.planned_of_kept rfl rfl rfl)

theorem Ev.does_startHead (e : Ev) (p : PortId) (h : e.halted = false) : Ev.Does (Plans p) e (e.startHead p) := by
  unfold Ev.startHead
  split
  · exact .refl
  · refine Ev.Does.andThen ?_ (fun h => Ev.does_headRead _ p h)
    exact Ev.Does.withCtx (e.does_plan p _ h (Port.planned_dequeue _ _)) h (fun _ => Ev.does_issue _ p false _ _ h)

theorem Ev.does_startItem (e : Ev) (p : PortId) (l : Turn) (h : e.halted = false) : Ev.Does (Plans p) e (e.startItem p l) := by
  unfold Ev.startItem
  refine Ev.Does.andThen ?_ (fun h => Ev.does_plan _ p _ h (Port.planned_of_kept rfl rfl rfl))
  cases l
  · exact e.does_startFetch p h
  · exact e.does_startHead p h

theorem Ev.does_closeWindow (e : Ev) (p : PortId) (l : Turn) (h : e.halted = false) : Ev.Does (Plans p) e (e.closeWindow p l) :=
  e.does_plan p _ h (Port.planned_of_kept rfl rfl rfl)

/-- R4: a list offers a parity error only of a context whose parity is bad. -/
theorem State.offer_parity {s : State} {p : PortId} {l : Turn} {i : StreamId} (h : s.offer p l = .parity i) :
    (s.ctx i).parityOk = false := by
  unfold State.offer at h
  dsimp only at h
  split at h
  · split at h
    · cases h
    · split at h
      · cases h
      split at h
      · rename_i hp; cases h; simpa using hp
      split at h <;> cases h
  · split at h
    · cases h
    · split at h
      · rename_i hp; cases h; simpa using hp
      split at h
      · cases h
      split at h <;> cases h

theorem Ev.does_second (e : Ev) (p : PortId) (l : Turn) (o t : Bool) (h : e.halted = false) :
    Ev.Does (Plans p) e (e.second p l o t) := by
  unfold Ev.second
  split
  · rename_i ho; exact .one h (.halt _ (State.offer_parity ho))
  · exact e.does_startItem p _ h
  · exact .refl
  · split
    · split
      · exact e.does_closeWindow p _ h
      · exact .refl
    · exact e.does_closeWindow p _ h

theorem Ev.does_selection (e : Ev) (p : PortId) (o : Bool) (h : e.halted = false) : Ev.Does (Plans p) e (e.selection p o) := by
  unfold Ev.selection
  dsimp only
  split
  · rename_i ho; exact .one h (.halt _ (State.offer_parity ho))
  · exact e.does_startItem p _ h
  · exact e.does_second p _ _ _ h
  · split
    · exact e.does_second p _ _ _ h
    · exact e.does_closeWindow p _ h

/-- R59 to R61: what a selection can do. -/
theorem Ev.does_select (e : Ev) (p : PortId) (h : e.halted = false) : Ev.Does (Plans p) e (e.select p) :=
  (e.does_plan p _ h (Port.planned_of_kept rfl rfl rfl)).trans (Ev.does_selection _ p _ h)

theorem Ev.does_periodicEnd (e : Ev) (p : PortId) (h : e.halted = false) : Ev.Does (Plans p) e (e.periodicEnd p) := by
  unfold Ev.periodicEnd
  split
  · have h1 := e.does_plan p (fun q => { q with windowOpen := true, openingMade := false }) h (Port.planned_of_kept rfl rfl rfl)
    dsimp only
    split
    · exact h1.trans (Ev.does_plan _ p _ h (Port.planned_startItem _ _))
    · exact h1.trans (Ev.does_select _ p h)
  · exact .refl

theorem Ev.does_takeUp (p : PortId) (xs : List Entry) : ∀ (e : Ev), e.halted = false → Ev.Does (Plans p) e (e.takeUp p xs) := by
  induction xs with
  | nil => intro e h; exact e.does_periodicEnd p h
  | cons x rest ih =>
    intro e h
    unfold Ev.takeUp
    refine Ev.Does.withCtx (e.does_plan p _ h (Port.planned_of_kept rfl rfl rfl)) h (fun _ => ?_)
    split
    · refine Ev.Does.andThen ?_ (fun h => ih _ h)
      exact Ev.does_deliver _ _ h
    · exact Ev.does_issue _ p true _ _ h

/-- R50: what the periodic window can do. -/
theorem Ev.does_periodic (e : Ev) (p : PortId) (h : e.halted = false) : Ev.Does (Plans p) e (e.periodic p) :=
  Ev.does_takeUp p _ e h

theorem Ev.does_reselect (e : Ev) (p : PortId) (pos : Nat) (b : Heads) (h : e.halted = false) :
    Ev.Does (Plans p) e (e.reselect p pos b) := by
  unfold Ev.reselect
  split
  · exact (e.does_plan p _ h (Port.planned_of_kept rfl rfl rfl)).trans (Ev.does_select _ p h)
  · exact .refl

end Sys2Proof.Machine
end

