-- ==== Sys2Proof/Laws/Segment.lean ====
section
/-! SUPPORT. What the Segment Engine's operations can do: the release of a tag and a report to the node table change port `p` alone and keep what Port.planned and Port.reported say; the START event, stops and faults change port `p` alone and leave a DISABLED port DISABLED (Port.ticks). -/

namespace Sys2Proof.Machine

open Sys2Proof

/-- A change of a port that a report to the node table may make. -/
def Port.reported (q q' : Port) : Prop :=
  q'.keptByReport = q.keptByReport ∧ (q.queueLength ≤ Config.queueSize → q'.queueLength ≤ Config.queueSize)

/-- A change of a port that an event of the segment may make: a DISABLED port stays DISABLED. -/
def Port.ticks (q q' : Port) : Prop :=
  (q.state = .disabled → q'.state = .disabled) ∧ (q.queueLength ≤ Config.queueSize → q'.queueLength ≤ Config.queueSize)

/-- What a report on port `p` may do. -/
def Reports (p : PortId) : Allow := Only p Port.reported

/-- What an event of the segment of port `p` may do. -/
def Ticks (p : PortId) : Allow := Only p Port.ticks

theorem Port.reported_of_planned {q q' : Port} (h : q.planned q') : q.reported q' := by
  refine ⟨?_, h.2⟩
  unfold Port.keptByReport
  rw [h.1]

theorem Port.ticks_of_planned {q q' : Port} (h : q.planned q') : q.ticks q' :=
  ⟨fun hd => (congrArg Port.state h.1).trans hd, h.2⟩

theorem Port.ticks_of_reported {q q' : Port} (h : q.reported q') : q.ticks q' :=
  ⟨fun hd => (congrArg Port.state h.1).trans hd, h.2⟩

theorem Port.reported_trans {a b c : Port} (h1 : a.reported b) (h2 : b.reported c) : a.reported c :=
  ⟨h2.1.trans h1.1, fun h => h2.2 (h1.2 h)⟩

theorem Ev.Does.reports {a b : Ev} {p : PortId} (h : Ev.Does (Plans p) a b) : Ev.Does (Reports p) a b :=
  h.mono (K := Plans p) (K' := Reports p) (fun _ _ _ hk => ⟨hk.1, Port.reported_of_planned hk.2⟩) id

theorem Ev.Does.ticks {a b : Ev} {p : PortId} (h : Ev.Does (Plans p) a b) : Ev.Does (Ticks p) a b :=
  h.mono (K := Plans p) (K' := Ticks p) (fun _ _ _ hk => ⟨hk.1, Port.ticks_of_planned hk.2⟩) id

theorem Ev.Does.ticks_of_reports {a b : Ev} {p : PortId} (h : Ev.Does (Reports p) a b) : Ev.Does (Ticks p) a b :=
  h.mono (K := Reports p) (K' := Ticks p) (fun _ _ _ hk => ⟨hk.1, Port.ticks_of_reported hk.2⟩) id

/-! ### The release of a tag -/

theorem Ctx.mayRetry_room {c : Ctx} {q : Port} {o : Outcome} (h : c.mayRetry q o = true) : q.queueLength < Config.queueSize := by
  simp only [Ctx.mayRetry, Bool.and_eq_true] at h
  exact of_decide_eq_true h.2

theorem Ev.does_retry (e : Ev) (p : PortId) (i : StreamId) (c : Ctx) (h : e.halted = false)
    (hr : (e.m.port p).queueLength < Config.queueSize) : Ev.Does (Plans p) e (e.retry p i c) :=
  (e.does_plan p _ h (Port.planned_enqueue _ _ _ hr)).trans (Ev.does_publish _ _ _ h (Ctx.sameBook_of_eq rfl rfl rfl rfl rfl rfl))

theorem Port.planned_freeTagEntry (q : Port) (t : TagId) : q.planned (q.freeTagEntry t) := by
  unfold Port.freeTagEntry
  refine Port.planned_trans (b := { q with fetchList := q.fetchList.filter (fun u => u ≠ t) }.setTag t { q.tag t with state := .free })
    (Port.planned_of_kept rfl rfl rfl) (Port.planned_setNode _ _ _)

theorem Ev.does_clearTag {K : Allow} (e : Ev) (i : StreamId) (h : e.halted = false) :
    Ev.Does K e ((e.modCtx i (fun c => { c with tagRef := none })).tryClose i) :=
  (e.does_modCtx _ _ h (Ctx.sameBook_of_eq rfl rfl rfl rfl rfl rfl)).trans (Ev.does_tryClose _ _ h)

/-- R70: what the release of a tag can do. -/
theorem Ev.does_releaseTag (e : Ev) (p : PortId) (t : TagId) (code : OutcomeCode) (nc : Byte) (d : List Byte)
    (h : e.halted = false) : Ev.Does (Plans p) e (e.releaseTag p t code nc d) := by
  unfold Ev.releaseTag
  refine Ev.Does.withCtx .refl h (fun _ => ?_)
  have h1 := e.does_plan p (Port.freeTagEntry t) h (Port.planned_freeTagEntry _ _)
  dsimp only
  refine Ev.Does.andThen (h1.trans ?_) (fun h => Ev.does_clearTag _ _ h)
  split
  · rename_i hr
    exact Ev.does_retry _ p _ _ h (Ctx.mayRetry_room hr)
  · exact Ev.does_deliver _ _ h

theorem Ev.does_releaseTags (e : Ev) (p : PortId) (code : OutcomeCode) (f : Tag → Bool) : Ev.Does (Plans p) e (e.releaseTags p code f) :=
  Ev.Does.forEach (fun t e h => e.does_releaseTag p t code 0 [] h) _ .refl

/-! ### Holds and the queue -/

theorem Ev.does_setHolds {K : Allow} (e : Ev) (p : PortId) (pick : Ctx → Bool) (f : Holds → Holds) :
    Ev.Does K e (e.setHolds p pick f) := by
  refine Ev.Does.forEach (fun i e h => ?_) _ .refl
  dsimp only
  split
  · refine Ev.Does.withCtx .refl h (fun _ => ?_)
    split
    · exact e.does_publish _ _ h (Ctx.sameBook_of_eq rfl rfl rfl rfl rfl rfl)
    · exact .refl
  · exact .refl

theorem Ev.does_holdPort {K : Allow} (e : Ev) (p : PortId) (b : Bool) : Ev.Does K e (e.holdPort p b) :=
  e.does_setHolds p _ _

theorem Ev.does_holdNode {K : Allow} (e : Ev) (p : PortId) (a : Byte) (b : Bool) :
    Ev.Does K e (e.holdNode p a b) := e.does_setHolds p _ _

theorem Ev.does_removeItems (e : Ev) (p : PortId) (code : OutcomeCode) (pick : Ctx → Bool) :
    Ev.Does (Plans p) e (e.removeItems p code pick) :=
  Ev.Does.forEach (fun i e h => Ev.Does.withCtx .refl h (fun _ => by
    split
    · exact e.does_removeItem p code i h
    · exact .refl)) _ .refl

/-! ### Reports to the node table -/

theorem Ev.does_nodeLoss (e : Ev) (p : PortId) (a : Byte) : Ev.Does (Plans p) e (e.nodeLoss p a) :=
  ((e.does_releaseTags p _ _).andThen (fun _ => Ev.does_removeItems _ p _ _)).andThen (fun _ => Ev.does_holdNode _ p a true)

theorem Port.reported_of_kept {q q' : Port} (h : q'.keptByReport = q.keptByReport) (hu : q'.urgent = q.urgent)
    (hn : q'.normal = q.normal) : q.reported q' := ⟨h, by simp [Port.queueLength, hu, hn]⟩

theorem Port.reported_setNode (q : Port) (a : Byte) (n : Node) : q.reported (q.setNode a n) := by
  unfold Port.setNode
  split
  · exact Port.reported_of_kept rfl rfl rfl
  · exact ⟨rfl, id⟩

theorem Port.reported_count (q : Port) (r : Report) : q.reported (q.count r) := by
  cases r <;> exact Port.reported_of_kept rfl rfl rfl

/-- R67, R86 to R92: what a report can do. -/
theorem Ev.does_reportNode (e : Ev) (p : PortId) (a : Byte) (pr : Bool) (r : Report) (h : e.halted = false) :
    Ev.Does (Reports p) e (e.reportNode p a pr r) := by
  unfold Ev.reportNode
  have h1 : ∀ n, Ev.Does (Reports p) e (e.modPort p (fun q => (q.count r).setNode a n)) := fun n =>
    e.does_modPort p _ h ⟨rfl, Port.reported_trans (Port.reported_count _ _) (Port.reported_setNode _ _ _)⟩
  have h2 : ∀ e : Ev, e.halted = false → Ev.Does (Reports p) e ((e.modPort p (Port.record a)).report p) := fun e h =>
    (Ev.does_modPort (K := Reports p) e p _ h ⟨rfl, Port.reported_of_kept rfl rfl rfl⟩).trans (Ev.does_report _ p h)
  dsimp only
  generalize Port.nodeAfter _ _ _ _ = now
  split
  · exact h1 now
  · refine Ev.Does.andThen ((h1 now).trans ?_) (h2 _)
    split
    · exact (Ev.does_nodeLoss _ p a).reports
    split
    · exact Ev.does_holdNode _ p a false
    · exact .refl

/-! ### The START event -/

theorem Ev.does_tick (e : Ev) (p : PortId) (f : Port → Port) (h : e.halted = false)
    (hf : (e.m.port p).ticks (f (e.m.port p))) : Ev.Does (Ticks p) e (e.modPort p f) := e.does_modPort p f h ⟨rfl, hf⟩

theorem Ev.does_enterRunning (e : Ev) (p : PortId) (h : e.halted = false) (hs : (e.m.port p).state = .syncing) :
    Ev.Does (Ticks p) e (e.enterRunning p) := by
  unfold Ev.enterRunning
  refine Ev.Does.andThen (Ev.Does.andThen (Ev.Does.forEach (fun a e _ => Ev.does_holdNode e p a false) _ ?_)
    (fun _ => Ev.does_holdPort _ p false)) (fun h => Ev.does_report _ p h)
  exact e.does_tick p _ h ⟨fun hd => (by rw [hs] at hd; cases hd), fun hq => hq⟩

/-- R99: what a START event can do. -/
theorem Ev.does_startCycle (e : Ev) (p : PortId) (h : e.halted = false) : Ev.Does (Ticks p) e (e.startCycle p) := by
  unfold Ev.startCycle
  have h1 := e.does_tick p (Port.sendStart (e.m.budget p).cycleIndex) h ⟨fun hd => hd, fun hq => hq⟩
  dsimp only
  refine Ev.Does.andThen (Ev.Does.andThen (Ev.Does.andThen (Ev.Does.andThen (Ev.Does.onlyIf h1 (fun hc h => ?_))
    (fun h => (Ev.does_handOver _ p h).ticks)) (fun h => Ev.Does.onlyIf .refl (fun _ _ => ?_)))
    (fun h => (Ev.does_planBuild _ p h).ticks)) (fun h => ?_)
  · rw [Bool.and_eq_true] at hc
    exact Ev.does_enterRunning _ p h (of_decide_eq_true hc.1)
  · exact (Ev.does_releaseTags _ p _ _).ticks
  · split
    · exact Ev.does_block _ p h
    · exact .refl

theorem Ev.does_nextCycle (e : Ev) (p : PortId) (h : e.halted = false) : Ev.Does (Ticks p) e (e.nextCycle p) :=
  (e.does_tick p _ h ⟨fun hd => hd, fun hq => hq⟩).trans (Ev.does_startCycle _ p h)

/-! ### Stops and faults -/

theorem Ev.does_stopEntries (e : Ev) (p : PortId) (xs : List Entry) : Ev.Does (Plans p) e (e.stopEntries p xs) :=
  Ev.Does.forEach (fun _ e h => e.does_deliver _ h) _ .refl

theorem Ev.does_stopWork (e : Ev) (p : PortId) : Ev.Does (Plans p) e (e.stopWork p) :=
  (e.does_releaseTags p _ _).andThen (fun _ => Ev.does_removeItems _ p _ _)

/-- R101: what the entry to DISABLED can do. -/
theorem Ev.does_enterDisabled (e : Ev) (p : PortId) (h : e.halted = false) : Ev.Does (Ticks p) e (e.enterDisabled p) := by
  unfold Ev.enterDisabled
  have h1 := (e.does_plan p (fun q => { q with nextPlan := [] }) h (Port.planned_of_kept rfl rfl rfl)).ticks
  dsimp only
  refine Ev.Does.andThen (Ev.Does.andThen (h1.trans (Ev.does_stopEntries _ p _).ticks) (fun _ => (Ev.does_stopWork _ p).ticks))
    (fun h => ?_)
  exact (Ev.does_tick _ p _ h ⟨fun _ => rfl, fun hq => hq⟩).trans (Ev.does_report _ p h)

theorem Port.ticks_of_state {q q' : Port} (h : q.state ≠ .disabled) (hu : q'.urgent = q.urgent) (hn : q'.normal = q.normal) :
    q.ticks q' := ⟨fun hd => absurd hd h, by simp [Port.queueLength, hu, hn]⟩

/-- What the planner does leaves the state of a port as it is. -/
theorem Ev.Does.plans_state {p : PortId} {a b : Ev} (d : Ev.Does (Plans p) a b) (hb : b.halted = false) (r : PortId) :
    (b.m.port r).state = (a.m.port r).state :=
  d.port (R := fun _ q q' => q'.state = q.state) (fun _ _ => rfl)
    (fun _ _ q' q'' h hk => (show q''.kept.state = q'.kept.state by rw [hk.2.1]).trans h) hb r

/-- R103: what the entry to FAULTED can do. -/
theorem Ev.does_enterFaulted (e : Ev) (p : PortId) (h : e.halted = false) (hs : (e.m.port p).state ≠ .disabled) :
    Ev.Does (Ticks p) e (e.enterFaulted p) := by
  unfold Ev.enterFaulted
  dsimp only
  generalize hf : (fun q : Port => { q with line := Line.idle, cycleTimer := false, windowOpen := false, current := [], nextPlan := [] }) = f
  have h1 := e.does_tick p f h (by subst hf; exact ⟨fun hd => hd, fun hq => hq⟩)
  have hs1 : ((e.modPort p f).m.port p).state ≠ .disabled := by subst hf; simpa using hs
  have h2 : Ev.Does (Plans p) (e.modPort p f) ((((e.modPort p f).stopEntries p ((e.port p).current ++ (e.port p).nextPlan)).andThen
      (Ev.stopWork p)).andThen (fun e' => e'.onlyIf ((e.port p).state = .running) (Ev.holdPort p true))) :=
    ((Ev.does_stopEntries _ p _).andThen (fun _ => Ev.does_stopWork _ p)).andThen
      (fun _ => Ev.Does.onlyIf .refl (fun _ _ => Ev.does_holdPort _ p true))
  refine Ev.Does.andThen (h1.trans h2.ticks) (fun hb => ?_)
  have hs2 := h2.plans_state hb p
  exact (Ev.does_tick _ p _ hb (Port.ticks_of_state (by rw [hs2]; exact hs1) rfl rfl)).trans (Ev.does_report _ p hb)

/-- R98, R144: what an order to stop can do. -/
theorem Ev.does_stopPort (e : Ev) (p : PortId) (h : e.halted = false) : Ev.Does (Ticks p) e (e.stopPort p) := by
  unfold Ev.stopPort
  split
  · rename_i hs
    exact (e.does_tick p _ h (Port.ticks_of_state (by rw [← Ev.port_eq, hs]; simp) rfl rfl)).trans (Ev.does_report _ p h)
  · rename_i hs
    refine Ev.Does.andThen ((e.does_tick p _ h (Port.ticks_of_state (by rw [← Ev.port_eq, hs]; simp) rfl rfl)).trans
      (Ev.does_holdPort _ p true)) (fun h => Ev.does_report _ p h)
  · exact (e.does_tick p _ h ⟨fun _ => rfl, fun hq => hq⟩).trans (Ev.does_report _ p h)
  · exact .refl
  · exact .refl

/-! ### Ends of frames and exchanges -/

/-- R102, R103, R50: what the end of a START frame can do. -/
theorem Ev.does_startEnd (e : Ev) (p : PortId) (ok : Bool) (h : e.halted = false) : Ev.Does (Ticks p) e (e.startEnd p ok) := by
  unfold Ev.startEnd
  dsimp only
  generalize hf : (fun q : Port =>
    { if ok then q.startMatch else q.startMismatch with line := Line.idle, freeAt := Config.startUnits }) = f
  have h1 := e.does_tick p f h (by
    subst hf
    cases ok
    · exact ⟨fun hd => hd, fun hq => hq⟩
    · exact ⟨fun hd => hd, fun hq => hq⟩)
  split
  · rename_i hc
    refine h1.trans (Ev.does_enterFaulted _ p h ?_)
    simp only [Bool.and_eq_true, Port.cycling, Bool.or_eq_true, decide_eq_true_eq] at hc
    intro hd
    rw [Ev.port_eq, hd] at hc
    simp at hc
  split
  · exact h1
  · exact h1.trans (Ev.does_periodic (e.modPort p f) p h).ticks

theorem Ev.does_settleTag (e : Ev) (p : PortId) (t : TagId) (x : TagEnd) (h : e.halted = false) :
    Ev.Does (Plans p) e (e.settleTag p t x) := by
  unfold Ev.settleTag
  split
  · exact e.does_releaseTag p t _ _ _ h
  · exact e.does_plan p _ h (Port.planned_trans (Port.planned_setTag _ t _) (Port.planned_deferTag _ t _))

theorem Ev.does_proceed (e : Ev) (p : PortId) (b : Bool) (h : e.halted = false) : Ev.Does (Plans p) e (e.proceed p b) := by
  unfold Ev.proceed
  split
  · exact e.does_periodic p h
  split
  · exact e.does_select p h
  · exact .refl

/-- R67: what the end of an exchange under a tag can do. -/
theorem Ev.does_exchangeEnd (e : Ev) (p : PortId) (t : TagId) (a : Byte) (per : Bool) (occ : Nat) (x : TagEnd) (r : Report)
    (h : e.halted = false) : Ev.Does (Ticks p) e (e.exchangeEnd p t a per occ x r) := by
  unfold Ev.exchangeEnd
  have h1 := e.does_tick p (Port.lineFree per occ) h ⟨fun hd => hd, fun hq => hq⟩
  exact Ev.Does.andThen (Ev.Does.andThen (Ev.Does.andThen (h1.trans (Ev.does_settleTag (e.modPort p _) p t x h).ticks)
    (fun h => (Ev.does_reportNode _ p a _ r h).ticks_of_reports)) (fun h => (Ev.does_headRead _ p h).ticks))
    (fun h => (Ev.does_proceed _ p _ h).ticks)

/-- A change of port `p` that keeps the bound of its queue. -/
def Fills (p : PortId) : Allow :=
  Only p (fun q q' => q.queueLength ≤ Config.queueSize → q'.queueLength ≤ Config.queueSize)

theorem Ev.Does.fills {a b : Ev} {p : PortId} (h : Ev.Does (Ticks p) a b) : Ev.Does (Fills p) a b :=
  h.mono (K := Ticks p) (K' := Fills p) (fun _ _ _ hk => ⟨hk.1, hk.2.2⟩) id

/-- R97: what the entry to SYNCING can do. -/
theorem Ev.does_enterSyncing (e : Ev) (p : PortId) (h : e.halted = false) : Ev.Does (Fills p) e (e.enterSyncing p) := by
  unfold Ev.enterSyncing
  refine Ev.Does.andThen (Ev.Does.trans (e.does_modPort p _ h ⟨rfl, fun _ => ?_⟩) (Ev.does_startCycle (e.modPort p _) p h).fills)
    (fun h => Ev.does_report _ p h)
  exact Nat.zero_le _

end Sys2Proof.Machine
end

