-- ==== Sys2Proof/Laws/Events.lean ====
section
/-! SUPPORT. What the scanner, the answers to requests, Engine Control's starts and stops, and the read completions can do; and, from it, what any command but a reset or a register write can do (exec_reaches). -/

namespace Sys2Proof.Machine

open Sys2Proof

/-- What any event may do: the queue of a port keeps its bound; unless `b`, a DISABLED port stays DISABLED; only then may the engine
change its state other than by a halt. -/
def Grows (b : Bool) : Allow :=
  { port := fun _ q q' =>
      (b = false → q.state = .disabled → q'.state = .disabled) ∧
      (q.queueLength ≤ Config.queueSize → q'.queueLength ≤ Config.queueSize)
    engine := !b }

variable {b : Bool}

theorem Ev.Does.grows {p : PortId} {a c : Ev} (h : Ev.Does (Ticks p) a c) : Ev.Does (Grows b) a c :=
  h.mono (K := Ticks p) (K' := Grows b) (fun _ _ _ hk => ⟨fun _ => hk.2.1, hk.2.2⟩) (fun h => (by cases h))

theorem Ev.Does.grows_of_plans {p : PortId} {a c : Ev} (h : Ev.Does (Plans p) a c) : Ev.Does (Grows b) a c := h.ticks.grows

theorem Ev.Does.grows_of_fills {p : PortId} {a c : Ev} (h : Ev.Does (Fills p) a c) : Ev.Does (Grows true) a c :=
  h.mono (K := Fills p) (K' := Grows true) (fun _ _ _ hk => ⟨fun h => (by cases h), hk.2⟩) (fun h => (by cases h))

variable {K : Allow}

/-! ### Scans and takes -/

theorem Ev.does_modScanner (e : Ev) (f : Scanner → Scanner) (h : e.halted = false)
    (ht : (f e.m.scanner).take ≠ none → e.m.scanner.take ≠ none ∨ e.m.engine.state = .running)
    (hm : (f e.m.scanner).timer = true → e.m.scanner.timer = true) : Ev.Does K e (e.modScanner f) := .one h (.scanner f ht hm)

theorem Ev.does_complete (e : Ev) (rid : Nat) (h : e.halted = false) : Ev.Does K e (e.modSmi (fun m => m.complete rid)) :=
  .one h (.complete rid)

theorem Ev.does_startScan (e : Ev) (h : e.halted = false) : Ev.Does K e e.startScan :=
  (e.does_modScanner _ h .inl id).trans (Ev.does_ask (e.modScanner _) _ _ _ h)

theorem Ev.does_scanRequest (e : Ev) (h : e.halted = false) : Ev.Does K e e.scanRequest := by
  unfold Ev.scanRequest
  split
  · exact e.does_startScan h
  · exact e.does_modScanner _ h .inl id

theorem Ev.does_endScan (e : Ev) (h : e.halted = false) : Ev.Does K e e.endScan := by
  unfold Ev.endScan
  have h1 : Ev.Does K e (e.modScanner (fun sc => { sc with scan := none, remembered := false })) := e.does_modScanner _ h .inl id
  dsimp only
  split
  · exact h1.trans (Ev.does_startScan _ h)
  · exact h1

theorem Ev.does_take (e : Ev) (i : ReqIx) (v : Byte) (h : e.halted = false) (hr : e.m.engine.state = .running) :
    Ev.Does K e (e.take i v) :=
  (e.does_modScanner _ h (fun _ => .inr hr) id).trans (Ev.does_ask (e.modScanner _) _ _ _ h)

theorem Ev.does_examine (snap : ReqArray) (n : Nat) : ∀ e : Ev, e.halted = false → e.m.engine.state = .running →
    Ev.Does K e (e.examine snap n) := by
  induction n with
  | zero => intro e h _; exact e.does_endScan h
  | succ n ih =>
    intro e h hr
    unfold Ev.examine
    dsimp only
    split
    · exact (e.does_modScanner _ h .inl id).trans (Ev.does_take (e.modScanner _) _ _ h hr)
    · exact ih e h hr

theorem Ev.does_endTake (e : Ev) (h : e.halted = false) : Ev.Does K e e.endTake := by
  unfold Ev.endTake
  have h1 : Ev.Does K e (e.modScanner (fun sc => { sc with take := none })) := e.does_modScanner _ h (fun hn => absurd rfl hn) id
  dsimp only
  split
  · split
    · rename_i hr
      exact h1.trans (Ev.does_examine _ _ (e.modScanner _) h hr)
    · exact h1.trans (Ev.does_modScanner (e.modScanner _) _ h (fun hn => absurd rfl hn) id)
  · exact h1

/-! ### Answers -/

theorem Ev.does_answerStream (e : Ev) (i : StreamId) (v : Byte) (r : StreamResult) (h : e.halted = false) :
    Ev.Does K e (e.answerStream i v r) :=
  (e.does_publish _ _ h (Ctx.sameBook_of_eq rfl rfl rfl rfl rfl rfl)).trans (Ev.does_ack _ _ _ (by simpa using h))

@[simp] theorem Ev.answerStream_halted (e : Ev) (i : StreamId) (v : Byte) (r : StreamResult) :
    (e.answerStream i v r).halted = e.halted := by simp [Ev.answerStream]

theorem Ev.does_answerPort (e : Ev) (p : PortId) (v : Byte) (r : PortResult) (h : e.halted = false) :
    Ev.Does (Grows b) e (e.answerPort p v r) :=
  ((Ev.does_modPort (K := Grows b) e p _ h ⟨fun _ => id, id⟩).trans (Ev.does_report (e.modPort p _) _ h)).trans (Ev.does_ack _ _ _ (by simpa using h))

@[simp] theorem Ev.answerPort_halted (e : Ev) (p : PortId) (v : Byte) (r : PortResult) :
    (e.answerPort p v r).halted = e.halted := by simp [Ev.answerPort]

theorem Ev.does_answered (e : Ev) (i : StreamId) (v : Byte) (r : StreamResult) (h : e.halted = false) :
    Ev.Does K e (e.answerStream i v r).endTake :=
  (e.does_answerStream i v r h).trans (Ev.does_endTake _ (by simpa using h))

/-! ### Stream requests -/

theorem Ev.does_openChecks (e : Ev) (hh : Bytes64) (i : StreamId) (v : Byte) (h : e.halted = false)
    (hs : (e.m.ctx i).live = false) (ht : e.m.scanner.take ≠ none) : Ev.Does K e (e.openChecks hh i v) := by
  unfold Ev.openChecks
  dsimp only
  split
  · exact e.does_answered i v _ h
  · refine (e.does_publish i (fun c => { c with state := .opening }) h ⟨?_, rfl, fun hl => by rw [hs] at hl; cases hl⟩).trans ?_
    · rw [hs]; rfl
    · refine (Ev.does_modScanner _ _ (by simpa using h) (fun _ => .inl ?_) id).trans (Ev.does_ask _ _ _ _ (by simpa using h))
      simpa using ht

theorem Ev.does_openRefused (e : Ev) (i : StreamId) (v : Byte) (r : StreamResult) (h : e.halted = false)
    (hs : (e.m.ctx i).live = false) : Ev.Does K e (e.openRefused i v r) :=
  (e.does_modCtx i _ h ⟨by rw [hs]; rfl, rfl, fun hl => by rw [hs] at hl; cases hl⟩).trans
    (Ev.does_answered (e.modCtx i _) i v r h)

theorem Ev.does_openAccepted (e : Ev) (i : StreamId) (v : Byte) (q : Params) (φ : Byte) (mc : Nat) (n : Word) (h : e.halted = false)
    (hs : (e.m.ctx i).live = false) (hb : e.m.budgetStep q = .inr (φ, mc)) : Ev.Does K e (e.openAccepted i v q φ mc n) := by
  unfold Ev.openAccepted
  dsimp only
  refine Ev.Does.trans ((Ev.Does.one h (.opened i v q φ mc n (e.m.openHolds q) hs hb)).trans (Ev.does_touch _ i ?_)) ?_
  · split <;> exact h
  · refine ((Ev.does_slots _ _ ?_).trans (Ev.does_ack _ _ _ ?_)).trans (Ev.does_endTake _ ?_) <;>
      (cases q.periodic <;> simpa [Ev.modCtx] using h)

theorem Ev.does_openEnd (e : Ev) (i : StreamId) (v : Byte) (q : Params) (n : Option Word) (h : e.halted = false)
    (hs : (e.m.ctx i).live = false) : Ev.Does K e (e.openEnd i v q n) := by
  unfold Ev.openEnd
  refine Ev.Does.withCtx .refl h (fun _ => ?_)
  split
  · exact e.does_openRefused i v _ h hs
  · split
    · exact e.does_openRefused i v _ h hs
    · rename_i hb
      exact e.does_openAccepted i v q _ _ _ h hs hb

theorem Ev.does_closeDiscards (e : Ev) (i : StreamId) (p : PortId) (h : e.halted = false) : Ev.Does (Plans p) e (e.closeDiscards i p) := by
  unfold Ev.closeDiscards
  exact ((e.does_takeWaiting i h).trans (Ev.does_modCtx (e.takeWaiting i) i _ h (Ctx.sameBook_of_eq rfl rfl rfl rfl rfl rfl))).trans
    (Ev.does_plan ((e.takeWaiting i).modCtx i _) p _ h (Port.planned_of_kept rfl rfl rfl))

@[simp] theorem Ev.closeDiscards_halted (e : Ev) (i : StreamId) (p : PortId) : (e.closeDiscards i p).halted = e.halted := rfl

@[simp] theorem Ev.closeQueued_halted (e : Ev) (i : StreamId) (p : PortId) : (e.closeQueued i p).halted = e.halted := by
  unfold Ev.closeQueued; split <;> rfl

theorem Ev.does_closeQueued (e : Ev) (i : StreamId) (p : PortId) (h : e.halted = false) : Ev.Does (Plans p) e (e.closeQueued i p) := by
  unfold Ev.closeQueued
  split
  · exact ((e.does_plan p _ h (Port.planned_dequeue _ i)).trans
      (Ev.does_modCtx (e.modPort p _) i _ h (Ctx.sameBook_of_eq rfl rfl rfl rfl rfl rfl))).trans
      (Ev.does_modWriter ((e.modPort p _).modCtx i _) _ h id)
  · exact .refl

theorem Ev.does_reopen (e : Ev) (p : PortId) (pos : Nat) (before : Heads) (h : e.halted = false) :
    Ev.Does (Grows b) e (((e.headRead p).andThen (Ev.reselect p pos before)).andThen Ev.endTake) :=
  Ev.Does.andThen (Ev.Does.andThen (Ev.does_headRead e p h).grows_of_plans
    (fun h => (Ev.does_reselect _ p pos before h).grows_of_plans)) (fun h => Ev.does_endTake _ h)

/-- R10: what a CLOSE can do. -/
theorem Ev.does_close (e : Ev) (pos : Nat) (i : StreamId) (v : Byte) (c : Ctx) (h : e.halted = false)
    (hs : (e.m.ctx i).live = true) : Ev.Does (Grows b) e (e.close pos i v c) := by
  unfold Ev.close
  dsimp only
  have h1 : Ev.Does (Grows b) e ((e.closeDiscards i c.params.portId).closeQueued i c.params.portId) :=
    ((e.does_closeDiscards i _ h).trans (Ev.does_closeQueued _ i _ (by simpa using h))).grows_of_plans
  refine Ev.Does.andThen (Ev.Does.andThen (Ev.Does.andThen ((h1.trans
    (Ev.does_publish _ i _ (by simpa using h) ?_)).trans (Ev.does_tryClose _ i (by simpa using h)))
    (fun h => (Ev.does_headRead _ _ h).grows_of_plans)) (fun h => (Ev.does_reselect _ _ pos _ h).grows_of_plans))
    (fun h => Ev.does_endTake _ h)
  refine ⟨?_, rfl, fun _ => ⟨rfl, rfl, rfl, rfl⟩⟩
  have : (((e.closeDiscards i c.params.portId).closeQueued i c.params.portId).m.ctx i).live = true := by
    rw [← hs]
    unfold Ev.closeQueued Ev.closeDiscards
    dsimp only
    split <;> simp [Ctx.live, Ev.takeWaiting, Ev.modCtx, State.ctx, State.setCtx, get_set, Ev.modWriter, Ev.modPort, State.setPort] <;> rfl
  rw [this]; rfl

/-- R20: what a FIRE can do. -/
theorem Ev.does_fire (e : Ev) (pos : Nat) (i : StreamId) (v : Byte) (c : Ctx) (h : e.halted = false) :
    Ev.Does (Grows b) e (e.fire pos i v c) := by
  unfold Ev.fire
  dsimp only
  split
  · rename_i hr
    have hq : (e.m.port c.params.portId).queueLength < Config.queueSize := by
      revert hr; unfold fireResult
      split <;> try (intro h; cases h)
      split <;> try (intro h; cases h)
      split <;> try (intro h; cases h)
      split <;> try (intro h; cases h)
      split
      · intro h; cases h
      · intro _; rename_i hq _; exact Nat.lt_of_not_le hq
    refine Ev.Does.trans ?_ (Ev.does_reopen _ _ pos _ (by simpa using h))
    exact ((e.does_plan _ _ h (Port.planned_enqueue _ _ _ hq)).trans
      (Ev.does_modCtx (e.modPort _ _) i _ h (Ctx.sameBook_of_eq rfl rfl rfl rfl rfl rfl))).grows_of_plans.trans
      (Ev.does_answerStream ((e.modPort _ _).modCtx i _) i v _ h)
  · exact e.does_answered i v _ h

/-- R14: what a PAUSE can do. -/
theorem Ev.does_pause (e : Ev) (pos : Nat) (i : StreamId) (v : Byte) (c : Ctx) (h : e.halted = false) :
    Ev.Does (Grows b) e (e.pause pos i v c) := by
  unfold Ev.pause
  dsimp only
  split
  · exact e.does_answered i v _ h
  · refine Ev.Does.andThen (Ev.Does.andThen (Ev.Does.andThen (Ev.Does.onlyIf ?_
      (fun _ h => (Ev.does_removeItem _ _ _ i h).grows_of_plans)) (fun h => (Ev.does_headRead _ _ h).grows_of_plans))
      (fun h => (Ev.does_reselect _ _ pos _ h).grows_of_plans)) (fun h => Ev.does_endTake _ h)
    exact (e.does_modCtx i _ h (Ctx.sameBook_of_eq rfl rfl rfl rfl rfl rfl)).trans (Ev.does_answerStream (e.modCtx i _) i v _ h)

/-- R15: what a RESUME can do. -/
theorem Ev.does_resume (e : Ev) (i : StreamId) (v : Byte) (c : Ctx) (h : e.halted = false) : Ev.Does K e (e.resume i v c) := by
  unfold Ev.resume
  split
  · exact e.does_answered i v _ h
  · exact (e.does_modCtx i _ h (Ctx.sameBook_of_eq rfl rfl rfl rfl rfl rfl)).trans (Ev.does_answered (e.modCtx i _) i v _ h)

/-! ### Engine starts and stops -/

/-- No port is out of DISABLED, no request is in progress and the scan timer is stopped. -/
def State.quiet (s : State) : Prop :=
  (∀ p, (s.port p).state = .disabled) ∧ s.scanner.take = none ∧ s.scanner.timer = false

theorem Ev.does_enterStopped (hK : K.engine = true) (e : Ev) (h : e.halted = false) (hq : e.m.quiet) : Ev.Does K e e.enterStopped :=
  (Ev.Does.one h (.engine _ id hK rfl rfl (by simp) rfl (fun ht => by rw [id, hq.2.2] at ht; cases ht) (fun _ _ _ => ⟨hq.1, hq.2.1⟩))).trans
    (Ev.does_cause (e.modEngine _) _ h)

theorem Ev.does_modEngine (hK : K.engine = true) (e : Ev) (f : EngineCtl → EngineCtl) (h : e.halted = false) (hq : e.m.quiet)
    (hl : (f e.m.engine).pageLo = e.m.engine.pageLo) (hh : (f e.m.engine).pageHi = e.m.engine.pageHi)
    (hs : (f e.m.engine).state ≠ .halted) : Ev.Does K e (e.modEngine f) :=
  Ev.Does.one h (.engine f id hK hl hh hs rfl (fun ht => by rw [id, hq.2.2] at ht; cases ht) (fun _ _ _ => ⟨hq.1, hq.2.1⟩))

theorem Ev.does_startFailed (hK : K.engine = true) (e : Ev) (r : StartResult) (h : e.halted = false) (hn : e.m.engine.state ≠ .halted) (hq : e.m.quiet) :
    Ev.Does K e (e.startFailed r) :=
  (Ev.does_modEngine hK e _ h hq rfl rfl hn).trans (Ev.does_enterStopped hK (e.modEngine _) h hq)

theorem Ev.does_endStart (hK : K.engine = true) (e : Ev) (h : e.halted = false) (hq : e.m.quiet) : Ev.Does K e e.endStart := by
  unfold Ev.endStart
  split
  · exact Ev.does_enterStopped hK e h hq
  · exact (Ev.Does.one h (.engine (fun g => { g with state := .running })
      (fun sc => { sc with timer := sc.period ≠ 0, scan := none, remembered := false }) hK rfl rfl (by simp) rfl
      (fun _ => rfl) (fun hc => absurd rfl hc))).trans (Ev.does_cause ((e.modEngine _).modScanner _) _ h)

theorem Ev.does_headerData (hK : K.engine = true) (e : Ev) (x : Bytes64) (h : e.halted = false) (hn : e.m.engine.state ≠ .halted) (hq : e.m.quiet) :
    Ev.Does K e (e.headerData x) := by
  unfold Ev.headerData
  split
  · exact Ev.does_startFailed hK e _ h hn hq
  split
  · exact Ev.does_startFailed hK e _ h hn hq
  · rename_i ho
    dsimp only
    refine Ev.Does.trans (Ev.Does.one h (.header (headerMemoryCap x) (headerScanPeriod x)
      { e.m.engine with startResult := .started, epoch := headerEpoch x } (by simpa using ho) rfl rfl rfl)) ?_
    split
    · exact Ev.does_ask _ _ _ _ h
    · exact Ev.does_endStart hK _ h hq

theorem Ev.does_freshData (hK : K.engine = true) (e : Ev) (a : ReqArray) (h : e.halted = false) (hn : e.m.engine.state ≠ .halted) (hq : e.m.quiet) :
    Ev.Does K e (e.freshData a) := by
  unfold Ev.freshData
  dsimp only
  generalize e.slots ++ e.m.freshWrites a = ws
  generalize (Vector.ofFn (fun i => reqByte a i) : Vector Byte 260) = copy
  have h1 : Ev.Does K e { e with slots := ws } := e.does_slots _ h
  have h2 := h1.trans (Ev.does_modScanner { e with slots := ws }
    (fun sc => { sc with ackCopy := copy }) h .inl id)
  generalize he : Ev.modScanner { e with slots := ws } (fun sc => { sc with ackCopy := copy }) = e2 at h2 ⊢
  have hh : e2.halted = false := by subst he; exact h
  have hn2 : e2.m.engine.state ≠ .halted := by subst he; exact hn
  have hq2 : e2.m.quiet := by subst he; exact hq
  exact (h2.trans (Ev.does_modEngine hK e2 (fun g => { g with freshStart := false }) hh hq2 rfl rfl hn2)).trans
    (Ev.does_endStart hK (e2.modEngine _) hh hq2)

theorem Ev.does_startEngine (hK : K.engine = true) (e : Ev) (h : e.halted = false) (hq : e.m.quiet) : Ev.Does K e e.startEngine := by
  unfold Ev.startEngine
  dsimp only
  have h1 : Ev.Does K e (e.modEngine (fun g => { g with state := .starting, withdrawn := false, pageBase := g.pageRegs })) :=
    Ev.does_modEngine hK e _ h hq rfl rfl (by simp)
  split
  · exact h1.trans (Ev.does_startFailed hK (e.modEngine _) _ h (by simp) hq)
  · exact h1.trans (Ev.does_ask (e.modEngine _) _ _ _ h)

theorem Ev.does_engineStop (e : Ev) (h : e.halted = false) : Ev.Does (Grows false) e e.engineStop := by
  unfold Ev.engineStop
  refine Ev.Does.forEach (fun p e h => (e.does_stopPort p h).grows) _ (Ev.Does.one h (.engine (fun g => { g with state := .stopping })
    (fun sc => { sc with timer := false, remembered := false }) rfl rfl rfl (by simp) rfl (fun ht => by cases ht)
    (fun _ hc => absurd rfl hc)))

/-! ### Source reads -/

theorem Ev.does_sourceFault (e : Ev) (p : PortId) (i : StreamId) (job : Nat) (h : e.halted = false) :
    Ev.Does (Plans p) e (e.sourceFault p i job) := by
  unfold Ev.sourceFault
  split
  · exact e.does_plan p _ h (Port.planned_setPlanSource _ _ _)
  · exact e.does_removeItem p _ i h

theorem Port.planned_setOwner (q : Port) (i : StreamId) (job : Nat) (src : Source) : q.planned (q.setOwner i job src) := by
  unfold Port.setOwner
  split
  · exact Port.planned_setPlanSource _ _ _
  · exact Port.planned_setItemSource _ _ _

theorem Ev.does_selectorData (e : Ev) (p : PortId) (i : StreamId) (job : Nat) (q : Params) (v : Byte) (h : e.halted = false) :
    Ev.Does (Plans p) e (e.selectorData p i job q v) := by
  unfold Ev.selectorData
  split
  · exact Ev.Does.forEach (fun x e h => e.does_ask _ _ _ h) _ (e.does_plan p _ h (Port.planned_setOwner _ _ _ _))
  · exact e.does_sourceFault p i job h

/-- R51 to R53: what the end of a source read can do. -/
theorem Ev.does_sourceEnd (e : Ev) (rid : Nat) (i : StreamId) (job pos : Nat) (f : PortId → Params → Entry → Ev → Ev)
    (h : e.halted = false) (hf : ∀ p q x e, e.halted = false → Ev.Does (Plans p) e (f p q x e)) :
    Ev.Does (Grows b) e (e.sourceEnd rid i job pos f) := by
  unfold Ev.sourceEnd
  refine Ev.Does.withCtx (e.does_complete rid h) h (fun _ => ?_)
  dsimp only
  refine Ev.Does.andThen (Ev.Does.andThen (Ev.Does.andThen ?_
    (fun h => ?_)) (fun h => (Ev.does_headRead _ _ h).grows_of_plans)) (fun h => (Ev.does_reselect _ _ pos _ h).grows_of_plans)
  · split
    · exact (hf _ _ _ (e.modSmi _) h).grows_of_plans
    · exact .refl
  · exact (Ev.does_modCtx _ i _ h (Ctx.sameBook_of_eq rfl rfl rfl rfl rfl rfl)).trans (Ev.does_tryClose (Ev.modCtx _ i _) i h)

/-! ### What a command can do -/

/-- State `t` is `s`, or what an event of `s` leaves. -/
def Reaches (K : Allow) (s t : State) : Prop := t = s ∨ ∃ e, Ev.Does K (Ev.start s) e ∧ t = e.finish

theorem reaches_event {s : State} {f : Ev → Ev} (h : s.engine.state ≠ .halted → Ev.Does K (Ev.start s) (f (Ev.start s))) :
    Reaches K s (s.event f) := by
  unfold State.event
  split
  · exact .inl rfl
  · rename_i hn; exact .inr ⟨_, h hn, rfl⟩

theorem reaches_eventIf {s : State} {c : Bool} {f : Ev → Ev}
    (h : c = true → s.engine.state ≠ .halted → Ev.Does K (Ev.start s) (f (Ev.start s))) : Reaches K s (s.eventIf c f) := by
  unfold State.eventIf
  split
  · rename_i hc; exact reaches_event (h hc)
  · exact .inl rfl

theorem State.quiet_of_atRest {s : State} (h : s.atRest) (hn : s.engine.state ≠ .running) (hs : s.engine.state ≠ .stopping) : s.quiet :=
  ⟨(h.1 hn hs).1, (h.1 hn hs).2, by
    cases ht : s.scanner.timer with
    | false => rfl
    | true => exact absurd (h.2 ht) hn⟩

theorem State.streamTake_take {s : State} {x : StreamId × Byte × Read} (h : s.streamTake = some x) : s.scanner.take ≠ none := by
  intro hn; rw [State.streamTake, hn] at h; cases h

theorem State.portTake_take {s : State} {x : PortId × Byte × Read} (h : s.portTake = some x) : s.scanner.take ≠ none := by
  intro hn; rw [State.portTake, hn] at h; cases h

theorem State.on_of_take {s : State} (h : s.atRest) (ht : s.scanner.take ≠ none) :
    s.engine.state = .running ∨ s.engine.state = .stopping := by
  cases hr : s.engine.state with
  | running => exact .inl rfl
  | stopping => exact .inr rfl
  | _ => exact absurd (h.1 (by rw [hr]; simp) (by rw [hr]; simp)).2 ht

/-- A stream whose request is in progress at its entry fetch is CLOSED or OPEN. -/
theorem State.streamTake_state {s : State} {i : StreamId} {v : Byte} {r : Read} (h : s.streamTake = some (i, v, r)) :
    (s.ctx i).state = .closed ∨ (s.ctx i).state = .isOpen := by
  unfold State.streamTake at h
  split at h
  · split at h
    · split at h
      · rename_i k _ hk _ ht
        simp only [Option.some.injEq, Prod.mk.injEq] at h
        rw [← h.1]
        simpa [State.takeable, hk] using ht
      · cases h
    · cases h
  · cases h

theorem reaches_decideStream {s : State} {hh : Bytes64} {body : StreamId → Byte → Ctx → Ev → Ev}
    (h : ∀ i v e, e.halted = false → e.m.scanner = s.scanner → e.m.ctx i = s.ctx i → s.scanner.take ≠ none →
      stateRefusal (s.ctx i).state (hostAction hh) = none → ((s.ctx i).state = .closed ∨ (s.ctx i).state = .isOpen) →
      Ev.Does K e (body i v (s.ctx i) e)) : Reaches K s (s.decideStream hh body) := by
  unfold State.decideStream
  split
  · exact .inl rfl
  · rename_i i v r ht
    refine reaches_event (fun _ => ?_)
    refine Ev.Does.withCtx ((Ev.start s).does_complete _ rfl) rfl (fun _ => ?_)
    split
    · exact Ev.does_answered _ i v _ rfl
    · rename_i hn
      exact h i v _ rfl rfl rfl (State.streamTake_take ht) hn (State.streamTake_state ht)

theorem reaches_decidePort {s : State} {body : PortId → Ev → Ev × PortResult}
    (h : ∀ p e, e.halted = false → e.m.engine = s.engine → s.scanner.take ≠ none →
      Ev.Does (Grows b) e (body p e).1) : Reaches (Grows b) s (s.decidePort body) := by
  unfold State.decidePort
  split
  · exact .inl rfl
  · rename_i p v r ht
    refine reaches_event (fun _ => ?_)
    dsimp only
    refine Ev.Does.andThen (((Ev.start s).does_complete _ rfl).trans (h p _ rfl rfl (State.portTake_take ht))) (fun h => ?_)
    exact (Ev.does_answerPort _ p v _ h).trans (Ev.does_endTake _ (by simpa using h))

theorem reaches_entryFault {s : State} : Reaches (Grows b) s s.entryFault := by
  unfold State.entryFault
  split
  · exact reaches_event (fun _ => Ev.Does.withCtx ((Ev.start s).does_complete _ rfl) rfl (fun _ => Ev.does_answered _ _ _ _ rfl))
  · exact reaches_decidePort (fun _ _ _ _ _ => .refl)

theorem reaches_endOpen {s : State} {n : Option Word} : Reaches K s (s.endOpen n) := by
  unfold State.endOpen
  split
  · rename_i i v q r ho
    refine reaches_event (fun _ => ((Ev.start s).does_complete _ rfl).trans (Ev.does_openEnd _ i v q n rfl ?_))
    unfold State.openTake at ho
    split at ho
    · split at ho
      · split at ho
        · rename_i hs
          cases hf : s.smi.flyingFor _ with
          | none => rw [hf] at ho; cases ho
          | some _ =>
            rw [hf] at ho
            simp only [Option.map_some, Option.some.injEq, Prod.mk.injEq] at ho
            rw [← ho.1]
            show (s.ctx _).live = false
            simp [Ctx.live, hs]
        · cases ho
      · cases ho
    · cases ho
  · exact .inl rfl

theorem reaches_endRefresh {s : State} {i : StreamId} {v : Option Word} : Reaches K s (s.endRefresh i v) := by
  unfold State.endRefresh
  split
  · exact reaches_event (fun _ => ((Ev.start s).does_complete _ rfl).trans (Ev.does_refreshEnd _ i v rfl))
  · exact .inl rfl

theorem reaches_headerEnd (hK : K.engine = true) {s : State} (hr : s.atRest) (rid : Nat) (r : ReadResult Bytes64) :
    Reaches K s (s.event (Ev.headerEnd rid r)) := by
  refine reaches_event (fun hn => ?_)
  unfold Ev.headerEnd
  refine Ev.Does.trans ((Ev.start s).does_complete rid rfl) ?_
  dsimp only
  split
  · rename_i hs
    replace hs : s.engine.state = .starting := hs
    have hq : s.quiet := State.quiet_of_atRest hr (by rw [hs]; simp) (by rw [hs]; simp)
    split
    · exact Ev.does_headerData hK _ _ rfl hn hq
    · exact Ev.does_startFailed hK _ _ rfl hn hq
  · exact .refl

theorem reaches_freshEnd (hK : K.engine = true) {s : State} (hr : s.atRest) (rid : Nat) (r : ReadResult ReqArray) :
    Reaches K s (s.event (Ev.freshEnd rid r)) := by
  refine reaches_event (fun hn => ?_)
  unfold Ev.freshEnd
  refine Ev.Does.trans ((Ev.start s).does_complete rid rfl) ?_
  dsimp only
  split
  · rename_i hs
    replace hs : s.engine.state = .starting := hs
    have hq : s.quiet := State.quiet_of_atRest hr (by rw [hs]; simp) (by rw [hs]; simp)
    split
    · exact Ev.does_freshData hK _ _ rfl hn hq
    · exact .one rfl (.arrayFault hK)
  · exact .refl

theorem reaches_snapshotEnd (hK : K.engine = true) {s : State} (rid : Nat) (r : ReadResult ReqArray) : Reaches K s (s.event (Ev.snapshotEnd rid r)) := by
  refine reaches_event (fun _ => ?_)
  unfold Ev.snapshotEnd
  refine Ev.Does.trans ((Ev.start s).does_complete rid rfl) ?_
  dsimp only
  split
  · split
    · rename_i hs; exact Ev.does_examine _ _ _ rfl hs
    · exact Ev.does_modScanner _ _ rfl .inl id
  · exact .one rfl (.arrayFault hK)

theorem reaches_sourceFault {s : State} (rid : Nat) (i : StreamId) (job pos : Nat) :
    Reaches (Grows b) s (s.event (Ev.sourceReadFault rid i job pos)) :=
  reaches_event (fun _ => (Ev.start s).does_sourceEnd rid i job pos _ rfl (fun p _ _ e h => e.does_sourceFault p i job h))

theorem Ev.does_takeConfig (e : Ev) (p : PortId) (cb : Bytes32) (h : e.halted = false) (hr : e.m.configureResult p cb = .accepted) :
    Ev.Does (Grows b) e (e.takeConfig p cb) := by
  have hc : e.m.configureRefused p (blockCycleIndex cb) (blockCapPct cb) = false := by
    revert hr; unfold State.configureResult
    split
    · intro h; cases h
    split
    · intro h; cases h
    split
    · intro h; cases h
    · rename_i h; intro _; simpa using h
  refine (Ev.does_modPort (K := Grows b) e p _ h ⟨fun _ => id, id⟩).trans (Ev.Does.one h (.config p _ _ ?_))
  have : ∀ q, (e.m.setPort p q).configureRefused p (blockCycleIndex cb) (blockCapPct cb) = e.m.configureRefused p (blockCycleIndex cb) (blockCapPct cb) :=
    fun _ => rfl
  exact (this _).trans hc

/-- START changes nothing where no request is in progress. -/
theorem exec_startPort_idle {s : State} (h : s.scanner.take = none) (cb : Bytes32) : exec (.startPort cb) s = .next s := by
  have hp : s.portTake = none := by rw [State.portTake, h]
  show Host.Outcome.next _ = _
  split
  · rw [State.decidePort, hp]
  · rfl

/-- The commands whose meaning is not an event: the resets and the writes and events of the registers and the Interrupt Unit. -/
def Instr.direct : Instr → Bool
  | .coldReset | .functionReset | .engineReset | .pageWrite _ _ | .intrStatusWrite _ | .intrEnableWrite _ | .intrHoldoffWrite _
  | .registerWriteIgnored _ _ _ | .pcieConfigWrite _ _ | .holdoffTimerExpiry => true
  | _ => false

/-- The command that may take a port out of DISABLED. -/
def Instr.starts : Instr → Bool
  | .startPort _ => true
  | _ => false

/-- What a command that is an event can do: it answers a next state, which is the same state or what a run of moves leaves; START
alone may take a port out of DISABLED, and it does not change the state of the engine. -/
theorem exec_reaches {s : State} (hr : s.atRest) {c : Instr} (hc : Instr.direct c = false) :
    ∃ t, exec c s = .next t ∧ Reaches (Grows (Instr.starts c)) s t := by
  cases c with
  | coldReset | functionReset | engineReset | pageWrite _ _ | intrStatusWrite _ | intrEnableWrite _ | intrHoldoffWrite _
  | registerWriteIgnored _ _ _ | pcieConfigWrite _ _ | holdoffTimerExpiry => cases hc
  | runWritten1 =>
    refine ⟨_, rfl, reaches_eventIf (fun hs _ => Ev.does_startEngine rfl _ rfl ?_)⟩
    have hs := of_decide_eq_true hs
    exact State.quiet_of_atRest (s := s) hr (by rw [hs]; simp) (by rw [hs]; simp)
  | runWritten0 =>
    refine ⟨_, rfl, reaches_eventIf (fun _ _ => ?_)⟩
    unfold Ev.runOff
    split
    · rename_i hs
      replace hs : s.engine.state = .starting := hs
      exact Ev.does_modEngine rfl _ _ rfl (State.quiet_of_atRest (s := s) hr (by rw [hs]; simp) (by rw [hs]; simp)) rfl rfl (by simp [hs])
    · exact Ev.does_engineStop _ rfl
    · exact .refl
    · exact .refl
    · exact .refl
  | scan => exact ⟨_, rfl, reaches_eventIf (fun _ _ => Ev.does_scanRequest _ rfl)⟩
  | scanTimerExpiry => exact ⟨_, rfl, reaches_eventIf (fun _ _ => Ev.does_scanRequest _ rfl)⟩
  | cycleTimerExpiry p =>
    refine ⟨_, rfl, reaches_eventIf (fun _ _ => ?_)⟩
    unfold Ev.cycleExpiry
    split
    · exact (Ev.does_nextCycle _ p rfl).grows
    · exact (Ev.does_nextCycle _ p rfl).grows
    · exact (Ev.does_enterDisabled _ p rfl).grows
    · exact .refl
    · exact .refl
  | startFrameEnd p echo =>
    refine ⟨_, rfl, ?_⟩
    split
    · exact reaches_event (fun _ => (Ev.does_startEnd _ p _ rfl).grows)
    · exact .inl rfl
  | portEnterRunning p => exact ⟨_, rfl, reaches_eventIf (fun _ _ => (Ev.does_nextCycle _ p rfl).grows)⟩
  | deadlineTimeout p => exact ⟨_, rfl, reaches_eventIf (fun _ _ => (Ev.does_nextCycle _ p rfl).grows)⟩
  | aperiodicWindowClose p =>
    exact ⟨_, rfl, reaches_eventIf (fun _ _ => (Ev.does_plan _ p _ rfl (Port.planned_of_kept rfl rfl rfl)).grows_of_plans)⟩
  | requestExchangeEnd p echo heard =>
    refine ⟨_, rfl, ?_⟩
    split
    · split
      · refine reaches_event (fun _ => ?_)
        unfold Ev.requestExchange
        exact Ev.Does.withCtx .refl rfl (fun _ => (Ev.does_exchangeEnd _ p _ _ _ _ _ _ rfl).grows)
      · exact .inl rfl
    · exact .inl rfl
  | fetchExchangeEnd p echo heard =>
    refine ⟨_, rfl, ?_⟩
    split
    · split
      · refine reaches_event (fun _ => ?_)
        unfold Ev.fetchExchange
        exact Ev.Does.withCtx .refl rfl (fun _ => (Ev.does_exchangeEnd _ p _ _ _ _ _ _ rfl).grows)
      · exact .inl rfl
    · exact .inl rfl
  | probeExchangeEnd p echo heard =>
    refine ⟨_, rfl, ?_⟩
    split
    · split
      · refine reaches_event (fun _ => ?_)
        unfold Ev.probeExchange
        exact Ev.Does.andThen (Ev.Does.andThen ((Ev.does_tick _ p (Port.lineFree false _) rfl ⟨fun hd => hd, fun hq => hq⟩).grows.trans
          (Ev.does_reportNode (Ev.modPort _ p _) p _ _ _ rfl).ticks_of_reports.grows)
          (fun h => (Ev.does_headRead _ p h).grows_of_plans)) (fun h => (Ev.does_proceed _ p _ h).grows_of_plans)
      · exact .inl rfl
    · exact .inl rfl
  | scanSnapshotComplete r =>
    refine ⟨_, rfl, ?_⟩
    split
    · exact reaches_snapshotEnd rfl _ r
    · exact .inl rfl
  | headerReadComplete r =>
    refine ⟨_, rfl, ?_⟩
    split
    · exact reaches_headerEnd rfl hr _ r
    · exact .inl rfl
  | freshStartReadComplete r =>
    refine ⟨_, rfl, ?_⟩
    split
    · exact reaches_freshEnd rfl hr _ r
    · exact .inl rfl
  | openStream hh =>
    refine ⟨_, rfl, ?_⟩
    split
    · rename_i hw
      refine reaches_decideStream (fun i v e h hsc hcx ht hn hst => Ev.does_openChecks _ hh i v h ?_ (by rw [hsc]; exact ht))
      rw [hcx]
      have ha : hostAction hh = 1 := of_decide_eq_true hw
      rcases hst with hst | hst
      · simp [Ctx.live, hst]
      · rw [ha, hst] at hn; simp [stateRefusal] at hn
    · exact .inl rfl
  | closeStream hh pos =>
    refine ⟨_, rfl, ?_⟩
    split
    · rename_i hw
      refine reaches_decideStream (fun i v e h hsc hcx ht hn hst => Ev.does_close _ pos i v _ h ?_)
      rw [hcx]
      have ha : hostAction hh = 2 := of_decide_eq_true hw
      rcases hst with hst | hst
      · rw [ha, hst] at hn; simp [stateRefusal] at hn
      · simp [Ctx.live, hst]
    · exact .inl rfl
  | fire hh pos =>
    refine ⟨_, rfl, ?_⟩
    split
    · exact reaches_decideStream (fun i v e h _ _ _ _ _ => Ev.does_fire _ pos i v _ h)
    · exact .inl rfl
  | pause hh pos =>
    refine ⟨_, rfl, ?_⟩
    split
    · exact reaches_decideStream (fun i v e h _ _ _ _ _ => Ev.does_pause _ pos i v _ h)
    · exact .inl rfl
  | resume hh =>
    refine ⟨_, rfl, ?_⟩
    split
    · exact reaches_decideStream (fun i v e h _ _ _ _ _ => Ev.does_resume _ i v _ h)
    · exact .inl rfl
  | streamBadAction hh =>
    refine ⟨_, rfl, ?_⟩
    split
    · split
      · exact reaches_decideStream (fun i v e h _ _ _ _ _ => .refl)
      · exact .inl rfl
    · exact .inl rfl
  | configure cb =>
    refine ⟨_, rfl, ?_⟩
    split
    · refine reaches_decidePort (fun p e h _ _ => ?_)
      refine Ev.Does.andThen (Ev.does_checkCtxs _ e) (fun hc => ?_)
      rw [Ev.checkCtxs_eq _ _ hc]
      split
      · rename_i hres; exact e.does_takeConfig p cb h hres
      · exact .refl
    · exact .inl rfl
  | startPort cb =>
    refine ⟨_, rfl, ?_⟩
    split
    · refine reaches_decidePort (fun p e h he ht => ?_)
      dsimp only
      split
      · exact (e.does_enterSyncing p h).grows_of_fills
      · exact .refl
    · exact .inl rfl
  | stopPort cb =>
    refine ⟨_, rfl, ?_⟩
    split
    · exact reaches_decidePort (fun p e h _ _ => (e.does_stopPort p h).grows)
    · exact .inl rfl
  | portBadAction cb =>
    refine ⟨_, rfl, ?_⟩
    split
    · exact reaches_decidePort (fun _ _ _ _ _ => .refl)
    · exact .inl rfl
  | entryFault => exact ⟨_, rfl, reaches_entryFault⟩
  | consumedReadComplete r => exact ⟨_, rfl, reaches_endOpen⟩
  | selectorReadComplete rid r pos =>
    refine ⟨_, rfl, ?_⟩
    split
    · split
      · exact reaches_event (fun _ => Ev.does_sourceEnd _ _ _ _ pos _ rfl (fun p q _ e h => e.does_selectorData p _ _ q _ h))
      · exact reaches_sourceFault _ _ _ pos
    · exact .inl rfl
  | halfReadComplete rid r pos =>
    refine ⟨_, rfl, ?_⟩
    split
    · split
      · split
        · exact reaches_event (fun _ => Ev.does_sourceEnd _ _ _ _ pos _ rfl (fun p _ _ e h => e.does_plan p _ h (Port.planned_setOwner _ _ _ _)))
        · exact .inl rfl
      · exact reaches_sourceFault _ _ _ pos
    · exact .inl rfl
  | consumedRefreshComplete i r => exact ⟨_, rfl, reaches_endRefresh⟩
  | smiReadTimeout rid pos =>
    refine ⟨_, rfl, ?_⟩
    split
    · exact .inl rfl
    · split
      · exact reaches_snapshotEnd rfl _ _
      · exact reaches_headerEnd rfl hr _ _
      · exact reaches_freshEnd rfl hr _ _
      · exact reaches_entryFault
      · exact reaches_endOpen
      · exact reaches_endRefresh
      · exact reaches_sourceFault _ _ _ pos
      · exact reaches_sourceFault _ _ _ pos
  | lateReadData rid => exact ⟨_, rfl, .inl rfl⟩
  | cancelledOutcomeSettle i =>
    refine ⟨_, rfl, ?_⟩
    split
    · exact reaches_event (fun _ => Ev.does_settleCancelled _ _ rfl)
    · exact .inl rfl
  | engineEnterStopped =>
    refine ⟨_, rfl, reaches_eventIf (fun hw hn => Ev.does_enterStopped rfl _ rfl ?_)⟩
    simp only [State.writtenOut, Bool.and_eq_true, decide_eq_true_eq, List.all_eq_true, Option.isNone_iff_eq_none] at hw
    refine ⟨fun p => hw.1.1.1.1.1.1.2 p ?_, hw.1.1.1.1.1.2, ?_⟩
    · revert p; decide
    · cases ht : s.scanner.timer with
      | false => exact ht
      | true => have h1 := hr.2 ht; rw [hw.1.1.1.1.1.1.1] at h1; cases h1

end Sys2Proof.Machine
end

