-- ==== Sys2Proof/Laws/Answers.lean ====
section
/-! SUPPORT. How an event ends (State.sends) and how a take ends (State.takeEnded): what the scanner's operations leave, said once. -/

namespace Sys2Proof.Machine

open Sys2Proof

/-- R112: the end of an event is its machine with its writes sent and its causes signalled. -/
theorem Ev.finish_eq_sends (e : Ev) : e.finish = e.m.sends e.writes e.causes := rfl

/-- R164: where a STOPPED engine has no write left to issue, the end of an event issues nothing. -/
theorem State.issued_of_writesIssued {m : State} (h : m.writesIssued) : m.issued = m := by
  unfold State.issued
  split
  · rename_i hs; rw [Smi.issueWrites_of_msi (h hs)]
  · rfl

/-- R155, R156, R164: an event without causes or writes changes nothing where the interrupt signals are settled and no write is left to
issue. -/
theorem State.sends_nothing {m : State} (h : m.intr.settled) (hi : m.writesIssued) : m.sends [] 0 = m := by
  have hr : m.intr.raise 0 = m.intr := by simp [IntrUnit.raise]
  have h1 : m.sends [] 0 = m.signal m.intr := by
    show m.issued.signal (m.intr.raise 0) = _
    rw [State.issued_of_writesIssued hi, hr]
  rw [h1]
  unfold IntrUnit.settled at h
  have hs : m.intr.sends = false := by
    unfold IntrUnit.sends
    split at h
    · rename_i hm
      cases hp : m.intr.msgPending with
      | false => simp
      | true =>
        obtain ⟨_, h2⟩ := h.2 hp
        cases ht : m.intr.timer with
        | none => rw [ht] at h2; cases h2
        | some x => simp
    · rename_i hm
      simp [hm]
  have hset : m.intr.settle = m.intr := by
    unfold IntrUnit.settle
    split at h
    · rename_i hm
      rw [if_pos hm, if_neg (by simp [hs])]
      have hp : (m.intr.msgPending && m.intr.condition) = m.intr.msgPending := by
        cases hp : m.intr.msgPending with
        | false => rfl
        | true => simp [(h.2 hp).1]
      rw [hp, ← h.1]
    · rename_i hm
      rw [if_neg hm, ← h]
  unfold State.signal
  rw [hset, hs]
  rfl

/-! ### The end of a take -/

theorem Ev.examine_eq (snap : ReqArray) (n : Nat) : ∀ e : Ev, e.examine snap n = { e with m := (e.examine snap n).m } := by
  induction n with
  | zero =>
    intro e
    show e.endScan = { e with m := e.endScan.m }
    unfold Ev.endScan
    dsimp only
    split <;> rfl
  | succ n ih =>
    intro e
    unfold Ev.examine
    dsimp only
    split
    · rfl
    · exact ih e

theorem Ev.endScan_m (e : Ev) : e.endScan.m = { e.m with
    scanner := { e.m.scanner with scan := if e.m.scanner.remembered then some .reading else none, remembered := false }
    smi := if e.m.scanner.remembered then e.m.smi.ask .scanArray (e.m.page 0x400) 260 else e.m.smi } := by
  unfold Ev.endScan
  dsimp only
  split <;> rfl

/-- R131, R132: what the examination of a snapshot from position `k` leaves. -/
theorem Ev.examine_from (snap : ReqArray) (n : Nat) : ∀ (e : Ev) (k : Nat), k + n = 260 → e.m.examinedFrom (e.examine snap n).m snap k := by
  induction n with
  | zero =>
    intro e k hk
    exact ⟨fun n h1 h2 => absurd h2 (by omega), fun _ => e.endScan_m⟩
  | succ n ih =>
    intro e k hk
    have hpos : 259 - n = k := by omega
    unfold Ev.examine
    dsimp only
    rw [hpos]
    cases hp : e.m.pendingAt snap k with
    | true =>
      have hc : (reqByte snap (scanOrder k) ≠ e.m.scanner.ackCopy.get (scanOrder k) && e.m.takeable (scanOrder k)) = true := hp
      rw [if_pos (by simpa using hc)]
      refine ⟨fun m h1 h2 h3 h4 => ?_, fun h => absurd (h k (Nat.le_refl _) (by omega)) (by rw [hp]; simp)⟩
      have : m = k := by
        rcases Nat.lt_or_ge k m with hlt | hge
        · rw [h4 k (Nat.le_refl _) hlt] at hp; cases hp
        · omega
      subst this
      have he : 260 - n = m + 1 := by omega
      rw [he]
      rfl
    | false =>
      have hc : (reqByte snap (scanOrder k) ≠ e.m.scanner.ackCopy.get (scanOrder k) && e.m.takeable (scanOrder k)) = false := hp
      rw [if_neg (by rw [hc]; decide)]
      obtain ⟨h1, h2⟩ := ih e (k + 1) (by omega)
      refine ⟨fun m hm hm2 hm3 hm4 => ?_, fun h => h2 (fun j hj hj2 => h j (by omega) hj2)⟩
      have hne : m ≠ k := fun he => by rw [he, hp] at hm3; cases hm3
      exact h1 m (by omega) hm2 hm3 (fun j hj hj2 => hm4 j (by omega) hj2)

theorem Ev.endTake_eq (e : Ev) : e.endTake = { e with m := e.endTake.m } := by
  unfold Ev.endTake
  dsimp only
  split
  · split
    · exact Ev.examine_eq _ _ _
    · rfl
  · rfl

/-- R133, R137: what the end of a take leaves. -/
theorem Ev.endTake_m (e : Ev) : e.m.takeEnded e.endTake.m := by
  unfold State.takeEnded Ev.endTake
  dsimp only
  cases hs : e.m.scanner.scan with
  | none => simp only [Ev.modScanner_m, hs]
  | some x =>
    cases x with
    | reading => simp only [Ev.modScanner_m, hs]
    | examining snap k =>
      simp only [Ev.modScanner_m, hs]
      split
      · rename_i hr
        by_cases hk : k ≤ 260
        · exact Ev.examine_from snap (260 - k) (e.modScanner (fun sc => { sc with take := none })) k (by omega)
        · have h0 : 260 - k = 0 := by omega
          rw [h0]
          exact ⟨fun n h1 h2 => absurd h2 (by omega), fun _ => Ev.endScan_m _⟩
      · rfl

/-- R112, R133: an event that ends with the end of its take: what it leaves and what it sends. -/
theorem Ev.endTake_finish (e : Ev) :
    e.m.takeEnded e.endTake.m ∧
    e.endTake.finish = e.endTake.m.sends (e.slots ++ e.dirty.map e.endTake.m.partHalfWrite ++ e.blocks.map e.endTake.m.statusWrite ++
      e.acks.map (fun a => e.endTake.m.ackWrite a.1 a.2)) e.causes := by
  refine ⟨e.endTake_m, ?_⟩
  rw [Ev.finish_eq_sends]
  unfold Ev.writes
  rw [e.endTake_eq]

/-- R112: an event of an engine that is not halted, by the machine, the writes and the causes it ends with. -/
theorem State.event_eq_sends {s : State} {f : Ev → Ev} {m : State} {ws : List PathItem} {causes : BitVec 3}
    (h : s.engine.state ≠ .halted) (hm : (f (Ev.start s)).m = m) (hw : (f (Ev.start s)).writes = ws)
    (hc : (f (Ev.start s)).causes = causes) : s.event f = m.sends ws causes := by
  rw [State.event_of_not_halted h, Ev.finish_eq_sends, hm, hw, hc]

end Sys2Proof.Machine
end

