-- ==== Sys2Proof/Laws/Invariants.lean ====
section
/-! SUPPORT. What each move of an event leaves of the bounds, of what rests and of the budget laws. -/

namespace Sys2Proof.Machine

open Sys2Proof

variable {K : Allow}

/-- A property of the machine that every move keeps holds after a run of moves. -/
theorem Ev.Does.keeps {Inv : State → Prop} (hm : ∀ a b : Ev, Ev.Move K a b → Inv a.m → Inv b.m) {a b : Ev} (d : Ev.Does K a b)
    (h : Inv a.m) : Inv b.m := by
  induction d with
  | refl => exact h
  | step _ _ m ih => exact hm _ _ m ih

/-! ### The bounds -/

theorem Smi.fill_bounded (m : Smi) (h : m.inFlight.length ≤ Config.trackerSize) : m.fill.bounded := by
  simp only [Config.trackerSize] at h
  unfold Smi.bounded Smi.fill
  simp only [Config.trackerSize, List.length_append, List.length_take]
  refine ⟨by omega, ?_⟩
  by_cases hw : m.waiting.length ≤ 16 - m.inFlight.length
  · exact .inl (List.drop_eq_nil_of_le hw)
  · exact .inr (by omega)

theorem Smi.ask_bounded (m : Smi) (w : ReadFor) (a : Addr) (n : Nat) (h : m.bounded) : (m.ask w a n).bounded :=
  Smi.fill_bounded _ h.1

theorem Smi.complete_bounded (m : Smi) (rid : Nat) (h : m.bounded) : (m.complete rid).bounded :=
  Smi.fill_bounded _ (Nat.le_trans (List.length_filter_le _ _) h.1)

theorem Ev.releaseBudget_smi (e : Ev) (c : Ctx) : (e.releaseBudget c).m.smi = e.m.smi := by
  unfold Ev.releaseBudget; split <;> rfl
theorem Ev.releaseBudget_writer (e : Ev) (c : Ctx) : (e.releaseBudget c).m.writer = e.m.writer := by
  unfold Ev.releaseBudget; split <;> rfl
theorem Ev.releaseBudget_engine (e : Ev) (c : Ctx) : (e.releaseBudget c).m.engine = e.m.engine := by
  unfold Ev.releaseBudget; split <;> rfl
theorem Ev.releaseBudget_scanner (e : Ev) (c : Ctx) : (e.releaseBudget c).m.scanner = e.m.scanner := by
  unfold Ev.releaseBudget; split <;> rfl
theorem Ev.reserveIf_smi (e : Ev) (b : Bool) (q : Params) (φ : Nat) : (if b then e.reserve q φ else e).m.smi = e.m.smi := by
  split <;> rfl
theorem Ev.reserveIf_writer (e : Ev) (b : Bool) (q : Params) (φ : Nat) : (if b then e.reserve q φ else e).m.writer = e.m.writer := by
  split <;> rfl
theorem Ev.reserveIf_engine (e : Ev) (b : Bool) (q : Params) (φ : Nat) : (if b then e.reserve q φ else e).m.engine = e.m.engine := by
  split <;> rfl
theorem Ev.reserveIf_scanner (e : Ev) (b : Bool) (q : Params) (φ : Nat) : (if b then e.reserve q φ else e).m.scanner = e.m.scanner := by
  split <;> rfl
theorem Ev.reserveIf_port (e : Ev) (b : Bool) (q : Params) (φ : Nat) (p : PortId) :
    (if b then e.reserve q φ else e).m.port p = e.m.port p := by split <;> rfl
theorem Ev.reserveIf_ctxs (e : Ev) (b : Bool) (q : Params) (φ : Nat) : (if b then e.reserve q φ else e).m.ctxs = e.m.ctxs := by
  split <;> rfl

/-- R128: every move keeps the bound of the read tracker. -/
theorem Ev.Move.keeps_smi {a b : Ev} (m : Ev.Move K a b) (h : a.m.smi.bounded) : b.m.smi.bounded := by
  cases m with
  | out h1 _ => rw [h1]; exact h
  | opened i v q φ mc n hh _ _ => simpa [Ev.modCtx, Ev.reserveIf_smi] using h
  | closed i f _ _ _ => simpa [Ev.modCtx, Ev.releaseBudget_smi] using h
  | ask w x n => exact Smi.ask_bounded _ w x n h
  | complete rid => exact Smi.complete_bounded _ rid h
  | halt i _ => exact ⟨h.1, .inl rfl⟩
  | arrayFault _ => exact ⟨h.1, .inl rfl⟩
  | _ => exact h

@[simp] theorem Ev.halt_port (e : Ev) (c : FaultCode) (d : Word) (r : PortId) : (e.halt c d).m.port r = (e.m.port r).halted := by
  simp [Ev.halt, State.port, get_tableMap]

/-- R54: every move that keeps the bound of the queue of the port it changes keeps all. -/
theorem Ev.Move.keeps_queues {a b : Ev} (hK : ∀ r q q', K.port r q q' → q.queueLength ≤ Config.queueSize → q'.queueLength ≤ Config.queueSize)
    (m : Ev.Move K a b) (h : a.m.queuesBounded) : b.m.queuesBounded := by
  intro r
  cases hb : b.halted with
  | false =>
    rcases m.port_or hb r with he | hk
    · rw [he]; exact h r
    · exact hK _ _ _ hk (h r)
  | true =>
    cases m with
    | halt i _ => rw [Ev.halt_port]; exact h r
    | arrayFault _ => unfold Ev.arrayFault; rw [Ev.halt_port]; exact h r
    | out h1 _ => rw [h1]; exact h r
    | port p f hk =>
      by_cases hr : r = p
      · subst hr
        have := hK _ _ _ hk (h r)
        simpa using this
      · simpa [State.port_setPort, hr] using h r
    | opened i v q φ mc n hh _ _ =>
      have : ((if q.periodic then a.reserve q φ.toNat else a).modCtx i (fun c => c.opened q φ mc n hh v)).m.port r = a.m.port r :=
        Ev.reserveIf_port a _ q _ r
      rw [this]; exact h r
    | closed i f _ _ _ =>
      have : ((a.releaseBudget (a.m.ctx i)).modCtx i f).m.port r = a.m.port r := Ev.releaseBudget_port a _ r
      rw [this]; exact h r
    | _ => exact h r

/-- R122: every move keeps the bound of the pending outcome list. -/
theorem Ev.Move.keeps_writer {a b : Ev} (m : Ev.Move K a b) (h : a.m.writer.bounded) : b.m.writer.bounded := by
  cases m with
  | out h1 _ => rw [h1]; exact h
  | opened i v q φ mc n hh _ _ => simpa [Ev.modCtx, Ev.reserveIf_writer] using h
  | closed i f _ _ _ => simpa [Ev.modCtx, Ev.releaseBudget_writer] using h
  | writer f hf => exact hf h
  | _ => exact h

/-- R150: every move keeps the two PAGE registers. -/
theorem Ev.Move.keeps_page {a b : Ev} (m : Ev.Move K a b) :
    b.m.engine.pageLo = a.m.engine.pageLo ∧ b.m.engine.pageHi = a.m.engine.pageHi := by
  cases m with
  | out h1 _ => rw [h1]; exact ⟨rfl, rfl⟩
  | opened i v q φ mc n hh _ _ => simp [Ev.modCtx, Ev.reserveIf_engine]
  | closed i f _ _ _ => simp [Ev.modCtx, Ev.releaseBudget_engine]
  | engine f g _ h1 h2 _ _ _ _ => exact ⟨h1, h2⟩
  | header cap per g _ h1 h2 _ => exact ⟨h1, h2⟩
  | _ => exact ⟨rfl, rfl⟩

/-! ### What rests -/

/-- A move that may not change the state of the engine leaves it as it is, or halts it. -/
theorem Ev.Move.engine_or {a b : Ev} (hK : K.engine = false) (m : Ev.Move K a b) :
    b.m.engine.state = a.m.engine.state ∨ (b.m.engine.state = .halted ∧ ∀ p, (b.m.port p).state = .disabled) := by
  cases m with
  | out h1 _ => rw [h1]; exact .inl rfl
  | opened i v q φ mc n hh _ _ => exact .inl (by simp [Ev.modCtx, Ev.reserveIf_engine])
  | closed i f _ _ _ => exact .inl (by simp [Ev.modCtx, Ev.releaseBudget_engine])
  | engine f g h _ _ _ _ _ _ => rw [hK] at h; cases h
  | header cap per g _ _ _ h3 => exact .inl h3
  | halt i _ => exact .inr ⟨rfl, fun p => by rw [Ev.halt_port]; rfl⟩
  | arrayFault h => rw [hK] at h; cases h
  | _ => exact .inl rfl

/-- R108: a move that takes no port out of DISABLED keeps what rests. -/
theorem Ev.Move.keeps_atRest {a b : Ev} (hK : ∀ r q q', K.port r q q' → q.state = .disabled → q'.state = .disabled)
    (m : Ev.Move K a b) (h : a.m.atRest) : b.m.atRest := by
  cases m with
  | out h1 _ => rw [h1]; exact h
  | port p f hk =>
    refine ⟨fun h1 h2 => ⟨fun r => ?_, (h.1 h1 h2).2⟩, h.2⟩
    by_cases hr : r = p
    · subst hr; simpa using hK _ _ _ hk ((h.1 h1 h2).1 r)
    · simpa [State.port_setPort, hr] using (h.1 h1 h2).1 r
  | opened i v q φ mc n hh _ _ =>
    refine ⟨fun h1 h2 => ?_, fun ht => ?_⟩
    · simp only [Ev.modCtx, State.setCtx_engine, Ev.reserveIf_engine] at h1 h2
      refine ⟨fun r => ?_, ?_⟩
      · have := (h.1 h1 h2).1 r
        rw [← Ev.reserveIf_port a q.periodic q φ.toNat r] at this; exact this
      · simpa [Ev.modCtx, Ev.reserveIf_scanner] using (h.1 h1 h2).2
    · simp only [Ev.modCtx, State.setCtx_scanner, Ev.reserveIf_scanner] at ht
      simpa [Ev.modCtx, Ev.reserveIf_engine] using h.2 ht
  | closed i f _ _ _ =>
    refine ⟨fun h1 h2 => ?_, fun ht => ?_⟩
    · simp only [Ev.modCtx, State.setCtx_engine, Ev.releaseBudget_engine] at h1 h2
      refine ⟨fun r => ?_, ?_⟩
      · have := (h.1 h1 h2).1 r
        rw [← Ev.releaseBudget_port a (a.m.ctx i) r] at this; exact this
      · simpa [Ev.modCtx, Ev.releaseBudget_scanner] using (h.1 h1 h2).2
    · simp only [Ev.modCtx, State.setCtx_scanner, Ev.releaseBudget_scanner] at ht
      simpa [Ev.modCtx, Ev.releaseBudget_engine] using h.2 ht
  | scanner f h1 h2 =>
    refine ⟨fun hr hs => ⟨(h.1 hr hs).1, ?_⟩, fun ht => h.2 (h2 ht)⟩
    cases hc : decide ((f a.m.scanner).take = none) with
    | true => exact of_decide_eq_true hc
    | false =>
      rcases h1 (of_decide_eq_false hc) with h3 | h3
      · exact absurd (h.1 hr hs).2 h3
      · exact absurd h3 hr
  | engine f g _ _ _ _ h4 h5 h6 =>
    refine ⟨fun hr hs => ?_, h5⟩
    by_cases hw : a.m.engine.state = .running ∨ a.m.engine.state = .stopping
    · exact ⟨(h6 hr hs hw).1, h4.trans (h6 hr hs hw).2⟩
    · exact ⟨(h.1 (fun hc => hw (.inl hc)) (fun hc => hw (.inr hc))).1,
        h4.trans (h.1 (fun hc => hw (.inl hc)) (fun hc => hw (.inr hc))).2⟩
  | header cap per g _ _ _ h3 =>
    refine ⟨fun hr hs => ?_, fun ht => ?_⟩
    · replace hr : g.state ≠ .running := hr
      replace hs : g.state ≠ .stopping := hs
      rw [h3] at hr hs
      exact h.1 hr hs
    · exact h3.trans (h.2 ht)
  | halt i _ => exact ⟨fun _ _ => ⟨fun r => by rw [Ev.halt_port]; rfl, rfl⟩, fun ht => by cases ht⟩
  | arrayFault _ => exact ⟨fun _ _ => ⟨fun r => by unfold Ev.arrayFault; rw [Ev.halt_port]; rfl, rfl⟩, fun ht => by cases ht⟩
  | _ => exact h

/-! ### Sums over the streams -/

theorem allStreams_eq : allStreams = List.finRange 256 := by decide +kernel

/-- The sum over the streams of what each context contributes. -/
theorem sum_setCtx (s : State) (i : StreamId) (c : Ctx) (f : Ctx → Nat) :
    (allStreams.map (fun j => f ((s.setCtx i c).ctx j))).sum + f (s.ctx i) = (allStreams.map (fun j => f (s.ctx j))).sum + f c := by
  rw [allStreams_eq, ← Fin.sum_univ_def, ← Fin.sum_univ_def,
    ← Finset.add_sum_erase _ _ (Finset.mem_univ i), ← Finset.add_sum_erase (a := i) _ (fun j => f (s.ctx j)) (Finset.mem_univ i)]
  have h1 : (s.setCtx i c).ctx i = c := by simp
  have h2 : ∀ j ∈ Finset.univ.erase i, f ((s.setCtx i c).ctx j) = f (s.ctx j) := fun j hj => by
    simp [State.ctx_setCtx, Finset.ne_of_mem_erase hj]
  rw [Finset.sum_congr rfl h2, h1]
  omega

theorem le_sum (s : State) (i : StreamId) (f : Ctx → Nat) : f (s.ctx i) ≤ (allStreams.map (fun j => f (s.ctx j))).sum := by
  rw [allStreams_eq, ← Fin.sum_univ_def]
  exact Finset.single_le_sum (f := fun j => f (s.ctx j)) (fun _ _ => Nat.zero_le _) (Finset.mem_univ i)

/-- What a context counts in R29. -/
def Ctx.countOf (c : Ctx) (p : PortId) : Nat := if c.reserves p then 1 else 0

/-- What a context contributes to R37. -/
def Ctx.memOf (c : Ctx) : Nat := if c.live && c.params.periodic then c.memCost else 0

theorem State.reserving_eq (s : State) (p : PortId) : s.reserving p = (allStreams.map (fun i => (s.ctx i).countOf p)).sum := rfl
theorem State.memorySum_eq (s : State) : s.memorySum = (allStreams.map (fun i => (s.ctx i).memOf)).sum := rfl

theorem Ctx.loadOf_of_sameBook {c c' : Ctx} (h : Ctx.sameBook c c') (p : PortId) (b : Nat) : c'.loadOf p b = c.loadOf p b := by
  cases hl : c.live with
  | true =>
    obtain ⟨h1, h2, h3, _⟩ := h.2.2 hl
    simp [Ctx.loadOf, Ctx.reserves, h.1, h1, h2, h3]
  | false => simp [Ctx.loadOf, Ctx.reserves, h.1, hl]

theorem Ctx.countOf_of_sameBook {c c' : Ctx} (h : Ctx.sameBook c c') (p : PortId) : c'.countOf p = c.countOf p := by
  cases hl : c.live with
  | true =>
    obtain ⟨h1, _, _, _⟩ := h.2.2 hl
    simp [Ctx.countOf, Ctx.reserves, h.1, h1]
  | false => simp [Ctx.countOf, Ctx.reserves, h.1, hl]

theorem Ctx.memOf_of_sameBook {c c' : Ctx} (h : Ctx.sameBook c c') : c'.memOf = c.memOf := by
  cases hl : c.live with
  | true =>
    obtain ⟨h1, _, _, h4⟩ := h.2.2 hl
    simp [Ctx.memOf, h.1, h1, h4]
  | false => simp [Ctx.memOf, h.1, hl]

theorem Ctx.loadOf_of_dead {c : Ctx} (h : c.live = false) (p : PortId) (b : Nat) : c.loadOf p b = 0 := by
  simp [Ctx.loadOf, Ctx.reserves, h]
theorem Ctx.countOf_of_dead {c : Ctx} (h : c.live = false) (p : PortId) : c.countOf p = 0 := by
  simp [Ctx.countOf, Ctx.reserves, h]
theorem Ctx.memOf_of_dead {c : Ctx} (h : c.live = false) : c.memOf = 0 := by simp [Ctx.memOf, h]

/-- The budget laws hold of a state whose Admission Unit differs from a balanced one's by what a context's change contributes. -/
theorem State.balanced_setCtx {s : State} {adm : Admission} {i : StreamId} {c : Ctx} (h : s.balanced)
    (h1 : ∀ p b, (adm.budgets.get p).load b + (s.ctx i).loadOf p b.val = (s.budget p).load b + c.loadOf p b.val)
    (h2 : ∀ p, (adm.budgets.get p).reservations + (s.ctx i).countOf p = (s.budget p).reservations + c.countOf p)
    (h3 : adm.memLoad + (s.ctx i).memOf = s.adm.memLoad + c.memOf) : State.balanced { s.setCtx i c with adm := adm } := by
  refine ⟨fun p b => ?_, fun p => ?_, ?_⟩
  · have e1 := sum_setCtx s i c (fun c => c.loadOf p b.val)
    have e2 := h.1 p b
    have e3 := h1 p b
    have e4 := le_sum s i (fun c => c.loadOf p b.val)
    unfold State.bucketSum at e2
    show (adm.budgets.get p).load b = (allStreams.map (fun j => ((s.setCtx i c).ctx j).loadOf p b.val)).sum
    omega
  · have e1 := sum_setCtx s i c (fun c => c.countOf p)
    have e2 := h.2.1 p
    rw [State.reserving_eq] at e2
    have e3 := h2 p
    have e4 := le_sum s i (fun c => c.countOf p)
    show (adm.budgets.get p).reservations = (allStreams.map (fun j => ((s.setCtx i c).ctx j).countOf p)).sum
    omega
  · have e1 := sum_setCtx s i c (fun c => c.memOf)
    have e2 := h.2.2
    rw [State.memorySum_eq] at e2
    have e4 := le_sum s i (fun c => c.memOf)
    show adm.memLoad = (allStreams.map (fun j => ((s.setCtx i c).ctx j).memOf)).sum
    omega

/-! ### Reserving and releasing -/

@[simp] theorem Budget.reserve_load (t : Budget) (n φ cost : Nat) (b : Fin 64) :
    (t.reserve n φ cost).load b = if bucketMatches n φ b.val then t.load b + cost else t.load b := by
  simp [Budget.reserve, Budget.load, get_tableMap]

@[simp] theorem Budget.release_load (t : Budget) (n φ cost : Nat) (b : Fin 64) :
    (t.release n φ cost).load b = if bucketMatches n φ b.val then t.load b - cost else t.load b := by
  simp [Budget.release, Budget.load, get_tableMap]

theorem State.budgetStep_mem {s : State} {q : Params} {φ : Byte} {mc : Nat} (h : s.budgetStep q = .inr (φ, mc)) (hp : q.periodic = true) :
    mc = q.memCost (s.budget q.portId).cycleIndex.toNat := by
  have ho : q.oneShot = false := by
    simp only [Params.periodic, decide_eq_true_eq] at hp
    simp [Params.oneShot, hp]
  unfold State.budgetStep at h
  rw [ho] at h
  dsimp only at h
  rw [if_neg (by simp)] at h
  split at h
  · cases h
  · simp only [Sum.inr.injEq, Prod.mk.injEq] at h
    exact h.2.symm

theorem mem_bucketsOf (n φ : Nat) (b : Fin 64) : b ∈ bucketsOf n φ ↔ bucketMatches n φ b.val = true := by
  have : b ∈ (List.range 64).map (Fin.ofNat 64) := List.mem_map.2 ⟨b.val, List.mem_range.2 b.isLt, by simp⟩
  simp only [bucketsOf, List.mem_filter, this, true_and]

theorem Budget.fits_iff (t : Budget) (n φ cost : Nat) :
    t.fits n φ cost = true ↔ ∀ b : Fin 64, bucketMatches n φ b.val = true → t.load b + cost ≤ t.figures.cap := by
  simp [Budget.fits, List.all_eq_true, mem_bucketsOf]

/-- The phase chosen is below 256 whatever the interval. -/
theorem Budget.choosePhase_lt (t : Budget) (n : Nat) : t.choosePhase n < 256 := by
  have hfold : ∀ (xs : List Nat) (best : Nat),
      (xs.foldl (fun best q => if t.largestLoad n q < t.largestLoad n best then q else best) best = best) ∨
      (xs.foldl (fun best q => if t.largestLoad n q < t.largestLoad n best then q else best) best ∈ xs) := by
    intro xs
    induction xs with
    | nil => intro best; exact .inl rfl
    | cons x xs ih =>
      intro best
      simp only [List.foldl_cons]
      split
      · rcases ih x with h | h
        · exact .inr (by rw [h]; simp)
        · exact .inr (List.mem_cons_of_mem _ h)
      · rcases ih best with h | h
        · exact .inl h
        · exact .inr (List.mem_cons_of_mem _ h)
  unfold Budget.choosePhase
  by_cases hn : n ≤ 8
  · have : 2 ^ n ≤ 256 := (Nat.pow_le_pow_right (by decide) hn).trans (by decide)
    rcases hfold (List.range (2 ^ n)) 0 with h | h
    · rw [h]; decide
    · have := List.mem_range.1 h; omega
  · -- a phase that no bucket matches has no load, and nothing is chosen after it
    have hz : ∀ q, 64 ≤ q → t.largestLoad n q = 0 := fun q hq => by
      have : bucketsOf n q = [] := by
        rw [List.eq_nil_iff_forall_not_mem]
        intro b hb
        rw [mem_bucketsOf, bucketMatches, decide_eq_true_eq] at hb
        have h1 : b.val % 2 ^ n ≤ b.val := Nat.mod_le _ _
        have := b.isLt
        omega
      simp [Budget.largestLoad, this]
    have hk : ∀ (xs : List Nat) (best : Nat), t.largestLoad n best = 0 →
        xs.foldl (fun best q => if t.largestLoad n q < t.largestLoad n best then q else best) best = best := by
      intro xs
      induction xs with
      | nil => intro best _; rfl
      | cons x xs ih => intro best hb; simp only [List.foldl_cons, hb, Nat.not_lt_zero, if_false]; exact ih best hb
    have hsplit : List.range (2 ^ n) = List.range 65 ++ (List.range (2 ^ n - 65)).map (fun k => 65 + k) := by
      rw [← List.range_add]
      congr 1
      have : 2 ^ 9 ≤ 2 ^ n := Nat.pow_le_pow_right (by decide) (by omega)
      omega
    rw [hsplit, List.foldl_append]
    generalize hb : (List.range 65).foldl (fun best q => if t.largestLoad n q < t.largestLoad n best then q else best) 0 = best
    have h65 : List.range 65 = List.range 64 ++ [64] := by decide
    have hbz : t.largestLoad n best = 0 ∧ best < 65 := by
      rw [← hb, h65, List.foldl_append]
      simp only [List.foldl_cons, List.foldl_nil]
      split
      · exact ⟨hz 64 (Nat.le_refl _), by decide⟩
      · rename_i hlt
        rw [hz 64 (Nat.le_refl _)] at hlt
        refine ⟨by omega, ?_⟩
        rcases hfold (List.range 64) 0 with h | h
        · rw [h]; decide
        · have := List.mem_range.1 h; omega
    rw [hk _ _ hbz.1]
    omega

/-- R34, R37: what an accepted budget step of a periodic stream says. -/
theorem State.budgetStep_fits {s : State} {q : Params} {φ : Byte} {mc : Nat} (h : s.budgetStep q = .inr (φ, mc)) (hp : q.periodic = true) :
    (s.budget q.portId).fits q.interval.toNat φ.toNat q.cost = true ∧ memoryFits s.adm.memLoad s.adm.memCap mc = true := by
  have hm := State.budgetStep_mem h hp
  have ho : q.oneShot = false := by
    simp only [Params.periodic, decide_eq_true_eq] at hp
    simp [Params.oneShot, hp]
  unfold State.budgetStep at h
  rw [ho] at h
  dsimp only at h
  rw [if_neg (by simp)] at h
  split at h
  · cases h
  · rename_i ψ ha
    simp only [Sum.inr.injEq, Prod.mk.injEq] at h
    unfold Admission.verdict at ha
    dsimp only at ha
    split at ha
    · cases ha
    split at ha
    · cases ha
    split at ha
    · cases ha
    rename_i h1 h2 h3
    simp only [Sum.inr.injEq] at ha
    rw [ha] at h2
    have hlt : ψ < 256 := by
      rw [← ha]
      unfold Budget.phaseFor
      split
      · exact Budget.choosePhase_lt _ _
      · exact q.phase.isLt
    have hφ : φ.toNat = ψ := by rw [← h.1, BitVec.toNat_ofNat]; exact Nat.mod_eq_of_lt hlt
    rw [hφ]
    exact ⟨by simpa using h2, by rw [hm]; simpa using h3⟩

theorem State.balanced_opened {s : State} (h : s.balanced) {e : Ev} (he : e.m = s) {i : StreamId} {q : Params} {φ : Byte} {mc : Nat}
    {c : Ctx} (hd : (s.ctx i).live = false) (hb : s.budgetStep q = .inr (φ, mc)) (hl : c.live = true) (h1 : c.params = q)
    (h2 : c.phase = φ) (h3 : c.cost = q.cost) (h4 : c.memCost = mc) :
    ((if q.periodic then e.reserve q φ.toNat else e).modCtx i (fun _ => c)).m.balanced := by
  subst he
  cases hp : q.periodic with
  | false =>
    show State.balanced { e.m.setCtx i c with adm := e.m.adm }
    refine State.balanced_setCtx (s := e.m) (adm := e.m.adm) h (fun p b => ?_) (fun p => ?_) ?_
    · rw [Ctx.loadOf_of_dead hd]; simp [Ctx.loadOf, Ctx.reserves, h1, hp, State.budget]
    · rw [Ctx.countOf_of_dead hd]; simp [Ctx.countOf, Ctx.reserves, h1, hp, State.budget]
    · rw [Ctx.memOf_of_dead hd]; simp [Ctx.memOf, h1, hp]
  | true =>
    have hm := State.budgetStep_mem hb hp
    show State.balanced { e.m.setCtx i c with adm := (e.reserve q φ.toNat).m.adm }
    refine State.balanced_setCtx (s := e.m) (adm := (e.reserve q φ.toNat).m.adm) h (fun p b => ?_) (fun p => ?_) ?_
    · rw [Ctx.loadOf_of_dead hd]
      by_cases hpp : p = q.portId
      · subst hpp
        simp [Ev.reserve, Ev.modBudget, Ev.modMemLoad, State.setBudget, get_set, Ctx.loadOf, Ctx.reserves, h1, h2, h3, hp, hl]
        split <;> simp_all [State.budget]
      · have hpp' : ¬ q.portId = p := fun h => hpp h.symm
        simp [Ev.reserve, Ev.modBudget, Ev.modMemLoad, State.setBudget, get_set, Ctx.loadOf, Ctx.reserves, h1, hpp, hpp', State.budget]
    · rw [Ctx.countOf_of_dead hd]
      by_cases hpp : p = q.portId
      · subst hpp
        simp [Ev.reserve, Ev.modBudget, Ev.modMemLoad, State.setBudget, get_set, Ctx.countOf, Ctx.reserves, h1, hp, hl, Budget.reserve]
      · have hpp' : ¬ q.portId = p := fun h => hpp h.symm
        simp [Ev.reserve, Ev.modBudget, Ev.modMemLoad, State.setBudget, get_set, Ctx.countOf, Ctx.reserves, h1, hpp, hpp', State.budget]
    · rw [Ctx.memOf_of_dead hd]
      simp [Ev.reserve, Ev.modBudget, Ev.modMemLoad, Ctx.memOf, h1, h4, hp, hl, hm]

theorem State.balanced_closed {s : State} (h : s.balanced) {e : Ev} (he : e.m = s) {i : StreamId} {c : Ctx}
    (hs : (s.ctx i).state = .closing) (hd : c.live = false) : ((e.releaseBudget (s.ctx i)).modCtx i (fun _ => c)).m.balanced := by
  subst he
  have hl : (e.m.ctx i).live = true := by simp [Ctx.live, hs]
  have hle : ∀ p (b : Fin 64), (e.m.ctx i).loadOf p b.val ≤ (e.m.budget p).load b := fun p b => by
    rw [h.1 p b]; exact le_sum e.m i (fun c => c.loadOf p b.val)
  have hle2 : ∀ p, (e.m.ctx i).countOf p ≤ (e.m.budget p).reservations := fun p => by
    rw [h.2.1 p]; exact le_sum e.m i (fun c => c.countOf p)
  have hle3 : (e.m.ctx i).memOf ≤ e.m.adm.memLoad := by
    rw [h.2.2]; exact le_sum e.m i (fun c => c.memOf)
  generalize hc : e.m.ctx i = c0 at *
  cases hp : c0.params.periodic with
  | false =>
    have : e.releaseBudget c0 = e := by simp [Ev.releaseBudget, hp]
    rw [this]
    show State.balanced { e.m.setCtx i c with adm := e.m.adm }
    refine State.balanced_setCtx (s := e.m) (adm := e.m.adm) h (fun p b => ?_) (fun p => ?_) ?_
    · rw [Ctx.loadOf_of_dead hd, hc]; simp [Ctx.loadOf, Ctx.reserves, hp, State.budget]
    · rw [Ctx.countOf_of_dead hd, hc]; simp [Ctx.countOf, Ctx.reserves, hp, State.budget]
    · rw [Ctx.memOf_of_dead hd, hc]; simp [Ctx.memOf, hp]
  | true =>
    have hrel : e.releaseBudget c0 = (e.modBudget c0.params.portId (fun t =>
      t.release c0.params.interval.toNat c0.phase.toNat c0.cost)).modMemLoad (· - c0.memCost) := by simp [Ev.releaseBudget, hp]
    rw [hrel]
    show State.balanced { e.m.setCtx i c with adm := ((e.modBudget c0.params.portId (fun t =>
      t.release c0.params.interval.toNat c0.phase.toNat c0.cost)).modMemLoad (· - c0.memCost)).m.adm }
    refine State.balanced_setCtx (s := e.m) h (fun p b => ?_) (fun p => ?_) ?_
    · rw [Ctx.loadOf_of_dead hd, hc]
      have hle := hle p b
      by_cases hpp : p = c0.params.portId
      · subst hpp
        simp [Ev.modBudget, Ev.modMemLoad, State.setBudget, get_set, Ctx.loadOf, Ctx.reserves, hp, hl] at hle ⊢
        split <;> simp_all [State.budget]
      · have hpp' : ¬ c0.params.portId = p := fun h => hpp h.symm
        simp [Ev.modBudget, Ev.modMemLoad, State.setBudget, get_set, Ctx.loadOf, Ctx.reserves, hpp, hpp', State.budget]
    · rw [Ctx.countOf_of_dead hd, hc]
      have hle := hle2 p
      by_cases hpp : p = c0.params.portId
      · subst hpp
        simp [Ev.modBudget, Ev.modMemLoad, State.setBudget, get_set, Ctx.countOf, Ctx.reserves, hp, hl, Budget.release] at hle ⊢
        omega
      · have hpp' : ¬ c0.params.portId = p := fun h => hpp h.symm
        simp [Ev.modBudget, Ev.modMemLoad, State.setBudget, get_set, Ctx.countOf, Ctx.reserves, hpp, hpp', State.budget]
    · rw [Ctx.memOf_of_dead hd, hc]
      simp [Ev.modBudget, Ev.modMemLoad, Ctx.memOf, hp, hl] at hle3 ⊢
      omega

@[simp] theorem Budget.configured_load (t : Budget) (k pct : Byte) (b : Fin 64) : (t.configured k pct).load b = t.load b := by
  unfold Budget.configured; split <;> rfl
@[simp] theorem Budget.configured_reservations (t : Budget) (k pct : Byte) : (t.configured k pct).reservations = t.reservations := by
  unfold Budget.configured; split <;> rfl

/-- R29, R31, R37: every move keeps the budget laws' sums. -/
theorem Ev.Move.keeps_balanced {a b : Ev} (m : Ev.Move K a b) (h : a.m.balanced) : b.m.balanced := by
  cases m with
  | out h1 _ => rw [h1]; exact h
  | ctx i f hf =>
    refine State.balanced_setCtx (adm := a.m.adm) h (fun p b => ?_) (fun p => ?_) ?_
    · rw [Ctx.loadOf_of_sameBook hf]; rfl
    · rw [Ctx.countOf_of_sameBook hf]; rfl
    · rw [Ctx.memOf_of_sameBook hf]
  | opened i v q φ mc n hh hd hb =>
    have hx : (if q.periodic then a.reserve q φ.toNat else a).modCtx i (fun c => c.opened q φ mc n hh v)
        = (if q.periodic then a.reserve q φ.toNat else a).modCtx i (fun _ => (a.m.ctx i).opened q φ mc n hh v) := by
      cases q.periodic <;> rfl
    rw [hx]
    exact State.balanced_opened h rfl hd hb rfl rfl rfl rfl rfl
  | closed i f hs hd _ =>
    have hx : (a.releaseBudget (a.m.ctx i)).modCtx i f = (a.releaseBudget (a.m.ctx i)).modCtx i (fun _ => f (a.m.ctx i)) := by
      unfold Ev.releaseBudget; split <;> rfl
    rw [hx]
    exact State.balanced_closed h rfl hs hd
  | config p k pct _ =>
    refine ⟨fun r b => ?_, fun r => ?_, h.2.2⟩
    · rw [show (Ev.modBudget a p (fun t => t.configured k pct)).m.bucketSum r b.val = a.m.bucketSum r b.val from rfl, ← h.1 r b]
      by_cases hr : r = p
      · subst hr; simp [Ev.modBudget, State.setBudget, State.budget, get_set]
      · simp [Ev.modBudget, State.setBudget, State.budget, get_set, hr]
    · rw [show (Ev.modBudget a p (fun t => t.configured k pct)).m.reserving r = a.m.reserving r from rfl, ← h.2.1 r]
      by_cases hr : r = p
      · subst hr; simp [Ev.modBudget, State.setBudget, State.budget, get_set]
      · simp [Ev.modBudget, State.setBudget, State.budget, get_set, hr]
  | _ => exact h

/-- The loads of a port without reservations are 0. -/
theorem State.load_of_no_reservations {s : State} (h : s.balanced) {p : PortId} (hr : (s.budget p).reservations = 0) (b : Fin 64) :
    (s.budget p).load b = 0 := by
  rw [h.1 p b]
  have h2 := h.2.1 p
  rw [hr, State.reserving_eq] at h2
  have h3 : ∀ i, (s.ctx i).countOf p = 0 := fun i => by
    have := le_sum s i (fun c => c.countOf p); omega
  unfold State.bucketSum
  have h4 : ∀ i, (s.ctx i).loadOf p b.val = 0 := fun i => by
    have := h3 i
    unfold Ctx.countOf at this
    unfold Ctx.loadOf
    cases hres : (s.ctx i).reserves p with
    | true => rw [hres] at this; simp at this
    | false => simp
  rw [show (fun i => (s.ctx i).loadOf p b.val) = fun _ => 0 from funext h4]
  simp

theorem Ev.releaseBudget_load_le (e : Ev) (c : Ctx) (p : PortId) (b : Fin 64) :
    ((e.releaseBudget c).m.budget p).load b ≤ (e.m.budget p).load b ∧
    ((e.releaseBudget c).m.budget p).figures = (e.m.budget p).figures := by
  unfold Ev.releaseBudget
  split
  · by_cases hp : p = c.params.portId
    · subst hp
      simp only [Ev.modBudget, Ev.modMemLoad, State.setBudget, State.budget, get_set]
      refine ⟨?_, rfl⟩
      simp only [if_true, Budget.release_load]
      split <;> omega
    · simp [Ev.modBudget, Ev.modMemLoad, State.setBudget, State.budget, get_set, hp]
  · exact ⟨Nat.le_refl _, rfl⟩

/-- R31: every move of a balanced machine keeps the loads within the caps. -/
theorem Ev.Move.keeps_caps {a b : Ev} (m : Ev.Move K a b) (hbal : a.m.balanced) (h : a.m.withinCaps) : b.m.withinCaps := by
  cases m with
  | out h1 _ => rw [h1]; exact h
  | opened i v q φ mc n hh hd hb =>
    intro p b
    show ((if q.periodic then a.reserve q φ.toNat else a).m.budget p).load b ≤
      ((if q.periodic then a.reserve q φ.toNat else a).m.budget p).figures.cap
    split
    · rename_i hp
      have hf := (Budget.fits_iff _ _ _ _).1 (State.budgetStep_fits hb hp).1
      by_cases hpp : p = q.portId
      · subst hpp
        simp only [Ev.reserve, Ev.modBudget, Ev.modMemLoad, State.setBudget, State.budget, get_set, if_true, Budget.reserve_load]
        split
        · rename_i hm; exact hf b hm
        · exact h q.portId b
      · have : ((a.reserve q φ.toNat).m.budget p) = a.m.budget p := by
          simp [Ev.reserve, Ev.modBudget, Ev.modMemLoad, State.setBudget, State.budget, get_set, hpp]
        rw [this]; exact h p b
    · exact h p b
  | closed i f _ _ _ =>
    intro p b
    have := Ev.releaseBudget_load_le a (a.m.ctx i) p b
    show ((a.releaseBudget (a.m.ctx i)).m.budget p).load b ≤ ((a.releaseBudget (a.m.ctx i)).m.budget p).figures.cap
    rw [this.2]
    exact Nat.le_trans this.1 (h p b)
  | config p k pct hc =>
    intro r b
    by_cases hr : r = p
    · subst hr
      have : (Ev.modBudget a r (fun t => t.configured k pct)).m.budget r = (a.m.budget r).configured k pct := by
        simp [Ev.modBudget, State.setBudget, State.budget, get_set]
      rw [this, Budget.configured_load]
      unfold Budget.configured
      split
      · exact h r b
      · rename_i hne
        simp only [State.configureRefused, Budget.changes, Bool.and_eq_false_iff, Bool.or_eq_false_iff, decide_eq_false_iff_not] at hc
        rcases hc with hc | hc
        · exact absurd ⟨not_not.1 hc.1, not_not.1 hc.2⟩ hne
        · rw [State.load_of_no_reservations hbal (by omega) b]; exact Nat.zero_le _
    · have : (Ev.modBudget a p (fun t => t.configured k pct)).m.budget r = a.m.budget r := by
        simp [Ev.modBudget, State.setBudget, State.budget, get_set, hr]
      rw [this]; exact h r b
  | _ => exact h

theorem Ev.releaseBudget_mem (e : Ev) (c : Ctx) :
    (e.releaseBudget c).m.adm.memLoad ≤ e.m.adm.memLoad ∧ (e.releaseBudget c).m.adm.memCap = e.m.adm.memCap := by
  unfold Ev.releaseBudget
  split
  · exact ⟨Nat.sub_le _ _, rfl⟩
  · exact ⟨Nat.le_refl _, rfl⟩

/-- R37: every move keeps the memory load total within a cap in force. -/
theorem Ev.Move.keeps_memoryCap {a b : Ev} (m : Ev.Move K a b) (h : a.m.withinMemoryCap) : b.m.withinMemoryCap := by
  cases m with
  | out h1 _ => rw [h1]; exact h
  | opened i v q φ mc n hh hd hb =>
    show (if q.periodic then a.reserve q φ.toNat else a).m.withinMemoryCap
    split
    · rename_i hp
      intro hc
      have hm := (State.budgetStep_fits hb hp).2
      have hmc := State.budgetStep_mem hb hp
      have hc' : a.m.adm.memCap ≠ 0 := hc
      simp only [memoryFits, hc', decide_false, Bool.false_or, decide_eq_true_eq] at hm
      rw [hmc] at hm
      exact hm
    · exact h
  | closed i f _ _ _ =>
    have h1 := Ev.releaseBudget_mem a (a.m.ctx i)
    intro hc
    have hc' : (a.releaseBudget (a.m.ctx i)).m.adm.memCap ≠ 0 := hc
    rw [h1.2] at hc'
    show (a.releaseBudget (a.m.ctx i)).m.adm.memLoad ≤ (a.releaseBudget (a.m.ctx i)).m.adm.memCap.toNat
    rw [h1.2]
    exact Nat.le_trans h1.1 (h hc')
  | header cap per g ho _ _ _ =>
    intro hc
    have hc' : cap ≠ 0 := hc
    simp only [Admission.overBudget, Bool.and_eq_false_iff, decide_eq_false_iff_not] at ho
    rcases ho with ho | ho
    · exact absurd hc' ho
    · exact Nat.le_of_not_lt ho
  | _ => exact h

/-! ### The Interrupt Unit -/

/-- R155, R156: an event leaves the interrupt signals settled. -/
theorem IntrUnit.settle_settled (u : IntrUnit) : u.settle.settled := by
  unfold IntrUnit.settle
  split
  · rename_i hm
    split
    · simp [IntrUnit.settled, hm]
    · rename_i hs
      simp only [IntrUnit.settled, hm, if_true, Bool.and_eq_true, true_and]
      intro hp
      refine ⟨hp.2, ?_⟩
      simp only [IntrUnit.sends, hm, hp.1, hp.2, Bool.and_self, Bool.true_and] at hs
      cases ht : u.timer with
      | none => rw [ht] at hs; simp at hs
      | some x => rfl
  · rename_i hm
    simp [IntrUnit.settled, hm, IntrUnit.condition]

/-! ### The writes of a STOPPED engine -/

/-- R164: the end of an event leaves a STOPPED engine no write to issue, whatever was on the path before. -/
theorem Ev.writesIssued_finish (e : Ev) : e.finish.writesIssued := fun h => e.finish_path_of_stopped (by rwa [Ev.finish_engine] at h)

/-- R164: signalling puts a message on the path at most. -/
theorem State.writesIssued_signal {s : State} (h : s.writesIssued) (u : IntrUnit) : (s.signal u).writesIssued := by
  intro hs x hx
  rw [State.signal_path] at hx
  rcases List.mem_append.1 hx with hx | hx
  · exact h hs x hx
  · split at hx
    · exact List.mem_singleton.1 hx
    · cases hx

/-! ### From the moves of an event to a step -/

/-- A property that every move keeps, and the end of an event keeps, holds after an event. -/
theorem Reaches.keeps {Inv : State → Prop} (hfin : ∀ e : Ev, Inv e.m → Inv e.finish)
    (hm : ∀ a b : Ev, Ev.Move K a b → Inv a.m → Inv b.m) {s t : State} (h : Reaches K s t) (hi : Inv s) : Inv t := by
  rcases h with rfl | ⟨e, hd, rfl⟩
  · exact hi
  · exact hfin _ (hd.keeps hm hi)

/-- What a step keeps: a property that does not look at the queue, and that the resets, the PAGE writes, the signalling and every
event keep. -/
theorem step_keeps (Inv : State → Prop) (hp : ∀ s q, Inv s → Inv { s with pending := q })
    (hclear : ∀ s : State, Inv s.coldReset ∧ Inv s.engineReset)
    (hpage : ∀ (s : State) reg v, Inv s → Inv { s with engine := s.engine.writePage reg v })
    (hsig : ∀ (s : State) u, Inv s → Inv (s.signal u))
    (hev : ∀ c s t, s.atRest → exec c s = .next t → Reaches (Grows (Instr.starts c)) s t → Inv s → Inv t)
    (s t : State) (hr : s.atRest) (h : Inv s) (hs : step s = .next t) : Inv t := by
  unfold step at hs
  split at hs
  · cases hs; exact h
  · rename_i c rest _
    have h' := hp s rest h
    have hr' : ({ s with pending := rest } : State).atRest := hr
    generalize ({ s with pending := rest } : State) = s' at *
    cases hd : Instr.direct c with
    | false =>
      obtain ⟨t', ht, hR⟩ := exec_reaches hr' hd
      have he := ht
      rw [ht] at hs; cases hs
      exact hev c s' _ hr' he hR h'
    | true =>
      cases c <;> cases hd <;> simp only [exec] at hs
      · cases hs; exact (hclear s').1
      · cases hs; exact (hclear s').1
      · cases hs; exact (hclear s').2
      · unfold execPageWrite at hs; cases hs; split
        · exact hpage _ _ _ h'
        · exact h'
      · cases hs; exact hsig _ _ h'
      · cases hs; exact hsig _ _ h'
      · cases hs; exact hsig _ _ h'
      · cases hs; exact h'
      · cases hs; exact hsig _ _ h'
      · unfold execHoldoffTimerExpiry at hs; cases hs; split
        · exact hsig _ _ h'
        · exact h'

theorem State.coldReset_port (s : State) (p : PortId) : s.coldReset.port p = Port.reset := by
  simp [State.coldReset, State.clear, State.port, State.reset]

theorem State.engineReset_port (s : State) (p : PortId) : s.engineReset.port p = Port.reset := by
  simp [State.engineReset, State.clear, State.port, State.reset]

/-- What rests, or the engine is RUNNING or STOPPING with the scan timer running in RUNNING alone: what every move of START keeps. -/
def State.restsOrRuns (s : State) : Prop :=
  s.atRest ∨ ((s.engine.state = .running ∨ s.engine.state = .stopping) ∧ (s.scanner.timer = true → s.engine.state = .running))

theorem State.atRest_of_restsOrRuns {s : State} (h : s.restsOrRuns) : s.atRest := by
  rcases h with h | ⟨h1, h2⟩
  · exact h
  · exact ⟨fun h3 h4 => by rcases h1 with h1 | h1 <;> contradiction, h2⟩

end Sys2Proof.Machine
end

