-- ==== Sys2Proof/Laws/PerInstr.lean ====
section
/-! SUPPORT. Statements about the commands as syntax, one lemma per constructor: no word spells a command (no row of spec/opcode_table.json gives bits, log 21). -/

namespace Sys2Proof.Laws.NoWord

open Sys2Proof

/-- No word spells the command. -/
def Statement (i : Instr) : Prop := ∀ nbits w, decodeTableWord nbits w ≠ some i

theorem none_spelt (i : Instr) : Statement i := fun _ _ h => nomatch h

theorem coldReset : Statement (.coldReset) := none_spelt _
theorem functionReset : Statement (.functionReset) := none_spelt _
theorem engineReset : Statement (.engineReset) := none_spelt _
theorem runWritten1 : Statement (.runWritten1) := none_spelt _
theorem runWritten0 : Statement (.runWritten0) := none_spelt _
theorem scan : Statement (.scan) := none_spelt _
theorem pageWrite (reg : PageReg) (value : Word) : Statement (.pageWrite reg value) := none_spelt _
theorem intrStatusWrite (value : Word) : Statement (.intrStatusWrite value) := none_spelt _
theorem intrEnableWrite (value : Word) : Statement (.intrEnableWrite value) := none_spelt _
theorem intrHoldoffWrite (value : Word) : Statement (.intrHoldoffWrite value) := none_spelt _
theorem registerWriteIgnored (reg : Reg) (width : Width) (value : Word) : Statement (.registerWriteIgnored reg width value) := none_spelt _
theorem pcieConfigWrite (msiEnable intxDisable : Bool) : Statement (.pcieConfigWrite msiEnable intxDisable) := none_spelt _
theorem scanTimerExpiry : Statement (.scanTimerExpiry) := none_spelt _
theorem holdoffTimerExpiry : Statement (.holdoffTimerExpiry) := none_spelt _
theorem cycleTimerExpiry (p : PortId) : Statement (.cycleTimerExpiry p) := none_spelt _
theorem startFrameEnd (p : PortId) (echo : List Byte) : Statement (.startFrameEnd p echo) := none_spelt _
theorem portEnterRunning (p : PortId) : Statement (.portEnterRunning p) := none_spelt _
theorem deadlineTimeout (p : PortId) : Statement (.deadlineTimeout p) := none_spelt _
theorem aperiodicWindowClose (p : PortId) : Statement (.aperiodicWindowClose p) := none_spelt _
theorem requestExchangeEnd (p : PortId) (echo : List Byte) (heard : Heard) : Statement (.requestExchangeEnd p echo heard) := none_spelt _
theorem fetchExchangeEnd (p : PortId) (echo : List Byte) (heard : Heard) : Statement (.fetchExchangeEnd p echo heard) := none_spelt _
theorem probeExchangeEnd (p : PortId) (echo : List Byte) (heard : Heard) : Statement (.probeExchangeEnd p echo heard) := none_spelt _
theorem scanSnapshotComplete (r : ReadResult ReqArray) : Statement (.scanSnapshotComplete r) := none_spelt _
theorem headerReadComplete (r : ReadResult Bytes64) : Statement (.headerReadComplete r) := none_spelt _
theorem freshStartReadComplete (r : ReadResult ReqArray) : Statement (.freshStartReadComplete r) := none_spelt _
theorem openStream (hostHalf : Bytes64) : Statement (.openStream hostHalf) := none_spelt _
theorem closeStream (hostHalf : Bytes64) (pos : Nat) : Statement (.closeStream hostHalf pos) := none_spelt _
theorem fire (hostHalf : Bytes64) (pos : Nat) : Statement (.fire hostHalf pos) := none_spelt _
theorem pause (hostHalf : Bytes64) (pos : Nat) : Statement (.pause hostHalf pos) := none_spelt _
theorem resume (hostHalf : Bytes64) : Statement (.resume hostHalf) := none_spelt _
theorem streamBadAction (hostHalf : Bytes64) : Statement (.streamBadAction hostHalf) := none_spelt _
theorem configure (block : Bytes32) : Statement (.configure block) := none_spelt _
theorem startPort (block : Bytes32) : Statement (.startPort block) := none_spelt _
theorem stopPort (block : Bytes32) : Statement (.stopPort block) := none_spelt _
theorem portBadAction (block : Bytes32) : Statement (.portBadAction block) := none_spelt _
theorem entryFault : Statement (.entryFault) := none_spelt _
theorem consumedReadComplete (r : ReadResult Word) : Statement (.consumedReadComplete r) := none_spelt _
theorem selectorReadComplete (rid : Nat) (r : ReadResult Byte) (pos : Nat) : Statement (.selectorReadComplete rid r pos) := none_spelt _
theorem halfReadComplete (rid : Nat) (r : ReadResult (List Byte)) (pos : Nat) : Statement (.halfReadComplete rid r pos) := none_spelt _
theorem consumedRefreshComplete (s : StreamId) (r : ReadResult Word) : Statement (.consumedRefreshComplete s r) := none_spelt _
theorem smiReadTimeout (rid : Nat) (pos : Nat) : Statement (.smiReadTimeout rid pos) := none_spelt _
theorem lateReadData (rid : Nat) : Statement (.lateReadData rid) := none_spelt _
theorem cancelledOutcomeSettle (s : StreamId) : Statement (.cancelledOutcomeSettle s) := none_spelt _
theorem engineEnterStopped : Statement (.engineEnterStopped) := none_spelt _

end Sys2Proof.Laws.NoWord
end

