-- ==== Sys2Proof/Tests/Slice0.lean ====
section
/-! SUPPORT. Tests: the smoke tests of WellFormed, a few values written out from the spec, single steps, and for every statement with hypotheses a concrete state and operands that meet them (theorems test_meets_…). -/

namespace Sys2Proof.Tests

open Sys2Proof Sys2Proof.Machine

/-! ### Small states -/

/-- A state with the engine in another state, at page 0x1000. -/
def atEngine (st : EngineState) : State :=
  { State.reset with engine := { EngineCtl.reset with state := st, pageLo := 0x1000, pageBase := 0x1000 } }

/-- The state of a RUNNING engine. -/
def running : State := atEngine .running

/-- A state with one read in flight, numbered 0. -/
def reading (s : State) (what : ReadFor) (len : Nat) : State :=
  { s with smi := { s.smi with inFlight := [{ rid := 0, what := what, addr := 0, len := len }], nextRid := 1 } }

/-- The read that `reading` puts in flight. -/
def read0 (what : ReadFor) (len : Nat) : Read := { rid := 0, what := what, addr := 0, len := len }

/-- A state with a take at an index, whose entry fetch is in flight. -/
def taking (s : State) (ix : ReqIx) : State :=
  reading { s with scanner := { s.scanner with take := some { ix := ix, req := 7, stage := .fetching } } } (.entry ix) 64

/-- A one-shot stream's parameters on port 1, node 5. -/
def oneShotParams : Params :=
  { Params.zero with
    kind := 2, port := 1, node := 5, operation := 1, inLen := 4, cls := 1, phase := 0xFF, delivery := 1, overflow := 1,
    windowBase := 0x40000, slotCount := 4 }

/-- A periodic stream's parameters on port 1, node 5, interval 2^1, phase ANY, with output data. -/
def periodicParams : Params :=
  { Params.zero with
    kind := 1, port := 1, node := 5, operation := 2, outLen := 100, interval := 1, phase := 0xFF, cls := 2, delivery := 1,
    overflow := 2, windowBase := 0x40000, slotCount := 4, sourceBase := 0x50000 }

/-- The context of an OPEN stream with some parameters. -/
def openCtx (q : Params) : Ctx := { Ctx.reset with state := .isOpen, params := q, phase := 1, cost := q.cost }

/-- A RUNNING engine with stream 0 in a context, and port 1 RUNNING with its cycle timer on. -/
def serving (c : Ctx) (q : Port) : State := (running.setCtx 0 c).setPort 1 q

/-- A RUNNING port in cycle 8. -/
def port8 : Port := { Port.reset with state := .running, configured := true, cycle := 8, cycleTimer := true, silenceLimit := 3 }

/-- The port table entry of tag 0, held by stream 0 in cycle 8. -/
def tag0 (st : TagState) : Tag := { Tag.reset with state := st, node := 5, issue := 8, ready := 8, deadline := 8 }

/-- A host half with an ACTION and no other field. -/
def half (action : Byte) : Bytes64 := action.setWidth 512

/-- The next state of an answer. -/
def after (o : Answer) : State :=
  match o with
  | .next t => t
  | _ => State.reset

/-- A port configuration block: ACTION, CYCLE_INDEX, CAP_PCT, SILENCE_LIMIT, DEFER_TIMEOUT, no node. -/
def block (action k pct silence defer : Byte) : Bytes32 := (defer ++ silence ++ pct ++ k ++ action : BitVec 40).setWidth 256

/-! ### WellFormed: each check refuses an ill-formed command -/

theorem test_wf_register_write : (Instr.registerWriteIgnored .control .word 0).wf = false := by decide
theorem test_wf_exchanges :
    (Instr.requestExchangeEnd 0 [] (.reply [])).wf = false ∧ (Instr.fetchExchangeEnd 0 [] (.reply [])).wf = false ∧
    (Instr.probeExchangeEnd 0 [] (.reply [])).wf = false := by decide
theorem test_wf_stream_actions :
    (Instr.openStream (half 2)).wf = false ∧ (Instr.closeStream (half 1) 0).wf = false ∧ (Instr.fire (half 4) 0).wf = false ∧
    (Instr.pause (half 5) 0).wf = false ∧ (Instr.resume (half 6)).wf = false := by decide +kernel
theorem test_wf_port_actions :
    (Instr.configure (block 2 0 0 0 0)).wf = false ∧ (Instr.startPort (block 3 0 0 0 0)).wf = false ∧
    (Instr.stopPort (block 1 0 0 0 0)).wf = false ∧ (Instr.portBadAction (block 3 0 0 0 0)).wf = false := by decide +kernel
theorem test_wf_pieces :
    (Instr.halfReadComplete 0 (.data []) 0).wf = false ∧ (Instr.halfReadComplete 0 (.data (zeros 65)) 0).wf = false := by decide
theorem test_wf_accepts :
    (Instr.openStream (half 1)).wf ∧ (Instr.configure (block 1 0 80 3 1)).wf ∧ (Instr.portBadAction (block 4 0 0 0 0)).wf ∧
    (Instr.halfReadComplete 0 (.data (zeros 64)) 0).wf := by decide +kernel

/-! ### Values the spec writes out -/

/-- R161: the value of each CRC over the ASCII bytes "123456789". -/
theorem test_crc_values :
    crc16 [0x31, 0x32, 0x33, 0x34, 0x35, 0x36, 0x37, 0x38, 0x39] = 0x29B1 ∧
    crc32 [0x31, 0x32, 0x33, 0x34, 0x35, 0x36, 0x37, 0x38, 0x39] = 0xCBF43926 := by decide +kernel
/-- R160: the lengths and the layouts of the frames. -/
theorem test_frame_layouts :
    (startFrame 0x04030201 2).length = 12 ∧ (startFrame 0x04030201 2).take 10 = [1, 0, 1, 2, 3, 4, 2, 0, 0, 0] ∧
    (requestFrame { oneShotParams with outLen := 2, item := 0x1234 } 31 2 [9, 8]).take 10 =
      [2, 5, 0x5F, 1, 0x34, 0x12, 2, 4, 9, 8] ∧
    (fetchFrame 5 1 3).take 8 = [3, 5, 0x61, 0, 0, 0, 0, 0] ∧ (probeFrame 62).take 8 = [4, 62, 0, 0, 0, 0, 0, 0] := by
  decide +kernel
/-- R157, R158, R109: the sizes of the structures written. -/
theorem test_structure_sizes :
    (partHalf (openCtx periodicParams)).length = 64 ∧ (statusBlock port8).length = 64 ∧
    (slotBytes (openCtx oneShotParams) ⟨0, .ok, 0, 1, 2, [1, 2, 3, 4]⟩ false).length = 32 := by decide +kernel
/-- R152: STATUS of a RUNNING engine with port 1 RUNNING. -/
theorem test_status : readReg (serving (openCtx oneShotParams) port8) .status = 0x00020002 := by decide +kernel

/-- R150: INTR_STATUS lies at 0x14; a byte, a half and an access across two registers; and a write at the same places. -/
theorem test_window :
    let s : State := { running with intr := { IntrUnit.reset with status := 5 } }
    windowRead s 0x14 .word = some [5, 0, 0, 0] ∧ windowRead s 0x03 .byte = some [0x02] ∧ windowRead s 0x02 .half = some [0x34, 0x02] ∧
    windowRead s 0x03 .half = none ∧ windowRead s 0x20 .byte = none ∧ windowWrite 0x14 .word 4 = [.intrStatusWrite 4] ∧
    windowWrite 0x04 .word 3 = [.runWritten1, .scan] ∧ windowWrite 0x16 .byte 4 = [.registerWriteIgnored .intrStatus .byte 4] ∧
    windowWrite 0x16 .word 4 = [] := by decide +kernel

/-! ### Single steps -/

/-- R30, R4: a CONFIGURE that changes CYCLE_INDEX halts on a bad context among those whose costs it reads, and is answered without reading
where a reservation refuses it (log 11). -/
theorem test_step_configure_parity :
    let t : Bool → Nat → State := fun good n =>
      after (exec (.configure (block 1 0 80 3 1)) (taking ((running.setCtx 2 { openCtx oneShotParams with parityOk := good }).setBudget 1
        { Budget.reset with reservations := n }) 257))
    ((t true 0).port 1).result = .accepted ∧ ((t false 1).port 1).result = .streamsAdmitted ∧ (t false 0).engine.state = .halted ∧
    (t false 0).engine.detail = 2 ∧ ((t false 0).port 1).configured = false := by decide +kernel

/-- R155 and the example of 10.6: an enable write with the condition in force sends an MSI and starts the holdoff timer. -/
theorem test_step_msi :
    let t := after (exec (.intrEnableWrite 1)
      { running with intr := { IntrUnit.reset with status := 1, holdoff := 25, msiEnable := true } })
    t.intr = { IntrUnit.reset with status := 1, enable := 1, holdoff := 25, msiEnable := true, timer := some 25 } ∧
    t.smi = { Smi.reset with path := [.msi] } := by decide +kernel
/-- R141: a start with PAGE 0 fails at check 1. -/
theorem test_step_page_unset :
    let t := after (exec .runWritten1 State.reset)
    t.engine = { EngineCtl.reset with startResult := .pageUnset } ∧ t.intr = { IntrUnit.reset with status := 4 } := by
  decide +kernel
/-- A step takes the front command; a command that names no event of the state changes nothing (log 1). -/
theorem test_step_front : step { running with pending := [.cycleTimerExpiry 0, .scan] } = .next { running with pending := [.scan] } :=
  rfl

/-! ### The hypotheses of the statements can be met -/

theorem test_meets_empty_queue : running.pending = [] := rfl
theorem test_meets_register_writes :
    (Width.byte ≠ .word ∨ Reg.control = .ident ∨ Reg.control = .status) ∧ State.reset.engine.state = .stopped ∧
    running.engine.state ≠ .stopped := by decide
theorem test_meets_control_write :
    (4 : Word).getLsbD 2 = true ∧ (3 : Word).getLsbD 2 = false ∧ (∃ t, exec .engineReset running = .next t) ∧
    (atEngine .stopped).engine.state = .stopped ∧ (∃ t, exec .runWritten1 (atEngine .stopped) = .next t) ∧
    running.engine.state = .running ∧ (∃ t, exec .runWritten1 running = .next t) ∧ (∃ t, exec .runWritten0 running = .next t) :=
  ⟨by decide, by decide, ⟨_, rfl⟩, rfl, ⟨_, rfl⟩, rfl, ⟨_, rfl⟩, ⟨_, rfl⟩⟩
theorem test_meets_holdoff_expiry :
    ({ running with intr := { IntrUnit.reset with timer := some 1 } } : State).intr.timer ≠ none ∧ running.intr.timer = none := by
  decide
theorem test_meets_run_writes :
    ((atEngine .stopped).engine.pageHi ++ (atEngine .stopped).engine.pageLo : Addr) ≠ 0 ∧
    (State.reset.engine.pageHi ++ State.reset.engine.pageLo : Addr) = 0 ∧ (atEngine .starting).engine.state = .starting ∧
    (atEngine .stopping).engine.state = .stopping := by decide
theorem test_meets_header_read :
    (reading (atEngine .starting) .header 64).smi.flyingFor .header = some (read0 .header 64) ∧
    (fieldAt (2 : Bytes64) 0 4 : Word) ≠ 1 ∧ (fieldAt (1 : Bytes64) 0 4 : Word) = 1 ∧
    (fieldAt (1 : Bytes64) 4 4 : Word) = 0 ∧
    (fieldAt (0x300000001 : Bytes64) 4 4 : Word) ≠ 0 ∧ (fieldAt (0x300000001 : Bytes64) 4 4 : Word).toNat < 4 ∧
    3 ≤ (fieldAt (0x300000001 : Bytes64) 4 4 : Word).toNat ∧ (atEngine .starting).engine.freshStart = true ∧
    (atEngine .starting).engine.withdrawn = false := by decide +kernel
theorem test_meets_fresh_start :
    (reading (atEngine .starting) .freshArray 260).smi.flyingFor .freshArray = some (read0 .freshArray 260) ∧
    (reading (atEngine .starting) .freshArray 260).engine.state = .starting := by decide +kernel
theorem test_meets_engine_stopped :
    (atEngine .stopping).engine.state = .stopping ∧ (∀ p, ((atEngine .stopping).port p).state = .disabled) ∧
    (atEngine .stopping).smi.inFlight = [] ∧ ∀ i, ((atEngine .stopping).ctx i).refreshOutstanding = false := by decide +kernel
/-- R164: entering STOPPED issues the write on the path and leaves the message behind it; the read of STATUS completes behind the write. -/
theorem test_stopped_issues_writes :
    let s : State := { atEngine .stopping with smi := { Smi.reset with path := [.msi, .write 8 [1], .msi] } }
    let t := after (exec .engineEnterStopped s)
    t.smi.link = [.msi, .write 8 [1]] ∧ t.smi.path = [.msi] ∧
    windowCompletion t 0 0x08 .word = some ([.msi, .write 8 [1]], [0, 0, 0, 0]) := by decide +kernel
theorem test_meets_halted : (atEngine .halted).engine.state = .halted ∧ Instr.lateReadData 0 ∉ [Instr.coldReset, Instr.engineReset] := by
  decide
theorem test_meets_scan_requests :
    running.scanner.scan = none ∧ ({ Scanner.reset with timer := true, scan := some .reading } : Scanner).timer = true ∧
    (atEngine .starting).engine.state ≠ .running := by decide
/-- The ends of the scan's order and of the request indices, and a stream whose request a scan skips. -/
theorem test_meets_scan_order :
    [0, 3, 4, 259].map (fun k => (scanOrder k).val) = [256, 259, 0, 255] ∧ entryPlace 255 = (0x8F80, 64) ∧ entryPlace 256 = (0x40, 32) ∧
    (running.setCtx 0 { openCtx periodicParams with state := .closing }).takeable 0 = false ∧ running.takeable 0 = true ∧
    running.takeable 259 = true := by decide +kernel
theorem test_meets_snapshot :
    (reading running .scanArray 260).smi.flyingFor .scanArray = some (read0 .scanArray 260) ∧
    (reading (atEngine .stopping) .scanArray 260).engine.state ≠ .halted := by decide +kernel
/-- The tracker with one room left, and full with a read waiting. -/
theorem test_meets_tracker :
    let r : Nat → Read := fun n => { read0 .header 64 with rid := n }
    let near : Smi := { Smi.reset with inFlight := (List.range 15).map r, nextRid := 15 }
    let full : Smi := { Smi.reset with inFlight := (List.range 16).map r, waiting := [r 16], nextRid := 17 }
    (near.inFlight.length ≤ 16 ∧ near.waiting = [] ∧ near.inFlight.length < 16) ∧
    (full.inFlight = (List.range 15).map r ++ [r 15] ++ [] ∧ full.inFlight.length = 16 ∧
      ∀ x ∈ (List.range 15).map r ++ [], x.rid ≠ (r 15).rid) := by decide +kernel
theorem test_meets_timeout :
    ∀ w ∈ [ReadFor.scanArray, .header, .freshArray, .entry 259, .openConsumed 0, .refresh 255, .selector 0 0, .half 0 0 3],
      (reading running w 1).smi.flying 0 = some (read0 w 1) ∧ (reading running w 1).smi.flyingFor w = some (read0 w 1) := by
  decide +kernel
/-- A bad ACTION (0 and 6) and a FIRE of a CLOSED stream, and an OPEN of an OPEN one. -/
theorem test_meets_request_refused :
    (taking running 0).streamTake = some (0, 7, read0 (.entry 0) 64) ∧ ((taking running 0).ctx 0).parityOk = true ∧
    ¬ (1 ≤ (byteAt (half 0) 0).toNat ∧ (byteAt (half 0) 0).toNat ≤ 5) ∧
    ¬ (1 ≤ (byteAt (half 6) 0).toNat ∧ (byteAt (half 6) 0).toNat ≤ 5) ∧
    (Instr.fire (half 3) 0).wf = true ∧ ((taking running 0).ctx 0).state = .closed ∧
    (taking (serving (openCtx oneShotParams) port8) 0).streamTake = some (0, 7, read0 (.entry 0) 64) ∧
    ((taking (serving (openCtx oneShotParams) port8) 0).ctx 0).state = .isOpen ∧ (Instr.openStream (half 1)).wf = true := by
  decide +kernel
theorem test_meets_entry_fault :
    (taking running 255).streamTake = some (255, 7, read0 (.entry 255) 64) ∧
    ((taking running 255).ctx 255).parityOk = true ∧
    (taking running 256).portTake = some (0, 7, read0 (.entry 256) 64) ∧ running.engine.state ≠ .halted := by decide +kernel
/-- An OPEN that the first check refuses, and one that every check passes: a host half built from its fields. -/
theorem test_meets_open :
    let good : Bytes64 :=
      (4 : Byte).setWidth 512 <<< 192 ||| (0x40000 : Bytes64) <<< 128 ||| (0x0100010107010001040001050102_01 : Bytes64)
    (taking running 0).streamTake = some (0, 7, read0 (.entry 0) 64) ∧ byteAt (half 1) 0 = 1 ∧
    (hostParams (half 1)).openRefusal 0 = some .badKind ∧ byteAt good 0 = 1 ∧ (hostParams good).openRefusal 32 = none := by
  decide +kernel
theorem test_meets_admission :
    oneShotParams.kind = 2 ∧ (running.budget 1).figures.oneShotLimit < oneShotParams.cost ∧
    ({ Figures.reset with oneShotLimit := 28 } : Figures).oneShotLimit = oneShotParams.cost ∧ periodicParams.kind = 1 ∧
    (running.budget 1).figures.cap < periodicParams.cost ∧
    ({ Figures.reset with cap := 125 } : Figures).cap = periodicParams.cost ∧ running.adm.memCap = 0 := by decide +kernel
/-- A budget table in which bucket 3 has no room left for a cost of 125 and bucket 0 has just enough, under cap 126. -/
theorem test_meets_buckets :
    let t : Budget := { Budget.reset with loads := Budget.reset.loads.set 3 2, figures := { Figures.reset with cap := 126 } }
    (∃ b : Fin 64, b.val % 2 ^ 1 = 1 ∧ t.figures.cap < t.load b + 125) ∧
    (∀ b : Fin 64, b.val % 2 ^ 1 = 0 → t.load b + 126 ≤ t.figures.cap) ∧
    (∃ b : Fin 64, b.val % 2 ^ 6 = t.choosePhase 6 ∧ t.figures.cap < t.load b + 127) ∧ t.loads = t.loads ∧
    periodicParams.phase = 0xFF := by decide +kernel
/-- An OPENING stream whose consumed read is in flight; its size check is refused, and accepted. -/
theorem test_meets_consumed_read :
    let m := reading { running.setCtx 0 { Ctx.reset with state := .opening } with
      scanner := { Scanner.reset with take := some { ix := 0, req := 7, stage := .opening oneShotParams } } } (.openConsumed 0) 4
    let n := m.setBudget 1 { Budget.reset with figures := { Figures.reset with oneShotLimit := 28 } }
    m.openTake = some (0, 7, oneShotParams, read0 (.openConsumed 0) 4) ∧ (m.ctx 0).parityOk = true ∧
    m.budgetStep oneShotParams = .inl .tooLarge ∧ n.openTake = some (0, 7, oneShotParams, read0 (.openConsumed 0) 4) ∧
    n.budgetStep oneShotParams = .inr (0xFF, 0) := by decide +kernel
/-- A CLOSE with nothing outstanding, and one with the tag out. -/
theorem test_meets_close :
    let s := taking (serving (openCtx oneShotParams) port8) 0
    let u := taking (serving { openCtx oneShotParams with tagRef := some (0, 1) } port8) 0
    (s.streamTake = some (0, 7, read0 (.entry 0) 64) ∧ (s.ctx 0).state = .isOpen ∧ (s.ctx 0).tagRef = none ∧
      (s.ctx 0).sourceOutstanding = false ∧ (s.ctx 0).refreshOutstanding = false) ∧
    (u.streamTake = some (0, 7, read0 (.entry 0) 64) ∧ (u.ctx 0).tagRef ≠ none) ∧ byteAt (half 2) 0 = 2 := by decide +kernel
/-- FIRE: a context for each row of the table, and one that no row refuses. -/
theorem test_meets_fire :
    let rows : Ctx → Port → List Bool := fun c q =>
      [decide (c.params.kind = 1), decide (c.oneShot ≠ .idle), c.holds.portNotRunning || c.holds.nodeLost || c.holds.memoryFault,
       c.paused, decide (64 ≤ q.urgent.length + q.normal.length)]
    let c := openCtx oneShotParams
    let full : Port := { port8 with normal := List.replicate 64 ⟨1, .noneNeeded⟩ }
    (rows (openCtx periodicParams) port8).find? id = some true ∧ (rows { c with oneShot := .queued } port8).findIdx id = 1 ∧
    (rows { c with holds := ⟨false, true, false⟩ } port8).findIdx id = 2 ∧ (rows { c with paused := true } port8).findIdx id = 3 ∧
    (rows c full).findIdx id = 4 ∧ (rows c port8).find? id = none ∧ byteAt (half 3) 0 = 3 := by decide +kernel
theorem test_meets_pause_resume :
    let s : Bool → State := fun paused => taking (serving { openCtx oneShotParams with paused := paused } port8) 0
    (∀ b, (s b).streamTake = some (0, 7, read0 (.entry 0) 64) ∧ ((s b).ctx 0).state = .isOpen ∧ ((s b).ctx 0).paused = b ∧
      ((s b).ctx 0).holds.memoryFault = false ∧ ((s b).ctx 0).parityOk = true) ∧
    byteAt (half 4) 0 = 4 ∧ byteAt (half 5) 0 = 5 := by decide +kernel
/-- A context with a parity error met by a request, a completion of an OPEN, a refresh, a source read, a CANCELLED outcome, an exchange
and a CONFIGURE. -/
theorem test_meets_parity_error :
    let bad : Ctx → Ctx := fun c => { c with parityOk := false }
    let s := running.setCtx 0 (bad Ctx.reset)
    let o := reading { running.setCtx 0 (bad { Ctx.reset with state := .opening }) with
      scanner := { Scanner.reset with take := some { ix := 0, req := 7, stage := .opening oneShotParams } } } (.openConsumed 0) 4
    let w : State := { s with writer := { outcomes := [], cancelled := [⟨0, .cancelled, 0, 8, 8, []⟩] } }
    let x : Line → State := fun l => serving (bad (openCtx oneShotParams)) { port8.setTag 0 (tag0 .waiting) with line := l }
    let g := taking (running.setCtx 0 (bad (openCtx oneShotParams))) 257
    (s.ctx 0).parityOk = false ∧ (taking s 0).streamTake = some (0, 7, read0 (.entry 0) 64) ∧
    (Instr.openStream (half 1)).wf = true ∧ o.openTake = some (0, 7, oneShotParams, read0 (.openConsumed 0) 4) ∧
    (reading s (.refresh 0) 4).smi.flyingFor (.refresh 0) = some (read0 (.refresh 0) 4) ∧
    (reading s (.selector 0 3) 1).smi.flying 0 = some (read0 (.selector 0 3) 1) ∧
    (reading s (.half 0 3 1) 2).smi.flying 0 = some (read0 (.half 0 3 1) 2) ∧
    (w.writer.cancelled.find? (fun o => o.stream = 0)).isSome = true ∧
    ((x (.request 0 true [2])).port 1).line = .request 0 true [2] ∧ ((x (.fetch 0 [3])).port 1).line = .fetch 0 [3] ∧
    (((x .idle).port 1).tag 0).stream = 0 ∧ ((x .idle).ctx 0).parityOk = false ∧
    g.portTake = some (1, 7, read0 (.entry 257) 64) ∧ byteAt (block 1 0 80 3 1) 0 = 1 ∧ (g.port 1).state = .disabled ∧
    blockInRange (block 1 0 80 3 1) = true ∧ byteAt (block 1 0 80 3 1) 2 ≠ (g.budget 1).capPct ∧ (g.budget 1).reservations = 0 ∧
    (g.ctx 0).state = .isOpen ∧ (g.ctx 0).params.kind = 2 ∧ (g.ctx 0).params.portId = 1 := by decide +kernel
/-- The same within an event: a list head, a list entry and a held stream with a parity error. -/
theorem test_meets_parity_parts :
    let q : Port := { port8.setTag 0 (tag0 .deferred) with fetchList := [0], current := [⟨0, .noneNeeded⟩], urgent := [⟨0, .notRead⟩] }
    let e := Ev.start (serving { openCtx oneShotParams with parityOk := false } q)
    e.halted = false ∧ (e.ctx 0).parityOk = false ∧ (e.port 1).current = [⟨0, .noneNeeded⟩] ∧ (e.port 1).fetchList = [0] ∧
    ((e.port 1).tag 0).stream = 0 ∧ ((e.port 1).cycle - ((e.port 1).tag 0).ready).toNat < 2 ^ 31 ∧
    (e.port 1).urgent = [⟨0, .notRead⟩] ∧ e.m.offer 1 (e.port 1).turn = .parity 0 ∧
    e.m.offer 1 .queue = .parity 0 ∧ (Ev.start (serving { openCtx oneShotParams with parityOk := false }
      { q with fetchList := [] })).m.offer 1 .fetchList = .passes ∧
    (e.ctx 0).state = .isOpen ∧ (e.ctx 0).params.portId = 1 := by decide +kernel
theorem test_meets_cycle_figures : (0 ≤ 4 ∧ 50 ≤ 50 ∧ 50 ≤ 90) ∧ (4 ≤ 4 ∧ 50 ≤ 90 ∧ 90 ≤ 90) := by decide
/-- CONFIGURE at the edges of its ranges, a block out of range in each field, and a change under a reservation. -/
theorem test_meets_configure :
    let inRange : Bytes32 → Prop := fun cb => (byteAt cb 1).toNat ≤ 4 ∧ 50 ≤ (byteAt cb 2).toNat ∧ (byteAt cb 2).toNat ≤ 90 ∧
      1 ≤ (byteAt cb 3).toNat ∧ (byteAt cb 3).toNat ≤ 15 ∧ byteAt cb 4 ≠ 0 ∧ cb.getLsbD 64 = false ∧ cb.getLsbD 127 = false
    (taking running 257).portTake = some (1, 7, read0 (.entry 257) 64) ∧ (running.port 1).state = .disabled ∧
    (serving Ctx.reset port8).portTake = none ∧ (port8.state ≠ .disabled) ∧
    inRange (block 1 4 90 15 1) ∧ inRange (block 1 0 50 1 255) ∧ ¬ inRange (block 1 5 90 15 1) ∧ ¬ inRange (block 1 4 91 15 1) ∧
    ¬ inRange (block 1 4 90 16 1) ∧ ¬ inRange (block 1 4 90 15 0) ∧ byteAt (block 0 0 0 0 0) 0 = 0 ∧
    0 < ({ Budget.reset with reservations := 1 } : Budget).reservations ∧ (running.budget 1).reservations = 0 ∧
    (running.budget 1).cycleIndex = byteAt (block 1 0 0 1 1) 1 ∧
    (∀ i, (running.ctx i).state ≠ .isOpen) ∧
    ((serving (openCtx oneShotParams) port8).ctx 0).state = .isOpen ∧
    (∀ i, ((serving (openCtx oneShotParams) port8).ctx i).parityOk = true) := by
  refine ⟨by decide +kernel, by decide +kernel, by decide +kernel, by decide, ?_⟩
  decide +kernel
/-- START and STOP: a port request taken with port 1 in each of its states, while the engine runs and while it stops. -/
theorem test_meets_start_stop :
    (∀ st ∈ [PortState.disabled, .syncing, .running, .stopping, .faulted],
      let s := taking (running.setPort 1 { port8 with state := st }) 257
      s.portTake = some (1, 7, read0 (.entry 257) 64) ∧ (s.port 1).state = st ∧ (s.port 1).configured = true) ∧
    (taking (atEngine .stopping) 257).portTake = some (1, 7, read0 (.entry 257) 64) ∧
    (running.port 1).configured = false ∧ (∀ i, ((taking running 257).ctx i).parityOk = true) ∧
    byteAt (block 2 0 0 0 0) 0 = 2 ∧ byteAt (block 3 0 0 0 0) 0 = 3 := by decide +kernel
/-- START events: a SYNCING port in cycle 7, and a RUNNING port whose tag 0 is DEFERRED to the cycle that ends. -/
theorem test_meets_start_events :
    let sync := running.setPort 1 { port8 with state := .syncing, cycle := 7 }
    let run := serving (openCtx oneShotParams) (port8.setTag 0 (tag0 .deferred))
    ((sync.port 1).cycleTimer = true ∧ (sync.port 1).line = .idle ∧ (sync.port 1).state = .syncing ∧ (sync.port 1).cycle + 1 = 8) ∧
    ((run.port 1).cycleTimer = true ∧ (run.port 1).line = .idle ∧ (run.port 1).state = .running ∧
      ((run.port 1).tag 0).state = .deferred ∧ ((run.port 1).tag 0).deadline = (run.port 1).cycle ∧
      ∀ i, (run.ctx i).parityOk = true) := by decide +kernel
theorem test_meets_entry_to_running : (Ev.start running).halted = false ∧ 1 ≤ (62 : Byte).toNat ∧ (62 : Byte).toNat ≤ 62 := by decide
/-- The entry to RUNNING marks a stream of the LOST node 5, once, before one of a node that is not LOST. -/
theorem test_entry_to_running_marks :
    let held : Byte → Ctx := fun a =>
      let c := openCtx { periodicParams with node := a }
      { c with holds := { c.holds with portNotRunning := true, nodeLost := a = 5 } }
    let s := ((running.setCtx 0 (held 9)).setCtx 1 (held 5)).setPort 1
      { port8.setNode 5 { Node.reset with state := .lost } with state := .syncing }
    ((Ev.start s).enterRunning 1).dirty = [1, 0] ∧ ∀ i, (s.ctx i).parityOk = true := by decide +kernel
/-- Live streams of a RUNNING port, none with a parity error: for an engine stop, a STOP of the port and a change of holds. -/
theorem test_meets_good_live :
    let s := taking ((serving (openCtx oneShotParams) port8).setCtx 9 { openCtx periodicParams with state := .closing }) 257
    s.engine.state = .running ∧ s.portTake = some (1, 7, read0 (.entry 257) 64) ∧ (s.port 1).state = .running ∧
    (s.ctx 0).live = true ∧ (s.ctx 9).live = true ∧ (s.ctx 9).params.portId = 1 ∧ ∀ i, (s.ctx i).parityOk = true := by
  decide +kernel
theorem test_meets_stopping_cycle_end :
    let s := serving (openCtx oneShotParams) { port8 with state := .stopping }
    (s.port 1).cycleTimer = true ∧ (s.port 1).line = .idle ∧ (s.port 1).state = .stopping ∧ s.engine.state ≠ .halted ∧
    ∀ i, (s.ctx i).parityOk = true := by decide +kernel
/-- R62, R89: a good PROBE reply of an UNKNOWN node clears its probe due in RUNNING and leaves it in STOPPING; PRESENT in both. -/
theorem test_probe_due_stays_in_stopping :
    let q := port8.setNode 5 { Node.reset with probeDue := some 8 }
    (q.nodeAfter 5 true .heard).probeDue = none ∧ (q.nodeAfter 5 true .heard).state = .present ∧
    (Port.nodeAfter { q with state := .stopping } 5 true .heard).probeDue = some 8 ∧
    (Port.nodeAfter { q with state := .stopping } 5 true .heard).state = .present := by decide +kernel
/-- START frames: SYNCING and RUNNING with an echo that agrees, a first mismatch and a second. -/
theorem test_meets_start_frame_end :
    let s : PortState → Nat → State := fun st n =>
      running.setPort 1 { port8 with state := st, startMismatches := n, line := .start [1] }
    (∀ st, ((s st 0).port 1).line = .start [1]) ∧ ((s .syncing 0).port 1).state = .syncing ∧
    ¬ (1 ≤ ((s .running 0).port 1).startMismatches) ∧ 1 ≤ ((s .running 1).port 1).startMismatches ∧ ([2] : List Byte) ≠ [1] := by
  refine ⟨fun st => by cases st <;> rfl, ?_⟩
  decide +kernel
/-- The periodic window: no entry left with and without a due probe; an entry for each skip and for the issue. -/
theorem test_meets_periodic_window :
    let q : Port := { port8 with current := [⟨0, .noneNeeded⟩] }
    let due := port8.setNode 5 { Node.reset with probeDue := some 8 }
    let used : Port := { q with tags := Vector.replicate 32 (tag0 .waiting) }
    port8.current = [] ∧ port8.dueProbe = none ∧ due.dueProbe = some 5 ∧ (due.node 5).probeDue = some 8 ∧
    ((8 : Word) - 8).toNat < 2 ^ 31 ∧ ({ openCtx periodicParams with tagRef := some (0, 1) } : Ctx).tagRef ≠ none ∧
    (∀ t, (used.tag t).state ≠ .free) ∧ (q.tag 0).state = .free ∧
    8 ≤ ((q.setNode 5 { Node.reset with tagsHeld := 8 }).node 5).tagsHeld ∧
    ((q.setNode 5 { Node.reset with tagsHeld := 7 }).node 5).tagsHeld < 8 ∧ (openCtx periodicParams).parityOk = true ∧
    ({ port8 with windowOpen := true } : Port).windowOpen = true := by decide +kernel
theorem test_meets_issue :
    let q := port8.setTag 0 (tag0 .waiting)
    (q.tag 1).state = .free ∧ (∀ u, u < (1 : TagId) → (q.tag u).state ≠ .free) ∧
    ({ port8 with fetchList := [0] } : Port).fetchList = [0] := by decide +kernel
/-- Heads of the queue: none, one not read, and a NORMAL one with its data. -/
theorem test_meets_heads :
    let e : Port → Ev := fun q => Ev.start (serving (openCtx oneShotParams) q)
    ((e port8).port 1).urgent = [] ∧ ((e port8).port 1).normal = [] ∧
    ((e { port8 with urgent := [⟨0, .notRead⟩] }).port 1).urgent = [⟨0, .notRead⟩] ∧
    ((e { port8 with normal := [⟨0, .present [1]⟩] }).port 1).normal = [⟨0, .present [1]⟩] ∧ (e port8).halted = false ∧
    ((e port8).ctx 0).parityOk = true := by decide +kernel
/-- Selections: for each of the nine pairs of offers that two lists can make, a state in which they make it. -/
theorem test_meets_selection :
    let fetching : Word → Port → Port := fun ready q => { q.setTag 0 { tag0 .deferred with ready := ready } with fetchList := [0] }
    let s : Nat → Nat → Port → State := fun units cost q =>
      (serving { openCtx oneShotParams with cost := cost } q).setBudget 1
        { Budget.reset with figures := { Figures.reset with units := units } }
    let queued : Port := { port8 with urgent := [⟨0, .noneNeeded⟩] }
    let offers : State → Offer × Offer := fun s => (s.offer 1 .fetchList, s.offer 1 .queue)
    offers (s 100 28 port8) = (.passes, .passes) ∧ offers (s 36 28 queued) = (.passes, .fits) ∧
    offers (s 35 28 queued) = (.passes, .tooLong) ∧ offers (s 36 28 (fetching 8 port8)) = (.fits, .passes) ∧
    offers (s 36 28 (fetching 8 queued)) = (.fits, .fits) ∧ offers (s 36 29 (fetching 8 queued)) = (.fits, .tooLong) ∧
    offers (s 35 28 (fetching 8 port8)) = (.tooLong, .passes) ∧ offers (s 35 27 (fetching 8 queued)) = (.tooLong, .fits) ∧
    offers (s 35 28 (fetching 8 queued)) = (.tooLong, .tooLong) ∧ offers (s 36 28 (fetching 9 port8)) = (.passes, .passes) := by
  decide +kernel
/-- The heads of the lists gain a head on an open window with the line idle. -/
theorem test_meets_reselect :
    let s := serving (openCtx oneShotParams) { port8 with windowOpen := true, urgent := [⟨0, .noneNeeded⟩] }
    (s.port 1).windowOpen = true ∧ (s.port 1).line = .idle ∧ (running.heads 1).gained (s.heads 1) = true ∧
    (s.heads 1).gained (running.heads 1) = false := by decide +kernel
theorem test_meets_plan :
    let s := serving (openCtx periodicParams) port8
    (s.loadedStreams 1 9) = [0] ∧ (∀ i, (s.ctx i).parityOk = true) ∧ (s.ctx 0).params.outLen ≠ 0 ∧
    (s.ctx 0).sourceOutstanding = false := by decide +kernel
/-- A good DEFER after a REQUEST, a good PRESENT after a PROBE, a reply cut short, and a mismatch. -/
theorem test_meets_reply :
    ending .request (zeros 10) (zeros 10) 5 0x20 4 28 (.reply (withCrc [0x82, 5, 0x20, 1, 0, 0, 15])) = .good (.defer 15) ∧
    ending .probe (zeros 10) (zeros 10) 5 0 1 25 (.reply (withCrc [0x86, 5, 0x7F, 1, 9, 9, 0])) = .good .present ∧
    ending .request (zeros 10) (zeros 10) 5 0x20 4 28 (.reply [0x82, 5, 0x20]) = .corrupt ∧
    ending .request (zeros 10) (zeros 11) 5 0x20 4 28 .silence = .mismatch ∧
    ([0x82, 5, 0x20] : List Byte)[3]? = none ∧ ([0x82, 5, 0x20, 1] : List Byte)[3]? = some 1 := by decide +kernel
theorem test_meets_exchange_ends :
    let s : Line → State := fun l => serving (openCtx oneShotParams) { port8.setTag 0 (tag0 .waiting) with line := l }
    (((s (.request 0 false [2])).port 1).line = .request 0 false [2] ∧ ((s (.fetch 0 [3])).port 1).line = .fetch 0 [3] ∧
      ((s (.probe 5 [4])).port 1).line = .probe 5 [4]) ∧
    ((s .idle).ctx (((s .idle).port 1).tag 0).stream).parityOk = true ∧ Heard.silence ≠ .reply [] := by decide +kernel
/-- An attempt that is retried, at the last place in the queue, and one that is not, with the queue full. -/
theorem test_meets_retry :
    let c : Ctx := { openCtx oneShotParams with retriesLeft := 1, oneShot := .inFlight, tagRef := some (0, 0) }
    let q : Nat → Port := fun n => { port8.setTag 0 (tag0 .waiting) with normal := List.replicate n ⟨1, .noneNeeded⟩ }
    (Ev.start (serving c (q 63))).halted = false ∧ c.params.kind = 2 ∧ 0 < c.retriesLeft ∧ c.state = .isOpen ∧ c.paused = false ∧
    c.holds = ⟨false, false, false⟩ ∧ (q 63).urgent.length + (q 63).normal.length < 64 ∧
    ¬ ((q 64).urgent.length + (q 64).normal.length < 64) := by decide +kernel
/-- Reports: each state of a node, and a silence that reaches the limit and one that does not. -/
theorem test_meets_node_reports :
    (∀ st : NodeState, ({ Node.reset with state := st } : Node).state = st) ∧
    ({ Node.reset with silence := 2 } : Node).silence + 1 = 3 ∧ Node.reset.silence + 1 ≠ 3 ∧
    (Node.reset.after .heard false 8 3).state ≠ Node.reset.state ∧
    (({ Node.reset with silence := 2 } : Node).after .silence true 8 3).state = .lost ∧
    (({ Node.reset with state := .lost } : Node).after .heard true 8 3).state ≠ .lost := by
  refine ⟨fun st => rfl, ?_⟩
  decide +kernel
/-- Outcomes: a stream with room and without, behind a refresh, holding MEMORY_FAULT, with a repeated payload, and CLOSING. -/
theorem test_meets_outcome :
    let c := openCtx oneShotParams
    let o : Outcome := ⟨0, .ok, 0, 8, 8, [1, 2, 3, 4]⟩
    let same : Ctx := { c with params := { oneShotParams with delivery := 2 }, signature := some (crc32 o.payload) }
    (c.produced - c.cached).toNat < c.params.slotCount.toNat ∧
    ¬ (({ c with produced := 4 } : Ctx).produced - c.cached).toNat < c.params.slotCount.toNat ∧
    ({ c with refreshOutstanding := true } : Ctx).refreshOutstanding = true ∧
    ({ c with holds := ⟨false, false, true⟩ } : Ctx).holds.memoryFault = true ∧
    (same.params.delivery = 2 ∧ o.code = .ok ∧ same.signature = some (crc32 o.payload)) ∧
    128 ≤ (List.replicate 128 o).length ∧ ({ c with state := .closing } : Ctx).state = .closing ∧ c.parityOk = true := by
  decide +kernel
theorem test_meets_refresh :
    let s : StreamState → State := fun st => reading (running.setCtx 0 { openCtx oneShotParams with state := st }) (.refresh 0) 4
    (∀ st, (s st).smi.flyingFor (.refresh 0) = some (read0 (.refresh 0) 4)) ∧ ((s .closing).ctx 0).state = .closing ∧
    ((s .isOpen).ctx 0).state ≠ .closing ∧ ((s .isOpen).ctx 0).parityOk = true := by
  refine ⟨fun st => by cases st <;> rfl, ?_⟩
  decide +kernel
theorem test_meets_cancelled :
    let o : Outcome := ⟨0, .cancelled, 0, 8, 8, []⟩
    let s : State := { running.setCtx 0 { openCtx oneShotParams with state := .closing, closeOutcome := true } with
      writer := { outcomes := [], cancelled := [o] } }
    s.writer.cancelled.find? (fun o => o.stream = 0) = some o ∧ (s.ctx 0).parityOk = true ∧ s.engine.state ≠ .halted ∧
    (s.ctx 0).closeOutcome = true ∧ ({ s.ctx 0 with closeOutcome := false } : Ctx).tagRef = none := by decide +kernel
/-- Source reads: a selector and a piece with and without an owner, a selector of 1 and of 2, a piece of the length asked. -/
theorem test_meets_source_read :
    let s : Source → ReadFor → State := fun src w =>
      reading (serving { openCtx periodicParams with sourceOutstanding := true } { port8 with nextPlan := [⟨0, src⟩] }) w 36
    (s (.selector 0) (.selector 0 0)).smi.flying 0 = some (read0 (.selector 0 0) 36) ∧
    ((s (.selector 0) (.selector 0 0)).port 1).owner 0 0 = some ⟨0, .selector 0⟩ ∧
    ((s .late (.selector 0 0)).port 1).owner 0 0 = none ∧
    ((s (.half 0 [none, none]) (.half 0 0 1)).port 1).owner 0 0 = some ⟨0, .half 0 [none, none]⟩ ∧
    (zeros 36).length = (read0 (.half 0 0 1) 36).len ∧ (zeros 35).length ≠ (read0 (.half 0 0 1) 36).len ∧
    (1 : Byte).toNat ≤ 1 ∧ 2 ≤ (2 : Byte).toNat := by decide +kernel
/-- A queue item owns its stay where the next plan has no entry that waits for it; its source changes alone; a read of another stream is
none of its own. -/
theorem test_meets_owner :
    let q : Port := { port8 with nextPlan := [⟨0, .late⟩], normal := [⟨0, .selector 3⟩, ⟨1, .notRead⟩] }
    q.planOwner 0 3 = none ∧ q.owner 0 3 = some ⟨0, .selector 3⟩ ∧ q.owner 0 4 = none ∧
    q.setOwner 0 3 .faulted = { q with normal := [⟨0, .faulted⟩, ⟨1, .notRead⟩] } ∧
    (reading running (.half 0 3 1) 4).smi.readsSource 0 = true ∧ (reading running (.half 0 3 1) 4).smi.readsSource 1 = false := by
  decide +kernel
/-- A sum of zeros. -/
theorem sum_zeros {α : Type} (xs : List α) : (xs.map (fun _ => 0)).sum = 0 := by induction xs <;> simp_all

/-- With no stream live the sums of the budget laws are 0. -/
theorem test_running_balanced : running.balanced := by
  have closed : ∀ i, running.ctx i = Ctx.reset := fun i => get_replicate Ctx.reset i
  refine ⟨fun p b => ?_, fun p => ?_, ?_⟩
  · have load : (running.budget p).load b = 0 := by revert p b; decide +kernel
    rw [load]
    simp [State.bucketSum, closed, Ctx.loadOf, Ctx.reserves, Ctx.live, Ctx.reset, sum_zeros]
  · have count : (running.budget p).reservations = 0 := by revert p; decide +kernel
    rw [count]
    simp [State.reserving, closed, Ctx.reserves, Ctx.live, Ctx.reset, sum_zeros]
  · have load : running.adm.memLoad = 0 := rfl
    rw [load]
    simp [State.memorySum, closed, Ctx.live, Ctx.reset, sum_zeros]
/-- The invariants' premises hold in a RUNNING engine with no stream, and a step from it answers next. -/
theorem test_meets_invariants :
    let s : State := { running with pending := [.scan] }
    s.atRest ∧ s.balanced ∧ s.withinCaps ∧ s.withinMemoryCap ∧ s.smi.bounded ∧ s.queuesBounded ∧ s.writer.bounded ∧
    s.pageAligned ∧ s.intr.settled ∧ ∃ t, step s = .next t := by
  refine ⟨⟨fun h => absurd rfl h, fun h => absurd h (by decide)⟩, test_running_balanced, ?_, fun h => absurd rfl h,
    ⟨by decide, .inl rfl⟩, ?_, ?_, ?_, ?_, ⟨_, rfl⟩⟩
  · unfold State.withinCaps; decide +kernel
  · unfold State.queuesBounded; decide +kernel
  · unfold Writer.bounded; decide +kernel
  · unfold State.pageAligned; decide +kernel
  · unfold IntrUnit.settled; decide +kernel

end Sys2Proof.Tests
end

section
/-! PROOFS. R33, the phase chosen for ANY: what the largest load of a phase is, that the choice is the lowest candidate of smallest largest
load, and the obligation about it. -/

namespace Sys2Proof.Machine

open Sys2Proof

/-! ### The largest load of a phase -/

theorem foldl_max_le_iff {α : Type} (f : α → Nat) (xs : List α) (a c : Nat) :
    xs.foldl (fun m x => max m (f x)) a ≤ c ↔ a ≤ c ∧ ∀ x ∈ xs, f x ≤ c := by
  induction xs generalizing a with
  | nil => simp
  | cons x xs ih => rw [List.foldl_cons, ih, max_le_iff, List.forall_mem_cons, and_assoc]

/-- The largest load is the least bound on the loads of the phase's buckets. -/
theorem Budget.largestLoad_le_iff (t : Budget) (n q c : Nat) :
    t.largestLoad n q ≤ c ↔ ∀ b : Fin 64, b.val % 2 ^ n = q → t.load b ≤ c := by
  simp [Budget.largestLoad, foldl_max_le_iff, mem_bucketsOf, bucketMatches]

theorem Budget.load_le_largestLoad (t : Budget) {n q : Nat} {b : Fin 64} (hb : b.val % 2 ^ n = q) :
    t.load b ≤ t.largestLoad n q :=
  (t.largestLoad_le_iff n q _).1 le_rfl b hb

/-- Every candidate of an interval the table has room for loads some bucket: the one of its own number. -/
theorem exists_bucket_of_lt {n q : Nat} (hn : n ≤ 6) (hq : q < 2 ^ n) : ∃ b : Fin 64, b.val % 2 ^ n = q := by
  have h64 : 2 ^ n ≤ 64 := Nat.pow_le_pow_right (by decide) hn
  exact ⟨⟨q, by omega⟩, Nat.mod_eq_of_lt hq⟩

theorem Budget.exists_load_eq_largestLoad (t : Budget) {n q : Nat} (hn : n ≤ 6) (hq : q < 2 ^ n) :
    ∃ b : Fin 64, b.val % 2 ^ n = q ∧ t.load b = t.largestLoad n q := by
  by_contra hnone
  have hlt : ∀ b : Fin 64, b.val % 2 ^ n = q → t.load b < t.largestLoad n q := fun b hb =>
    lt_of_le_of_ne (t.load_le_largestLoad hb) fun heq => hnone ⟨b, hb, heq⟩
  obtain ⟨b, hb⟩ := exists_bucket_of_lt hn hq
  have hpos := hlt b hb
  -- were no load the largest, one less would bound them all
  have hle : t.largestLoad n q ≤ t.largestLoad n q - 1 :=
    (t.largestLoad_le_iff n q _).2 fun b hb => Nat.le_sub_one_of_lt (hlt b hb)
  omega

theorem Budget.largestLoad_congr {t t' : Budget} (h : t.loads = t'.loads) : t.largestLoad = t'.largestLoad := by
  funext n q
  simp only [Budget.largestLoad, Budget.load, h]

/-! ### The lowest candidate with the smallest value -/

/-- Of the candidates below `k`, `r` is the one with the smallest `f`, the lowest among equals. -/
structure LowestMin (f : Nat → Nat) (k r : Nat) : Prop where
  lt : r < k
  le : ∀ q, q < k → f r ≤ f q
  lowest : ∀ q, q < r → f r < f q

/-- One more candidate replaces the choice only where its value is strictly smaller. -/
theorem LowestMin.succ {f : Nat → Nat} {k r : Nat} (h : LowestMin f k r) : LowestMin f (k + 1) (if f k < f r then k else r) := by
  obtain ⟨hlt, hle, hlow⟩ := h
  split
  next hk =>
    have hall : ∀ q, q < k → f k < f q := fun q hq => hk.trans_le (hle q hq)
    exact ⟨k.lt_succ_self, Nat.forall_lt_succ_right.2 ⟨fun q hq => (hall q hq).le, le_rfl⟩, hall⟩
  next hk => exact ⟨hlt.trans k.lt_succ_self, Nat.forall_lt_succ_right.2 ⟨hle, not_lt.1 hk⟩, hlow⟩

theorem lowestMin_foldl_range (f : Nat → Nat) (k : Nat) :
    LowestMin f (k + 1) ((List.range (k + 1)).foldl (fun best q => if f q < f best then q else best) 0) := by
  induction k with
  | zero => exact ⟨by simp, by simp, by simp⟩
  | succ k ih =>
    rw [List.range_succ, List.foldl_append]
    exact ih.succ

/-! ### The phase chosen -/

theorem Budget.choosePhase_lowestMin (t : Budget) (n : Nat) : LowestMin (t.largestLoad n) (2 ^ n) (t.choosePhase n) := by
  obtain ⟨k, hk⟩ := Nat.exists_eq_add_one.2 (Nat.two_pow_pos n)
  unfold Budget.choosePhase
  rw [hk]
  exact lowestMin_foldl_range _ k

theorem Budget.choosePhase_zero (t : Budget) : t.choosePhase 0 = 0 :=
  Nat.lt_one_iff.1 (t.choosePhase_lowestMin 0).lt

theorem Budget.choosePhase_congr {t t' : Budget} (h : t.loads = t'.loads) (n : Nat) : t.choosePhase n = t'.choosePhase n := by
  simp only [Budget.choosePhase, Budget.largestLoad_congr h]

/-- Where a bucket of the phase chosen has no room for a cost, every candidate has such a bucket: its largest load is no smaller. -/
theorem Budget.no_candidate_fits (t : Budget) {n cost q : Nat} {b : Fin 64} (hn : n ≤ 6) (hb : b.val % 2 ^ n = t.choosePhase n)
    (hfull : t.figures.cap < t.load b + cost) (hq : q < 2 ^ n) :
    ∃ b' : Fin 64, b'.val % 2 ^ n = q ∧ t.figures.cap < t.load b' + cost := by
  obtain ⟨b', hb', hmax⟩ := t.exists_load_eq_largestLoad hn hq
  have hle : t.load b ≤ t.load b' :=
    calc t.load b ≤ t.largestLoad n (t.choosePhase n) := t.load_le_largestLoad hb
      _ ≤ t.largestLoad n q := (t.choosePhase_lowestMin n).le q hq
      _ = t.load b' := hmax.symm
  exact ⟨b', hb', by omega⟩

theorem Budget.phaseFor_any (t : Budget) {q : Params} (h : q.phase = 0xFF) : t.phaseFor q = t.choosePhase q.interval.toNat :=
  if_pos h

/-- Settles O27 (R33): the choice is a lowest minimum of the largest loads, each the least bound on the loads of its phase. -/
theorem anyPhaseChoice : Obligations.AnyPhaseChoice := by
  unfold Obligations.AnyPhaseChoice
  refine ⟨fun t n q => ⟨fun b hb => t.load_le_largestLoad hb, fun hn hq => t.exists_load_eq_largestLoad hn hq⟩, fun t n => ?_,
    Budget.choosePhase_zero, fun t n cost hn => ?_, fun t t' n h => Budget.choosePhase_congr h n, fun t q h => t.phaseFor_any h⟩
  · obtain ⟨hlt, hle, hlow⟩ := t.choosePhase_lowestMin n
    exact ⟨hlt, hle, hlow⟩
  · rintro ⟨b, hb, hfull⟩ q hq
    exact t.no_candidate_fits hn hb hfull hq

end Sys2Proof.Machine
end

section
/-! PROOFS. R151, the write of CONTROL: what an event leaves of the state of the engine, what RUN written 1 and 0 leave it in, where a scan
request is ignored, and the obligation about it. -/

namespace Sys2Proof.Machine

open Sys2Proof

/-! ### The state of the engine along an event -/

/-- A move that may not change the state of the engine leaves it as it is, or halts the event and the engine with it. -/
theorem Ev.Move.engine_or_halts {K : Allow} (hK : K.engine = false) {a b : Ev} (m : Ev.Move K a b) :
    b.m.engine.state = a.m.engine.state ∨ (b.halted = true ∧ b.m.engine.state = .halted) := by
  cases m with
  | halt i _ => exact .inr ⟨rfl, rfl⟩
  | arrayFault h => exact absurd h (by simp [hK])
  | engine f g h _ _ _ _ _ _ => exact absurd h (by simp [hK])
  | out h1 _ => exact .inl (by rw [h1])
  | opened i v q φ mc n hh _ _ => exact .inl (by simp [Ev.modCtx, Ev.reserveIf_engine])
  | closed i f _ _ _ => exact .inl (by simp [Ev.modCtx, Ev.releaseBudget_engine])
  | header cap per g _ _ _ hs => exact .inl hs
  | _ => exact .inl rfl

theorem Ev.Does.engine_or_halts {K : Allow} (hK : K.engine = false) {a b : Ev} (d : Ev.Does K a b) :
    b.m.engine.state = a.m.engine.state ∨ (b.halted = true ∧ b.m.engine.state = .halted) := by
  induction d with
  | refl => exact .inl rfl
  | step _ hb m ih =>
    obtain hs | ⟨hh, -⟩ := ih
    · rw [← hs]; exact m.engine_or_halts hK
    · rw [hb] at hh; cases hh

/-! ### RUN written 1 and 0 -/

/-- R141: check 1 leaves a starting engine STARTING, or STOPPED where it fails. -/
theorem Ev.startEngine_state_ne_running (e : Ev) : e.startEngine.m.engine.state ≠ .running := by
  unfold Ev.startEngine
  dsimp only
  split
  next => exact (by decide : EngineState.stopped ≠ .running)
  next => exact (by decide : EngineState.starting ≠ .running)

/-- R144: an engine stop is the entry to STOPPING and then the stops of the ports, which do not change the state of the engine other than
by a halt. -/
theorem Ev.does_stopPorts (e : Ev) :
    Ev.Does (Grows true) ((e.modEngine (fun g => { g with state := .stopping })).modScanner (fun sc =>
      { sc with timer := false, remembered := false })) e.engineStop :=
  Ev.Does.forEach (fun p e h => (e.does_stopPort p h).grows) _ .refl

/-- R4, R144: an engine stop leaves the engine STOPPING, or HALTED where a context read has a parity error. -/
theorem Ev.engineStop_state (e : Ev) :
    e.engineStop.m.engine.state = .stopping ∨ (e.engineStop.halted = true ∧ e.engineStop.m.engine.state = .halted) :=
  e.does_stopPorts.engine_or_halts rfl

theorem Ev.engineStop_state_ne_running (e : Ev) : e.engineStop.m.engine.state ≠ .running := by
  obtain hs | ⟨-, hs⟩ := e.engineStop_state <;> simp [hs]

theorem Ev.engineStop_state_of_parityGood {e : Ev} (h : e.halted = false) (hg : e.m.parityGood) :
    e.engineStop.m.engine.state = .stopping := by
  obtain hs | ⟨hh, -⟩ := e.engineStop_state
  · exact hs
  · have hruns : e.engineStop.halted = false := (e.does_stopPorts.runs rfl h hg).1
    rw [hruns] at hh; cases hh

/-- R140: RUN written 1 to a STOPPED engine starts it. -/
theorem exec_runWritten1_of_stopped {s : State} (h : s.engine.state = .stopped) :
    exec .runWritten1 s = .next (Ev.start s).startEngine.finish := by
  show Host.Outcome.next (s.eventIf _ Ev.startEngine) = _
  rw [State.eventIf, if_pos (decide_eq_true h), State.event_of_not_halted (by simp [h])]

/-- R140: RUN written 1 to an engine that is not STOPPED has no effect. -/
theorem exec_runWritten1_of_not_stopped {s : State} (h : s.engine.state ≠ .stopped) : exec .runWritten1 s = .next s := by
  show Host.Outcome.next (s.eventIf _ Ev.startEngine) = _
  rw [State.eventIf, if_neg (by simpa using h)]

/-- R140, R144: RUN written 0 to a RUNNING engine stops it. -/
theorem exec_runWritten0_of_running {s : State} (h : s.engine.state = .running) :
    exec .runWritten0 s = .next (Ev.start s).engineStop.finish := by
  show Host.Outcome.next (s.eventIf _ Ev.runOff) = _
  rw [State.eventIf, if_pos (by simp [h]), State.event_of_not_halted (by simp [h])]
  simp [Ev.runOff, h]

/-! ### SCAN, ENGINE_RESET and the write and read of CONTROL -/

/-- R131: a scan request that does not find the engine RUNNING is ignored. -/
theorem exec_scan_of_not_running {s : State} (h : s.engine.state ≠ .running) : exec .scan s = .next s := by
  show Host.Outcome.next (s.eventIf _ Ev.scanRequest) = _
  rw [State.eventIf, if_neg (by simpa using h)]

/-- R148: an engine reset leaves the engine STOPPED. -/
theorem State.engineReset_engine_state (s : State) : s.engineReset.engine.state = .stopped := rfl

/-- R140, R151: what a read of CONTROL returns. -/
theorem readReg_control (s : State) :
    readReg s .control = if s.engine.state = .starting ∨ s.engine.state = .running then 1 else 0 := by
  simp [readReg, EngineCtl.run]

theorem controlWrite_of_reset {v : Word} (h : v.getLsbD 2 = true) : controlWrite v = [.engineReset] := if_pos h

theorem controlWrite_of_no_reset {v : Word} (h : v.getLsbD 2 = false) :
    controlWrite v = [if v.getLsbD 0 then Instr.runWritten1 else Instr.runWritten0] ++ (if v.getLsbD 1 then [Instr.scan] else []) :=
  if_neg (ne_true_of_eq_false h)

/-- Settles O5 (R151): a scan request is ignored after each RUN value that leaves the engine not RUNNING. -/
theorem controlWriteDelivers : Obligations.ControlWriteDelivers := by
  unfold Obligations.ControlWriteDelivers
  refine ⟨fun v hv => controlWrite_of_reset hv, fun s t ht => ?reset, fun v hv => controlWrite_of_no_reset hv, fun s t hs ht => ?started,
    fun s t hs ht => ?kept, fun s t hs ht => ?stopped, readReg_control⟩
  case reset =>
    obtain rfl : s.engineReset = t := Host.Outcome.next.inj ht
    simp [readReg_control, State.engineReset_engine_state]
  case started =>
    obtain rfl := Host.Outcome.next.inj ((exec_runWritten1_of_stopped hs).symm.trans ht)
    exact exec_scan_of_not_running (by rw [Ev.finish_engine]; exact Ev.startEngine_state_ne_running _)
  case kept =>
    exact (Host.Outcome.next.inj ((exec_runWritten1_of_not_stopped (by simp [hs])).symm.trans ht)).symm
  case stopped =>
    obtain rfl := Host.Outcome.next.inj ((exec_runWritten0_of_running hs).symm.trans ht)
    refine ⟨exec_scan_of_not_running ?_, fun hg => ?_⟩
    · rw [Ev.finish_engine]; exact Ev.engineStop_state_ne_running _
    · rw [Ev.finish_engine]; exact Ev.engineStop_state_of_parityGood rfl hg

end Sys2Proof.Machine
end

section
/-! PROOFS. What every step keeps: the bounds, the budget laws, what rests outside a run and the interrupt signals, and that a reset state
has them; each from its one lemma per move (Laws/Invariants). -/

namespace Sys2Proof.Machine

open Sys2Proof

/-- What a command other than START can do keeps DISABLED ports DISABLED. -/
theorem Grows.keeps_disabled (r : PortId) (q q' : Port) (h : (Grows false).port r q q') : q.state = .disabled → q'.state = .disabled := h.1 rfl

theorem Grows.keeps_queueLength {b : Bool} (r : PortId) (q q' : Port) (h : (Grows b).port r q q') :
    q.queueLength ≤ Config.queueSize → q'.queueLength ≤ Config.queueSize := h.2

/-! ### The bounds -/

/-- The three bounds of O58, together. -/
def State.bounded (s : State) : Prop := s.smi.bounded ∧ s.queuesBounded ∧ s.writer.bounded

theorem Ev.Move.keeps_bounded {b : Bool} {x y : Ev} (m : Ev.Move (Grows b) x y) (h : x.m.bounded) : y.m.bounded := by
  obtain ⟨hm, hq, hw⟩ := h
  exact ⟨m.keeps_smi hm, m.keeps_queues Grows.keeps_queueLength hq, m.keeps_writer hw⟩

theorem State.bounded_congr {s t : State} (hi : t.smi.inFlight = s.smi.inFlight) (hw : t.smi.waiting = s.smi.waiting)
    (hp : t.ports = s.ports) (ho : t.writer = s.writer) (h : s.bounded) : t.bounded := by
  simpa only [State.bounded, Smi.bounded, State.queuesBounded, State.port, hi, hw, hp, ho] using h

theorem State.bounded_reset : State.reset.bounded :=
  ⟨⟨Nat.zero_le _, .inl rfl⟩, fun p => by simp [State.port, State.reset, Port.reset, Port.queueLength], Nat.zero_le _⟩

/-- Settles O58. -/
theorem boundsKept : Obligations.BoundsKept := by
  unfold Obligations.BoundsKept
  intro s t hr h hs
  refine step_keeps State.bounded (fun _ _ h => h) (fun s => ?_) (fun _ _ _ h => h) (fun _ _ h => ?_)
    (fun c s t _ _ hR h => ?_) s t hr h hs
  · exact ⟨State.bounded_congr rfl rfl rfl rfl State.bounded_reset, State.bounded_congr rfl rfl rfl rfl State.bounded_reset⟩
  · exact State.bounded_congr (by simp) (by simp) (by simp) (by simp) h
  · exact hR.keeps (fun _ h => State.bounded_congr (by simp) (by simp) (by simp) (by simp) h) (fun _ _ m => m.keeps_bounded) h

/-! ### The budget laws -/

/-- The budget laws of O57, together. -/
def State.budgetLaws (s : State) : Prop := s.balanced ∧ s.withinCaps ∧ s.withinMemoryCap

theorem Ev.Move.keeps_budgetLaws {K : Allow} {a b : Ev} (m : Ev.Move K a b) (h : a.m.budgetLaws) : b.m.budgetLaws := by
  obtain ⟨hb, hc, hm⟩ := h
  exact ⟨m.keeps_balanced hb, m.keeps_caps hb hc, m.keeps_memoryCap hm⟩

/-- The budget laws see the Admission Unit and the contexts alone. -/
theorem State.budgetLaws_congr {s t : State} (ha : t.adm = s.adm) (hc : t.ctxs = s.ctxs) (h : s.budgetLaws) : t.budgetLaws := by
  cases s; cases t; cases ha; cases hc
  exact h

theorem State.ctx_reset (i : StreamId) : State.reset.ctx i = Ctx.reset := get_replicate _ i

theorem State.budget_reset (p : PortId) : State.reset.budget p = Budget.reset := get_replicate _ p

theorem Budget.reset_load (b : Fin 64) : Budget.reset.load b = 0 := get_replicate _ b

/-- A stream after a reset is CLOSED, so it reserves nothing. -/
theorem Ctx.reset_live : Ctx.reset.live = false := rfl

theorem State.balanced_reset : State.reset.balanced := by
  refine ⟨fun p b => ?_, fun p => ?_, ?_⟩
  · simp [State.budget_reset, Budget.reset_load, State.bucketSum, State.ctx_reset, Ctx.loadOf_of_dead Ctx.reset_live]
  · simp [State.budget_reset, State.reserving_eq, State.ctx_reset, Ctx.countOf_of_dead Ctx.reset_live, Budget.reset]
  · show 0 = State.reset.memorySum
    simp [State.memorySum_eq, State.ctx_reset, Ctx.memOf_of_dead Ctx.reset_live]

theorem State.budgetLaws_reset : State.reset.budgetLaws :=
  ⟨State.balanced_reset, fun p b => by simp [State.budget_reset, Budget.reset_load], fun h => absurd rfl h⟩

/-- Settles O57. -/
theorem budgetLawsKept : Obligations.BudgetLawsKept := by
  unfold Obligations.BudgetLawsKept
  intro s t hr h hs
  refine step_keeps State.budgetLaws (fun _ _ h => h) (fun s => ?_) (fun _ _ _ h => h) (fun _ _ h => ?_)
    (fun c s t _ _ hR h => ?_) s t hr h hs
  · exact ⟨State.budgetLaws_congr rfl rfl State.budgetLaws_reset, State.budgetLaws_congr rfl rfl State.budgetLaws_reset⟩
  · exact State.budgetLaws_congr (by simp) (by simp) h
  · exact hR.keeps (fun _ h => State.budgetLaws_congr (by simp) (by simp) h) (fun _ _ m => m.keeps_budgetLaws) h

/-! ### What rests -/

/-- The engine is RUNNING or STOPPING: what rests says nothing of the ports. -/
def State.isOn (s : State) : Prop := s.engine.state = .running ∨ s.engine.state = .stopping

theorem State.atRest_congr {s t : State} (he : t.engine.state = s.engine.state) (hc : t.scanner = s.scanner) (hp : t.ports = s.ports)
    (h : s.atRest) : t.atRest := by
  simpa only [State.atRest, State.port, he, hc, hp] using h

theorem State.atRest_reset : State.reset.atRest :=
  ⟨fun _ _ => ⟨fun p => by simp [State.port, State.reset, Port.reset], rfl⟩, fun h => by cases h⟩

/-- A move changes a port alone, or changes none. -/
theorem Ev.Move.port_or_none {K : Allow} {a b : Ev} (m : Ev.Move K a b) :
    (∃ p f, b = a.modPort p f) ∨ Ev.Move { K with port := fun _ _ _ => False } a b := by
  cases m with
  | port p f _ => exact .inl ⟨p, f, rfl⟩
  | out h1 h2 => exact .inr (.out h1 h2)
  | ctx i f h1 => exact .inr (.ctx i f h1)
  | opened i v q φ mc n hh h1 h2 => exact .inr (.opened i v q φ mc n hh h1 h2)
  | closed i f h1 h2 h3 => exact .inr (.closed i f h1 h2 h3)
  | config p k pct h1 => exact .inr (.config p k pct h1)
  | ask w a n => exact .inr (.ask w a n)
  | complete rid => exact .inr (.complete rid)
  | writer f h1 => exact .inr (.writer f h1)
  | scanner f h1 h2 => exact .inr (.scanner f h1 h2)
  | engine f g h0 h1 h2 h3 h4 h5 h6 => exact .inr (.engine f g h0 h1 h2 h3 h4 h5 h6)
  | header cap per g h1 h2 h3 h4 => exact .inr (.header cap per g h1 h2 h3 h4)
  | halt i h1 => exact .inr (.halt i h1)
  | arrayFault h1 => exact .inr (.arrayFault h1)

/-- R108: of an engine that is RUNNING or STOPPING every move keeps what rests, also one that takes a port out of DISABLED. -/
theorem Ev.Move.keeps_atRest_of_isOn {K : Allow} {a b : Ev} (m : Ev.Move K a b) (hon : a.m.isOn) (h : a.m.atRest) : b.m.atRest := by
  rcases m.port_or_none with ⟨p, f, rfl⟩ | m'
  · exact ⟨fun h1 h2 => (hon.elim h1 h2).elim, h.2⟩
  · exact m'.keeps_atRest (fun _ _ _ hf => False.elim hf) h

/-- R108: a run of moves that starts RUNNING or STOPPING and does not change the state of the engine other than by a halt. -/
theorem Ev.Does.keeps_atRest_of_isOn {K : Allow} (hK : K.engine = false) {a b : Ev} (d : Ev.Does K a b) (hon : a.m.isOn) (h : a.m.atRest) :
    b.m.atRest ∧ (b.halted = false → b.m.isOn) := by
  induction d with
  | refl => exact ⟨h, fun _ => hon⟩
  | step _ hb m ih =>
    obtain ⟨hrest, hison⟩ := ih
    refine ⟨m.keeps_atRest_of_isOn (hison hb) hrest, fun hc => ?_⟩
    obtain hs | ⟨hh, -⟩ := m.engine_or_halts hK
    · simpa only [State.isOn, hs] using hison hb
    · rw [hc] at hh; cases hh

theorem Reaches.keeps_atRest_of_isOn {K : Allow} (hK : K.engine = false) {s t : State} (hR : Reaches K s t) (hon : s.isOn) (h : s.atRest) :
    t.atRest := by
  obtain rfl | ⟨e, hd, rfl⟩ := hR
  · exact h
  · exact State.atRest_congr (by simp) (by simp) (by simp) (hd.keeps_atRest_of_isOn hK hon h).1

/-- R108: START finds a request in progress, so a RUNNING or STOPPING engine, or changes nothing; no other command takes a port out of
DISABLED. -/
theorem exec_keeps_atRest {c : Instr} {s t : State} (he : exec c s = .next t) (hR : Reaches (Grows (Instr.starts c)) s t)
    (h : s.atRest) : t.atRest := by
  cases hst : Instr.starts c with
  | false =>
    rw [hst] at hR
    exact hR.keeps (fun _ h => State.atRest_congr (by simp) (by simp) (by simp) h) (fun _ _ m => m.keeps_atRest Grows.keeps_disabled) h
  | true =>
    rw [hst] at hR
    by_cases ht : s.scanner.take = none
    · cases c <;> cases hst
      rw [exec_startPort_idle ht] at he; cases he; exact h
    · exact hR.keeps_atRest_of_isOn rfl (State.on_of_take h ht) h

theorem step_keeps_atRest {s t : State} (h : s.atRest) (hs : step s = .next t) : t.atRest := by
  refine step_keeps State.atRest (fun _ _ h => h) (fun s => ?_) (fun s reg v h => ?_) (fun s u h => ?_)
    (fun c s t h he hR _ => exec_keeps_atRest he hR h) s t h h hs
  · exact ⟨State.atRest_congr rfl rfl rfl State.atRest_reset, State.atRest_congr rfl rfl rfl State.atRest_reset⟩
  · exact State.atRest_congr (s := s) (by cases reg <;> rfl) rfl rfl h
  · exact State.atRest_congr (by simp) (by simp) (by simp) h

/-! ### The PAGE registers, the signals and the writes of a STOPPED engine -/

theorem pageLoBits_aligned (v : Word) : pageLoBits v &&& 0xFFF = 0 := by
  rw [pageLoBits, BitVec.and_assoc, show (0xFFFFF000 : Word) &&& 0xFFF = 0 by decide]
  exact BitVec.and_zero

/-- R153: a write of a PAGE register leaves PAGE_LO bits 11:0 as 0. -/
theorem EngineCtl.writePage_aligned {g : EngineCtl} (h : g.pageLo &&& 0xFFF = 0) (reg : PageReg) (v : Word) :
    (g.writePage reg v).pageLo &&& 0xFFF = 0 := by
  cases reg with
  | lo => exact pageLoBits_aligned v
  | hi => exact h

theorem Reaches.pageLo {K : Allow} {s t : State} (hR : Reaches K s t) : t.engine.pageLo = s.engine.pageLo := by
  obtain rfl | ⟨e, hd, rfl⟩ := hR
  · rfl
  · rw [Ev.finish_engine]
    exact hd.keeps (Inv := fun m => m.engine.pageLo = s.engine.pageLo) (fun _ _ m h => m.keeps_page.1.trans h) rfl

theorem exec_keeps_pageAligned {c : Instr} {s t : State} (hr : s.atRest) (he : exec c s = .next t) (h : s.pageAligned) :
    t.pageAligned := by
  cases hd : Instr.direct c with
  | false =>
    obtain ⟨t', ht, hR⟩ := exec_reaches hr hd
    obtain rfl := Host.Outcome.next.inj (ht.symm.trans he)
    rw [State.pageAligned, hR.pageLo]; exact h
  | true =>
    cases c with
    | coldReset | functionReset => cases he; exact (rfl : (0 : Word) &&& 0xFFF = 0)
    | engineReset | intrStatusWrite v | intrEnableWrite v | intrHoldoffWrite v | registerWriteIgnored reg w v | pcieConfigWrite a b =>
      cases he; exact h
    | pageWrite reg v =>
      cases he
      split
      · exact EngineCtl.writePage_aligned h reg v
      · exact h
    | holdoffTimerExpiry =>
      cases he
      split <;> exact h
    | _ => cases hd

theorem step_keeps_pageAligned {s t : State} (hr : s.atRest) (hs : step s = .next t) (h : s.pageAligned) : t.pageAligned := by
  unfold step at hs
  split at hs
  next => cases hs; exact h
  next c rest _ => exact exec_keeps_pageAligned (s := { s with pending := rest }) hr hs h

theorem IntrUnit.reset_settled : IntrUnit.reset.settled := (rfl : false = (false && !false))

/-- R148: an engine reset clears the condition, so no message waits and the line is deasserted. -/
theorem IntrUnit.engineReset_settled (u : IntrUnit) : u.engineReset.settled := by
  simp [IntrUnit.settled, IntrUnit.engineReset, IntrUnit.condition]

theorem step_keeps_settled {s t : State} (hr : s.atRest) (hs : step s = .next t) (h : s.intr.settled) : t.intr.settled :=
  step_keeps (fun s => s.intr.settled) (fun _ _ h => h) (fun s => ⟨IntrUnit.reset_settled, s.intr.engineReset_settled⟩)
    (fun _ _ _ h => h) (fun _ u _ => u.settle_settled)
    (fun _ _ _ _ _ hR h => by
      obtain rfl | ⟨e, -, rfl⟩ := hR
      · exact h
      · rw [Ev.finish_intr]; exact IntrUnit.settle_settled _) s t hr h hs

theorem State.writesIssued_of_path_nil {s : State} (h : s.smi.path = []) : s.writesIssued := fun _ x hx => by
  rw [h] at hx; cases hx

theorem step_keeps_writesIssued {s t : State} (hr : s.atRest) (hs : step s = .next t) (h : s.writesIssued) : t.writesIssued :=
  step_keeps State.writesIssued (fun _ _ h => h) (fun s => ⟨State.writesIssued_of_path_nil rfl, State.writesIssued_of_path_nil rfl⟩)
    (fun s reg v h => by cases reg <;> exact h) (fun _ u h => State.writesIssued_signal h u)
    (fun _ _ _ _ _ hR h => by
      obtain rfl | ⟨e, -, rfl⟩ := hR
      · exact h
      · exact e.writesIssued_finish) s t hr h hs

/-- Settles O59. -/
theorem restAndSignalsKept : Obligations.RestAndSignalsKept := by
  unfold Obligations.RestAndSignalsKept
  exact fun s t hr hs =>
    ⟨step_keeps_atRest hr hs, step_keeps_pageAligned hr hs, step_keeps_settled hr hs, step_keeps_writesIssued hr hs⟩

/-- Settles O60. -/
theorem invariantsAtReset : Obligations.InvariantsAtReset := by
  unfold Obligations.InvariantsAtReset
  obtain ⟨hb, hc, hm⟩ := State.budgetLaws_reset
  obtain ⟨hsmi, hq, hw⟩ := State.bounded_reset
  exact ⟨State.atRest_reset, hb, hc, hm, hsmi, hq, hw, rfl, IntrUnit.reset_settled, State.writesIssued_of_path_nil rfl,
    fun i => by rw [State.ctx_reset]; rfl⟩

end Sys2Proof.Machine
end

section
/-! PROOFS. The register window, the resets and their values, the entry to STOPPED, and the figures and tables of the spec. -/

namespace Sys2Proof.Machine

open Sys2Proof

/-! ### Steps -/

/-- Settles O1. -/
theorem stepRunsFrontCommand : Obligations.StepRunsFrontCommand := by
  unfold Obligations.StepRunsFrontCommand
  exact ⟨fun _ _ _ => rfl, fun s h => by rw [step, h]⟩

/-- Every meaning answers a next state: the model has no other answer. -/
theorem exec_next (c : Instr) (s : State) : ∃ t, exec c s = .next t := by
  cases c <;> exact ⟨_, rfl⟩

/-- Settles O2. -/
theorem everyCommandAnswersNext : Obligations.EveryCommandAnswersNext := by
  unfold Obligations.EveryCommandAnswersNext
  refine ⟨exec_next, fun s => ?_⟩
  unfold State.safe step
  split
  · exact ⟨s, rfl⟩
  · exact exec_next _ _

/-! ### STATUS (R152) -/

theorem EngineState.code_le (x : EngineState) : x.code ≤ 4 := by cases x <;> decide

theorem FaultCode.code_le (x : FaultCode) : x.code ≤ 2 := by cases x <;> decide

theorem StartResult.code_le (x : StartResult) : x.code ≤ 5 := by cases x <;> decide

theorem PortState.byte_le (x : PortState) : x.byte.toNat ≤ 4 := by cases x <;> decide

/-- The number STATUS holds, by the codes of its fields. -/
def statusCode (e : EngineCtl) (ports : Vector Port 4) : Nat :=
  e.state.code + e.fault.code * 2 ^ 4 + e.startResult.code * 2 ^ 8 +
    (ports.get 0).state.byte.toNat * 2 ^ 12 + (ports.get 1).state.byte.toNat * 2 ^ 16 +
    (ports.get 2).state.byte.toNat * 2 ^ 20 + (ports.get 3).state.byte.toNat * 2 ^ 24

theorem statusReg_eq (e : EngineCtl) (ports : Vector Port 4) : statusReg e ports = BitVec.ofNat 32 (statusCode e ports) := rfl

/-- A field of a 32-bit number, from the field of the natural number. -/
theorem extractLsb'_ofNat {n start len v : Nat} (h : n < 2 ^ 32) (hv : n / 2 ^ start % 2 ^ len = v) :
    (BitVec.ofNat 32 n).extractLsb' start len = BitVec.ofNat len v := by
  apply BitVec.eq_of_toNat_eq
  rw [BitVec.extractLsb'_toNat, BitVec.toNat_ofNat, BitVec.toNat_ofNat, Nat.mod_eq_of_lt h, Nat.shiftRight_eq_div_pow, ← hv, Nat.mod_mod]

/-- The fields of STATUS hold the codes, and the bits outside the fields are 0. -/
theorem statusCode_fields (e : EngineCtl) (ports : Vector Port 4) :
    statusCode e ports < 2 ^ 32 ∧
    statusCode e ports / 2 ^ 0 % 2 ^ 3 = e.state.code ∧ statusCode e ports / 2 ^ 4 % 2 ^ 2 = e.fault.code ∧
    statusCode e ports / 2 ^ 8 % 2 ^ 3 = e.startResult.code ∧
    (∀ p : PortId, statusCode e ports / 2 ^ (12 + 4 * p.val) % 2 ^ 3 = (ports.get p).state.byte.toNat) ∧
    (∀ i ∈ [3, 6, 7, 11, 15, 19, 23, 27, 28, 29, 30, 31], statusCode e ports / 2 ^ i % 2 = 0) := by
  have he := e.state.code_le
  have hf := e.fault.code_le
  have hs := e.startResult.code_le
  have h0 := (ports.get 0).state.byte_le
  have h1 := (ports.get 1).state.byte_le
  have h2 := (ports.get 2).state.byte_le
  have h3 := (ports.get 3).state.byte_le
  unfold statusCode
  refine ⟨by omega, by omega, by omega, by omega, fun p => ?_, fun i hi => ?_⟩
  · have field {i : Nat} (a b : Nat) (h : b / 2 ^ (12 + 4 * i) % 2 ^ 3 = a) (p : PortId) (hp : p.val = i) :
        b / 2 ^ (12 + 4 * p.val) % 2 ^ 3 = a := by rw [hp, h]
    match p with
    | 0 => exact field (i := 0) _ _ (by omega) _ rfl
    | 1 => exact field (i := 1) _ _ (by omega) _ rfl
    | 2 => exact field (i := 2) _ _ (by omega) _ rfl
    | 3 => exact field (i := 3) _ _ (by omega) _ rfl
  · simp only [List.mem_cons, List.not_mem_nil, or_false] at hi
    rcases hi with rfl | rfl | rfl | rfl | rfl | rfl | rfl | rfl | rfl | rfl | rfl | rfl <;> omega

/-- R152: the bits of STATUS outside its fields read 0. -/
theorem statusReg_reserved (e : EngineCtl) (ports : Vector Port 4) : statusReg e ports &&& 0xF88888C8 = 0 := by
  obtain ⟨-, -, -, -, -, hrest⟩ := statusCode_fields e ports
  apply BitVec.eq_of_getLsbD_eq
  intro i hi
  have hmask : ∀ i : Fin 32, (0xF88888C8 : Word).getLsbD i.val = true → i.val ∈ [3, 6, 7, 11, 15, 19, 23, 27, 28, 29, 30, 31] := by decide
  rw [BitVec.getLsbD_and, show (0 : Word).getLsbD i = false from BitVec.getLsbD_zero, statusReg_eq, BitVec.getLsbD_ofNat, Nat.testBit_eq_decide_div_mod_eq]
  cases hm : (0xF88888C8 : Word).getLsbD i with
  | false => simp
  | true => simp [hrest i (hmask ⟨i, hi⟩ hm)]

/-! ### The register window (R150) -/

/-- An access wholly within a register addresses that register at the offset within it. -/
theorem registerAccess_at (r : Reg) (w : Width) {k : Nat} (h : k + widthBytes w ≤ 4) : registerAccess (regOffset r + k) w = some (r, k) := by
  cases w with
  | byte =>
    have hk : k ≤ 3 := by simp only [widthBytes] at h; omega
    interval_cases k <;> cases r <;> rfl
  | half =>
    have hk : k ≤ 2 := by simp only [widthBytes] at h; omega
    interval_cases k <;> cases r <;> rfl
  | word =>
    obtain rfl : k = 0 := by simp only [widthBytes] at h; omega
    cases r <;> rfl

theorem regOffset_le (r : Reg) : regOffset r ≤ 28 := by cases r <;> decide

/-- No register lies outside the 32 bytes of the window. -/
theorem registerAccess_outside {offset : Nat} (w : Width) (h : 32 ≤ offset) : registerAccess offset w = none := by
  rw [registerAccess, Option.map_eq_none_iff, List.find?_eq_none]
  intro r _
  have hr := regOffset_le r
  have hw : 1 ≤ widthBytes w := by cases w <;> decide
  simp only [Bool.and_eq_true, decide_eq_true_eq]
  omega

/-- A read within a register returns its addressed bytes, the lowest first. -/
theorem windowRead_at (s : State) (r : Reg) (w : Width) {k : Nat} (h : k + widthBytes w ≤ 4) :
    windowRead s (regOffset r + k) w = some ((List.range (widthBytes w)).map (fun j => byteAt (readReg s r) (k + j))) := by
  rw [windowRead, registerAccess_at r w h]; rfl

/-- A write within a register is a write to that register. -/
theorem windowWrite_at (r : Reg) (w : Width) (v : Word) {k : Nat} (h : k + widthBytes w ≤ 4) :
    windowWrite (regOffset r + k) w v = registerWrite r w v := by
  rw [windowWrite, registerAccess_at r w h]

/-- R150: what the reads within a register return, at the widths of log 40. -/
theorem windowRead_reg (s : State) (r : Reg) :
    windowRead s (regOffset r) .word = some ((List.range 4).map (fun j => byteAt (readReg s r) (0 + j))) ∧
    (∀ k : Nat, k ≤ 2 → windowRead s (regOffset r + k) .half = some [byteAt (readReg s r) k, byteAt (readReg s r) (k + 1)]) ∧
    (∀ k : Nat, k ≤ 3 → windowRead s (regOffset r + k) .byte = some [byteAt (readReg s r) k]) :=
  ⟨windowRead_at s r .word (k := 0) (by decide),
    fun k hk => windowRead_at s r .half (by simp only [widthBytes]; omega),
    fun k hk => windowRead_at s r .byte (by simp only [widthBytes]; omega)⟩

/-- Settles O3. -/
theorem registerReadValues : Obligations.RegisterReadValues := by
  unfold Obligations.RegisterReadValues
  intro s
  obtain ⟨hlt, hstate, hfault, hstart, hport, -⟩ := statusCode_fields s.engine s.ports
  have field {start len v : Nat} (h : statusCode s.engine s.ports / 2 ^ start % 2 ^ len = v) :
      (readReg s .status).extractLsb' start len = BitVec.ofNat len v := extractLsb'_ofNat hlt h
  refine ⟨rfl, readReg_control s, ?_, ?_, ?_, fun p => ?_, statusReg_reserved _ _, rfl, rfl, rfl, rfl, rfl, fun _ _ => rfl,
    fun _ _ => rfl, fun r => ?_, fun offset w h => ?_, fun _ _ _ => rfl⟩
  · rw [field hstate]; cases s.engine.state <;> rfl
  · rw [field hfault]; cases s.engine.fault <;> rfl
  · rw [field hstart]; cases s.engine.startResult <;> rfl
  · rw [field (hport p)]
    show BitVec.ofNat 3 (s.port p).state.byte.toNat = _
    cases (s.port p).state <;> rfl
  · have hreg := windowRead_reg s r
    cases r <;> exact hreg
  · rw [windowRead, registerAccess_outside w h]; rfl

/-- R150: a write narrower than 32 bits is ignored. -/
theorem registerWrite_narrow (r : Reg) {w : Width} (v : Word) (h : w ≠ .word) : registerWrite r w v = [.registerWriteIgnored r w v] := by
  cases w with
  | byte | half => rfl
  | word => exact absurd rfl h

/-- R150: what the writes within a register stand for. -/
theorem windowWrite_reg (r : Reg) (v : Word) :
    windowWrite (regOffset r) .word v = registerWrite r .word v ∧
    (∀ k : Nat, k ≤ 2 → windowWrite (regOffset r + k) .half v = [.registerWriteIgnored r .half v]) ∧
    (∀ k : Nat, k ≤ 3 → windowWrite (regOffset r + k) .byte v = [.registerWriteIgnored r .byte v]) :=
  ⟨windowWrite_at r .word v (k := 0) (by decide),
    fun k hk => (windowWrite_at r .half v (by simp only [widthBytes]; omega)).trans (registerWrite_narrow r v (by decide)),
    fun k hk => (windowWrite_at r .byte v (by simp only [widthBytes]; omega)).trans (registerWrite_narrow r v (by decide))⟩

/-- Settles O4. -/
theorem registerWriteCommands : Obligations.RegisterWriteCommands := by
  unfold Obligations.RegisterWriteCommands
  refine ⟨fun r v => ?_, fun offset w v h => ?_, fun reg w v h => ?_, fun _ _ _ _ => rfl,
    fun _ => ⟨rfl, rfl, rfl, rfl, rfl⟩, fun v s => ⟨fun h => ⟨?_, ?_⟩, fun h reg => ?_⟩⟩
  · have hreg := windowWrite_reg r v
    cases r <;> exact hreg
  · rw [windowWrite, registerAccess_outside w h]
  · by_cases hw : w = .word
    · subst hw
      obtain h | rfl | rfl := h
      · exact absurd rfl h
      · rfl
      · rfl
    · exact registerWrite_narrow reg v hw
  · show execPageWrite .lo v s = _
    rw [execPageWrite, if_pos h]; rfl
  · show execPageWrite .hi v s = _
    rw [execPageWrite, if_pos h]; rfl
  · show execPageWrite reg v s = _
    rw [execPageWrite, if_neg h]

/-! ### Resets -/

/-- R152: STATUS of an engine and ports as after a reset. -/
theorem readReg_status_of_reset {t : State} (he : t.engine.state = .stopped) (hf : t.engine.fault = .none)
    (hr : t.engine.startResult = .none) (hp : t.ports = State.reset.ports) : readReg t .status = 0 := by
  simp only [readReg, statusReg, he, hf, hr, hp, State.reset, get_replicate]
  decide

/-- R164: a read of STATUS of such a machine, with its path empty, completes behind what is on the link. -/
theorem windowCompletion_status_of_reset {t : State} (he : t.engine.state = .stopped) (hf : t.engine.fault = .none)
    (hr : t.engine.startResult = .none) (hp : t.ports = State.reset.ports) (hpath : t.smi.path = []) (taken : Nat) :
    windowCompletion t taken 0x08 .word = some (t.smi.link, [0, 0, 0, 0]) := by
  rw [windowCompletion, show windowRead t 0x08 .word = _ from windowRead_at t .status .word (k := 0) (by decide),
    readReg_status_of_reset he hf hr hp, hpath, List.take_nil, List.append_nil]
  rfl

/-- Settles O6: the `k` of the statement is the free value that the drop reads. -/
theorem resetsClear : Obligations.ResetsClear := by
  unfold Obligations.ResetsClear
  refine fun s => ⟨Config.linkTaken s.free, rfl, rfl, rfl, fun t ht taken => ?_⟩
  simp only [List.mem_cons, List.not_mem_nil, or_false] at ht
  obtain rfl | rfl := ht
  · exact windowCompletion_status_of_reset (t := s.coldReset) rfl rfl rfl rfl rfl taken
  · exact windowCompletion_status_of_reset (t := s.engineReset) rfl rfl rfl rfl rfl taken

theorem State.port_reset (p : PortId) : State.reset.port p = Port.reset := get_replicate _ p

theorem Port.tag_reset (t : TagId) : Port.reset.tag t = Tag.reset := get_replicate _ t

theorem Port.node_reset (a : Byte) : Port.reset.node a = Node.reset := by
  unfold Port.node
  split
  · exact get_replicate _ _
  · rfl

/-- Settles O7. -/
theorem resetValues : Obligations.ResetValues := by
  unfold Obligations.ResetValues
  have hstatus : readReg State.reset .status = 0 := readReg_status_of_reset rfl rfl rfl rfl
  refine ⟨by decide, ⟨rfl, hstatus, rfl, rfl, rfl, rfl, rfl⟩, by decide, fun i => ?_, fun p => ?_, by decide,
    ⟨rfl, rfl, rfl, rfl, rfl, fun i => get_replicate _ i⟩, by decide⟩
  · rw [State.ctx_reset]; decide
  · rw [State.port_reset, State.budget_reset]
    exact ⟨rfl, rfl, rfl, rfl, rfl, rfl, rfl, rfl, rfl, rfl, rfl, rfl, rfl, rfl, rfl, rfl, Port.tag_reset, Port.node_reset,
      rfl, rfl, rfl, rfl, rfl, rfl, rfl, rfl, rfl, rfl, rfl, Budget.reset_load, rfl, rfl, rfl, rfl⟩

/-! ### The entry to STOPPED -/

theorem mem_allPorts (p : PortId) : p ∈ allPorts := by
  match p with
  | 0 | 1 | 2 | 3 => decide

theorem mem_allStreams (i : StreamId) : i ∈ allStreams := by rw [allStreams_eq]; exact List.mem_finRange i

/-- R145: what a STOPPING engine waits for. -/
theorem State.writtenOut_iff (s : State) : s.writtenOut = true ↔
    s.engine.state = .stopping ∧ (∀ p, (s.port p).state = .disabled) ∧ s.scanner.take = none ∧ s.smi.inFlight = [] ∧
      s.smi.waiting = [] ∧ s.writer.outcomes = [] ∧ s.writer.cancelled = [] ∧ ∀ i, (s.ctx i).refreshOutstanding = false := by
  simp [State.writtenOut, mem_allPorts, mem_allStreams, and_assoc]

/-- R164: a write of the path of a STOPPED engine is on the link at the end of the event. -/
theorem Smi.write_mem_issued {m : Smi} {a : Addr} {b : List Byte} (h : .write a b ∈ m.link ++ m.path) : .write a b ∈ m.issueWrites.link := by
  rw [← Smi.issueWrites_all, List.mem_append] at h
  exact h.resolve_right fun hp => by cases m.issueWrites_msi _ hp

/-- R145, R164: the state that the entry to STOPPED leaves. -/
theorem State.sends_stopped {m : State} (h : m.engine.state = .stopped) (causes : BitVec 3) :
    m.sends [] causes = State.signal { m with smi := m.smi.issueWrites } (m.intr.raise causes) := by
  show m.issued.signal (m.intr.raise causes) = _
  rw [State.issued_of_stopped h]

/-- Settles O15. -/
theorem engineEntersStopped : Obligations.EngineEntersStopped := by
  unfold Obligations.EngineEntersStopped
  intro s
  dsimp only
  rw [← State.writtenOut_iff]
  refine ⟨fun hdone => ?_, fun hdone => ?_⟩
  · obtain ⟨hstate, -, -, hfl, hwait, -⟩ := s.writtenOut_iff.1 hdone
    refine ⟨?_, ?_, ?_, fun x hx => ?_, fun taken d hd a b hab => ?_⟩
    · show Host.Outcome.next (s.eventIf _ Ev.enterStopped) = _
      rw [State.eventIf, if_pos hdone]
      exact congrArg _ (State.event_eq_sends (by simp [hstate]) rfl rfl BitVec.zero_or)
    · rw [State.sends_stopped rfl, State.signal_inFlight]; exact hfl
    · rw [State.sends_stopped rfl, State.signal_waiting]; exact hwait
    · rw [State.sends_stopped rfl] at hx
      exact (State.writesIssued_signal (fun _ => s.smi.issueWrites_msi) _) rfl x hx
    · rw [windowCompletion, Option.map_eq_some_iff] at hd
      obtain ⟨bytes, -, rfl⟩ := hd
      rw [State.sends_stopped rfl, State.signal_link]
      exact List.mem_append_left _ (Smi.write_mem_issued hab)
  · show Host.Outcome.next (s.eventIf _ Ev.enterStopped) = _
    rw [State.eventIf, if_neg hdone]

/-! ### Parameters, figures and tables -/

theorem Params.periodic_iff (q : Params) : q.periodic = true ↔ q.kind = 1 := decide_eq_true_iff

theorem Params.oneShot_iff (q : Params) : q.oneShot = true ↔ q.kind = 2 := decide_eq_true_iff

/-- Settles O24. -/
theorem parametersAndCosts : Obligations.ParametersAndCosts := by
  unfold Obligations.ParametersAndCosts
  refine ⟨fun hh => ⟨rfl, rfl, rfl, rfl, rfl, rfl, rfl, rfl, rfl, rfl, rfl, rfl, rfl, rfl, rfl, rfl, rfl⟩, fun q _ => ?_,
    fun q k => ⟨rfl, rfl, rfl, rfl⟩⟩
  simp only [Params.admitted, Params.oneShot_iff, Params.periodic_iff]

/-- R28: the units are the period times 2.5, rounded down. -/
theorem cycleFigures_bounds {k : Nat} (hk : k ≤ 4) {pct : Nat} (hpct : pct ≤ 90) :
    20 ≤ 625 * 2 ^ k / 2 ∧ (625 * 2 ^ k / 2 - 20) * pct / 100 + 25 ≤ 625 * 2 ^ k / 2 - 20 := by
  interval_cases k <;> omega

/-- Settles O34. -/
theorem cycleFigures_spec : Obligations.CycleFigures := by
  unfold Obligations.CycleFigures
  refine ⟨fun k pct hk _ hpct => ?_, by decide⟩
  obtain ⟨hunits, hcap⟩ := cycleFigures_bounds hk hpct
  simp only [cycleFigures]
  exact ⟨trivial, by omega, by omega, by omega, by omega, by omega, by omega, by omega⟩

/-- Settles O48. -/
theorem exchangeTables : Obligations.ExchangeTables := by
  unfold Obligations.ExchangeTables
  refine ⟨fun frame cost => ⟨rfl, fun bytes h => ?_, fun bytes d h => ?_⟩,
    fun c limit d h => ⟨rfl, rfl, rfl, rfl, rfl, rfl, rfl, rfl, rfl, rfl, rfl, rfl, rfl⟩, fun _ => rfl, rfl, rfl, rfl⟩
  · simp only [occupancy, h]
  · simp only [occupancy, h]

end Sys2Proof.Machine
end

section
/-! PROOFS. The Interrupt Unit at the end of an event, the writes of its registers, and the bytes of the part half and of the status block. -/

namespace Sys2Proof.Machine

open Sys2Proof

/-! ### Settling the Interrupt Unit -/

@[simp] theorem IntrUnit.settle_status (u : IntrUnit) : u.settle.status = u.status := by unfold IntrUnit.settle; split_ifs <;> rfl
@[simp] theorem IntrUnit.settle_enable (u : IntrUnit) : u.settle.enable = u.enable := by unfold IntrUnit.settle; split_ifs <;> rfl
@[simp] theorem IntrUnit.settle_holdoff (u : IntrUnit) : u.settle.holdoff = u.holdoff := by unfold IntrUnit.settle; split_ifs <;> rfl
@[simp] theorem IntrUnit.settle_msiEnable (u : IntrUnit) : u.settle.msiEnable = u.msiEnable := by
  unfold IntrUnit.settle; split_ifs <;> rfl
@[simp] theorem IntrUnit.settle_intxDisable (u : IntrUnit) : u.settle.intxDisable = u.intxDisable := by
  unfold IntrUnit.settle; split_ifs <;> rfl

theorem IntrUnit.condition_iff (u : IntrUnit) : u.condition = true ↔ u.status &&& u.enable ≠ 0 := decide_eq_true_iff

theorem IntrUnit.condition_of_not {u : IntrUnit} (h : ¬ u.status &&& u.enable ≠ 0) : u.condition = false := by
  simpa using mt u.condition_iff.1 h

/-- R156: in INTx mode nothing is sent. -/
theorem IntrUnit.sends_of_intx {u : IntrUnit} (h : u.msiEnable = false) : u.sends = false := by simp [IntrUnit.sends, h]

theorem IntrUnit.settle_of_intx {u : IntrUnit} (h : u.msiEnable = false) :
    u.settle = { u with intxLine := u.condition && !u.intxDisable } := if_neg (by simp [h])

theorem IntrUnit.settle_of_quiet {u : IntrUnit} (h : u.msiEnable = true) (hs : u.sends = false) :
    u.settle = { u with intxLine := false, msgPending := u.msgPending && u.condition } := by
  rw [IntrUnit.settle, if_pos h, if_neg (by simp [hs])]

theorem IntrUnit.settle_of_sends {u : IntrUnit} (h : u.msiEnable = true) (hs : u.sends = true) :
    u.settle = { u with intxLine := false, msgPending := false, timer := if u.holdoff = 0 then none else some u.holdoff } := by
  rw [IntrUnit.settle, if_pos h, if_pos hs]

theorem IntrUnit.settle_intxLine_of_msi {u : IntrUnit} (h : u.msiEnable = true) : u.settle.intxLine = false := by
  rw [IntrUnit.settle, if_pos h]; split <;> rfl

/-- R155, R156: how a machine signals, from the Interrupt Unit as the event leaves it. -/
theorem State.signal_signalled (s : State) (u : IntrUnit) : s.signalled (s.signal u) u.timer u.msgPending := by
  simp only [State.signalled, State.signal_intr, State.signal_path, IntrUnit.settle_status, IntrUnit.settle_enable,
    IntrUnit.settle_holdoff, IntrUnit.settle_msiEnable, IntrUnit.settle_intxDisable]
  have quiet (hm : u.msiEnable = true) (hs : u.sends = false) :
      u.settle.msgPending = (u.msgPending && u.condition) ∧ u.settle.timer = u.timer ∧
        s.smi.path ++ (if u.sends = true then [PathItem.msi] else []) = s.smi.path := by
    rw [IntrUnit.settle_of_quiet hm hs, hs]; simp
  refine ⟨fun hm => ?_, IntrUnit.settle_intxLine_of_msi, fun hm hc => ?_, fun hm hc hp => ?_, fun hm hc hp ht => ?_,
    fun hm hc hp ht => ?_⟩
  · rw [IntrUnit.settle_of_intx hm, IntrUnit.sends_of_intx hm]
    simp [IntrUnit.condition_iff]
  · have hcond := IntrUnit.condition_of_not hc
    simpa [hcond] using quiet hm (by simp [IntrUnit.sends, hcond])
  · simpa [hp] using quiet hm (by simp [IntrUnit.sends, hp])
  · have hcond := u.condition_iff.2 hc
    simpa [hp, hcond] using quiet hm (by
      obtain ⟨x, hx⟩ := Option.ne_none_iff_exists'.1 ht
      simp [IntrUnit.sends, hx])
  · have hs : u.sends = true := by simp [IntrUnit.sends, hm, hp, ht, u.condition_iff.2 hc]
    rw [IntrUnit.settle_of_sends hm hs, hs]
    simp

/-- Signalling changes the Interrupt Unit and the path alone. -/
theorem State.signal_sameButSignals (s : State) (u : IntrUnit) : s.sameButSignals (s.signal u) := by
  unfold State.sameButSignals State.signal
  cases u.sends <;> rfl

/-! ### The writes of the interrupt registers -/

/-- What a command that only signals answers, from the Interrupt Unit `u` that it leaves. -/
theorem exec_signals {s : State} {c : Instr} {u : IntrUnit} (h : exec c s = .next (s.signal u)) :
    ∃ t, exec c s = .next t ∧ s.sameButSignals t ∧ t.intr.status = u.status ∧ t.intr.enable = u.enable ∧
      t.intr.holdoff = u.holdoff ∧ t.intr.msiEnable = u.msiEnable ∧ t.intr.intxDisable = u.intxDisable ∧
      s.signalled t u.timer u.msgPending :=
  ⟨_, h, s.signal_sameButSignals u, u.settle_status, u.settle_enable, u.settle_holdoff, u.settle_msiEnable, u.settle_intxDisable,
    s.signal_signalled u⟩

/-- Settles O8. -/
theorem interruptRegisterWrites : Obligations.InterruptRegisterWrites := by
  unfold Obligations.InterruptRegisterWrites
  exact fun v s => ⟨exec_signals (c := .intrStatusWrite v) rfl, exec_signals (c := .intrEnableWrite v) rfl,
    exec_signals (c := .intrHoldoffWrite v) rfl⟩

theorem exec_holdoffTimerExpiry_of_stopped {s : State} (h : s.intr.timer = none) : exec .holdoffTimerExpiry s = .next s := by
  show execHoldoffTimerExpiry s = _
  rw [execHoldoffTimerExpiry, if_neg (by simp [h])]

theorem exec_holdoffTimerExpiry_of_runs {s : State} (h : s.intr.timer ≠ none) :
    exec .holdoffTimerExpiry s = .next (s.signal { s.intr with timer := none }) := by
  show execHoldoffTimerExpiry s = _
  rw [execHoldoffTimerExpiry, if_pos (Option.isSome_iff_ne_none.2 h)]

/-- R156: a configuration write sets the two bits, and the pending flag on a change to MSI mode with the condition in force. -/
theorem IntrUnit.configure_eq (u : IntrUnit) (msi dis : Bool) : u.configure msi dis =
    { u with msiEnable := msi, intxDisable := dis,
             msgPending := u.msgPending || (!u.msiEnable && msi && decide (u.status &&& u.enable ≠ 0)) } := by
  unfold IntrUnit.configure
  dsimp only
  split
  next h =>
    obtain ⟨hu, rfl⟩ : u.msiEnable = false ∧ msi = true := by simpa using h
    simp [IntrUnit.repend, IntrUnit.condition, hu]
  next h => simp only [Bool.not_eq_true] at h; simp [h]

/-- Settles O9. -/
theorem holdoffExpiryAndConfiguration : Obligations.HoldoffExpiryAndConfiguration := by
  unfold Obligations.HoldoffExpiryAndConfiguration
  refine fun s => ⟨fun h => exec_signals (exec_holdoffTimerExpiry_of_runs h), exec_holdoffTimerExpiry_of_stopped, fun msi dis => ?_⟩
  have h : exec (.pcieConfigWrite msi dis) s = .next (s.signal (s.intr.configure msi dis)) := rfl
  rw [IntrUnit.configure_eq] at h
  exact exec_signals h

/-! ### Fields of bytes (00_scope.md 7.4) -/

/-- The `n` bytes of a number, least significant first. -/
def leBytes (n x : Nat) : List Byte := (List.range n).map (fun k => BitVec.ofNat 8 (x / 256 ^ k))

theorem extractLsb'_byte {w : Nat} (x : BitVec w) (k : Nat) : x.extractLsb' (8 * k) 8 = BitVec.ofNat 8 (x.toNat / 256 ^ k) := by
  apply BitVec.eq_of_toNat_eq
  rw [BitVec.extractLsb'_toNat, BitVec.toNat_ofNat, Nat.shiftRight_eq_div_pow, pow_mul,
    show (2 : Nat) ^ 8 = 256 from rfl]

theorem le2_eq (x : BitVec 16) : le2 x = leBytes 2 x.toNat := by
  simp only [le2, leBytes, List.range_succ, List.range_zero, List.nil_append, List.cons_append, List.map_cons, List.map_nil,
    ← extractLsb'_byte]

theorem le4_eq (x : Word) : le4 x = leBytes 4 x.toNat := by
  simp only [le4, leBytes, List.range_succ, List.range_zero, List.nil_append, List.cons_append, List.map_cons, List.map_nil,
    ← extractLsb'_byte]

/-- A byte of a 32-bit part of a 64-bit field is a byte of the field. -/
theorem extractLsb'_part (x : BitVec 64) (a b : Nat) (h : b + 8 ≤ 32) :
    (x.extractLsb' a 32).extractLsb' b 8 = x.extractLsb' (a + b) 8 := by
  apply BitVec.eq_of_getLsbD_eq
  intro i hi
  simp only [BitVec.getLsbD_extractLsb', hi, show b + i < 32 by omega, decide_true, Bool.true_and, add_assoc]

theorem le8_eq (x : BitVec 64) : le8 x = leBytes 8 x.toNat := by
  rw [le8, le4, le4]
  simp only [extractLsb'_part, leBytes, List.range_succ, List.range_zero, List.nil_append, List.cons_append, List.map_cons,
    List.map_nil, ← extractLsb'_byte, Nat.reduceAdd, Nat.reduceMul, Nat.reduceLeDiff]

/-- A field cut to its bytes loses nothing of them. -/
theorem leBytes_mod (n x : Nat) : leBytes n (x % 256 ^ n) = leBytes n x := by
  unfold leBytes
  refine List.map_congr_left fun k hk => BitVec.eq_of_toNat_eq ?_
  have hkn : k < n := List.mem_range.1 hk
  rw [BitVec.toNat_ofNat, BitVec.toNat_ofNat, show 256 ^ n = 256 ^ k * 256 ^ (n - k) by rw [← pow_add]; congr 1; omega,
    Nat.mod_mul_right_div_self]
  exact Nat.mod_mod_of_dvd _ (dvd_pow_self 256 (by omega))

theorem le2_ofNat (x : Nat) : le2 (BitVec.ofNat 16 x) = leBytes 2 x := by
  rw [le2_eq, BitVec.toNat_ofNat]; exact leBytes_mod 2 x

theorem le4Nat_eq (x : Nat) : le4Nat x = leBytes 4 x := by
  rw [le4Nat, le4_eq, BitVec.toNat_ofNat]; exact leBytes_mod 4 x

/-- A byte of flags, the first in bit 0. -/
def flagByte (bs : List Bool) : Byte := BitVec.ofNat 8 ((bs.zipIdx.map (fun b => if b.1 then 2 ^ b.2 else 0)).sum)

theorem flagBits_eq (a b c : Bool) : flagBit a 0 ||| flagBit b 1 ||| flagBit c 2 = flagByte [a, b, c] := by
  revert a b c; decide

/-! ### The part half and the status block (R157, R158) -/

/-- R158: the fields of the part half, from the bytes of its enumerated fields. -/
theorem partHalf_eq (c : Ctx) {state oneShot result last : Byte} (hs : c.state.byte = state) (ho : c.oneShot.byte = oneShot)
    (hr : c.result.byte = result) (hl : c.lastOutcome.elim 0 OutcomeCode.byte = last) :
    partHalf c = [state, flagByte [c.paused, c.holds.any, c.consumedInvalid],
        flagByte [c.holds.portNotRunning, c.holds.nodeLost, c.holds.memoryFault], oneShot, result, c.resultReq, c.phase, last] ++
      leBytes 2 c.cost ++ List.replicate 2 0 ++ leBytes 4 c.memCost ++ leBytes 4 c.counters.occurrences.toNat ++
      leBytes 4 c.counters.misses.toNat ++ leBytes 4 c.counters.overruns.toNat ++ leBytes 4 c.counters.timeouts.toNat ++
      leBytes 4 c.counters.retriesUsed.toNat ++ List.replicate 28 0 := by
  subst hs ho hr hl
  rw [← flagBits_eq, ← flagBits_eq, ← le2_ofNat, ← le4Nat_eq, ← le4_eq, ← le4_eq, ← le4_eq, ← le4_eq, ← le4_eq]
  unfold partHalf
  cases c.lastOutcome <;> rfl

theorem partHalf_length (c : Ctx) : (partHalf c).length = 64 := by simp [partHalf, le2, le4, le4Nat, zeros]

/-- The bits that a fold over node addresses sets. -/
theorem getLsbD_foldl_bits (P : Byte → Prop) [DecidablePred P] (xs : List Byte) {n : Nat} (hn : n < 64) : ∀ m : BitVec 64,
    (xs.foldl (fun m a => if P a then m ||| ((1 : BitVec 64) <<< a.toNat) else m) m).getLsbD n = true ↔
      m.getLsbD n = true ∨ ∃ a ∈ xs, P a ∧ a.toNat = n := by
  induction xs with
  | nil => simp
  | cons x xs ih =>
    intro m
    have hbit : ((1 : BitVec 64) <<< x.toNat).getLsbD n = true ↔ x.toNat = n := by
      simp
      omega
    rw [List.foldl_cons, ih]
    split
    next hP =>
      rw [BitVec.getLsbD_or, Bool.or_eq_true, hbit]
      simp [hP, or_assoc]
    next hP => simp [hP]

theorem mem_allNodes (a : Byte) : a ∈ allNodes ↔ 1 ≤ a.toNat ∧ a.toNat ≤ 62 := by
  revert a; decide

/-- R105: the bits of a mask of node states. -/
theorem Port.getLsbD_mask (q : Port) (st : NodeState) {n : Nat} (hn : n < 64) :
    (q.mask st).getLsbD n = true ↔ 1 ≤ n ∧ n ≤ 62 ∧ (q.node (BitVec.ofNat 8 n)).state = st := by
  rw [Port.mask, getLsbD_foldl_bits (fun a => (q.node a).state = st) allNodes hn]
  constructor
  · rintro (h | ⟨a, ha, hst, rfl⟩)
    · exact absurd h (by simp)
    · obtain ⟨h1, h2⟩ := (mem_allNodes a).1 ha
      exact ⟨h1, h2, by rwa [BitVec.ofNat_toNat, BitVec.setWidth_eq]⟩
  · rintro ⟨h1, h2, hst⟩
    have hval : (BitVec.ofNat 8 n).toNat = n := by rw [BitVec.toNat_ofNat]; exact Nat.mod_eq_of_lt (by omega)
    exact .inr ⟨_, (mem_allNodes _).2 (by rw [hval]; exact ⟨h1, h2⟩), hst, hval⟩

/-- R157: the fields of the status block, from the bytes of its enumerated fields. -/
theorem statusBlock_eq (q : Port) {state reason result node : Byte} (hs : q.state.byte = state) (hf : q.faultReason.byte = reason)
    (hr : q.result.byte = result) (hn : q.change.state.byte = node) :
    statusBlock q = [state, reason, result, q.resultReq] ++ leBytes 4 q.cycle.toNat ++ leBytes 8 (q.mask .present).toNat ++
      leBytes 8 (q.mask .lost).toNat ++ [q.change.node, node, BitVec.ofNat 8 q.change.corrupt, 0] ++
      leBytes 4 q.change.heard.toNat ++ leBytes 4 q.corruptCount.toNat ++ leBytes 4 q.lineErrors.toNat ++
      leBytes 4 q.silentCount.toNat ++ leBytes 4 q.lastPeriodic ++ leBytes 4 q.lastAperiodic ++ List.replicate 12 0 := by
  subst hs hf hr hn
  rw [← le8_eq, ← le8_eq, ← le4_eq, ← le4_eq, ← le4_eq, ← le4_eq, ← le4_eq, ← le4Nat_eq, ← le4Nat_eq]
  rfl

theorem statusBlock_length (q : Port) : (statusBlock q).length = 64 := by simp [statusBlock, le4, le8, le4Nat, zeros]

/-! ### The end of an event (R112) -/

/-- R112: the machine with an event's writes on the path, the update count behind them. -/
def State.posted (m : State) (ws : List PathItem) : State :=
  if ws = [] then m
  else { m with
    updateCount := m.updateCount + 1
    smi := { m.smi with path := m.smi.path ++ (ws ++ [m.updateCountWrite (m.updateCount + 1)]) } }

theorem State.sends_eq (m : State) (ws : List PathItem) (causes : BitVec 3) :
    m.sends ws causes = (m.posted ws).issued.signal ((m.posted ws).intr.raise causes) := rfl

theorem State.posted_same (m : State) (ws : List PathItem) : m.posted ws =
    { m with updateCount := (m.posted ws).updateCount, smi := { m.smi with path := (m.posted ws).smi.path } } := by
  unfold State.posted; split <;> rfl

theorem State.posted_updateCount (m : State) (ws : List PathItem) :
    (m.posted ws).updateCount = if ws = [] then m.updateCount else m.updateCount + 1 := by
  unfold State.posted; split <;> rfl

theorem State.posted_path (m : State) (ws : List PathItem) : (m.posted ws).smi.path =
    if ws = [] then m.smi.path else m.smi.path ++ ws ++ [.write (m.page 0x24) (le4 (m.updateCount + 1))] := by
  unfold State.posted; split
  · rfl
  · exact (List.append_assoc _ _ _).symm

/-- R164: the path cut behind its last write: what is ahead ends with a write, and behind it are messages. -/
theorem Smi.issueWrites_cut (m : Smi) : ∃ gone left, m.path = gone ++ left ∧ m.issueWrites = { m with link := m.link ++ gone, path := left } ∧
    (∀ x ∈ left, x = .msi) ∧ (gone = [] ∨ ∃ ahead a b, gone = ahead ++ [.write a b]) := by
  refine ⟨(m.path.reverse.dropWhile PathItem.isMsi).reverse, (m.path.reverse.takeWhile PathItem.isMsi).reverse, ?_, rfl,
    m.issueWrites_msi, ?_⟩
  · rw [← List.reverse_append, List.takeWhile_append_dropWhile, List.reverse_reverse]
  · cases h : m.path.reverse.dropWhile PathItem.isMsi with
    | nil => exact .inl rfl
    | cons x xs =>
      have hx : x.isMsi = false := by
        have := List.head_dropWhile_not PathItem.isMsi (l := m.path.reverse) (by rw [h]; simp)
        simpa [h] using this
      cases x with
      | msi => cases hx
      | write a b => exact .inr ⟨xs.reverse, a, b, by simp⟩

/-- R164: the writes that an event leaves issued: none, or where the engine is STOPPED all of the path up to its last write. -/
theorem State.issued_cut (m : State) : ∃ gone left, m.smi.path = gone ++ left ∧
    m.issued = { m with smi := { m.smi with link := m.smi.link ++ gone, path := left } } ∧
    (m.engine.state ≠ .stopped → gone = []) ∧
    (m.engine.state = .stopped → (∀ x ∈ left, x = .msi) ∧ (gone = [] ∨ ∃ ahead a b, gone = ahead ++ [.write a b])) := by
  by_cases h : m.engine.state = .stopped
  · obtain ⟨gone, left, hpath, hissue, hleft, hgone⟩ := m.smi.issueWrites_cut
    exact ⟨gone, left, hpath, by rw [State.issued_of_stopped h, hissue], fun hn => absurd h hn, fun _ => ⟨hleft, hgone⟩⟩
  · exact ⟨[], m.smi.path, rfl, by rw [State.issued_of_running h, List.append_nil], fun _ => rfl, fun hs => absurd hs h⟩

/-- Settles O10. -/
theorem eventEnd : Obligations.EventEnd := by
  unfold Obligations.EventEnd
  refine ⟨Ev.finish_eq_sends, fun m ws causes => ?_, fun c => ?_, fun q => ?_⟩
  · have hsame := m.posted_same ws
    have hcount := m.posted_updateCount ws
    obtain ⟨gone, left, hpath, hissued, hrun, hstop⟩ := (m.posted ws).issued_cut
    rw [State.posted_path] at hpath
    dsimp only
    rw [State.sends_eq, hissued]
    generalize (m.posted ws).updateCount = n, (m.posted ws).smi.path = path at hsame hcount
    rw [hsame] at hrun hstop ⊢
    refine ⟨?_, hcount, IntrUnit.settle_status _, IntrUnit.settle_enable _, IntrUnit.settle_holdoff _, IntrUnit.settle_msiEnable _,
      IntrUnit.settle_intxDisable _, gone, left, hpath, State.signal_link _ _, hrun, hstop, ?_⟩
    · unfold State.signal
      split <;> rfl
    · exact State.signal_signalled { m with updateCount := n, smi := { m.smi with path := left, link := m.smi.link ++ gone } } _
  · refine ⟨partHalf_eq c ?_ ?_ ?_ ?_, partHalf_length c⟩
    · cases c.state <;> rfl
    · cases c.oneShot <;> rfl
    · cases c.result <;> rfl
    · cases c.lastOutcome with
      | none => rfl
      | some o => cases o <;> rfl
  · refine ⟨q.mask .present, q.mask .lost, fun a ha => ⟨q.getLsbD_mask _ ha, q.getLsbD_mask _ ha⟩, statusBlock_eq q ?_ ?_ ?_ ?_,
      statusBlock_length q⟩
    · cases q.state <;> rfl
    · cases q.faultReason <;> rfl
    · cases q.result <;> rfl
    · cases q.change.state <;> rfl

end Sys2Proof.Machine
end

section
/-! PROOFS. A change of hold reasons, and the order to stop that a port takes (R16, R17, R98): what they leave where no stream concerned has
a parity error. -/

namespace Sys2Proof.Machine

open Sys2Proof

/-! ### Parts of an event made for each member of a list -/

theorem Ev.forEach_append {α : Type} (f : α → Ev → Ev) (xs ys : List α) : ∀ e : Ev,
    e.forEach (xs ++ ys) f = (e.forEach xs f).forEach ys f := by
  induction xs with
  | nil => intro e; rfl
  | cons x xs ih => intro e; exact ih _

/-- R4, R146: where the event has halted the engine no further part of it is made. -/
theorem Ev.forEach_of_halted {α : Type} (f : α → Ev → Ev) (xs : List α) {e : Ev} (h : e.halted = true) : e.forEach xs f = e := by
  induction xs with
  | nil => rfl
  | cons x xs ih => rw [Ev.forEach_cons, Ev.andThen_of_halted h, ih]

theorem Ev.forEach_cons_of_not_halted {α : Type} (f : α → Ev → Ev) (x : α) (xs : List α) {e : Ev} (h : e.halted = false) :
    e.forEach (x :: xs) f = (f x e).forEach xs f := by
  rw [Ev.forEach_cons, Ev.andThen_of_not_halted h]

/-! ### Tables -/

theorem table_ext {α : Type} {n : Nat} {v w : Vector α n} (h : ∀ j : Fin n, v.get j = w.get j) : v = w :=
  Vector.ext fun j hj => h ⟨j, hj⟩

/-! ### A change of hold reasons -/

/-- R2: a context changed and published: its part half is to be rewritten, once. -/
theorem Ev.publish_eq (e : Ev) (i : StreamId) (g : Ctx → Ctx) : e.publish i g =
    { e with m := e.m.setCtx i (g (e.m.ctx i)), dirty := if i ∈ e.dirty then e.dirty else e.dirty ++ [i] } := by
  unfold Ev.publish Ev.touch
  rw [Ev.modCtx_dirty]
  split <;> rfl

/-- The context with its hold reasons changed. -/
def Ctx.mapHolds (f : Holds → Holds) (c : Ctx) : Ctx := { c with holds := f c.holds }

theorem Ctx.mapHolds_of_same {f : Holds → Holds} {c : Ctx} (h : f c.holds = c.holds) : c.mapHolds f = c := by
  unfold Ctx.mapHolds; rw [h]

/-- The live streams of port `p` that a test picks. -/
def holdsPicked (p : PortId) (pick : Ctx → Bool) (c : Ctx) : Bool := c.live && c.params.portId = p && pick c

/-- The contexts below stream number `k` with the hold reasons of those that a test picks changed. -/
def heldBelow (k : Nat) (picked : Ctx → Bool) (f : Holds → Holds) (v : Vector Ctx 256) : Vector Ctx 256 :=
  tableMap v (fun j c => if j < k && picked c then c.mapHolds f else c)

/-- The event once the streams below number `k` have been passed: each picked one has its hold reasons changed, and is to have its part
half rewritten where that is a change. -/
def Ev.heldTo (e : Ev) (k : Nat) (picked : Ctx → Bool) (f : Holds → Holds) : Ev :=
  { e with
    m := { e.m with ctxs := heldBelow k picked f e.m.ctxs }
    dirty := e.dirty ++ (allStreams.take k).filter (fun i =>
      picked (e.ctx i) && decide (f (e.ctx i).holds ≠ (e.ctx i).holds) && decide (i ∉ e.dirty)) }

/-- What a change of hold reasons does at one stream. -/
def Ev.holdOne (picked : Ctx → Bool) (f : Holds → Holds) (i : StreamId) (e : Ev) : Ev :=
  if picked (e.ctx i) then
    e.withCtx i fun c e => if f c.holds ≠ c.holds then e.publish i (Ctx.mapHolds f) else e
  else e

theorem Ev.setHolds_eq (p : PortId) (pick : Ctx → Bool) (f : Holds → Holds) (e : Ev) :
    e.setHolds p pick f = e.forEach allStreams (Ev.holdOne (holdsPicked p pick) f) := rfl

theorem get_heldBelow (k : Nat) (picked : Ctx → Bool) (f : Holds → Holds) (v : Vector Ctx 256) (j : StreamId) :
    (heldBelow k picked f v).get j = if j.val < k && picked (v.get j) then (v.get j).mapHolds f else v.get j :=
  get_tableMap _ _ j

/-- The stream at the bound is not passed yet. -/
theorem get_heldBelow_self (i : StreamId) (picked : Ctx → Bool) (f : Holds → Holds) (v : Vector Ctx 256) :
    (heldBelow i.val picked f v).get i = v.get i := by
  rw [get_heldBelow, if_neg (by simp)]

theorem heldBelow_succ (i : StreamId) (picked : Ctx → Bool) (f : Holds → Holds) (v : Vector Ctx 256) :
    heldBelow (i.val + 1) picked f v =
      if picked (v.get i) then (heldBelow i.val picked f v).set i.val ((v.get i).mapHolds f)
      else heldBelow i.val picked f v := by
  refine table_ext fun j => ?_
  by_cases hj : j = i
  · subst hj
    cases hp : picked (v.get j) <;> simp [get_heldBelow, get_set, hp]
  · have hlt : j.val < i.val + 1 ↔ j.val < i.val := by have := Fin.val_ne_of_ne hj; omega
    cases hp : picked (v.get i) <;> simp [get_heldBelow, get_set, hj, hlt]

theorem allStreams_take_succ (i : StreamId) : allStreams.take (i.val + 1) = allStreams.take i.val ++ [i] := by
  rw [allStreams_eq, List.take_add_one, List.getElem?_eq_getElem (by simp), List.getElem_finRange]
  rfl

theorem not_mem_allStreams_take (i : StreamId) : i ∉ allStreams.take i.val := by
  rw [allStreams_eq]
  intro h
  obtain ⟨k, hk, he⟩ := List.mem_take_iff_getElem.1 h
  rw [List.getElem_finRange] at he
  have := congrArg Fin.val he
  simp only [Fin.val_cast] at this
  omega

/-- The event with other contexts and other part halves to be rewritten. -/
theorem Ev.held_congr (e : Ev) {v w : Vector Ctx 256} {ds ds' : List StreamId} (hv : v = w) (hd : ds = ds') :
    ({ e with m := { e.m with ctxs := v }, dirty := ds } : Ev) = { e with m := { e.m with ctxs := w }, dirty := ds' } := by
  rw [hv, hd]

/-- The streams whose part half a change of hold reasons is to rewrite, among the streams of a list. -/
theorem Ev.heldTo_dirty_succ (e : Ev) (picked : Ctx → Bool) (f : Holds → Holds) (i : StreamId) :
    (e.heldTo (i.val + 1) picked f).dirty = (e.heldTo i.val picked f).dirty ++
      if picked (e.m.ctx i) ∧ f (e.m.ctx i).holds ≠ (e.m.ctx i).holds ∧ i ∉ e.dirty then [i] else [] := by
  simp only [Ev.heldTo, allStreams_take_succ, List.filter_append, List.append_assoc, Ev.ctx_eq]
  congr 2
  rw [List.filter_singleton]
  cases picked (e.m.ctx i) with
  | false => simp
  | true => by_cases hne : f (e.m.ctx i).holds = (e.m.ctx i).holds <;> simp [hne]

/-- R16, R17: the next stream is passed. -/
theorem Ev.holdOne_heldTo (e : Ev) (picked : Ctx → Bool) (f : Holds → Holds) (i : StreamId)
    (hg : picked (e.ctx i) = true → (e.ctx i).parityOk = true) :
    (e.heldTo i.val picked f).holdOne picked f i = e.heldTo (i.val + 1) picked f := by
  have hctx : (e.heldTo i.val picked f).m.ctx i = e.m.ctx i := get_heldBelow_self i picked f e.m.ctxs
  have hmem : i ∈ (e.heldTo i.val picked f).dirty ↔ i ∈ e.dirty := by simp [Ev.heldTo, not_mem_allStreams_take]
  have hctxs := heldBelow_succ i picked f e.m.ctxs
  have hdirty := e.heldTo_dirty_succ picked f i
  rw [Ev.ctx_eq] at hg
  rw [Ev.holdOne, Ev.ctx_eq, hctx]
  change _ = if picked (e.m.ctx i) then _ else _ at hctxs
  cases hp : picked (e.m.ctx i) with
  | false =>
    rw [hp, if_neg (by decide)] at hctxs
    rw [hp, if_neg (by simp), List.append_nil] at hdirty
    exact (e.held_congr hctxs hdirty).symm
  | true =>
    rw [hp, if_pos rfl] at hctxs
    rw [if_pos rfl, Ev.withCtx_of_good (by rw [hctx]; exact hg hp), hctx]
    split
    next hne =>
      rw [Ev.publish_eq, hctx]
      refine (e.held_congr hctxs (hdirty.trans ?_)).symm
      by_cases hi : i ∈ e.dirty
      · rw [if_pos (hmem.2 hi), if_neg (by simp [hi]), List.append_nil]
      · rw [if_neg (mt hmem.1 hi), if_pos ⟨hp, hne, hi⟩]
    next heq =>
      rw [not_ne_iff] at heq
      have hsame : (heldBelow i.val picked f e.m.ctxs).set i.val ((e.m.ctx i).mapHolds f) = heldBelow i.val picked f e.m.ctxs := by
        refine table_ext fun j => ?_
        rw [get_set, Ctx.mapHolds_of_same heq]
        split
        next hj => rw [hj, get_heldBelow_self]; rfl
        next => rfl
      rw [if_neg (by simp [heq]), List.append_nil] at hdirty
      exact (e.held_congr (hctxs.trans hsame) hdirty).symm

/-- R16, R17: the streams below number `k` have their hold reasons changed, where none of those picked has a parity error. -/
theorem Ev.forEach_holdOne_take (e : Ev) (picked : Ctx → Bool) (f : Holds → Holds) (h : e.halted = false) {k : Nat} (hk : k ≤ 256)
    (hg : ∀ i : StreamId, i.val < k → picked (e.ctx i) = true → (e.ctx i).parityOk = true) :
    e.forEach (allStreams.take k) (Ev.holdOne picked f) = e.heldTo k picked f := by
  induction k with
  | zero =>
    have : heldBelow 0 picked f e.m.ctxs = e.m.ctxs := table_ext fun j => by rw [get_heldBelow, if_neg (by simp)]
    simp [Ev.heldTo, this]
  | succ k ih =>
    have hstep := e.holdOne_heldTo picked f ⟨k, hk⟩ (hg ⟨k, hk⟩ (Nat.lt_succ_self k))
    rw [allStreams_take_succ ⟨k, hk⟩, Ev.forEach_append, ih (by omega) fun i hi => hg i (by omega),
      Ev.forEach_cons_of_not_halted _ _ _ (by exact h)]
    exact hstep

theorem heldBelow_all (picked : Ctx → Bool) (f : Holds → Holds) (v : Vector Ctx 256) :
    heldBelow 256 picked f v = tableMap v (fun _ c => if picked c then { c with holds := f c.holds } else c) :=
  table_ext fun j => by
    rw [get_heldBelow, get_tableMap, decide_eq_true j.isLt, Bool.true_and]; rfl

/-- R16, R17: a change of hold reasons, where no stream it picks has a parity error. -/
theorem Ev.setHolds_of_good (e : Ev) (p : PortId) (pick : Ctx → Bool) (f : Holds → Holds) (h : e.halted = false)
    (hg : ∀ i, holdsPicked p pick (e.ctx i) = true → (e.ctx i).parityOk = true) :
    e.setHolds p pick f = { e with
      m := { e.m with ctxs := tableMap e.m.ctxs (fun _ c => if holdsPicked p pick c then { c with holds := f c.holds } else c) }
      dirty := e.dirty ++ allStreams.filter (fun i =>
        holdsPicked p pick (e.ctx i) && decide (f (e.ctx i).holds ≠ (e.ctx i).holds) && decide (i ∉ e.dirty)) } := by
  have htake : allStreams.take 256 = allStreams := List.take_of_length_le (by simp [allStreams_eq])
  have := e.forEach_holdOne_take (holdsPicked p pick) f h (le_refl 256) fun i _ => hg i
  rw [Ev.setHolds_eq, ← heldBelow_all]
  rw [htake] at this
  rw [this, Ev.heldTo, htake]

/-- R4: a change of hold reasons that meets a parity error halts there, with the streams before it changed. -/
theorem Ev.setHolds_of_bad (e : Ev) (p : PortId) (pick : Ctx → Bool) (f : Holds → Holds) (h : e.halted = false) (i : StreamId)
    (hp : holdsPicked p pick (e.ctx i) = true) (hb : (e.ctx i).parityOk = false)
    (hg : ∀ j, j < i → holdsPicked p pick (e.ctx j) = true → (e.ctx j).parityOk = true) :
    e.setHolds p pick f = (e.heldTo i.val (holdsPicked p pick) f).halt .contextParity (BitVec.ofNat 32 i.val) := by
  have hctx : (e.heldTo i.val (holdsPicked p pick) f).m.ctx i = e.m.ctx i := get_heldBelow_self i _ f e.m.ctxs
  have hsplit : allStreams = allStreams.take i.val ++ i :: allStreams.drop (i.val + 1) := by
    rw [← List.singleton_append, ← List.append_assoc, ← allStreams_take_succ, List.take_append_drop]
  rw [Ev.setHolds_eq, hsplit, Ev.forEach_append, e.forEach_holdOne_take _ f h i.isLt.le fun j hj => hg j hj,
    Ev.forEach_cons_of_not_halted _ _ _ (by exact h)]
  have hone : (e.heldTo i.val (holdsPicked p pick) f).holdOne (holdsPicked p pick) f i =
      (e.heldTo i.val (holdsPicked p pick) f).halt .contextParity (BitVec.ofNat 32 i.val) := by
    rw [Ev.ctx_eq] at hp hb
    rw [Ev.holdOne, Ev.ctx_eq, hctx, if_pos hp, Ev.withCtx_of_bad (by rw [hctx]; exact hb)]
  rw [hone, Ev.forEach_of_halted _ _ (Ev.halt_halted _ _ _)]

/-! ### The order to stop a port -/

/-- R98: a port as the order to stop leaves it. -/
def Port.stopped (q : Port) : Port :=
  if q.state = .syncing ∨ q.state = .running then { q with state := .stopping, windowOpen := false }
  else if q.state = .faulted then { q with state := .disabled } else q

/-- R98: the order to stop changes the state of the port. -/
def Port.moves (q : Port) : Bool := q.state ≠ .disabled && q.state ≠ .stopping

/-- R16: what PORT_NOT_RUNNING changes: the streams of the port that are not held with it yet. -/
theorem setHolds_portNotRunning_dirty (s : State) (p : PortId) (ds : List StreamId) :
    allStreams.filter (fun i => holdsPicked p (fun _ => true) (s.ctx i) &&
      decide ({ (s.ctx i).holds with portNotRunning := true } ≠ (s.ctx i).holds) && decide (i ∉ ds)) =
    (s.unheld p).filter (fun i => decide (i ∉ ds)) := by
  have hne : ∀ h : Holds, decide ({ h with portNotRunning := true } ≠ h) = !h.portNotRunning := by
    intro ⟨a, b, c⟩; cases a <;> simp
  rw [State.unheld, List.filter_filter]
  refine List.filter_congr fun i _ => ?_
  rw [hne, holdsPicked]
  simp only [Bool.and_true]
  rw [Bool.and_comm]

theorem State.portsHeld_one (s : State) (p : PortId) : s.portsHeld (fun r => decide (r = p)) =
    { s with ctxs := tableMap s.ctxs (fun _ c =>
      if holdsPicked p (fun _ => true) c then { c with holds := { c.holds with portNotRunning := true } } else c) } := by
  simp only [State.portsHeld, holdsPicked, Bool.and_true]

/-- R16: PORT_NOT_RUNNING set on the streams of port `p`, where none of them has a parity error. -/
theorem Ev.holdPort_of_good (e : Ev) (p : PortId) (h : e.halted = false)
    (hg : ∀ i, (e.ctx i).live = true → (e.ctx i).params.portId = p → (e.ctx i).parityOk = true) :
    e.holdPort p true = { e with
      m := e.m.portsHeld (fun r => decide (r = p))
      dirty := e.dirty ++ (e.m.unheld p).filter (fun i => decide (i ∉ e.dirty)) } := by
  have hg' : ∀ i, holdsPicked p (fun _ => true) (e.ctx i) = true → (e.ctx i).parityOk = true := fun i hi => by
    simp only [holdsPicked, Bool.and_true, Bool.and_eq_true, decide_eq_true_eq] at hi
    exact hg i hi.1 hi.2
  rw [Ev.holdPort, e.setHolds_of_good p _ _ h hg', State.portsHeld_one, ← setHolds_portNotRunning_dirty]
  rfl

/-- R98, R144: the order to stop, by the state of the port. -/
theorem Ev.stopPort_of_resting {e : Ev} {p : PortId} (h : (e.m.port p).moves = false) : e.stopPort p = e := by
  unfold Ev.stopPort
  rw [Ev.port_eq]
  cases hs : (e.m.port p).state <;> simp [Port.moves, hs] at h <;> rfl

theorem Port.stopped_of_resting {q : Port} (h : q.moves = false) : q.stopped = q := by
  cases hs : q.state <;> simp [Port.moves, hs] at h <;> simp [Port.stopped, hs]

theorem Ev.stopPort_of_not_running {e : Ev} {p : PortId} (h : (e.m.port p).moves = true) (hr : (e.m.port p).state ≠ .running) :
    e.stopPort p = (e.modPort p Port.stopped).report p := by
  unfold Ev.stopPort
  rw [Ev.port_eq]
  cases hs : (e.m.port p).state <;> simp [Port.moves, hs] at h hr <;> simp [Ev.modPort, Port.stopped, hs]

/-- R98, R16: a RUNNING port ordered to stop holds its streams. -/
theorem Ev.stopPort_of_running {e : Ev} {p : PortId} (hh : e.halted = false) (h : (e.m.port p).state = .running)
    (hg : ∀ i, (e.ctx i).live = true → (e.ctx i).params.portId = p → (e.ctx i).parityOk = true) :
    e.stopPort p = Ev.report { e with
      m := (e.m.portsHeld (fun r => decide (r = p))).setPort p (e.m.port p).stopped
      dirty := e.dirty ++ (e.m.unheld p).filter (fun i => decide (i ∉ e.dirty)) } p := by
  have hhold := (e.modPort p (fun q => { q with state := .stopping, windowOpen := false })).holdPort_of_good p hh hg
  unfold Ev.stopPort
  rw [Ev.port_eq, h]
  dsimp only
  rw [hhold, Ev.andThen_of_not_halted (by exact hh),
    show (e.m.port p).stopped = { e.m.port p with state := .stopping, windowOpen := false } from if_pos (.inr h)]
  rfl

end Sys2Proof.Machine
end

section
/-! PROOFS. The engine: RUN written 1 and 0, the reads of a start, the halted engine (R140 to R147). -/

namespace Sys2Proof.Machine

open Sys2Proof

/-! ### Events of an engine that is not halted -/

theorem State.eventIf_of_true {s : State} {b : Bool} {f : Ev → Ev} (hb : b = true) : s.eventIf b f = s.event f := if_pos hb

theorem State.eventIf_of_false {s : State} {b : Bool} {f : Ev → Ev} (hb : b = false) : s.eventIf b f = s := if_neg (by simp [hb])

/-- R112: an event that marks nothing to be written and raises `causes`. -/
theorem State.event_of_silent {s : State} {f : Ev → Ev} {m : State} {causes : BitVec 3} (h : s.engine.state ≠ .halted)
    (hf : f (Ev.start s) = { Ev.start m with causes := causes }) : s.event f = m.sends [] causes :=
  State.event_eq_sends h (by rw [hf]; rfl) (by rw [hf]; rfl) (by rw [hf])

/-- R146: an event that halts the engine. -/
theorem Ev.halt_finish (e : Ev) (code : FaultCode) (detail : Word) : e.m.haltedAs (e.halt code detail).finish code detail := ⟨_, rfl⟩

theorem Ev.start_cause (s : State) (c : BitVec 3) : (Ev.start s).cause c = { Ev.start s with causes := c } := by
  rw [Ev.cause, show (Ev.start s).causes ||| c = c from BitVec.zero_or]

/-- Two events with the same machine that send out the same. -/
theorem Ev.ext_fields {a b : Ev} (hm : a.m = b.m) (hslots : a.slots = b.slots) (hdirty : a.dirty = b.dirty) (hblocks : a.blocks = b.blocks)
    (hacks : a.acks = b.acks) (hcauses : a.causes = b.causes) (hhalted : a.halted = b.halted) : a = b := by
  cases a; cases b
  simp only at hm hslots hdirty hblocks hacks hcauses hhalted
  rw [hm, hslots, hdirty, hblocks, hacks, hcauses, hhalted]

/-- R112: the end of an event, by its machine, the writes and the causes it ends with. -/
theorem Ev.finish_sends {e : Ev} {m : State} {ws : List PathItem} {causes : BitVec 3} (hm : e.m = m)
    (hw : e.slots ++ e.dirty.map m.partHalfWrite ++ e.blocks.map m.statusWrite ++ e.acks.map (fun a => m.ackWrite a.1 a.2) = ws)
    (hc : e.causes = causes) : e.finish = m.sends ws causes := by
  subst hm hc
  rw [Ev.finish_eq_sends, ← hw]; rfl

/-- R106: the first report of a port in an event. -/
theorem Ev.report_of_new {e : Ev} {p : PortId} (h : p ∉ e.blocks) :
    e.report p = { e with blocks := e.blocks ++ [p], causes := e.causes ||| causePort } := by
  rw [Ev.report, Ev.block, if_neg h]; rfl

/-! ### An engine stop (R144) -/

/-- The contexts once the RUNNING ports among `ps` have been ordered to stop. -/
def State.ctxsStopped (s : State) (ps : List PortId) : Vector Ctx 256 :=
  (s.portsHeld (fun p => decide (p ∈ ps) && decide ((s.port p).state = .running))).ctxs

/-- The ports once those among `ps` have been ordered to stop. -/
def State.portsStopped (s : State) (ps : List PortId) : Vector Port 4 :=
  tableMap s.ports (fun r q => if r ∈ ps.map Fin.val then q.stopped else q)

/-- The event once the ports `ps` have been ordered to stop in it, first of all. -/
def Ev.portsStopped (e : Ev) (ps : List PortId) : Ev :=
  { e with
    m := { e.m with ctxs := e.m.ctxsStopped ps, ports := e.m.portsStopped ps }
    dirty := (ps.filter (fun p => decide ((e.m.port p).state = .running))).flatMap e.m.unheld
    blocks := ps.filter (fun p => (e.m.port p).moves)
    causes := if ps.any (fun p => (e.m.port p).moves) then e.causes ||| causePort else e.causes }

theorem State.get_portsStopped (s : State) (ps : List PortId) (r : PortId) :
    (s.portsStopped ps).get r = if r ∈ ps then (s.port r).stopped else s.port r := by
  rw [State.portsStopped, get_tableMap]
  refine if_congr ?_ rfl rfl
  simp [Fin.val_inj]

theorem State.get_ctxsStopped (s : State) (ps : List PortId) (i : StreamId) :
    (s.ctxsStopped ps).get i =
      if (s.ctx i).live && (decide ((s.ctx i).params.portId ∈ ps) && decide ((s.port (s.ctx i).params.portId).state = .running)) then
        { s.ctx i with holds := { (s.ctx i).holds with portNotRunning := true } }
      else s.ctx i := get_tableMap _ _ i

/-- One more port among those ordered to stop. -/
theorem State.portsStopped_snoc (s : State) (ps : List PortId) (p : PortId) :
    s.portsStopped (ps ++ [p]) = (s.portsStopped ps).set p.val (s.port p).stopped := by
  refine table_ext fun r => ?_
  rw [get_set, State.get_portsStopped, State.get_portsStopped]
  by_cases hr : r = p <;> simp [hr]

theorem State.ctxsStopped_snoc_of_not_running {s : State} {ps : List PortId} {p : PortId} (h : (s.port p).state ≠ .running) :
    s.ctxsStopped (ps ++ [p]) = s.ctxsStopped ps := by
  refine table_ext fun i => ?_
  rw [State.get_ctxsStopped, State.get_ctxsStopped]
  by_cases hi : (s.ctx i).params.portId = p
  · simp [hi, h]
  · simp [hi]

theorem State.ctxsStopped_snoc_of_running {s : State} {ps : List PortId} {p : PortId} (hp : p ∉ ps) (h : (s.port p).state = .running) :
    s.ctxsStopped (ps ++ [p]) = (State.portsHeld { s with ctxs := s.ctxsStopped ps } (fun r => decide (r = p))).ctxs := by
  refine table_ext fun i => ?_
  rw [State.portsHeld, get_tableMap, State.get_ctxsStopped, State.get_ctxsStopped]
  by_cases hi : (s.ctx i).params.portId = p
  · simp [hi, h, hp]
  · cases hc : (s.ctx i).live && (decide ((s.ctx i).params.portId ∈ ps) && decide ((s.port (s.ctx i).params.portId).state = .running))
      <;> simp [hi, hc]

/-- R16: the streams of a port that has not been ordered to stop yet are as they were. -/
theorem State.unheld_ctxsStopped (s : State) {ps : List PortId} {p : PortId} (hp : p ∉ ps) :
    State.unheld { s with ctxs := s.ctxsStopped ps, ports := s.portsStopped ps } p = s.unheld p := by
  refine List.filter_congr fun i _ => ?_
  have hctx : State.ctx { s with ctxs := s.ctxsStopped ps, ports := s.portsStopped ps } i = _ := s.get_ctxsStopped ps i
  rw [hctx]
  by_cases hi : (s.ctx i).params.portId = p
  · simp [hi, hp]
  · split <;> simp [hi, Ctx.live]

theorem State.mem_unheld {s : State} {p : PortId} {i : StreamId} (h : i ∈ s.unheld p) : (s.ctx i).params.portId = p := by
  simp only [State.unheld, List.mem_filter, Bool.and_eq_true, decide_eq_true_eq] at h
  exact h.2.1.2

/-- The streams of one port are not those of others. -/
theorem Ev.not_mem_portsStopped_dirty {e : Ev} {ps : List PortId} {p : PortId} (hp : p ∉ ps) {i : StreamId} (hi : i ∈ e.m.unheld p) :
    i ∉ (e.portsStopped ps).dirty := by
  intro h
  obtain ⟨r, hr, hir⟩ := List.mem_flatMap.1 h
  have hrp : r = p := (State.mem_unheld hir).symm.trans (State.mem_unheld hi)
  exact hp (hrp ▸ (List.mem_filter.1 hr).1)

/-- The PORT cause, once some port of `ps` has moved and once another has. -/
theorem Ev.portsStopped_causes_snoc {e : Ev} (ps : List PortId) {p : PortId} (h : (e.m.port p).moves = true) :
    (e.portsStopped (ps ++ [p])).causes = (e.portsStopped ps).causes ||| causePort := by
  show (if (ps ++ [p]).any _ then _ else _) = (if ps.any _ then _ else _) ||| causePort
  rw [List.any_append, List.any_cons, h, Bool.true_or, Bool.or_true, if_pos rfl]
  split
  · rw [BitVec.or_assoc, BitVec.or_self]
  · rfl

/-- R98, R144: one more port is ordered to stop. -/
theorem Ev.stopPort_portsStopped {e : Ev} (h : e.halted = false) {ps : List PortId} {p : PortId} (hp : p ∉ ps)
    (hg : ∀ i, (e.m.ctx i).live = true → (e.m.port (e.m.ctx i).params.portId).state = .running → (e.m.ctx i).parityOk = true) :
    (e.portsStopped ps).stopPort p = e.portsStopped (ps ++ [p]) := by
  have hport : (e.portsStopped ps).m.port p = e.m.port p := (e.m.get_portsStopped ps p).trans (if_neg hp)
  have hblocks : p ∉ (e.portsStopped ps).blocks := fun hb => hp (List.mem_filter.1 hb).1
  have hports := e.m.portsStopped_snoc ps p
  have hrest : (e.m.port p).state ≠ .running → e.m.ctxsStopped (ps ++ [p]) = e.m.ctxsStopped ps := State.ctxsStopped_snoc_of_not_running
  cases hm : (e.m.port p).moves with
  | false =>
    have hnr : (e.m.port p).state ≠ .running := fun hr => by simp [Port.moves, hr] at hm
    have hsame : e.m.portsStopped (ps ++ [p]) = e.m.portsStopped ps := by
      rw [hports, Port.stopped_of_resting hm]
      refine table_ext fun r => ?_
      rw [get_set]; split
      next hr => rw [hr]; exact hport.symm
      next => rfl
    rw [Ev.stopPort_of_resting (by rw [hport]; exact hm)]
    simp [Ev.portsStopped, hsame, hrest hnr, hnr, hm]
  | true =>
    have hcauses := (e.portsStopped_causes_snoc ps hm).symm
    have hblocked : (e.portsStopped ps).blocks ++ [p] = (e.portsStopped (ps ++ [p])).blocks := by simp [Ev.portsStopped, hm]
    by_cases hr : (e.m.port p).state = .running
    · have hctxs := State.ctxsStopped_snoc_of_running hp hr
      have hun : (e.portsStopped ps).m.unheld p = e.m.unheld p := e.m.unheld_ctxsStopped hp
      have hfilter : (e.m.unheld p).filter (fun i => decide (i ∉ (e.portsStopped ps).dirty)) = e.m.unheld p :=
        List.filter_eq_self.2 fun i hi => decide_eq_true (Ev.not_mem_portsStopped_dirty hp hi)
      have hgood : ∀ i, ((e.portsStopped ps).ctx i).live = true → ((e.portsStopped ps).ctx i).params.portId = p →
          ((e.portsStopped ps).ctx i).parityOk = true := by
        intro i
        rw [show (e.portsStopped ps).ctx i = _ from e.m.get_ctxsStopped ps i]
        split
        all_goals exact fun hl hi => hg i hl (by rw [show (e.m.ctx i).params.portId = p from hi]; exact hr)
      rw [Ev.stopPort_of_running (by exact h) (by rw [hport]; exact hr) hgood, hport, hun, hfilter, Ev.report_of_new (by exact hblocks)]
      refine Ev.ext_fields ?_ rfl ?_ hblocked rfl hcauses rfl
      · show _ = ({ e.m with ctxs := e.m.ctxsStopped (ps ++ [p]), ports := e.m.portsStopped (ps ++ [p]) } : State)
        rw [hctxs, hports]; rfl
      · simp [Ev.portsStopped, hr]
    · rw [Ev.stopPort_of_not_running (by rw [hport]; exact hm) (by rw [hport]; exact hr), Ev.report_of_new (by exact hblocks)]
      refine Ev.ext_fields ?_ rfl ?_ hblocked rfl hcauses rfl
      · show _ = ({ e.m with ctxs := e.m.ctxsStopped (ps ++ [p]), ports := e.m.portsStopped (ps ++ [p]) } : State)
        rw [hrest hr, hports, ← hport]; rfl
      · simp [Ev.portsStopped, hr]

/-- R144: every port of a list is ordered to stop, first of all in its event. -/
theorem Ev.forEach_stopPort {e : Ev} (h : e.halted = false) (hd : e.dirty = []) (hb : e.blocks = [])
    (hg : ∀ i, (e.m.ctx i).live = true → (e.m.port (e.m.ctx i).params.portId).state = .running → (e.m.ctx i).parityOk = true)
    (ps : List PortId) (hn : ps.Nodup) : e.forEach ps Ev.stopPort = e.portsStopped ps := by
  induction ps using List.reverseRecOn with
  | nil =>
    have hc : e.m.ctxsStopped [] = e.m.ctxs := table_ext fun i => by rw [State.get_ctxsStopped]; simp [State.ctx]
    have hp : e.m.portsStopped [] = e.m.ports := table_ext fun r => by rw [State.get_portsStopped]; simp [State.port]
    exact Ev.ext_fields (by rw [Ev.portsStopped, hc, hp]; rfl) rfl hd hb rfl rfl rfl
  | append_singleton ps p ih =>
    obtain ⟨hps, -, hdis⟩ := List.nodup_append.1 hn
    have hp : p ∉ ps := fun hm => hdis p hm p (List.mem_singleton_self p) rfl
    rw [Ev.forEach_append, ih hps, Ev.forEach_cons_of_not_halted _ _ _ (by exact h)]
    exact Ev.stopPort_portsStopped h hp hg

/-- R144: what an engine stop leaves and sends, where no stream it holds has a parity error. -/
theorem exec_runWritten0_of_good {s : State} (h : s.engine.state = .running)
    (hg : ∀ i, (s.ctx i).live = true → (s.port (s.ctx i).params.portId).state = .running → (s.ctx i).parityOk = true) :
    exec .runWritten0 s = .next (((((Ev.start s).modEngine (fun g => { g with state := .stopping })).modScanner (fun sc =>
      { sc with timer := false, remembered := false })).portsStopped allPorts).finish) := by
  rw [exec_runWritten0_of_running h, Ev.engineStop, Ev.forEach_stopPort rfl rfl rfl hg _ (by decide)]

theorem State.ctxsStopped_all (s : State) :
    s.ctxsStopped allPorts = (s.portsHeld (fun p => decide ((s.port p).state = .running))).ctxs := by
  simp [State.ctxsStopped, mem_allPorts]

theorem State.portsStopped_all (s : State) : s.portsStopped allPorts = tableMap s.ports (fun _ q => q.stopped) :=
  table_ext fun r => by rw [State.get_portsStopped, if_pos (mem_allPorts r), get_tableMap]; rfl

/-- Settles O12. -/
theorem engineStopOrders : Obligations.EngineStopOrders := by
  unfold Obligations.EngineStopOrders
  intro s h hg
  dsimp only
  rw [exec_runWritten0_of_good h hg]
  refine congrArg _ (Ev.finish_sends ?_ ?_ ?_)
  · refine Eq.trans ?_ (congrArg₂ (fun v w => ({ s with
      engine := { s.engine with state := .stopping }
      scanner := { s.scanner with timer := false, remembered := false }
      ctxs := v, ports := w } : State)) s.ctxsStopped_all s.portsStopped_all)
    rfl
  · exact List.append_nil _
  · show (if allPorts.any _ then 0 ||| causePort else 0) = _
    rw [show (0 : BitVec 3) ||| causePort = causePort from BitVec.zero_or]
    rfl

/-- R140, R144: an engine stop leaves the engine STOPPING where no stream it holds has a parity error. -/
theorem exec_runWritten0_engine {s : State} (h : s.engine.state = .running)
    (hg : ∀ i, (s.ctx i).live = true → (s.port (s.ctx i).params.portId).state = .running → (s.ctx i).parityOk = true) :
    ∃ t, exec .runWritten0 s = .next t ∧ t.engine = { s.engine with state := .stopping } :=
  ⟨_, exec_runWritten0_of_good h hg, by rw [Ev.finish_engine]; rfl⟩

/-! ### RUN written 1 and 0 (R140) -/

theorem exec_runWritten0_of_starting {s : State} (h : s.engine.state = .starting) :
    exec .runWritten0 s = .next (State.sends { s with engine := { s.engine with withdrawn := true } } [] 0) := by
  show Host.Outcome.next (s.eventIf _ Ev.runOff) = _
  rw [State.eventIf_of_true (by simp [h])]
  refine congrArg _ (State.event_of_silent (by simp [h]) ?_)
  have hoff : Ev.runOff (Ev.start s) = (Ev.start s).modEngine (fun g => { g with withdrawn := true }) := by
    unfold Ev.runOff; rw [Ev.start_m, h]
  exact hoff

theorem exec_runWritten0_of_other {s : State} (h : s.engine.state = .stopped ∨ s.engine.state = .stopping ∨ s.engine.state = .halted) :
    exec .runWritten0 s = .next s := by
  show Host.Outcome.next (s.eventIf _ Ev.runOff) = _
  rw [State.eventIf_of_false]
  obtain h | h | h := h <;> simp [h]

/-- R141: check 1 passes: the header is read at the page base. -/
theorem Ev.startEngine_of_page {s : State} (h : s.engine.pageRegs ≠ 0) : (Ev.start s).startEngine = Ev.start { s with
    engine := { s.engine with state := .starting, withdrawn := false, pageBase := s.engine.pageRegs }
    smi := s.smi.ask .header s.engine.pageRegs 64 } := by
  refine Eq.trans (if_neg h) ?_
  have hpage : State.page { s with engine := { s.engine with state := .starting, withdrawn := false, pageBase := s.engine.pageRegs } } 0 =
      s.engine.pageRegs := BitVec.add_zero _
  exact Ev.ext_fields (congrArg (fun a => ({ s with
    engine := { s.engine with state := .starting, withdrawn := false, pageBase := s.engine.pageRegs }
    smi := s.smi.ask .header a 64 } : State)) hpage) rfl rfl rfl rfl rfl rfl

/-- R141: check 1 fails. -/
theorem Ev.startEngine_of_no_page {s : State} (h : s.engine.pageRegs = 0) : (Ev.start s).startEngine =
    { Ev.start { s with engine := { s.engine with
        state := .stopped, withdrawn := false, pageBase := s.engine.pageRegs, startResult := .pageUnset } } with
      causes := causeEngine } := by
  exact (if_pos h).trans (Ev.start_cause _ _)

/-- Settles O11. -/
theorem runWriteTable : Obligations.RunWriteTable := by
  unfold Obligations.RunWriteTable
  intro s
  refine ⟨fun h hb => ?_, fun h hb => ?_, exec_runWritten1_of_not_stopped, exec_runWritten0_of_starting, exec_runWritten0_engine,
    exec_runWritten0_of_other, ?_⟩
  · rw [exec_runWritten1_of_stopped h, Ev.startEngine_of_page hb]; rfl
  · rw [exec_runWritten1_of_stopped h, Ev.startEngine_of_no_page hb, show s.engine.pageRegs = 0 from hb]; rfl
  · rw [readReg_control]
    split
    next h => rw [decide_eq_true h]; rfl
    next h => rw [decide_eq_false h]; rfl

/-! ### The reads of a start (R141 to R143) -/

/-- R141: the header read of a start ends: the read completes, and what came is decided. -/
theorem exec_headerReadComplete {s : State} {f : Read} (hf : s.smi.flyingFor .header = some f) (hs : s.engine.state = .starting)
    (r : ReadResult Bytes64) : exec (.headerReadComplete r) s = .next (match r with
      | .data h => ((Ev.start (s.completed f.rid)).headerData h).finish
      | .fault => ((Ev.start (s.completed f.rid)).startFailed .headerFault).finish) := by
  show Host.Outcome.next _ = _
  rw [hf]
  dsimp only
  rw [State.event_of_not_halted (by simp [hs])]
  cases r <;> exact congrArg (fun e : Ev => Host.Outcome.next e.finish) (if_pos hs)

/-- R141: a failed check leaves the engine STOPPED with its result. -/
theorem Ev.startFailed_finish (m : State) (r : StartResult) : ((Ev.start m).startFailed r).finish =
    State.sends { m with engine := { m.engine with state := .stopped, startResult := r } } [] causeEngine :=
  Ev.finish_sends rfl rfl BitVec.zero_or

/-- R143: the end of a start that was withdrawn. -/
theorem Ev.endStart_of_withdrawn {e : Ev} (h : e.m.engine.withdrawn = true) : e.endStart = { e with
    m := { e.m with engine := { e.m.engine with state := .stopped } }
    causes := e.causes ||| causeEngine } := by
  rw [Ev.endStart, if_pos h]; rfl

/-- R143: the end of a start. -/
theorem Ev.endStart_of_kept {e : Ev} (h : e.m.engine.withdrawn = false) : e.endStart = { e with
    m := { e.m with
      engine := { e.m.engine with state := .running }
      scanner := { e.m.scanner with timer := e.m.scanner.period ≠ 0, scan := none, remembered := false } }
    causes := e.causes ||| causeEngine } := by
  rw [Ev.endStart, if_neg (by simp [h])]; rfl

/-- R143: how the event of a start that was withdrawn ends, with the slots it writes. -/
theorem Ev.endStart_finish_of_withdrawn {m : State} {ws : List PathItem} (h : m.engine.withdrawn = true) :
    (Ev.endStart { Ev.start m with slots := ws }).finish =
      State.sends { m with engine := { m.engine with state := .stopped } } ws causeEngine := by
  rw [Ev.endStart_of_withdrawn (by exact h)]
  exact Ev.finish_sends rfl (by simp [Ev.start]) BitVec.zero_or

/-- R143: how the event of a start ends, with the slots it writes. -/
theorem Ev.endStart_finish_of_kept {m : State} {ws : List PathItem} (h : m.engine.withdrawn = false) :
    (Ev.endStart { Ev.start m with slots := ws }).finish = State.sends { m with
      engine := { m.engine with state := .running }
      scanner := { m.scanner with timer := m.scanner.period ≠ 0, scan := none, remembered := false } } ws causeEngine := by
  rw [Ev.endStart_of_kept (by exact h)]
  exact Ev.finish_sends rfl (by simp [Ev.start]) BitVec.zero_or

/-- R36: the start check of the memory cap. -/
theorem Admission.overBudget_iff (a : Admission) (cap : Word) : a.overBudget cap = true ↔ cap ≠ 0 ∧ cap.toNat < a.memLoad := by
  simp [Admission.overBudget]

/-- R141, R127: a header that passes its checks is taken. -/
def State.headerTaken (m : State) (h : Bytes64) : State :=
  { m with
    adm := { m.adm with memCap := headerMemoryCap h }
    scanner := { m.scanner with period := headerScanPeriod h }
    engine := { m.engine with startResult := .started, epoch := headerEpoch h } }

theorem Ev.headerData_of_good {m : State} {h : Bytes64} (hf : headerFormat h = 1) (hb : m.adm.overBudget (headerMemoryCap h) = false) :
    (Ev.start m).headerData h =
      if m.engine.freshStart then (Ev.start (m.headerTaken h)).ask .freshArray (m.page Config.reqOffset) 260
      else (Ev.start (m.headerTaken h)).endStart := by
  rw [Ev.headerData, if_neg (not_not.2 hf), if_neg (by exact ne_true_of_eq_false hb)]
  rfl

/-- Settles O13. -/
theorem headerReadDecides : Obligations.HeaderReadDecides := by
  unfold Obligations.HeaderReadDecides
  intro s f hf hs
  dsimp only
  refine ⟨(exec_headerReadComplete hf hs _).trans (congrArg _ (Ev.startFailed_finish _ _)), fun h => ⟨fun hbad => ?_,
    fun hok hcap hlt => ?_, fun hok hcap => ?_⟩⟩
  · rw [exec_headerReadComplete hf hs]
    dsimp only
    rw [Ev.headerData, if_pos (show headerFormat h ≠ 1 from hbad), Ev.startFailed_finish]
  · rw [exec_headerReadComplete hf hs]
    dsimp only
    have hover : (Ev.start (s.completed f.rid)).m.adm.overBudget (headerMemoryCap h) = true := (Admission.overBudget_iff _ _).2 ⟨hcap, hlt⟩
    rw [Ev.headerData, if_neg (not_not.2 (show headerFormat h = 1 from hok)), if_pos hover, Ev.startFailed_finish]
  · have hgood : (s.completed f.rid).adm.overBudget (headerMemoryCap h) = false := by
      rw [Bool.eq_false_iff, ne_eq, Admission.overBudget_iff]
      rintro ⟨h0, hlt⟩
      obtain hc | hc := hcap
      · exact h0 hc
      · exact absurd hlt (not_lt.2 hc)
    have hexec : exec (.headerReadComplete (.data h)) s = _ :=
      (exec_headerReadComplete hf hs _).trans (congrArg (fun e : Ev => Host.Outcome.next e.finish) (Ev.headerData_of_good hok hgood))
    refine ⟨fun hfresh => ?_, fun hfresh hw => ?_, fun hfresh hw => ?_⟩
    · exact hexec.trans (congrArg (fun e : Ev => Host.Outcome.next e.finish) (if_pos hfresh))
    all_goals refine (hexec.trans (congrArg (fun e : Ev => Host.Outcome.next e.finish) (if_neg (ne_true_of_eq_false hfresh)))).trans ?_
    · exact congrArg Host.Outcome.next (Ev.endStart_finish_of_withdrawn (m := (s.completed f.rid).headerTaken h) (ws := []) hw)
    · exact congrArg Host.Outcome.next (Ev.endStart_finish_of_kept (m := (s.completed f.rid).headerTaken h) (ws := []) hw)

/-- R142: the fresh-start read ends: the read completes, and every area is written, or the engine halts. -/
theorem exec_freshStartReadComplete {s : State} {f : Read} (hf : s.smi.flyingFor .freshArray = some f) (hs : s.engine.state = .starting)
    (r : ReadResult ReqArray) : exec (.freshStartReadComplete r) s = .next (match r with
      | .data a => ((Ev.start (s.completed f.rid)).freshData a).finish
      | .fault => (Ev.start (s.completed f.rid)).arrayFault.finish) := by
  show Host.Outcome.next _ = _
  rw [hf]
  dsimp only
  rw [State.event_of_not_halted (by simp [hs])]
  cases r <;> exact congrArg (fun e : Ev => Host.Outcome.next e.finish) (if_pos hs)

theorem map_allStreams {α : Type} (g : Nat → α) : allStreams.map (fun i => g i.val) = (List.range 256).map g := by
  rw [allStreams, List.map_map]
  exact List.map_congr_left fun i hi => congrArg g (Nat.mod_eq_of_lt (List.mem_range.1 hi))

theorem map_range260 {α : Type} (g : Nat → α) :
    (List.range 260).map (fun k => g (Fin.ofNat 260 k).val) = (List.range 260).map g :=
  List.map_congr_left fun _ hk => congrArg g (Nat.mod_eq_of_lt (List.mem_range.1 hk))

theorem partHalf_reset : partHalf Ctx.reset = zeros 6 ++ [0xFF] ++ zeros 57 := by decide +kernel

theorem statusBlock_reset : statusBlock Port.reset = zeros 64 := by decide +kernel

/-- R142: the writes of a fresh start, area by area. -/
theorem State.freshWrites_eq (s : State) (a : ReqArray) : s.freshWrites a =
    (List.range 256).map (fun i => .write (s.page (0x800 + 4 * i)) (zeros 4)) ++
    (List.range 256).map (fun i => .write (s.page (0x1040 + 128 * i)) (zeros 6 ++ [0xFF] ++ zeros 57)) ++
    (List.range 4).map (fun p => .write (s.page (0xC0 + 64 * p)) (zeros 64)) ++
    (List.range 260).map (fun i => .write (s.page (0x600 + i)) [byteAt a i]) ++
    [.write (s.page 0x20) (le4 (s.engine.epoch + 1)), .write (s.page 0x28) (zeros 8)] := by
  have hhalf (i : StreamId) : Config.streamOffset + 128 * i.val + 0x40 = 0x1040 + 128 * i.val := by
    simp only [Config.streamOffset]; omega
  have h1 := map_allStreams (fun i => PathItem.write (s.page (0x800 + 4 * i)) (zeros 4))
  have h2 := map_allStreams (fun i => PathItem.write (s.page (0x1040 + 128 * i)) (zeros 6 ++ [0xFF] ++ zeros 57))
  have h3 := map_range260 (fun i => PathItem.write (s.page (0x600 + i)) [byteAt a i])
  rw [← h1, ← h2, ← h3, ← partHalf_reset, ← statusBlock_reset, State.freshWrites]
  simp only [hhalf]
  rfl

/-- R142: the areas are written, the array is copied, and the start ends. -/
theorem Ev.freshData_eq (m : State) (a : ReqArray) : (Ev.start m).freshData a = Ev.endStart { Ev.start { m with
    engine := { m.engine with freshStart := false }
    scanner := { m.scanner with ackCopy := Vector.ofFn (fun i => reqByte a i) } } with slots := m.freshWrites a } := by
  simp only [Ev.freshData, Ev.modEngine, Ev.modScanner, Ev.start, List.nil_append]

/-- Settles O14. -/
theorem freshStartWritesAll : Obligations.FreshStartWritesAll := by
  unfold Obligations.FreshStartWritesAll
  intro s f hf hs
  dsimp only
  have hwrites (a : ReqArray) : (s.completed f.rid).freshWrites a = s.freshWrites a := rfl
  refine ⟨fun a => ?_, ⟨_, exec_freshStartReadComplete hf hs .fault, Ev.halt_finish _ _ _⟩⟩
  rw [exec_freshStartReadComplete hf hs, ← State.freshWrites_eq, ← hwrites]
  dsimp only
  rw [Ev.freshData_eq]
  exact ⟨fun hw => congrArg Host.Outcome.next (Ev.endStart_finish_of_kept hw),
    fun hw => congrArg Host.Outcome.next (Ev.endStart_finish_of_withdrawn hw)⟩

end Sys2Proof.Machine
end

section
/-! PROOFS. The halted engine (R147), scans and the end of an array read (R131, R132), and the reads of the System Memory Interface (R128). -/

namespace Sys2Proof.Machine

open Sys2Proof

/-! ### Events of a halted engine (R147) -/

theorem State.eventIf_of_halted {s : State} (h : s.engine.state = .halted) (b : Bool) (f : Ev → Ev) : s.eventIf b f = s := by
  unfold State.eventIf
  split
  next => exact State.event_of_halted h f
  next => rfl

theorem State.decideStream_of_halted {s : State} (h : s.engine.state = .halted) (hh : Bytes64) (body : StreamId → Byte → Ctx → Ev → Ev) :
    s.decideStream hh body = s := by
  unfold State.decideStream
  split
  next => rfl
  next => exact State.event_of_halted h _

theorem State.decidePort_of_halted {s : State} (h : s.engine.state = .halted) (body : PortId → Ev → Ev × PortResult) :
    s.decidePort body = s := by
  unfold State.decidePort
  split
  next => rfl
  next => exact State.event_of_halted h _

theorem State.entryFault_of_halted {s : State} (h : s.engine.state = .halted) : s.entryFault = s := by
  unfold State.entryFault
  split
  next => exact State.event_of_halted h _
  next => exact State.decidePort_of_halted h _

theorem State.endOpen_of_halted {s : State} (h : s.engine.state = .halted) (n : Option Word) : s.endOpen n = s := by
  unfold State.endOpen
  split
  next => exact State.event_of_halted h _
  next => rfl

theorem State.endRefresh_of_halted {s : State} (h : s.engine.state = .halted) (i : StreamId) (n : Option Word) : s.endRefresh i n = s := by
  unfold State.endRefresh
  split
  next => exact State.event_of_halted h _
  next => rfl

/-- R147: what changes nothing in a halted engine. -/
def Instr.frozenByHalt (c : Instr) : Prop :=
  c ∉ [Instr.coldReset, Instr.functionReset, Instr.engineReset, Instr.holdoffTimerExpiry] ∧
  (∀ v, c ≠ .intrStatusWrite v ∧ c ≠ .intrEnableWrite v ∧ c ≠ .intrHoldoffWrite v) ∧ ∀ a b, c ≠ .pcieConfigWrite a b

theorem exec_of_frozen {s : State} (h : s.engine.state = .halted) {c : Instr} (hc : Instr.frozenByHalt c) : exec c s = .next s := by
  obtain ⟨hreset, hintr, hpcie⟩ := hc
  have hev := State.event_of_halted h
  have hif := State.eventIf_of_halted h
  have hstream := State.decideStream_of_halted h
  have hport := State.decidePort_of_halted h
  cases c with
  | coldReset | functionReset | engineReset | holdoffTimerExpiry => simp at hreset
  | intrStatusWrite v => exact absurd rfl (hintr v).1
  | intrEnableWrite v => exact absurd rfl (hintr v).2.1
  | intrHoldoffWrite v => exact absurd rfl (hintr v).2.2
  | pcieConfigWrite a b => exact absurd rfl (hpcie a b)
  | registerWriteIgnored | lateReadData => rfl
  | pageWrite reg v => exact congrArg Host.Outcome.next (if_neg (by simp [h]))
  | runWritten1 | runWritten0 | scan | scanTimerExpiry | cycleTimerExpiry | portEnterRunning | deadlineTimeout | aperiodicWindowClose
  | engineEnterStopped => exact congrArg Host.Outcome.next (hif _ _)
  | openStream hh =>
    show execOpenStream hh s = _
    rw [execOpenStream, hstream, ite_self]
  | closeStream hh pos =>
    show execCloseStream hh pos s = _
    rw [execCloseStream, hstream, ite_self]
  | fire hh pos =>
    show execFire hh pos s = _
    rw [execFire, hstream, ite_self]
  | pause hh pos =>
    show execPause hh pos s = _
    rw [execPause, hstream, ite_self]
  | resume hh =>
    show execResume hh s = _
    rw [execResume, hstream, ite_self]
  | configure cb =>
    show execConfigure cb s = _
    rw [execConfigure, hport, ite_self]
  | startPort cb =>
    show execStartPort cb s = _
    rw [execStartPort, hport, ite_self]
  | stopPort cb =>
    show execStopPort cb s = _
    rw [execStopPort, hport, ite_self]
  | portBadAction cb =>
    show execPortBadAction cb s = _
    rw [execPortBadAction, hport, ite_self]
  | streamBadAction hh =>
    show execStreamBadAction hh s = _
    unfold execStreamBadAction
    split
    next => rw [hstream, ite_self]
    next => rfl
  | entryFault => exact congrArg Host.Outcome.next (State.entryFault_of_halted h)
  | consumedReadComplete r => exact congrArg Host.Outcome.next (State.endOpen_of_halted h _)
  | consumedRefreshComplete i r => exact congrArg Host.Outcome.next (State.endRefresh_of_halted h i _)
  | startFrameEnd p echo =>
    show execStartFrameEnd p echo s = _
    unfold execStartFrameEnd
    split
    next => rw [hev]
    next => rfl
  | requestExchangeEnd p echo heard =>
    show execRequestExchangeEnd p echo heard s = _
    unfold execRequestExchangeEnd
    split
    next => rw [hev, ite_self]
    next => rfl
  | fetchExchangeEnd p echo heard =>
    show execFetchExchangeEnd p echo heard s = _
    unfold execFetchExchangeEnd
    split
    next => rw [hev, ite_self]
    next => rfl
  | probeExchangeEnd p echo heard =>
    show execProbeExchangeEnd p echo heard s = _
    unfold execProbeExchangeEnd
    split
    next => rw [hev, ite_self]
    next => rfl
  | scanSnapshotComplete r =>
    show execScanSnapshotComplete r s = _
    unfold execScanSnapshotComplete
    split
    next => rw [hev]
    next => rfl
  | headerReadComplete r =>
    show execHeaderReadComplete r s = _
    unfold execHeaderReadComplete
    split
    next => rw [hev]
    next => rfl
  | freshStartReadComplete r =>
    show execFreshStartReadComplete r s = _
    unfold execFreshStartReadComplete
    split
    next => rw [hev]
    next => rfl
  | selectorReadComplete rid r pos =>
    show execSelectorReadComplete rid r pos s = _
    unfold execSelectorReadComplete
    split
    next => cases r <;> exact congrArg Host.Outcome.next (hev _)
    next => rfl
  | halfReadComplete rid r pos =>
    show execHalfReadComplete rid r pos s = _
    unfold execHalfReadComplete
    split
    next =>
      cases r with
      | data d =>
        dsimp only
        rw [hev, ite_self]
      | fault => exact congrArg Host.Outcome.next (hev _)
    next => rfl
  | smiReadTimeout rid pos =>
    show execSmiReadTimeout rid pos s = _
    unfold execSmiReadTimeout
    split
    next => rfl
    next f _ =>
      cases f.what with
      | scanArray | header | freshArray | selector | half => exact congrArg Host.Outcome.next (hev _)
      | entry i => exact congrArg Host.Outcome.next (State.entryFault_of_halted h)
      | openConsumed i => exact congrArg Host.Outcome.next (State.endOpen_of_halted h none)
      | refresh i => exact congrArg Host.Outcome.next (State.endRefresh_of_halted h i none)
  | cancelledOutcomeSettle i =>
    show execCancelledOutcomeSettle i s = _
    unfold execCancelledOutcomeSettle
    split
    next => rw [hev]
    next => rfl

/-- Signalling puts one message on the path at most. -/
theorem State.signal_path_or (s : State) (u : IntrUnit) :
    (s.signal u).smi.path = s.smi.path ∨ (s.signal u).smi.path = s.smi.path ++ [.msi] := by
  rw [State.signal_path]
  cases u.sends <;> simp

theorem exec_signal_keeps {s : State} {c : Instr} {u : IntrUnit} (h : exec c s = .next (s.signal u)) :
    ∃ t, exec c s = .next t ∧ s.sameButSignals t ∧ (t.smi.path = s.smi.path ∨ t.smi.path = s.smi.path ++ [.msi]) :=
  ⟨_, h, s.signal_sameButSignals u, s.signal_path_or u⟩

/-- Settles O16. -/
theorem haltedEngineFrozen : Obligations.HaltedEngineFrozen := by
  unfold Obligations.HaltedEngineFrozen
  refine fun s c h => ⟨fun hc => ?_, fun hc => ?_, fun h1 h2 h3 => exec_of_frozen h ⟨h1, h2, h3⟩⟩
  · simp only [List.mem_cons, List.not_mem_nil, or_false] at hc
    obtain rfl | rfl | rfl := hc <;> exact ⟨_, rfl, rfl, rfl⟩
  · obtain rfl | ⟨v, rfl | rfl | rfl⟩ | ⟨a, b, rfl⟩ := hc
    · by_cases ht : s.intr.timer = none
      · exact ⟨s, exec_holdoffTimerExpiry_of_stopped ht, rfl, .inl rfl⟩
      · exact exec_signal_keeps (exec_holdoffTimerExpiry_of_runs ht)
    all_goals exact exec_signal_keeps rfl

/-! ### Scan requests (R131) -/

theorem Ev.startScan_eq (m : State) : (Ev.start m).startScan = Ev.start { m with
    scanner := { m.scanner with scan := some .reading }
    smi := m.smi.ask .scanArray (m.page 0x400) 260 } := rfl

theorem Ev.scanRequest_of_idle {m : State} (h : m.scanner.scan = none) : (Ev.start m).scanRequest = (Ev.start m).startScan :=
  if_pos (Option.isNone_iff_eq_none.2 h)

theorem Ev.scanRequest_of_busy {m : State} (h : m.scanner.scan ≠ none) :
    (Ev.start m).scanRequest = Ev.start { m with scanner := { m.scanner with remembered := true } } :=
  if_neg (by simpa using h)

/-- R131: a scan request, by whichever command, is an event of a RUNNING engine alone. -/
theorem exec_scanRequest {s : State} {c : Instr} (hc : c = .scan ∨ (c = .scanTimerExpiry ∧ s.scanner.timer = true)) :
    exec c s = .next (s.eventIf (s.engine.state = .running) Ev.scanRequest) := by
  obtain rfl | ⟨rfl, ht⟩ := hc
  · rfl
  · show execScanTimerExpiry s = _
    rw [execScanTimerExpiry, ht, Bool.and_true]

/-- Settles O17. -/
theorem scanRequests : Obligations.ScanRequests := by
  unfold Obligations.ScanRequests
  intro s c hc
  rw [exec_scanRequest hc]
  refine ⟨fun hr hidle => ?_, fun hr hbusy => ?_, fun hr => ?_⟩
  · rw [State.eventIf_of_true (decide_eq_true hr)]
    exact congrArg _ (State.event_of_silent (by simp [hr]) ((Ev.scanRequest_of_idle hidle).trans (Ev.startScan_eq s)))
  · rw [State.eventIf_of_true (decide_eq_true hr)]
    exact congrArg _ (State.event_of_silent (by simp [hr]) (Ev.scanRequest_of_busy hbusy))
  · rw [State.eventIf_of_false (decide_eq_false hr)]

/-! ### The end of an array read (R132) -/

theorem scanOrder_of_lt {k : Nat} (h : k < 4) : (scanOrder k).val = 256 + k := by
  rw [scanOrder, if_pos h]; exact Nat.mod_eq_of_lt (by omega)

theorem scanOrder_of_le {k : Nat} (h4 : 4 ≤ k) (h : k < 260) : (scanOrder k).val = k - 4 := by
  rw [scanOrder, if_neg (by omega)]; exact Nat.mod_eq_of_lt (by omega)

theorem ixOwner_of_port {i : ReqIx} (h : 256 ≤ i.val) : ixOwner i = .inr ⟨i.val - 256, by omega⟩ := dif_neg (by omega)

theorem ixOwner_of_stream {i : ReqIx} (h : i.val < 256) : ixOwner i = .inl ⟨i.val, h⟩ := dif_pos h

/-- R132: a scan's array read has ended with data. -/
theorem exec_scanSnapshotComplete {s : State} {f : Read} (hf : s.smi.flyingFor .scanArray = some f) (hs : s.engine.state ≠ .halted)
    (r : ReadResult ReqArray) : exec (.scanSnapshotComplete r) s = .next ((Ev.start s).snapshotEnd f.rid r).finish := by
  show execScanSnapshotComplete r s = _
  unfold execScanSnapshotComplete
  rw [hf]
  dsimp only
  rw [State.event_of_not_halted hs]

/-- R112: an event that examines a snapshot and does nothing else sends out nothing. -/
theorem Ev.examine_finish (m : State) (a : ReqArray) : ((Ev.start m).examine a 260).finish = ((Ev.start m).examine a 260).m.sends [] 0 := by
  rw [Ev.examine_eq]
  exact Ev.finish_sends rfl rfl rfl

/-- Settles O18. -/
theorem snapshotTakesFirstRequest : Obligations.SnapshotTakesFirstRequest := by
  unfold Obligations.SnapshotTakesFirstRequest
  refine ⟨fun k => ⟨scanOrder_of_lt, scanOrder_of_le⟩, fun m i hi => ?_, fun m i k hk => ?_, fun i => ⟨fun hi => ?_, fun hi => ?_⟩,
    fun _ _ => rfl, fun _ _ => rfl, fun s f hf hs => ?_⟩
  · rw [State.takeable, ixOwner_of_port hi]
  · have hix : ixOwner i = .inl k := by
      have hi : i.val < 256 := by omega
      rw [ixOwner_of_stream hi]; exact congrArg Sum.inl (Fin.ext hk)
    rw [State.takeable, hix]
    simp
  · rw [entryPlace, ixOwner_of_stream hi]; rfl
  · rw [entryPlace, ixOwner_of_port hi]; rfl
  · have hexec := exec_scanSnapshotComplete hf hs
    refine ⟨fun a hr => ?_, fun a hr => ?_, ⟨_, hexec .fault, Ev.halt_finish _ _ _⟩⟩
    · have hexam : (Ev.start s).snapshotEnd f.rid (.data a) = (Ev.start (s.completed f.rid)).examine a 260 := if_pos hr
      exact ⟨_, Ev.examine_from a 260 (Ev.start (s.completed f.rid)) 0 rfl, by rw [hexec, hexam, Ev.examine_finish]⟩
    · have hends : (Ev.start s).snapshotEnd f.rid (.data a) = Ev.start { s.completed f.rid with
          scanner := { s.scanner with scan := none } } := if_neg hr
      rw [hexec, hends]
      exact congrArg Host.Outcome.next (Ev.finish_sends rfl rfl rfl)

/-! ### The reads of the tracker (R128) -/

/-- R128: the tracker has room for the reads that wait. -/
theorem Smi.fill_of_room {m : Smi} (h : m.inFlight.length + m.waiting.length ≤ 16) :
    m.fill = { m with inFlight := m.inFlight ++ m.waiting, waiting := [] } := by
  have hw : m.waiting.length ≤ 16 - m.inFlight.length := by omega
  show ({ m with inFlight := m.inFlight ++ m.waiting.take (16 - m.inFlight.length), waiting := m.waiting.drop (16 - m.inFlight.length) } : Smi) = _
  rw [List.take_of_length_le hw, List.drop_of_length_le hw]

/-- R128: the tracker has room for one read. -/
theorem Smi.fill_of_one {m : Smi} {x : Read} {rest : List Read} (h : m.inFlight.length = 15) (hw : m.waiting = x :: rest) :
    m.fill = { m with inFlight := m.inFlight ++ [x], waiting := rest } := by
  show ({ m with inFlight := m.inFlight ++ m.waiting.take (16 - m.inFlight.length), waiting := m.waiting.drop (16 - m.inFlight.length) } : Smi) = _
  rw [h, hw]; rfl

/-- R128: the tracker is full. -/
theorem Smi.fill_of_full {m : Smi} (h : m.inFlight.length = 16) : m.fill = m := by
  show ({ m with inFlight := m.inFlight ++ m.waiting.take (16 - m.inFlight.length), waiting := m.waiting.drop (16 - m.inFlight.length) } : Smi) = _
  rw [h]
  simp

/-- The reads in flight but the one numbered. -/
theorem filter_rid_ne {before after : List Read} {r : Read} (h : ∀ x ∈ before ++ after, x.rid ≠ r.rid) :
    (before ++ [r] ++ after).filter (fun x => x.rid ≠ r.rid) = before ++ after := by
  have hall : (before ++ after).filter (fun x => decide (x.rid ≠ r.rid)) = before ++ after :=
    List.filter_eq_self.2 fun x hx => decide_eq_true (h x hx)
  simpa using hall

theorem Smi.waiting_of_bounded {m : Smi} (h : m.bounded) (hlt : m.inFlight.length < 16) : m.waiting = [] :=
  h.2.resolve_right (Nat.ne_of_lt hlt)

/-- Settles O19. -/
theorem readTracker : Obligations.ReadTracker := by
  unfold Obligations.ReadTracker
  refine ⟨fun m w a n hb => ⟨fun hlt => ?_, fun hfull => Smi.fill_of_full hfull⟩, fun m before after r hm hne => ?_, fun _ _ => rfl⟩
  · have hw := Smi.waiting_of_bounded hb hlt
    refine (Smi.fill_of_room ?_).trans ?_
    · simp only [hw, List.nil_append, List.length_singleton]; omega
    · simp [hw]
  · have hleft : m.inFlight.filter (fun x => x.rid ≠ r.rid) = before ++ after := by rw [hm, filter_rid_ne hne]
    have hlen : m.inFlight.length = (before ++ after).length + 1 := by rw [hm]; simp; omega
    unfold Smi.complete
    rw [hleft]
    refine ⟨fun hw => ?_, fun x rest hw hfull => Smi.fill_of_one (by show (before ++ after).length = 15; omega) hw⟩
    show ({ m with
      inFlight := before ++ after ++ m.waiting.take (16 - (before ++ after).length)
      waiting := m.waiting.drop (16 - (before ++ after).length) } : Smi) = _
    rw [hw]
    simp

theorem Smi.rid_of_flying {m : Smi} {rid : Nat} {f : Read} (h : m.flying rid = some f) : f.rid = rid := by
  simpa using List.find?_some h

/-- Settles O20. -/
theorem readTimeoutActsAsFault : Obligations.ReadTimeoutActsAsFault := by
  unfold Obligations.ReadTimeoutActsAsFault
  intro s rid pos f hfly hfor
  have hrid := Smi.rid_of_flying hfly
  obtain ⟨r, what, addr, len⟩ := f
  obtain rfl : r = rid := hrid
  dsimp only at hfor ⊢
  refine ⟨_, rfl, ?_⟩
  cases what with
  | scanArray =>
    show execScanSnapshotComplete .fault s = execSmiReadTimeout r pos s
    rw [execScanSnapshotComplete, execSmiReadTimeout, hfor, hfly]
  | header =>
    show execHeaderReadComplete .fault s = execSmiReadTimeout r pos s
    rw [execHeaderReadComplete, execSmiReadTimeout, hfor, hfly]
  | freshArray =>
    show execFreshStartReadComplete .fault s = execSmiReadTimeout r pos s
    rw [execFreshStartReadComplete, execSmiReadTimeout, hfor, hfly]
  | entry i =>
    show execEntryFault s = execSmiReadTimeout r pos s
    rw [execEntryFault, execSmiReadTimeout, hfly]
  | openConsumed i =>
    show execConsumedReadComplete .fault s = execSmiReadTimeout r pos s
    rw [execConsumedReadComplete, execSmiReadTimeout, hfly]; rfl
  | refresh i =>
    show execConsumedRefreshComplete i .fault s = execSmiReadTimeout r pos s
    rw [execConsumedRefreshComplete, execSmiReadTimeout, hfly]; rfl
  | selector i job =>
    show execSelectorReadComplete r .fault pos s = execSmiReadTimeout r pos s
    rw [execSelectorReadComplete, execSmiReadTimeout, hfly]
  | half i job piece =>
    show execHalfReadComplete r .fault pos s = execSmiReadTimeout r pos s
    rw [execHalfReadComplete, execSmiReadTimeout, hfly]

end Sys2Proof.Machine
end

section
/-! PROOFS. The requests of streams: what R5 refuses, the entry fetch that faults, OPEN with its checks and its admission, RESUME
(R4 to R9, R15, R32, R134). -/

namespace Sys2Proof.Machine

open Sys2Proof

/-! ### What R5 refuses -/

theorem stateRefusal_of_bad {st : StreamState} {a : Byte} (h : ¬ (1 ≤ a.toNat ∧ a.toNat ≤ 5)) : stateRefusal st a = some .badAction :=
  if_pos h

theorem stateRefusal_of_closed {a : Byte} (h : 2 ≤ a.toNat ∧ a.toNat ≤ 5) : stateRefusal .closed a = some .notOpen := by
  have hne : a ≠ 1 := fun h1 => by rw [h1] at h; exact absurd h.1 (by decide)
  rw [stateRefusal, if_neg (not_not.2 ⟨by omega, h.2⟩), if_pos ⟨rfl, hne⟩]

theorem stateRefusal_of_open {a : Byte} (h : a = 1) : stateRefusal .isOpen a = some .alreadyOpen := by subst h; rfl

/-- R5 lets an OPEN of a CLOSED stream pass. -/
theorem stateRefusal_closed_open {a : Byte} (h : a = 1) : stateRefusal .closed a = none := by subst h; rfl

/-! ### Decisions of stream requests -/

/-- R5: the request in progress is refused against the stream's state. -/
theorem State.decideStream_of_refused {s : State} {i : StreamId} {v : Byte} {r : Read} (ht : s.streamTake = some (i, v, r))
    (hs : s.engine.state ≠ .halted) (hg : (s.ctx i).parityOk = true) {hh : Bytes64} {result : StreamResult}
    (href : stateRefusal (s.ctx i).state (byteAt hh 0) = some result) (body : StreamId → Byte → Ctx → Ev → Ev) :
    s.decideStream hh body = (((Ev.start (s.completed r.rid)).answerStream i v result).endTake).finish := by
  unfold State.decideStream
  rw [ht]
  dsimp only
  rw [State.event_of_not_halted hs, Ev.withCtx_of_good (by exact hg)]
  simp only [show stateRefusal ((Ev.modSmi (Ev.start s) (fun m => m.complete r.rid)).m.ctx i).state (hostAction hh) = _ from href]
  rfl

/-- R5: the request in progress passes to the rule of its ACTION. -/
theorem State.decideStream_of_passed {s : State} {i : StreamId} {v : Byte} {r : Read} (ht : s.streamTake = some (i, v, r))
    (hs : s.engine.state ≠ .halted) (hg : (s.ctx i).parityOk = true) {hh : Bytes64}
    (hpass : stateRefusal (s.ctx i).state (byteAt hh 0) = none) (body : StreamId → Byte → Ctx → Ev → Ev) :
    s.decideStream hh body = (body i v (s.ctx i) (Ev.start (s.completed r.rid))).finish := by
  unfold State.decideStream
  rw [ht]
  dsimp only
  rw [State.event_of_not_halted hs, Ev.withCtx_of_good (by exact hg)]
  simp only [show stateRefusal ((Ev.modSmi (Ev.start s) (fun m => m.complete r.rid)).m.ctx i).state (hostAction hh) = _ from hpass]
  rfl

/-- R133: the answer to a stream request, first of all in its event. -/
theorem Ev.answerStream_eq (m : State) (i : StreamId) (v : Byte) (result : StreamResult) : (Ev.start m).answerStream i v result =
    { Ev.start (m.answeredStream i v result) with dirty := [i], acks := [(streamIx i, v)], causes := causeStream } := by
  unfold Ev.answerStream
  rw [Ev.publish_eq]
  refine Ev.ext_fields rfl rfl rfl rfl rfl ?_ rfl
  show 0 ||| (if i.val < 256 then causeStream else causePort) = causeStream
  rw [if_pos i.isLt]; rfl

/-- R112, R133: an event that answers a stream request and ends the take, with the slots it writes. -/
theorem Ev.endTake_sends {m : State} (slots : List PathItem) (i : StreamId) (v : Byte) :
    ∃ u, m.takeEnded u ∧ (Ev.endTake { Ev.start m with
      slots := slots, dirty := [i], acks := [(streamIx i, v)], causes := causeStream }).finish =
        u.sends (slots ++ u.streamAnswer i v) causeStream := by
  obtain ⟨hend, hfin⟩ := Ev.endTake_finish { Ev.start m with
    slots := slots, dirty := [i], acks := [(streamIx i, v)], causes := causeStream }
  refine ⟨_, hend, hfin.trans (congrArg (fun ws => State.sends _ ws _) ?_)⟩
  simp [Ev.start, State.streamAnswer]

theorem Ev.answered_endTake (m : State) (i : StreamId) (v : Byte) (result : StreamResult) :
    ∃ u, (m.answeredStream i v result).takeEnded u ∧
      (((Ev.start m).answerStream i v result).endTake).finish = u.sends (u.streamAnswer i v) causeStream := by
  rw [Ev.answerStream_eq]
  exact Ev.endTake_sends [] i v

/-! ### The commands of stream requests -/

theorem exec_openStream {hh : Bytes64} (h : byteAt hh 0 = 1) (s : State) :
    exec (.openStream hh) s = .next (s.decideStream hh (fun i v _ e => e.openChecks hh i v)) :=
  congrArg Host.Outcome.next (if_pos (decide_eq_true h))

theorem exec_closeStream {hh : Bytes64} (h : byteAt hh 0 = 2) (pos : Nat) (s : State) :
    exec (.closeStream hh pos) s = .next (s.decideStream hh (Ev.close pos)) := congrArg Host.Outcome.next (if_pos (decide_eq_true h))

theorem exec_fire {hh : Bytes64} (h : byteAt hh 0 = 3) (pos : Nat) (s : State) :
    exec (.fire hh pos) s = .next (s.decideStream hh (Ev.fire pos)) := congrArg Host.Outcome.next (if_pos (decide_eq_true h))

theorem exec_pause {hh : Bytes64} (h : byteAt hh 0 = 4) (pos : Nat) (s : State) :
    exec (.pause hh pos) s = .next (s.decideStream hh (Ev.pause pos)) := congrArg Host.Outcome.next (if_pos (decide_eq_true h))

theorem exec_resume {hh : Bytes64} (h : byteAt hh 0 = 5) (s : State) :
    exec (.resume hh) s = .next (s.decideStream hh Ev.resume) := congrArg Host.Outcome.next (if_pos (decide_eq_true h))

/-- R5: STREAM_BAD_ACTION answers what R5 refuses. -/
theorem exec_streamBadAction {s : State} {i : StreamId} {v : Byte} {r : Read} (ht : s.streamTake = some (i, v, r)) {hh : Bytes64}
    {result : StreamResult} (href : stateRefusal (s.ctx i).state (byteAt hh 0) = some result) :
    exec (.streamBadAction hh) s = .next (s.decideStream hh (fun _ _ _ e => e)) := by
  show execStreamBadAction hh s = _
  unfold execStreamBadAction
  rw [ht]
  exact congrArg Host.Outcome.next (if_pos (by rw [show stateRefusal (s.ctx i).state (hostAction hh) = _ from href]; rfl))

/-- Every command that carries a request of a stream decides it by R5 and its own rule. -/
theorem exec_streamRequest (s : State) {hh : Bytes64} {c : Instr} (hwf : c.wf = true)
    (hc : c = .openStream hh ∨ c = .resume hh ∨ ∃ pos, c = .closeStream hh pos ∨ c = .fire hh pos ∨ c = .pause hh pos) :
    ∃ body, exec c s = .next (s.decideStream hh body) := by
  obtain rfl | rfl | ⟨pos, rfl | rfl | rfl⟩ := hc <;> replace hwf := of_decide_eq_true hwf
  · exact ⟨_, exec_openStream hwf s⟩
  · exact ⟨_, exec_resume hwf s⟩
  · exact ⟨_, exec_closeStream hwf pos s⟩
  · exact ⟨_, exec_fire hwf pos s⟩
  · exact ⟨_, exec_pause hwf pos s⟩

/-- Settles O21. -/
theorem requestRefusedAgainstState : Obligations.RequestRefusedAgainstState := by
  unfold Obligations.RequestRefusedAgainstState
  intro s i v r hh c result ht hs hg hc href
  have hrefused : stateRefusal (s.ctx i).state (byteAt hh 0) = some result := by
    obtain ⟨hbad, rfl⟩ | ⟨h2, h5, hst, rfl⟩ | ⟨h1, hst, rfl⟩ := href
    · exact stateRefusal_of_bad hbad
    · rw [hst]; exact stateRefusal_of_closed ⟨h2, h5⟩
    · rw [hst]; exact stateRefusal_of_open h1
  have hexec : ∃ body, exec c s = .next (s.decideStream hh body) := by
    obtain rfl | ⟨hwf, hc⟩ := hc
    · exact ⟨_, exec_streamBadAction ht hrefused⟩
    · exact exec_streamRequest s hwf hc
  obtain ⟨body, hexec⟩ := hexec
  rw [hexec, State.decideStream_of_refused ht hs hg hrefused]
  obtain ⟨u, hend, hfin⟩ := Ev.answered_endTake (s.completed r.rid) i v result
  exact ⟨u, hend, congrArg _ hfin⟩

/-! ### Decisions of port requests -/

/-- R133: the answer to a port request, where the event has reported nothing of the port yet. -/
theorem Ev.answerPort_eq (m : State) (dirty : List StreamId) (p : PortId) (v : Byte) (result : PortResult) :
    Ev.answerPort p v result { Ev.start m with dirty := dirty } =
      { Ev.start (m.answeredPort p v result) with
        dirty := dirty, blocks := [p], acks := [(portIx p, v)], causes := causePort } := by
  refine Ev.ext_fields rfl rfl rfl rfl rfl ?_ rfl
  show (0 ||| causePort) ||| (if 256 + p.val < 256 then causeStream else causePort) = causePort
  rw [if_neg (by omega)]; rfl

/-- R112, R95: an event that answers a port request and ends the take, with the part halves it writes. -/
theorem Ev.endTake_sendsPort {m : State} (dirty : List StreamId) (p : PortId) (v : Byte) :
    ∃ u, m.takeEnded u ∧ (Ev.endTake { Ev.start m with
      dirty := dirty, blocks := [p], acks := [(portIx p, v)], causes := causePort }).finish =
        u.sends (dirty.map u.partHalfWrite ++ u.portAnswer p v) causePort := by
  obtain ⟨hend, hfin⟩ := Ev.endTake_finish { Ev.start m with
    dirty := dirty, blocks := [p], acks := [(portIx p, v)], causes := causePort }
  refine ⟨_, hend, hfin.trans (congrArg (fun ws => State.sends _ ws _) ?_)⟩
  simp [Ev.start, State.portAnswer]

/-- R95: the decision of the port request in progress, by what its command makes of the port. -/
theorem State.decidePort_eq {s : State} {p : PortId} {v : Byte} {r : Read} (ht : s.portTake = some (p, v, r))
    (hs : s.engine.state ≠ .halted) {body : PortId → Ev → Ev × PortResult} {e : Ev} {result : PortResult}
    (hbody : body p (Ev.start (s.completed r.rid)) = (e, result)) :
    s.decidePort body = (e.andThen (fun e => (e.answerPort p v result).endTake)).finish := by
  unfold State.decidePort
  rw [ht]
  dsimp only
  rw [State.event_of_not_halted hs, show body p (Ev.modSmi (Ev.start s) (fun m => m.complete r.rid)) = (e, result) from hbody]

/-- R95: a port request whose command changes the machine without sending out anything but part halves. -/
theorem State.decidePort_answers {s : State} {p : PortId} {v : Byte} {r : Read} (ht : s.portTake = some (p, v, r))
    (hs : s.engine.state ≠ .halted) {body : PortId → Ev → Ev × PortResult} {m : State} {dirty : List StreamId} {result : PortResult}
    (hbody : body p (Ev.start (s.completed r.rid)) = ({ Ev.start m with dirty := dirty }, result)) :
    ∃ u, (m.answeredPort p v result).takeEnded u ∧
      s.decidePort body = u.sends (dirty.map u.partHalfWrite ++ u.portAnswer p v) causePort := by
  rw [State.decidePort_eq ht hs hbody, Ev.andThen_of_not_halted (by rfl), Ev.answerPort_eq]
  exact Ev.endTake_sendsPort dirty p v

/-! ### ENTRY_FAULT (R134) -/

/-- The request in progress is of a stream or of a port. -/
theorem State.streamTake_of_portTake {s : State} {x : PortId × Byte × Read} (h : s.portTake = some x) : s.streamTake = none := by
  unfold State.portTake at h
  unfold State.streamTake
  split at h
  next i v hi =>
    split at h
    next p r ho hf =>
      rw [ho, hf]
    next => cases h
  next => cases h

/-- Settles O22. -/
theorem entryFaultAnswered : Obligations.EntryFaultAnswered := by
  unfold Obligations.EntryFaultAnswered
  refine fun s hs => ⟨fun i v r ht hg => ?_, fun p v r ht => ?_⟩
  · have hexec : exec .entryFault s = .next (((Ev.start (s.completed r.rid)).answerStream i v .entryFault).endTake).finish := by
      show Host.Outcome.next s.entryFault = _
      unfold State.entryFault
      rw [ht]
      dsimp only
      rw [State.event_of_not_halted hs, Ev.withCtx_of_good (by exact hg)]
      rfl
    obtain ⟨u, hend, hfin⟩ := Ev.answered_endTake (s.completed r.rid) i v .entryFault
    exact ⟨u, hend, hexec.trans (congrArg _ hfin)⟩
  · have hexec : exec .entryFault s = .next (s.decidePort fun _ e => (e, .entryFault)) := by
      show Host.Outcome.next s.entryFault = _
      unfold State.entryFault
      rw [State.streamTake_of_portTake ht]
    obtain ⟨u, hend, hfin⟩ := State.decidePort_answers ht hs (body := fun _ e => (e, .entryFault)) (m := s.completed r.rid)
      (dirty := []) rfl
    exact ⟨u, hend, hexec.trans (congrArg _ hfin)⟩

/-! ### The field checks of an OPEN (R6) -/

/-- The first row whose check fails. -/
theorem find?_row_cons (b : Bool) (x : StreamResult) (rows : List (Bool × StreamResult)) :
    (((b, x) :: rows).find? (fun row => !row.1)).map Prod.snd =
      if b = true then (rows.find? (fun row => !row.1)).map Prod.snd else some x := by
  cases b <;> rfl

theorem Params.lengthsLegal_iff (q : Params) : q.lengthsLegal = true ↔
    (q.operation = 1 ∧ q.outLen.toNat = 0 ∧ 1 ≤ q.inLen.toNat ∧ q.inLen.toNat ≤ 240) ∨
    (q.operation = 2 ∧ 1 ≤ q.outLen.toNat ∧ q.outLen.toNat ≤ 240 ∧ q.inLen.toNat = 0) ∨
    (q.operation = 3 ∧ 1 ≤ q.outLen.toNat ∧ q.outLen.toNat ≤ 240 ∧ 1 ≤ q.inLen.toNat ∧ q.inLen.toNat ≤ 240) := by
  simp [Params.lengthsLegal, and_assoc, or_assoc]

theorem byte_le_one_iff (b : Byte) : b.toNat ≤ 1 ↔ b = 0 ∨ b = 1 := by revert b; decide

theorem byte_one_to_three_iff (b : Byte) : 1 ≤ b.toNat ∧ b.toNat ≤ 3 ↔ b = 1 ∨ b = 2 ∨ b = 3 := by revert b; decide

theorem byte_pos_iff (b : Byte) : 0 < b.toNat ↔ b ≠ 0 := by revert b; decide

theorem Params.windowLegal_iff (q : Params) : q.windowLegal = true ↔
    q.windowBase ≠ 0 ∧ q.windowBase.toNat % 64 = 0 ∧ 1 ≤ q.slotCount.toNat ∧ q.slotCount.toNat ≤ 64 ∧
    (q.overflow = 1 ∨ q.overflow = 2) ∧ q.notify.toNat ≤ 1 ∧
    q.windowBase.toNat + q.slotCount.toNat * (16 + (q.inLen.toNat + 15) / 16 * 16) ≤ 2 ^ 64 := by
  simp only [Params.windowLegal, byte_le_one_iff, Bool.and_eq_true, Bool.or_eq_true, decide_eq_true_eq, and_assoc]
  rfl

theorem Params.sourceLegal_iff (q : Params) : q.sourceLegal = true ↔
    (0 < q.outLen.toNat → q.sourceBase ≠ 0 ∧ q.sourceBase.toNat % 16 = 0 ∧
      q.sourceBase.toNat + 16 + 2 * ((q.outLen.toNat + 15) / 16 * 16) ≤ 2 ^ 64) := by
  rw [byte_pos_iff]
  simp only [Params.sourceLegal, Bool.or_eq_true, Bool.and_eq_true, decide_eq_true_eq, and_assoc, ne_eq, or_iff_not_imp_left]
  rfl

/-- A row of the table against a check of the model: the same condition, and the same rows after it where it holds. -/
theorem check_congr {α : Type} {P : Prop} [Decidable P] {b : Bool} {x y : α} {rest : α} (h : P ↔ ¬ b = true) (hrest : b = true → y = rest) :
    (if P then x else y) = if b = true then rest else x := by
  by_cases hb : b = true
  · rw [if_neg (by simp [h, hb]), if_pos hb, hrest hb]
  · rw [if_pos (h.2 hb), if_neg hb]

/-- Settles O23. -/
theorem openChecksInOrder : Obligations.OpenChecksInOrder := by
  unfold Obligations.OpenChecksInOrder
  intro q enable
  dsimp only
  simp only [find?_row_cons, List.find?_nil, Option.map_none]
  unfold Params.openRefusal
  refine check_congr (by simp [Params.periodic_iff, Params.oneShot_iff]) fun hkind => ?_
  refine check_congr (by simp) fun _ => ?_
  refine check_congr (by simp) fun _ => ?_
  refine check_congr (by simp [byte_one_to_three_iff]) fun hop => ?_
  refine check_congr (by simp only [Params.lengthsLegal_iff, decide_eq_true_eq]) fun _ => ?_
  refine check_congr (by simp [Params.periodic_iff]) fun _ => ?_
  refine check_congr (by simp [Params.periodic_iff]) fun _ => ?_
  replace hkind := of_decide_eq_true hkind
  replace hop := (byte_one_to_three_iff _).1 (of_decide_eq_true hop)
  have hone : q.oneShot = true ↔ ¬ q.kind = 1 := by
    rw [Params.oneShot_iff]
    obtain h | h := hkind <;> simp [h]
  have hinput : (q.operation = 1 ∨ q.operation = 3) ↔ q.operation ≠ 2 := by
    obtain h | h | h := hop <;> simp [h]
  refine check_congr (by simp [hone]) fun _ => ?_
  refine check_congr (by simp only [Params.periodic_iff, hinput, decide_eq_true_eq]) fun _ => ?_
  refine check_congr (by simp only [Params.windowLegal_iff, decide_eq_true_eq]) fun _ => ?_
  refine check_congr (by simp only [Params.sourceLegal_iff, decide_eq_true_eq]) fun _ => rfl

/-! ### OPEN (R6, R7) -/

/-- Settles O25. -/
theorem openTaken : Obligations.OpenTaken := by
  unfold Obligations.OpenTaken
  intro s i v r hh ht hs hg hst hact
  dsimp only
  rw [exec_openStream hact, State.decideStream_of_passed ht hs hg (by rw [hst]; exact stateRefusal_closed_open hact)]
  have hnode : ((Ev.start (s.completed r.rid)).port (hostParams hh).portId).nodeEnable = (s.port (hostParams hh).portId).nodeEnable := rfl
  refine ⟨fun result href => ?_, fun href => ?_⟩
  · obtain ⟨u, hend, hfin⟩ := Ev.answered_endTake (s.completed r.rid) i v result
    refine ⟨u, hend, ?_⟩
    unfold Ev.openChecks
    simp only [hnode, href]
    rw [hfin]
  · unfold Ev.openChecks
    simp only [hnode, href]
    rw [Ev.publish_eq]
    exact congrArg Host.Outcome.next (Ev.finish_sends rfl rfl rfl)

/-! ### The budget step of an OPEN (R8, R32) -/

theorem State.budgetStep_of_oneShot {s : State} {q : Params} (h : q.kind = 2) : s.budgetStep q =
    if (s.budget q.portId).figures.oneShotLimit < q.cost then .inl .tooLarge else .inr (0xFF, 0) :=
  if_pos (q.oneShot_iff.2 h)

theorem State.budgetStep_of_refused {s : State} {q : Params} (h : q.kind = 1) {result : StreamResult}
    (hv : s.adm.verdict (s.budget q.portId) q = .inl result) : s.budgetStep q = .inl result := by
  unfold State.budgetStep
  rw [if_neg (by simp [Params.oneShot_iff, h]), hv]

theorem State.budgetStep_of_admitted {s : State} {q : Params} (h : q.kind = 1) {φ : Nat}
    (hv : s.adm.verdict (s.budget q.portId) q = .inr φ) :
    s.budgetStep q = .inr (BitVec.ofNat 8 φ, q.memCost (s.budget q.portId).cycleIndex.toNat) := by
  unfold State.budgetStep
  rw [if_neg (by simp [Params.oneShot_iff, h]), hv]

/-- R34: the buckets of a phase have no room for a cost. -/
theorem Budget.not_fits_iff (t : Budget) (n φ cost : Nat) :
    ¬ t.fits n φ cost = true ↔ ∃ b : Fin 64, b.val % 2 ^ n = φ ∧ t.figures.cap < t.load b + cost := by
  rw [Budget.fits_iff]
  simp [bucketMatches]

theorem memoryFits_iff (load : Nat) (cap : Word) (cost : Nat) : memoryFits load cap cost = true ↔ cap = 0 ∨ load + cost ≤ cap.toNat := by
  simp [memoryFits]

/-- Settles O26. -/
theorem admissionSteps : Obligations.AdmissionSteps := by
  unfold Obligations.AdmissionSteps
  intro s q
  dsimp only
  refine ⟨fun h hlt => ?_, fun h hle => ?_, fun h hlt => ?_, fun h hle hfull => ?_, fun h hle hroom => ?_⟩
  · rw [State.budgetStep_of_oneShot h, if_pos hlt]
  · rw [State.budgetStep_of_oneShot h, if_neg (not_lt.2 hle)]
  · exact State.budgetStep_of_refused h (if_pos hlt)
  · have hfits : ¬ (s.budget q.portId).fits q.interval.toNat ((s.budget q.portId).phaseFor q) q.cost = true :=
      (Budget.not_fits_iff _ _ _ _).2 hfull
    exact State.budgetStep_of_refused h ((if_neg (not_lt.2 hle)).trans (if_pos hfits))
  · have hfits : (s.budget q.portId).fits q.interval.toNat ((s.budget q.portId).phaseFor q) q.cost = true :=
      (Budget.fits_iff _ _ _ _).2 fun b hb => hroom b (of_decide_eq_true hb)
    have hverdict : s.adm.verdict (s.budget q.portId) q = _ := (if_neg (not_lt.2 hle)).trans (if_neg (not_not.2 hfits))
    refine ⟨fun ⟨hcap, hlt⟩ => ?_, fun hmem => ?_⟩
    · refine State.budgetStep_of_refused h (hverdict.trans (if_pos ?_))
      rw [memoryFits_iff, not_or, not_le]
      exact ⟨hcap, hlt⟩
    · exact State.budgetStep_of_admitted h (hverdict.trans (if_neg (not_not.2 ((memoryFits_iff _ _ _).2 hmem))))

/-! ### The end of the consumed read (R7 to R9) -/

/-- R7: the consumed read of the OPEN in progress ends. -/
theorem exec_consumedReadComplete {s : State} {i : StreamId} {v : Byte} {q : Params} {r : Read} (ht : s.openTake = some (i, v, q, r))
    (hs : s.engine.state ≠ .halted) (x : ReadResult Word) :
    exec (.consumedReadComplete x) s = .next ((Ev.start (s.completed r.rid)).openEnd i v q (ReadResult.value? x)).finish := by
  show Host.Outcome.next (s.endOpen _) = _
  unfold State.endOpen
  rw [ht]
  dsimp only
  rw [State.event_of_not_halted hs]
  rfl

theorem Ev.openEnd_of_fault {m : State} {i : StreamId} (hg : (m.ctx i).parityOk = true) (v : Byte) (q : Params) :
    (Ev.start m).openEnd i v q none = (Ev.start m).openRefused i v .entryFault := by
  rw [Ev.openEnd, Ev.withCtx_of_good (by exact hg)]

theorem Ev.openEnd_of_refused {m : State} {i : StreamId} (hg : (m.ctx i).parityOk = true) (v : Byte) {q : Params} (n : Word)
    {result : StreamResult} (h : m.budgetStep q = .inl result) : (Ev.start m).openEnd i v q (some n) = (Ev.start m).openRefused i v result := by
  rw [Ev.openEnd, Ev.withCtx_of_good (by exact hg)]
  simp only [Ev.start_m, h]

theorem Ev.openEnd_of_accepted {m : State} {i : StreamId} (hg : (m.ctx i).parityOk = true) (v : Byte) {q : Params} (n : Word) {φ : Byte}
    {mem : Nat} (h : m.budgetStep q = .inr (φ, mem)) : (Ev.start m).openEnd i v q (some n) = (Ev.start m).openAccepted i v q φ mem n := by
  rw [Ev.openEnd, Ev.withCtx_of_good (by exact hg)]
  simp only [Ev.start_m, h]

/-- R38: the admission account once a stream is admitted with phase `φ` and memory cost `mem`; a one-shot stream reserves nothing. -/
def Admission.afterOpen (a : Admission) (q : Params) (φ : Byte) (mem : Nat) : Admission :=
  if q.kind = 1 then
    { a with
      budgets := a.budgets.set q.portId.val { a.budgets.get q.portId with
        loads := tableMap (a.budgets.get q.portId).loads (fun b load =>
          if b % 2 ^ q.interval.toNat = φ.toNat then load + q.cost else load)
        reservations := (a.budgets.get q.portId).reservations + 1 }
      memLoad := a.memLoad + mem }
  else a

/-- R31: a table changed where a stream loads a bucket. -/
theorem tableMap_bucketMatches (loads : Vector Nat 64) (n φ : Nat) (f : Nat → Nat) :
    tableMap loads (fun b l => if bucketMatches n φ b then f l else l) = tableMap loads (fun b l => if b % 2 ^ n = φ then f l else l) := by
  simp only [bucketMatches, decide_eq_true_eq]

/-- R38: an accepted OPEN of a periodic stream reserves; one of a one-shot stream does not. -/
theorem Ev.reserve_eq {m : State} {q : Params} {φ : Byte} {mem : Nat} (h : m.budgetStep q = .inr (φ, mem)) :
    (if q.periodic then (Ev.start m).reserve q φ.toNat else Ev.start m) = Ev.start { m with adm := m.adm.afterOpen q φ mem } := by
  unfold Admission.afterOpen
  by_cases hp : q.kind = 1
  · rw [if_pos (q.periodic_iff.2 hp), if_pos hp, State.budgetStep_mem h (q.periodic_iff.2 hp),
      ← tableMap_bucketMatches _ _ _ (fun l => l + q.cost)]
    rfl
  · rw [if_neg (by simpa [Params.periodic_iff] using hp), if_neg hp]

/-- R7 to R9: an OPEN refused in OPENING returns the stream to CLOSED. -/
theorem Ev.openRefused_finish (m : State) (i : StreamId) (v : Byte) (result : StreamResult) :
    ∃ u, ((m.setCtx i { m.ctx i with state := .closed }).answeredStream i v result).takeEnded u ∧
      ((Ev.start m).openRefused i v result).finish = u.sends (u.streamAnswer i v) causeStream :=
  Ev.answered_endTake (m.setCtx i { m.ctx i with state := .closed }) i v result

/-- R9, R38: an OPEN accepted. -/
theorem Ev.openAccepted_finish {m : State} {q : Params} {φ : Byte} {mem : Nat} (h : m.budgetStep q = .inr (φ, mem)) (i : StreamId)
    (v : Byte) (n : Word) :
    ∃ u, State.takeEnded { m.setCtx i ((m.ctx i).opened q φ mem n (m.openHolds q) v) with
        adm := m.adm.afterOpen q φ mem, scanner := { m.scanner with ackCopy := m.scanner.ackCopy.set i.val v } } u ∧
      ((Ev.start m).openAccepted i v q φ mem n).finish = u.sends (m.producedWrite i n :: u.streamAnswer i v) causeStream := by
  have hopen : (Ev.start m).openAccepted i v q φ mem n = Ev.endTake { Ev.start { m.setCtx i
        ((m.ctx i).opened q φ mem n (m.openHolds q) v) with
          adm := m.adm.afterOpen q φ mem, scanner := { m.scanner with ackCopy := m.scanner.ackCopy.set i.val v } } with
      slots := [m.producedWrite i n], dirty := [i], acks := [(streamIx i, v)], causes := causeStream } := by
    unfold Ev.openAccepted
    simp only [Ev.reserve_eq h, Ev.publish_eq]
    refine congrArg Ev.endTake (Ev.ext_fields rfl rfl rfl rfl rfl ?_ rfl)
    show 0 ||| (if i.val < 256 then causeStream else causePort) = causeStream
    rw [if_pos i.isLt]; rfl
  rw [hopen]
  exact Ev.endTake_sends [m.producedWrite i n] i v

/-- Settles O28. -/
theorem consumedReadDecidesOpen : Obligations.ConsumedReadDecidesOpen := by
  unfold Obligations.ConsumedReadDecidesOpen
  intro s i v q r ht hs hg
  have hexec := exec_consumedReadComplete ht hs
  have hg' : ((s.completed r.rid).ctx i).parityOk = true := hg
  dsimp only
  refine ⟨?_, fun n result h => ?_, fun n φ mem h => ?_⟩
  · obtain ⟨u, hend, hfin⟩ := Ev.openRefused_finish (s.completed r.rid) i v .entryFault
    exact ⟨u, hend, (hexec .fault).trans (congrArg _ ((congrArg Ev.finish (Ev.openEnd_of_fault hg' v q)).trans hfin))⟩
  · obtain ⟨u, hend, hfin⟩ := Ev.openRefused_finish (s.completed r.rid) i v result
    exact ⟨u, hend, (hexec (.data n)).trans (congrArg _ ((congrArg Ev.finish (Ev.openEnd_of_refused hg' v n h)).trans hfin))⟩
  · obtain ⟨u, hend, hfin⟩ := Ev.openAccepted_finish (m := s.completed r.rid) h i v n
    refine ⟨u, ?_, (hexec (.data n)).trans (congrArg _ ((congrArg Ev.finish (Ev.openEnd_of_accepted hg' v n h)).trans hfin))⟩
    have hctx : ((s.completed r.rid).ctx i).opened q φ mem n ((s.completed r.rid).openHolds q) v =
        { Ctx.opened ((s.completed r.rid).ctx i) q φ mem n ((s.completed r.rid).openHolds q) v with parityOk := true } := by
      rw [← hg']; rfl
    rw [hctx] at hend
    exact hend

/-! ### RESUME (R15) -/

/-- Settles O32. -/
theorem resumeTaken : Obligations.ResumeTaken := by
  unfold Obligations.ResumeTaken
  intro s i v r hh ht hs hg hst hact
  dsimp only
  rw [exec_resume hact, State.decideStream_of_passed ht hs hg (by rw [hst, hact]; rfl)]
  refine ⟨fun hp hf => ?_, fun hany => ?_⟩
  · obtain ⟨u, hend, hfin⟩ := Ev.answered_endTake (s.completed r.rid) i v .noChange
    exact ⟨u, hend, congrArg Host.Outcome.next ((congrArg Ev.finish (if_pos (by simp [hp, hf]))).trans hfin)⟩
  · obtain ⟨u, hend, hfin⟩ := Ev.answered_endTake ((s.completed r.rid).setCtx i { s.ctx i with
      paused := false, holds := { (s.ctx i).holds with memoryFault := false } }) i v .accepted
    refine ⟨u, hend, congrArg Host.Outcome.next ((congrArg Ev.finish (if_neg ?_)).trans hfin)⟩
    obtain h | h := hany <;> simp [h]

end Sys2Proof.Machine
end

section
/-! PROOFS. The requests of an OPEN stream: CLOSE, FIRE and PAUSE, and what the removal of a queue item does (R10, R14, R20, R54). -/

namespace Sys2Proof.Machine

open Sys2Proof

/-! ### The answer after a change of the stream's own context -/

theorem State.answeredStream_setCtx (m : State) (i : StreamId) (c : Ctx) (v : Byte) (result : StreamResult) :
    (m.setCtx i c).answeredStream i v result = { m.setCtx i { c with result := result, resultReq := v } with
      scanner := { m.scanner with ackCopy := m.scanner.ackCopy.set i.val v } } := by
  unfold State.answeredStream
  rw [State.ctx_setCtx_same, State.setCtx_setCtx]
  rfl

/-! ### FIRE (R20) -/

/-- A table of conditions and results, read as a chain of conditions that ends in ACCEPTED. -/
theorem getD_find?_cons (b : Bool) (x : StreamResult) (rows : List (Bool × StreamResult)) :
    ((((b, x) :: rows).find? Prod.fst).map Prod.snd).getD .accepted =
      if b = true then x else ((rows.find? Prod.fst).map Prod.snd).getD .accepted := by
  cases b <;> rfl

/-- R20: the table of the answers to a FIRE. -/
def fireRows (c : Ctx) (q : Port) : List (Bool × StreamResult) :=
  [(decide (c.params.kind = 1), .wrongKind), (decide (c.oneShot ≠ .idle), .busy),
   (c.holds.portNotRunning || c.holds.nodeLost || c.holds.memoryFault, .held), (c.paused, .paused),
   (decide (64 ≤ q.urgent.length + q.normal.length), .queueFull)]

theorem fireResult_eq (c : Ctx) (q : Port) : fireResult c q = (((fireRows c q).find? Prod.fst).map Prod.snd).getD .accepted := by
  simp only [fireRows, getD_find?_cons, decide_eq_true_eq]
  exact if_congr c.params.periodic_iff rfl rfl

theorem fireRows_ne_accepted {c : Ctx} {q : Port} {row : Bool × StreamResult} (h : row ∈ fireRows c q) : row.2 ≠ .accepted := by
  simp only [fireRows, List.mem_cons, List.not_mem_nil, or_false] at h
  obtain rfl | rfl | rfl | rfl | rfl := h <;> exact fun hc => by cases hc

/-- R20: a FIRE that is refused. -/
theorem Ev.fire_of_refused {m : State} {i : StreamId} (pos : Nat) (v : Byte) (c : Ctx) {result : StreamResult}
    (h : fireResult c (m.port c.params.portId) = result) (hne : result ≠ .accepted) :
    (Ev.start m).fire pos i v c = ((Ev.start m).answerStream i v result).endTake := by
  unfold Ev.fire
  dsimp only
  rw [Ev.port_eq, Ev.start_m, h, if_neg hne]

/-- R20: a FIRE that is accepted. -/
theorem Ev.fire_of_accepted {m : State} (i : StreamId) (pos : Nat) (v : Byte) (c : Ctx)
    (h : fireResult c (m.port c.params.portId) = .accepted) :
    (Ev.start m).fire pos i v c =
      (((({ Ev.start (((m.setPort c.params.portId ((m.port c.params.portId).enqueue c.params.urgent (newItem i c.params))).setCtx i
          { m.ctx i with retriesLeft := (m.ctx i).params.retries.toNat, oneShot := .queued }).answeredStream i v .accepted) with
        dirty := [i], acks := [(streamIx i, v)], causes := causeStream } : Ev).headRead c.params.portId).andThen
        (Ev.reselect c.params.portId pos (m.heads c.params.portId))).andThen Ev.endTake) := by
  unfold Ev.fire
  dsimp only
  rw [Ev.port_eq, Ev.start_m, h, if_pos rfl, ← Ev.answerStream_eq]
  rfl

/-- Settles O30. -/
theorem fireTaken : Obligations.FireTaken := by
  unfold Obligations.FireTaken
  intro s i v r hh pos ht hs hg hst hact
  dsimp only
  rw [exec_fire hact, State.decideStream_of_passed ht hs hg (by rw [hst, hact]; rfl)]
  refine ⟨fun row hrow => ?_, fun hnone => ?_⟩
  · have hresult : fireResult (s.ctx i) (s.port (s.ctx i).params.portId) = row.2 :=
      (fireResult_eq _ _).trans (congrArg (fun x => (Option.map Prod.snd x).getD StreamResult.accepted) hrow)
    rw [Ev.fire_of_refused (m := s.completed r.rid) pos v (s.ctx i) hresult (fireRows_ne_accepted (List.mem_of_find?_eq_some hrow))]
    obtain ⟨u, hend, hfin⟩ := Ev.answered_endTake (s.completed r.rid) i v row.2
    exact ⟨u, hend, congrArg _ hfin⟩
  · have hresult : fireResult (s.ctx i) (s.port (s.ctx i).params.portId) = .accepted :=
      (fireResult_eq _ _).trans (congrArg (fun x => (Option.map Prod.snd x).getD StreamResult.accepted) hnone)
    rw [Ev.fire_of_accepted (m := s.completed r.rid) i pos v (s.ctx i) hresult, State.answeredStream_setCtx]
    have hqueue : (s.port (s.ctx i).params.portId).enqueue (s.ctx i).params.urgent (newItem i (s.ctx i).params) =
        if (s.ctx i).params.cls = 1 then
          { s.port (s.ctx i).params.portId with
            urgent := (s.port (s.ctx i).params.portId).urgent ++ [newItem i (s.ctx i).params] }
        else
          { s.port (s.ctx i).params.portId with
            normal := (s.port (s.ctx i).params.portId).normal ++ [newItem i (s.ctx i).params] } := by
      simp only [Port.enqueue, Params.urgent, decide_eq_true_eq]
    rw [show ((s.completed r.rid).port (s.ctx i).params.portId).enqueue (s.ctx i).params.urgent (newItem i (s.ctx i).params) = _ from hqueue]
    rfl

/-! ### PAUSE and the removal of an item (R14, R54) -/

/-- R54, R19: what the removal of an item does. -/
theorem Ev.removeItem_of_good {e : Ev} (h : e.halted = false) {i : StreamId} (hg : (e.ctx i).parityOk = true) (p : PortId)
    (code : OutcomeCode) : e.removeItem p code i = Ev.deliver (Outcome.bare i code (e.port p).cycle) { e with
      m := (e.m.setPort p ((e.port p).dequeue i)).setCtx i { e.ctx i with oneShot := .inFlight }
      dirty := if i ∈ e.dirty then e.dirty else e.dirty ++ [i] } := by
  unfold Ev.removeItem
  rw [Ev.withCtx_of_good (by exact hg), Ev.andThen_of_not_halted (by rw [Ev.publish_halted]; exact h), Ev.publish_eq]
  rfl

/-- R14: a PAUSE of a stream that is not paused. -/
theorem Ev.pause_of_running {m : State} (i : StreamId) (pos : Nat) (v : Byte) {c : Ctx} (h : c.paused = false) :
    (Ev.start m).pause pos i v c =
      ((((Ev.onlyIf { Ev.start ((m.setCtx i { m.ctx i with paused := true }).answeredStream i v .accepted) with
          dirty := [i], acks := [(streamIx i, v)], causes := causeStream } (c.oneShot = .queued)
        (Ev.removeItem c.params.portId .cancelled i)).andThen (Ev.headRead c.params.portId)).andThen
        (Ev.reselect c.params.portId pos (m.heads c.params.portId))).andThen Ev.endTake) := by
  unfold Ev.pause
  dsimp only
  rw [if_neg (ne_true_of_eq_false h), ← Ev.answerStream_eq]
  rfl

/-- Settles O31. -/
theorem pauseTaken : Obligations.PauseTaken := by
  unfold Obligations.PauseTaken
  refine ⟨fun e p code i h hg => Ev.removeItem_of_good h hg p code, fun s i v r hh pos ht hs hg hst hact => ?_⟩
  dsimp only
  rw [exec_pause hact, State.decideStream_of_passed ht hs hg (by rw [hst, hact]; rfl)]
  refine ⟨fun hp => ?_, fun hp => ?_⟩
  · obtain ⟨u, hend, hfin⟩ := Ev.answered_endTake (s.completed r.rid) i v .noChange
    exact ⟨u, hend, congrArg Host.Outcome.next ((congrArg Ev.finish (if_pos hp)).trans hfin)⟩
  · rw [Ev.pause_of_running i pos v hp, State.answeredStream_setCtx]
    unfold Ev.onlyIf
    simp only [decide_eq_true_eq]
    rfl

/-! ### CLOSE (R10) -/

/-- R10: the context of a stream that a CLOSE takes; `waits` says that an outcome of it waits. -/
def Ctx.closeTaken (c : Ctx) (waits : Bool) (v : Byte) : Ctx :=
  { c with
    state := .closing, closeReq := some v
    oneShot := if decide (c.oneShot = .queued) then .inFlight else if waits && c.oneShot = .inFlight then .idle else c.oneShot
    closeOutcome := if decide (c.oneShot = .queued) then true else c.closeOutcome }

/-- R10: the port of a stream that a CLOSE takes. -/
def Port.closeTaken (q : Port) (i : StreamId) (queued : Bool) : Port :=
  { q with
    nextPlan := q.nextPlan.filter (fun x => x.stream ≠ i), current := q.current.filter (fun x => x.stream ≠ i)
    urgent := if queued then q.urgent.filter (fun x => x.stream ≠ i) else q.urgent
    normal := if queued then q.normal.filter (fun x => x.stream ≠ i) else q.normal }

/-- R10, R123: the Result Writer's lists once a CLOSE has taken the stream's outcomes and item. -/
def Writer.closeTaken (w : Writer) (i : StreamId) (queued : Bool) (cycle : Word) : Writer :=
  { outcomes := w.outcomes.filter (fun o => o.stream ≠ i)
    cancelled := if queued then w.cancelled ++ [Outcome.bare i .cancelled cycle] else w.cancelled }

/-- The state with other lists of the Result Writer. -/
def State.setWriter (s : State) (w : Writer) : State := { s with writer := w }

theorem State.setCtx_setWriter (s : State) (i : StreamId) (c : Ctx) (w : Writer) :
    (s.setCtx i c).setWriter w = (s.setWriter w).setCtx i c := rfl
theorem State.setPort_setWriter (s : State) (p : PortId) (q : Port) (w : Writer) :
    (s.setPort p q).setWriter w = (s.setWriter w).setPort p q := rfl
theorem State.setWriter_writer (s : State) (w : Writer) : (s.setWriter w).writer = w := rfl
theorem State.setWriter_setWriter (s : State) (w w' : Writer) : (s.setWriter w).setWriter w' = s.setWriter w' := rfl

/-- R10: the machine once a CLOSE has taken the stream's outcomes, entries and item. -/
def State.closeTaken (m : State) (i : StreamId) (p : PortId) (v : Byte) : State :=
  let queued := decide ((m.ctx i).oneShot = .queued)
  (((m.setWriter (m.writer.closeTaken i queued (m.port p).cycle)).setCtx i ((m.ctx i).closeTaken (m.writer.waits i) v)).setPort p
    ((m.port p).closeTaken i queued))

/-- R10 step 1: the one-shot state of a stream whose waiting outcomes are discarded. -/
def Ctx.discarded (c : Ctx) (waits : Bool) : Ctx :=
  { c with oneShot := if waits && c.oneShot = .inFlight then .idle else c.oneShot }

theorem Ctx.discarded_queued (c : Ctx) (waits : Bool) : (c.discarded waits).oneShot = .queued ↔ c.oneShot = .queued := by
  cases waits <;> cases h : c.oneShot <;> simp [Ctx.discarded, h]

/-- R10 steps 1 and 2. -/
theorem Ev.closeDiscards_eq (m : State) (i : StreamId) (p : PortId) : (Ev.start m).closeDiscards i p = Ev.start
    (((m.setWriter (m.writer.closeTaken i false 0)).setCtx i ((m.ctx i).discarded (m.writer.waits i))).setPort p
      ((m.port p).closeTaken i false)) := rfl

/-- R10 step 3, of a stream with an item in the queue. -/
theorem Ev.closeQueued_of_queued {m : State} {i : StreamId} (p : PortId) (h : (m.ctx i).oneShot = .queued) :
    (Ev.start m).closeQueued i p = Ev.start
      (((m.setPort p ((m.port p).dequeue i)).setCtx i { m.ctx i with oneShot := .inFlight, closeOutcome := true }).setWriter
        { m.writer with cancelled := m.writer.cancelled ++ [Outcome.bare i .cancelled (m.port p).cycle] }) := if_pos h

theorem Ev.closeQueued_of_not_queued {m : State} {i : StreamId} (p : PortId) (h : (m.ctx i).oneShot ≠ .queued) :
    (Ev.start m).closeQueued i p = Ev.start m := if_neg h

/-- R10 steps 1 to 3: what a CLOSE does before the stream is CLOSING. -/
theorem Ev.close_takes (m : State) (i : StreamId) (p : PortId) (v : Byte) :
    (((Ev.start m).closeDiscards i p).closeQueued i p).publish i (fun c => { c with state := .closing, closeReq := some v }) =
      { Ev.start (m.closeTaken i p v) with dirty := [i] } := by
  rw [Ev.closeDiscards_eq]
  by_cases hq : (m.ctx i).oneShot = .queued
  · rw [Ev.closeQueued_of_queued p (by simpa [Ctx.discarded_queued] using hq), Ev.publish_eq]
    refine Ev.ext_fields ?_ rfl rfl rfl rfl rfl rfl
    simp only [Ev.start_m, State.setCtx_setWriter, State.setPort_setWriter, State.setWriter_setWriter, State.setPort_setCtx,
      State.ctx_setPort, State.ctx_setCtx_same, State.port_setPort_same, State.setCtx_setCtx, State.setPort_setPort, State.setPort_writer,
      State.setCtx_writer]
    simp [State.closeTaken, Ctx.closeTaken, Port.closeTaken, Writer.closeTaken, Ctx.discarded, Port.dequeue, State.setWriter_writer, hq]
  · rw [Ev.closeQueued_of_not_queued p (by simpa [Ctx.discarded_queued] using hq), Ev.publish_eq]
    refine Ev.ext_fields ?_ rfl rfl rfl rfl rfl rfl
    simp only [Ev.start_m, State.setPort_setCtx, State.ctx_setPort, State.ctx_setCtx_same, State.setCtx_setCtx]
    simp [State.closeTaken, Ctx.closeTaken, Port.closeTaken, Writer.closeTaken, Ctx.discarded, hq]

/-- R41: the admission account once the reservation that context `c` holds is released; a one-shot stream releases nothing. -/
def Admission.afterClose (a : Admission) (c : Ctx) : Admission :=
  if c.params.kind = 1 then
    { a with
      budgets := a.budgets.set c.params.portId.val { a.budgets.get c.params.portId with
        loads := tableMap (a.budgets.get c.params.portId).loads (fun b load =>
          if b % 2 ^ c.params.interval.toNat = c.phase.toNat then load - c.cost else load)
        reservations := (a.budgets.get c.params.portId).reservations - 1 }
      memLoad := a.memLoad - c.memCost }
  else a

theorem Ev.releaseBudget_eq (e : Ev) (c : Ctx) : e.releaseBudget c = { e with m := { e.m with adm := e.m.adm.afterClose c } } := by
  unfold Ev.releaseBudget Admission.afterClose
  by_cases hp : c.params.kind = 1
  · rw [if_pos (c.params.periodic_iff.2 hp), if_pos hp, ← tableMap_bucketMatches _ _ _ (fun l => l - c.cost)]
    rfl
  · rw [if_neg (by simpa [Params.periodic_iff] using hp), if_neg hp]

theorem Ctx.nothingOutstanding_iff (c : Ctx) : c.nothingOutstanding = true ↔
    c.tagRef = none ∧ c.sourceOutstanding = false ∧ c.refreshOutstanding = false ∧ c.closeOutcome = false := by
  simp [Ctx.nothingOutstanding, and_assoc]

theorem Ev.completeClose_eq (e : Ev) (i : StreamId) : e.completeClose i = { e with
    m := { e.m.setCtx i ((e.m.ctx i).closed ((e.m.ctx i).closeReq.getD 0)) with
      adm := e.m.adm.afterClose (e.m.ctx i)
      scanner := { e.m.scanner with ackCopy := e.m.scanner.ackCopy.set i.val ((e.m.ctx i).closeReq.getD 0) } }
    dirty := if i ∈ e.dirty then e.dirty else e.dirty ++ [i]
    acks := e.acks ++ [(streamIx i, (e.m.ctx i).closeReq.getD 0)]
    causes := e.causes ||| causeStream } := by
  unfold Ev.completeClose
  dsimp only
  rw [Ev.ctx_eq, Ev.releaseBudget_eq, Ev.publish_eq]
  refine Ev.ext_fields rfl rfl rfl rfl rfl ?_ rfl
  show e.causes ||| (if i.val < 256 then causeStream else causePort) = e.causes ||| causeStream
  rw [if_pos i.isLt]

/-- R12: the close of a stream completes, in an event that has published the stream. -/
theorem Ev.completeClose_start (m : State) (i : StreamId) {v : Byte} (h : (m.ctx i).closeReq = some v) :
    Ev.completeClose i { Ev.start m with dirty := [i] } = { Ev.start { m.setCtx i ((m.ctx i).closed v) with
        adm := m.adm.afterClose (m.ctx i), scanner := { m.scanner with ackCopy := m.scanner.ackCopy.set i.val v } } with
      dirty := [i], acks := [(streamIx i, v)], causes := causeStream } := by
  rw [Ev.completeClose_eq, Ev.start_m, h]
  exact Ev.ext_fields rfl rfl (if_pos (List.mem_singleton_self i)) rfl rfl BitVec.zero_or rfl

theorem Ctx.closes_iff (c : Ctx) : (decide (c.state = .closing) && c.nothingOutstanding) = true ↔
    c.state = .closing ∧ c.tagRef = none ∧ c.sourceOutstanding = false ∧ c.refreshOutstanding = false ∧ c.closeOutcome = false := by
  rw [Bool.and_eq_true, decide_eq_true_eq, Ctx.nothingOutstanding_iff]

theorem Ev.tryClose_of_not_free {e : Ev} {i : StreamId} (h : ¬ (decide ((e.m.ctx i).state = .closing) && (e.m.ctx i).nothingOutstanding) = true) :
    e.tryClose i = e := if_neg h

theorem Ev.tryClose_of_free {e : Ev} {i : StreamId} (hh : e.halted = false)
    (h : (decide ((e.m.ctx i).state = .closing) && (e.m.ctx i).nothingOutstanding) = true) :
    e.tryClose i = e.completeClose i := (if_pos h).trans (Ev.andThen_of_not_halted hh _)

/-- R10: a CLOSE is what it takes, the close where it completes, and what the planner makes of the queue. -/
theorem Ev.close_eq (m : State) (i : StreamId) (pos : Nat) (v : Byte) (c : Ctx) :
    (Ev.start m).close pos i v c =
      (((Ev.tryClose i { Ev.start (m.closeTaken i c.params.portId v) with dirty := [i] }).headRead c.params.portId).andThen
        (Ev.reselect c.params.portId pos (m.heads c.params.portId))).andThen Ev.endTake := by
  unfold Ev.close
  dsimp only
  rw [Ev.close_takes, Ev.andThen_of_not_halted (e := Ev.tryClose i _) (by rw [Ev.tryClose_halted]; rfl)]
  rfl

theorem State.ctx_closeTaken (m : State) (i : StreamId) (p : PortId) (v : Byte) :
    (m.closeTaken i p v).ctx i = (m.ctx i).closeTaken (m.writer.waits i) v :=
  State.ctx_setCtx_same _ i _

/-- Settles O29. -/
theorem closeTaken : Obligations.CloseTaken := by
  unfold Obligations.CloseTaken
  intro s i v r hh pos ht hs hg hst hact
  dsimp only
  rw [exec_closeStream hact, State.decideStream_of_passed ht hs hg (by rw [hst, hact]; rfl), Ev.close_eq]
  have hctx := (s.completed r.rid).ctx_closeTaken i (s.ctx i).params.portId v
  have hfree_iff := Ctx.closes_iff (((s.completed r.rid).closeTaken i (s.ctx i).params.portId v).ctx i)
  refine ⟨fun hwaits => ?_, fun hfree => ?_⟩
  · have hnot := mt hfree_iff.1 (by rw [hctx]; exact fun hc => hwaits hc.2)
    rw [Ev.tryClose_of_not_free (by exact hnot)]
    rfl
  · have hdone := hfree_iff.2 (by rw [hctx]; exact ⟨rfl, hfree⟩)
    rw [Ev.tryClose_of_free rfl (by exact hdone), Ev.completeClose_start _ i (v := v) (by rw [hctx]; rfl), hctx]
    rfl

end Sys2Proof.Machine
end

section
/-! PROOFS. The requests of ports: CONFIGURE, START and STOP (R28, R30, R95 to R99). -/

namespace Sys2Proof.Machine

open Sys2Proof

/-! ### The commands of port requests -/

theorem exec_portBadAction {cb : Bytes32} (h : byteAt cb 0 = 0 ∨ 4 ≤ (byteAt cb 0).toNat) (s : State) :
    exec (.portBadAction cb) s = .next (s.decidePort fun _ e => (e, .badAction)) :=
  congrArg Host.Outcome.next (if_pos (by simpa [Instr.wf] using h))

theorem exec_configure {cb : Bytes32} (h : byteAt cb 0 = 1) (s : State) :
    exec (.configure cb) s = .next (s.decidePort fun p e =>
      ((e.checkCtxs (e.m.configureReads p cb)).andThen (fun e' =>
        if e.m.configureResult p cb = .accepted then e'.takeConfig p cb else e'), e.m.configureResult p cb)) :=
  congrArg Host.Outcome.next (if_pos (decide_eq_true h))

theorem exec_startPort {cb : Bytes32} (h : byteAt cb 0 = 2) (s : State) :
    exec (.startPort cb) s = .next (s.decidePort fun p e =>
      (if e.m.startResultFor p = .accepted then e.enterSyncing p else e, e.m.startResultFor p)) :=
  congrArg Host.Outcome.next (if_pos (decide_eq_true h))

theorem exec_stopPort {cb : Bytes32} (h : byteAt cb 0 = 3) (s : State) :
    exec (.stopPort cb) s = .next (s.decidePort fun p e => (e.stopPort p, (e.port p).stopResult)) :=
  congrArg Host.Outcome.next (if_pos (decide_eq_true h))

/-! ### Reports of a port that its own answer follows -/

theorem Ev.report_eq (e : Ev) (p : PortId) : e.report p =
    { e with blocks := if p ∈ e.blocks then e.blocks else e.blocks ++ [p], causes := e.causes ||| causePort } := by
  unfold Ev.report Ev.block
  split <;> rfl

/-- R106, R112: the status block of a port is written once in an event. -/
theorem Ev.answerPort_report (e : Ev) (p : PortId) (v : Byte) (result : PortResult) :
    (e.report p).answerPort p v result = e.answerPort p v result := by
  unfold Ev.answerPort
  rw [Ev.report_eq e, Ev.report_eq, Ev.report_eq]
  have hmem : p ∈ (if p ∈ e.blocks then e.blocks else e.blocks ++ [p]) := by split <;> simp [*]
  refine Ev.ext_fields rfl rfl rfl (if_pos hmem) rfl ?_ rfl
  show (((e.causes ||| causePort) ||| causePort) ||| _) = ((e.causes ||| causePort) ||| _)
  rw [BitVec.or_assoc e.causes causePort causePort, BitVec.or_self]

/-- R95: a port request whose command changes the machine and reports the port. -/
theorem State.decidePort_reports {s : State} {p : PortId} {v : Byte} {r : Read} (ht : s.portTake = some (p, v, r))
    (hs : s.engine.state ≠ .halted) {body : PortId → Ev → Ev × PortResult} {m : State} {dirty : List StreamId} {result : PortResult}
    (hbody : body p (Ev.start (s.completed r.rid)) = (Ev.report { Ev.start m with dirty := dirty } p, result)) :
    ∃ u, (m.answeredPort p v result).takeEnded u ∧
      s.decidePort body = u.sends (dirty.map u.partHalfWrite ++ u.portAnswer p v) causePort := by
  rw [State.decidePort_eq ht hs hbody, Ev.andThen_of_not_halted (by rw [Ev.report_halted]; rfl), Ev.answerPort_report, Ev.answerPort_eq]
  exact Ev.endTake_sendsPort dirty p v

/-! ### CONFIGURE (R30, R96) -/

theorem blockInRange_iff (cb : Bytes32) : blockInRange cb = true ↔
    (byteAt cb 1).toNat ≤ 4 ∧ 50 ≤ (byteAt cb 2).toNat ∧ (byteAt cb 2).toNat ≤ 90 ∧ 1 ≤ (byteAt cb 3).toNat ∧
    (byteAt cb 3).toNat ≤ 15 ∧ byteAt cb 4 ≠ 0 ∧ cb.getLsbD 64 = false ∧ cb.getLsbD 127 = false := by
  have h64 : (blockNodeEnable cb).getLsbD 0 = cb.getLsbD 64 := by simp [blockNodeEnable, fieldAt]
  have h127 : (blockNodeEnable cb).getLsbD 63 = cb.getLsbD 127 := by simp [blockNodeEnable, fieldAt]
  simp only [blockInRange, h64, h127, Bool.and_eq_true, decide_eq_true_eq, Bool.not_eq_true', and_assoc]
  rfl

theorem Budget.changes_iff (t : Budget) (k pct : Byte) : t.changes k pct = true ↔ ¬ (k = t.cycleIndex ∧ pct = t.capPct) := by
  simp [Budget.changes, imp_iff_not_or]

theorem State.mem_openOneShots (s : State) (p : PortId) (i : StreamId) : i ∈ s.openOneShots p ↔
    (s.ctx i).state = .isOpen ∧ (s.ctx i).params.kind = 2 ∧ (s.ctx i).params.portId = p := by
  simp [State.openOneShots, mem_allStreams, Params.oneShot_iff, and_assoc]

/-- R30: what refuses a change of CYCLE_INDEX or CAP_PCT. -/
theorem State.configureRefused_iff (s : State) (p : PortId) (k pct : Byte) : s.configureRefused p k pct = true ↔
    ¬ (k = (s.budget p).cycleIndex ∧ pct = (s.budget p).capPct) ∧ (0 < (s.budget p).reservations ∨
      ∃ i, (s.ctx i).state = .isOpen ∧ (s.ctx i).params.kind = 2 ∧ (s.ctx i).params.portId = p ∧
        (cycleFigures k.toNat pct.toNat).oneShotLimit < (s.ctx i).cost) := by
  simp only [State.configureRefused, Bool.and_eq_true, Bool.or_eq_true, Budget.changes_iff, decide_eq_true_eq, State.openOneShotAbove,
    List.any_eq_true, State.mem_openOneShots, and_assoc]

/-- R4, R30: the contexts whose costs a configuration reads. -/
theorem State.mem_configureReads {s : State} {p : PortId} {cb : Bytes32} {i : StreamId} (h : i ∈ s.configureReads p cb) :
    (s.port p).state = .disabled ∧ blockInRange cb = true ∧
    ¬ (byteAt cb 1 = (s.budget p).cycleIndex ∧ byteAt cb 2 = (s.budget p).capPct) ∧ (s.budget p).reservations = 0 ∧
    i ∈ s.openOneShots p := by
  unfold State.configureReads at h
  split at h
  next hc =>
    rw [Bool.and_eq_true, decide_eq_true_eq] at hc
    unfold State.costsRead at h
    dsimp only at h
    split at h
    next hr =>
      rw [Bool.and_eq_true, decide_eq_true_eq, Budget.changes_iff] at hr
      exact ⟨hc.1, hc.2, hr.1, hr.2, h⟩
    next => cases h
  next => cases h

/-- R4: contexts that have no parity error are read without effect. -/
theorem Ev.checkCtxs_of_good {e : Ev} (h : e.halted = false) {is : List StreamId} (hg : ∀ i ∈ is, (e.m.ctx i).parityOk = true) :
    e.checkCtxs is = e := by
  induction is with
  | nil => rfl
  | cons i is ih =>
    rw [List.forall_mem_cons] at hg
    rw [Ev.checkCtxs, Ev.forEach_cons_of_not_halted _ _ _ h, Ev.withCtx_of_good hg.1]
    exact ih hg.2

/-- R96 step 4: the machine with a configuration in force. -/
def State.configuredBy (m : State) (p : PortId) (cb : Bytes32) : State :=
  (m.setPort p { m.port p with
    configured := true, silenceLimit := byteAt cb 3, deferTimeout := byteAt cb 4, nodeEnable := cb.extractLsb' 64 64 }).setBudget p
    ((m.budget p).configured (byteAt cb 1) (byteAt cb 2))

/-- R96: a CONFIGURE that reads no context with a parity error. -/
theorem exec_configure_answers {s : State} {p : PortId} {v : Byte} {r : Read} {cb : Bytes32} (ht : s.portTake = some (p, v, r))
    (hs : s.engine.state ≠ .halted) (hact : byteAt cb 0 = 1) (hg : ∀ i ∈ s.configureReads p cb, (s.ctx i).parityOk = true)
    {result : PortResult} (hresult : s.configureResult p cb = result) :
    ∃ u, ((if result = .accepted then (s.completed r.rid).configuredBy p cb else s.completed r.rid).answeredPort p v result).takeEnded u ∧
      exec (.configure cb) s = .next (u.sends (u.portAnswer p v) causePort) := by
  have hresult' : (Ev.start (s.completed r.rid)).m.configureResult p cb = result := hresult
  obtain ⟨u, hend, hdecide⟩ := State.decidePort_answers (m := if result = .accepted then (s.completed r.rid).configuredBy p cb
    else s.completed r.rid) (dirty := []) (result := result) ht hs (body := fun p e =>
      ((e.checkCtxs (e.m.configureReads p cb)).andThen (fun e' =>
        if e.m.configureResult p cb = .accepted then e'.takeConfig p cb else e'), e.m.configureResult p cb)) (by
    dsimp only
    rw [Ev.checkCtxs_of_good rfl (by exact hg), Ev.andThen_of_not_halted rfl, hresult']
    split <;> rfl)
  exact ⟨u, hend, (exec_configure hact s).trans (congrArg _ hdecide)⟩

theorem State.configureResult_of_wrongState {s : State} {p : PortId} (h : (s.port p).state ≠ .disabled) (cb : Bytes32) :
    s.configureResult p cb = .wrongState := if_pos h

theorem State.configureResult_of_badConfig {s : State} {p : PortId} (h : (s.port p).state = .disabled) {cb : Bytes32}
    (hr : ¬ blockInRange cb = true) : s.configureResult p cb = .badConfig := (if_neg (not_not.2 h)).trans (if_pos hr)

theorem State.configureResult_of_refused {s : State} {p : PortId} (h : (s.port p).state = .disabled) {cb : Bytes32}
    (hr : blockInRange cb = true) (hb : s.configureRefused p (byteAt cb 1) (byteAt cb 2) = true) :
    s.configureResult p cb = .streamsAdmitted := (if_neg (not_not.2 h)).trans ((if_neg (not_not.2 hr)).trans (if_pos hb))

theorem State.configureResult_of_accepted {s : State} {p : PortId} (h : (s.port p).state = .disabled) {cb : Bytes32}
    (hr : blockInRange cb = true) (hb : ¬ s.configureRefused p (byteAt cb 1) (byteAt cb 2) = true) :
    s.configureResult p cb = .accepted := (if_neg (not_not.2 h)).trans ((if_neg (not_not.2 hr)).trans (if_neg hb))

/-- Settles O35. -/
theorem configureDecided : Obligations.ConfigureDecided := by
  unfold Obligations.ConfigureDecided
  intro s p v r cb ht hs
  dsimp only
  rw [← blockInRange_iff]
  refine ⟨fun hact => ⟨fun hst => ?_, fun hst hr => ?_, fun hst hr hsame hblocked hgood => ?_, fun hst hr hok => ?_⟩, fun hbad => ?_⟩
  · exact exec_configure_answers ht hs hact (fun i hi => absurd (State.mem_configureReads hi).1 hst)
      (State.configureResult_of_wrongState hst cb)
  · exact exec_configure_answers ht hs hact (fun i hi => absurd (State.mem_configureReads hi).2.1 hr)
      (State.configureResult_of_badConfig hst hr)
  · refine exec_configure_answers ht hs hact (fun i hi => ?_)
      (State.configureResult_of_refused hst hr ((s.configureRefused_iff p _ _).2 ⟨hsame, hblocked⟩))
    obtain ⟨-, -, -, hnone, hmem⟩ := State.mem_configureReads hi
    obtain ⟨hi1, hi2, hi3⟩ := (s.mem_openOneShots p i).1 hmem
    obtain hpos | hgood := hgood
    · omega
    · exact hgood i hi1 hi2 hi3
  · have hnot : ¬ s.configureRefused p (byteAt cb 1) (byteAt cb 2) = true := by
      rw [State.configureRefused_iff]
      rintro ⟨hsame, hblocked⟩
      obtain h | h := hok
      · exact hsame h
      · exact h.1 hblocked
    refine exec_configure_answers ht hs hact (fun i hi => ?_) (State.configureResult_of_accepted hst hr hnot)
    obtain ⟨-, -, hdiff, -, hmem⟩ := State.mem_configureReads hi
    obtain ⟨hi1, hi2, hi3⟩ := (s.mem_openOneShots p i).1 hmem
    obtain h | ⟨-, hgood⟩ := hok
    · exact absurd h hdiff
    · exact hgood i hi1 hi2 hi3
  · obtain ⟨u, hend, hdecide⟩ := State.decidePort_answers (m := s.completed r.rid) (dirty := []) (result := .badAction) ht hs
      (body := fun _ e => (e, .badAction)) rfl
    exact ⟨u, hend, (exec_portBadAction hbad s).trans (congrArg _ hdecide)⟩

/-! ### START (R97, R99) -/

/-- R46: the plan of a stream changes the machine alone, where its context has no parity error. -/
theorem Ev.planStream_eq {e : Ev} {p : PortId} {i : StreamId} (hg : (e.m.ctx i).parityOk = true) :
    e.planStream p i = { e with m := (e.planStream p i).m } := by
  unfold Ev.planStream
  rw [Ev.withCtx_of_good hg]
  dsimp only
  split_ifs <;> rfl

/-- R46: planning changes the machine alone, and does not halt, where no context has a parity error. -/
theorem Ev.forEach_planStream_eq (p : PortId) (is : List StreamId) : ∀ e : Ev, e.halted = false → e.m.parityGood →
    e.forEach is (Ev.planStream p) = { e with m := (e.forEach is (Ev.planStream p)).m } := by
  induction is with
  | nil => intro e _ _; rfl
  | cons i is ih =>
    intro e h hg
    obtain ⟨hrun, hgood⟩ := (e.does_planStream p i h).runs rfl h hg
    have hone := e.planStream_eq (p := p) (hg i)
    have hrest := ih _ hrun hgood
    rw [Ev.forEach_cons_of_not_halted _ _ _ h, hrest, hone]

theorem Ev.planBuild_eq {e : Ev} (h : e.halted = false) (hg : e.m.parityGood) (p : PortId) :
    e.planBuild p = { e with m := (e.planBuild p).m } := Ev.forEach_planStream_eq p _ e h hg

/-- What planning keeps of every port. -/
theorem Ev.Does.plans_kept {p : PortId} {a b : Ev} (d : Ev.Does (Plans p) a b) (hb : b.halted = false) (r : PortId) :
    (b.m.port r).kept = (a.m.port r).kept :=
  Ev.Does.port (K := Plans p) (R := fun _ q q' => q'.kept = q.kept) (fun _ _ => rfl) (fun _ _ _ _ h h' => h'.2.1.trans h) d hb r

theorem Ev.Does.plans_cycle {p : PortId} {a b : Ev} (d : Ev.Does (Plans p) a b) (hb : b.halted = false) (r : PortId) :
    (b.m.port r).cycle = (a.m.port r).cycle := by
  have h := congrArg Port.cycle (d.plans_kept hb r)
  exact h

theorem Ev.report_block (e : Ev) (p : PortId) : (e.block p).report p = e.report p := by
  rw [Ev.report_eq, Ev.report_eq]
  unfold Ev.block
  by_cases h : p ∈ e.blocks <;> simp [h]

theorem State.setPort_self (s : State) (p : PortId) : s.setPort p (s.port p) = s := by
  have hports : s.ports.set p.val (s.port p) = s.ports := table_ext fun r => by
    rw [get_set]; split
    next h => rw [h]; rfl
    next => rfl
  exact congrArg (fun v => ({ s with ports := v } : State)) hports

/-- A port with nothing planned and nothing to take up. -/
theorem Port.eq_of_nothing {q : Port} (hn : q.nextPlan = []) (hc : q.current = []) : { q with nextPlan := [], current := [] } = q := by
  cases q
  simp only at hn hc
  rw [hn, hc]

/-- R47: a hand-over of an empty plan to an empty list. -/
theorem Ev.handOver_of_nothing {e : Ev} {p : PortId} (hn : (e.m.port p).nextPlan = []) (hc : (e.m.port p).current = []) :
    e.handOver p = e := by
  unfold Ev.handOver
  dsimp only
  rw [Ev.port_eq, hn]
  have hport : e.m.setPort p { e.m.port p with nextPlan := [], current := [] } = e.m := by
    rw [Port.eq_of_nothing hn hc, State.setPort_self]
  exact congrArg (fun m => ({ e with m := m } : Ev)) hport

/-- R99: the START event of a SYNCING port in a cycle other than 8, with nothing planned yet. -/
theorem Ev.startCycle_of_syncing {m : State} {p : PortId} {q : Port} (hst : q.state = .syncing) (hcy : q.cycle = 0)
    (hn : q.nextPlan = []) (hc : q.current = []) (hg : m.parityGood) :
    Ev.startCycle p (Ev.start (m.setPort p q)) =
      ((Ev.start (m.setPort p (q.sendStart (m.budget p).cycleIndex))).planBuild p).block p := by
  have hsent : (Ev.start (m.setPort p q)).modPort p (Port.sendStart ((Ev.start (m.setPort p q)).m.budget p).cycleIndex) =
      Ev.start (m.setPort p (q.sendStart (m.budget p).cycleIndex)) := by
    rw [Ev.modPort, Ev.start_m, State.port_setPort_same, State.setPort_setPort, State.budget_setPort]
    rfl
  unfold Ev.startCycle
  rw [hsent]
  have hport : (m.setPort p (q.sendStart (m.budget p).cycleIndex)).port p = q.sendStart (m.budget p).cycleIndex :=
    State.port_setPort_same m p _
  generalize hs : m.setPort p (q.sendStart (m.budget p).cycleIndex) = s at hport ⊢
  have hgood : s.parityGood := by subst hs; exact hg
  have hq : (Ev.start s).port p = q.sendStart (m.budget p).cycleIndex := hport
  have henter : (decide (((Ev.start s).port p).state = .syncing) && decide (((Ev.start s).port p).cycle = Config.runningCycle)) = false := by
    rw [hq, show (q.sendStart (m.budget p).cycleIndex).cycle = 0 from hcy]
    exact Bool.and_false _
  have hrun : decide (((Ev.start s).port p).state = .running) = false := by
    rw [hq, show (q.sendStart (m.budget p).cycleIndex).state = .syncing from hst]; rfl
  dsimp only
  have hd := (Ev.start s).does_planBuild p rfl
  obtain ⟨hruns, -⟩ := hd.runs rfl rfl hgood
  have hcycle : (((Ev.start s).planBuild p).port p).cycle = 0 := by
    rw [Ev.port_eq, hd.plans_cycle hruns p, Ev.start_m, hport]; exact hcy
  rw [henter, Ev.onlyIf, if_neg (by decide), Ev.andThen_of_not_halted (e := Ev.start s) rfl, Ev.handOver_of_nothing,
    Ev.andThen_of_not_halted (e := Ev.start s) rfl, hrun,
    Ev.onlyIf, if_neg (by decide), Ev.andThen_of_not_halted (e := Ev.start s) rfl, Ev.andThen_of_not_halted hruns, hcycle]
  · rfl
  · rw [Ev.start_m, hport]; exact hn
  · rw [Ev.start_m, hport]; exact hc

/-- R97: the port that an accepted START leaves, before its first START frame is sent. -/
def Port.syncing (q : Port) : Port :=
  { q with
    state := .syncing, faultReason := .none, cycle := 0, startMismatches := 0, nextPlan := [], current := [], urgent := [],
    normal := [], fetchList := [], turn := .fetchList, periodicUsed := 0, aperiodicUsed := 0, cycleTimer := true }

/-- R97, R99: the entry of a port to SYNCING. -/
theorem Ev.enterSyncing_eq {m : State} (hg : m.parityGood) (p : PortId) : (Ev.start m).enterSyncing p =
    Ev.report (Ev.start ((Ev.start (m.setPort p ((m.port p).syncing.sendStart (m.budget p).cycleIndex))).planBuild p).m) p := by
  unfold Ev.enterSyncing
  have hstart := Ev.startCycle_of_syncing (m := m) (p := p) (q := (m.port p).syncing) rfl rfl rfl rfl hg
  have hplan := Ev.planBuild_eq (e := Ev.start (m.setPort p ((m.port p).syncing.sendStart (m.budget p).cycleIndex))) rfl hg p
  have hruns : (Ev.startCycle p (Ev.start (m.setPort p (m.port p).syncing))).halted = false := by
    rw [hstart, Ev.block_halted, hplan]; rfl
  exact (Ev.andThen_of_not_halted hruns _).trans (by rw [hstart, Ev.report_block, hplan]; rfl)

theorem exec_startPort_answers {s : State} {p : PortId} {v : Byte} {r : Read} {cb : Bytes32} (ht : s.portTake = some (p, v, r))
    (hs : s.engine.state ≠ .halted) (hact : byteAt cb 0 = 2) {result : PortResult} (hresult : s.startResultFor p = result)
    (hne : result ≠ .accepted) :
    ∃ u, ((s.completed r.rid).answeredPort p v result).takeEnded u ∧
      exec (.startPort cb) s = .next (u.sends (u.portAnswer p v) causePort) := by
  have hresult' : (Ev.start (s.completed r.rid)).m.startResultFor p = result := hresult
  obtain ⟨u, hend, hdecide⟩ := State.decidePort_answers (m := s.completed r.rid) (dirty := []) (result := result) ht hs
    (body := fun p e => (if e.m.startResultFor p = .accepted then e.enterSyncing p else e, e.m.startResultFor p)) (by
    dsimp only
    rw [hresult', if_neg hne]; rfl)
  exact ⟨u, hend, (exec_startPort hact s).trans (congrArg _ hdecide)⟩

theorem State.startResultFor_of_stopping {s : State} (h : s.engine.state = .stopping) (p : PortId) : s.startResultFor p = .wrongState :=
  if_pos h

theorem State.startResultFor_of_moving {s : State} (h : s.engine.state ≠ .stopping) {p : PortId}
    (hp : (s.port p).state = .syncing ∨ (s.port p).state = .running ∨ (s.port p).state = .stopping) : s.startResultFor p = .noChange := by
  unfold State.startResultFor
  rw [if_neg h]
  obtain hp | hp | hp := hp <;> rw [hp]

theorem State.startResultFor_of_unconfigured {s : State} (h : s.engine.state ≠ .stopping) {p : PortId}
    (hp : (s.port p).state = .disabled) (hc : (s.port p).configured = false) : s.startResultFor p = .badConfig := by
  unfold State.startResultFor
  rw [if_neg h, hp]
  exact if_neg (ne_true_of_eq_false hc)

theorem State.startResultFor_of_accepted {s : State} (h : s.engine.state ≠ .stopping) {p : PortId}
    (hp : ((s.port p).state = .disabled ∧ (s.port p).configured = true) ∨ (s.port p).state = .faulted) :
    s.startResultFor p = .accepted := by
  unfold State.startResultFor
  rw [if_neg h]
  obtain ⟨hp, hc⟩ | hp := hp
  · rw [hp]; exact if_pos hc
  · rw [hp]

/-- Settles O36. -/
theorem startDecided : Obligations.StartDecided := by
  unfold Obligations.StartDecided
  intro s p v r cb ht hs hact
  dsimp only
  refine ⟨fun hst => ?_, fun hst => ⟨fun hp => ?_, fun hp hc => ?_, fun hg hp => ?_⟩⟩
  · exact exec_startPort_answers ht hs hact (State.startResultFor_of_stopping hst p) (by decide)
  · exact exec_startPort_answers ht hs hact (State.startResultFor_of_moving hst hp) (by decide)
  · exact exec_startPort_answers ht hs hact (State.startResultFor_of_unconfigured hst hp hc) (by decide)
  · have hresult : (Ev.start (s.completed r.rid)).m.startResultFor p = .accepted := State.startResultFor_of_accepted hst hp
    obtain ⟨u, hend, hdecide⟩ := State.decidePort_reports (m := ((Ev.start ((s.completed r.rid).setPort p
      (((s.completed r.rid).port p).syncing.sendStart ((s.completed r.rid).budget p).cycleIndex))).planBuild p).m) (dirty := [])
      (result := .accepted) ht hs
      (body := fun p e => (if e.m.startResultFor p = .accepted then e.enterSyncing p else e, e.m.startResultFor p)) (by
      dsimp only
      rw [hresult, if_pos rfl, Ev.enterSyncing_eq (by exact hg)]; rfl)
    exact ⟨u, hend, (exec_startPort hact s).trans (congrArg _ hdecide)⟩

/-! ### STOP (R98) -/

/-- R98: a STOP that changes nothing of the port. -/
theorem exec_stopPort_of_resting {s : State} {p : PortId} {v : Byte} {r : Read} {cb : Bytes32} (ht : s.portTake = some (p, v, r))
    (hs : s.engine.state ≠ .halted) (hact : byteAt cb 0 = 3) (hp : (s.port p).moves = false) {result : PortResult}
    (hresult : (s.port p).stopResult = result) :
    ∃ u, ((s.completed r.rid).answeredPort p v result).takeEnded u ∧
      exec (.stopPort cb) s = .next (u.sends (u.portAnswer p v) causePort) := by
  have hresult' : ((Ev.start (s.completed r.rid)).port p).stopResult = result := hresult
  obtain ⟨u, hend, hdecide⟩ := State.decidePort_answers (m := s.completed r.rid) (dirty := []) (result := result) ht hs
    (body := fun p e => (e.stopPort p, (e.port p).stopResult)) (by
    dsimp only
    rw [hresult', Ev.stopPort_of_resting (by exact hp)]; rfl)
  exact ⟨u, hend, (exec_stopPort hact s).trans (congrArg _ hdecide)⟩

/-- R98: a STOP that moves the port, by what it leaves of the machine and the part halves it writes. -/
theorem exec_stopPort_of_moving {s : State} {p : PortId} {v : Byte} {r : Read} {cb : Bytes32} (ht : s.portTake = some (p, v, r))
    (hs : s.engine.state ≠ .halted) (hact : byteAt cb 0 = 3) {m : State} {held : List StreamId}
    (hstop : (Ev.start (s.completed r.rid)).stopPort p = Ev.report { Ev.start m with dirty := held } p)
    (hresult : (s.port p).stopResult = .accepted) :
    ∃ u, (m.answeredPort p v .accepted).takeEnded u ∧
      exec (.stopPort cb) s = .next (u.sends (held.map u.partHalfWrite ++ u.portAnswer p v) causePort) := by
  have hresult' : ((Ev.start (s.completed r.rid)).port p).stopResult = .accepted := hresult
  obtain ⟨u, hend, hdecide⟩ := State.decidePort_reports (m := m) (dirty := held) (result := .accepted) ht hs
    (body := fun p e => (e.stopPort p, (e.port p).stopResult)) (by dsimp only; rw [hresult', hstop])
  exact ⟨u, hend, (exec_stopPort hact s).trans (congrArg _ hdecide)⟩

theorem Port.stopped_of_faulted {q : Port} (h : q.state = .faulted) : q.stopped = { q with state := .disabled } := by
  simp [Port.stopped, h]

theorem Port.stopped_of_cycling {q : Port} (h : q.state = .syncing ∨ q.state = .running) :
    q.stopped = { q with state := .stopping, windowOpen := false } := if_pos h

theorem Port.moves_of_state {q : Port} (h : q.state = .syncing ∨ q.state = .running ∨ q.state = .faulted) : q.moves = true := by
  obtain h | h | h := h <;> simp [Port.moves, h]

/-- Settles O37. -/
theorem stopDecided : Obligations.StopDecided := by
  unfold Obligations.StopDecided
  intro s p v r cb ht hs hact
  dsimp only
  refine ⟨fun hp => ?_, fun hp => ?_, fun hp => ?_, fun hp hg => ?_⟩
  · exact exec_stopPort_of_resting ht hs hact (by obtain hp | hp := hp <;> simp [Port.moves, hp])
      (by obtain hp | hp := hp <;> simp [Port.stopResult, hp])
  · refine exec_stopPort_of_moving (held := []) ht hs hact ?_ (by simp [Port.stopResult, hp])
    rw [← Port.stopped_of_faulted hp]
    exact Ev.stopPort_of_not_running (e := Ev.start (s.completed r.rid)) (Port.moves_of_state (q := s.port p) (.inr (.inr hp))) (by exact hp ▸ by decide)
  · refine exec_stopPort_of_moving (held := []) ht hs hact ?_ (by simp [Port.stopResult, hp])
    rw [← Port.stopped_of_cycling (.inl hp)]
    exact Ev.stopPort_of_not_running (e := Ev.start (s.completed r.rid)) (Port.moves_of_state (q := s.port p) (.inl hp)) (by exact hp ▸ by decide)
  · refine exec_stopPort_of_moving (held := s.unheld p) ht hs hact ?_ (by simp [Port.stopResult, hp])
    rw [← Port.stopped_of_cycling (.inr hp), Ev.stopPort_of_running (by rfl) (by exact hp) (by exact hg)]
    have hall : (s.unheld p).filter (fun i => decide (i ∉ ([] : List StreamId))) = s.unheld p :=
      List.filter_eq_self.2 fun i _ => decide_eq_true List.not_mem_nil
    exact congrArg (fun ds => Ev.report { Ev.start (((s.completed r.rid).portsHeld (fun r => decide (r = p))).setPort p
      (s.port p).stopped) with dirty := ds } p) hall

end Sys2Proof.Machine
end

section
/-! PROOFS. R4, R146: what a parity error does wherever a context is read. -/

namespace Sys2Proof.Machine

open Sys2Proof

/-- The detail of the halt on a parity error of stream `i`. -/
def Ev.haltParity (e : Ev) (i : StreamId) : Ev := e.halt .contextParity (BitVec.ofNat 32 i.val)

theorem Ev.haltParity_finish (m : State) (i : StreamId) :
    m.haltedAs (Ev.haltParity (Ev.start m) i).finish .contextParity (BitVec.ofNat 32 i.val) := Ev.halt_finish _ _ _

@[simp] theorem Ev.haltParity_halted (e : Ev) (i : StreamId) : (e.haltParity i).halted = true := rfl

theorem Ev.withCtx_bad {e : Ev} {i : StreamId} (h : (e.m.ctx i).parityOk = false) (f : Ctx → Ev → Ev) : e.withCtx i f = e.haltParity i :=
  Ev.withCtx_of_bad h f

/-! ### The commands that read a context first -/

theorem State.decideStream_of_bad {s : State} {i : StreamId} {v : Byte} {r : Read} (ht : s.streamTake = some (i, v, r))
    (hs : s.engine.state ≠ .halted) (hb : (s.ctx i).parityOk = false) (hh : Bytes64) (body : StreamId → Byte → Ctx → Ev → Ev) :
    s.decideStream hh body = (Ev.haltParity (Ev.start (s.completed r.rid)) i).finish := by
  unfold State.decideStream
  rw [ht]
  dsimp only
  rw [State.event_of_not_halted hs, Ev.withCtx_bad (by exact hb)]
  rfl

theorem State.entryFault_of_bad {s : State} {i : StreamId} {v : Byte} {r : Read} (ht : s.streamTake = some (i, v, r))
    (hs : s.engine.state ≠ .halted) (hb : (s.ctx i).parityOk = false) :
    s.entryFault = (Ev.haltParity (Ev.start (s.completed r.rid)) i).finish := by
  unfold State.entryFault
  rw [ht]
  dsimp only
  rw [State.event_of_not_halted hs, Ev.withCtx_bad (by exact hb)]
  rfl

/-- What R5 refuses of a CLOSED or an OPEN stream. -/
theorem stateRefusal_of_refused {st : StreamState} {a : Byte} (h : ¬ (1 ≤ a.toNat ∧ a.toNat ≤ 5) ∨ (st = .closed ∧ a ≠ 1) ∨
    (st = .isOpen ∧ a = 1)) : ∃ result, stateRefusal st a = some result := by
  by_cases hrange : 1 ≤ a.toNat ∧ a.toNat ≤ 5
  · obtain h | ⟨rfl, hne⟩ | ⟨rfl, h1⟩ := h
    · exact absurd hrange h
    · exact ⟨.notOpen, by rw [stateRefusal, if_neg (not_not.2 hrange), if_pos ⟨rfl, hne⟩]⟩
    · exact ⟨_, stateRefusal_of_open h1⟩
  · exact ⟨_, stateRefusal_of_bad hrange⟩

theorem exec_consumedReadComplete_of_bad {s : State} {i : StreamId} {v : Byte} {q : Params} {r : Read}
    (ht : s.openTake = some (i, v, q, r)) (hs : s.engine.state ≠ .halted) (hb : (s.ctx i).parityOk = false) (x : ReadResult Word) :
    exec (.consumedReadComplete x) s = .next (Ev.haltParity (Ev.start (s.completed r.rid)) i).finish := by
  rw [exec_consumedReadComplete ht hs, Ev.openEnd, Ev.withCtx_bad (by exact hb)]

/-- R115: the refresh in flight of a stream ends. -/
theorem exec_consumedRefreshComplete {s : State} {i : StreamId} {f : Read} (hf : s.smi.flyingFor (.refresh i) = some f)
    (hs : s.engine.state ≠ .halted) (x : ReadResult Word) :
    exec (.consumedRefreshComplete i x) s = .next ((Ev.start (s.completed f.rid)).refreshEnd i (ReadResult.value? x)).finish := by
  show Host.Outcome.next (s.endRefresh i _) = _
  unfold State.endRefresh
  rw [hf]
  dsimp only
  rw [State.event_of_not_halted hs]
  rfl

theorem Ev.sourceEnd_of_bad {s : State} {i : StreamId} (hb : (s.ctx i).parityOk = false) (rid job pos : Nat)
    (f : PortId → Params → Entry → Ev → Ev) :
    (Ev.start s).sourceEnd rid i job pos f = Ev.haltParity (Ev.start (s.completed rid)) i := by
  unfold Ev.sourceEnd
  rw [Ev.withCtx_bad (by exact hb)]
  rfl

/-- R51: a selector read ends. -/
theorem exec_selectorReadComplete {s : State} {rid : Nat} {f : Read} (hf : s.smi.flying rid = some f) {i : StreamId} {job : Nat}
    (hw : f.what = .selector i job) (hs : s.engine.state ≠ .halted) (pos : Nat) :
    (∀ v, exec (.selectorReadComplete rid (.data v) pos) s =
      .next ((Ev.start s).sourceEnd rid i job pos (fun p q _ e => e.selectorData p i job q v)).finish) ∧
    exec (.selectorReadComplete rid .fault pos) s = .next ((Ev.start s).sourceReadFault rid i job pos).finish := by
  obtain ⟨rid', what, addr, len⟩ := f
  obtain rfl : what = _ := hw
  refine ⟨fun v => ?_, ?_⟩
  · show execSelectorReadComplete rid (.data v) pos s = _
    rw [execSelectorReadComplete, hf]
    dsimp only
    rw [State.event_of_not_halted hs]
  · show execSelectorReadComplete rid .fault pos s = _
    rw [execSelectorReadComplete, hf]
    dsimp only
    rw [State.event_of_not_halted hs]

/-- R51, R159: a half read ends; data of another length than asked for is no event. -/
theorem exec_halfReadComplete {s : State} {rid : Nat} {f : Read} (hf : s.smi.flying rid = some f) {i : StreamId} {job piece : Nat}
    (hw : f.what = .half i job piece) (hs : s.engine.state ≠ .halted) (pos : Nat) :
    (∀ d, d.length = f.len → exec (.halfReadComplete rid (.data d) pos) s = .next ((Ev.start s).sourceEnd rid i job pos
      (fun p _ x e => e.modPort p (Port.setOwner i job (x.source.withPiece job piece d)))).finish) ∧
    (∀ d, d.length ≠ f.len → exec (.halfReadComplete rid (.data d) pos) s = .next s) ∧
    exec (.halfReadComplete rid .fault pos) s = .next ((Ev.start s).sourceReadFault rid i job pos).finish := by
  obtain ⟨rid', what, addr, len⟩ := f
  obtain rfl : what = _ := hw
  refine ⟨fun d hd => ?_, fun d hd => ?_, ?_⟩
  · show execHalfReadComplete rid (.data d) pos s = _
    rw [execHalfReadComplete, hf]
    dsimp only
    rw [if_pos hd, State.event_of_not_halted hs]
  · show execHalfReadComplete rid (.data d) pos s = _
    rw [execHalfReadComplete, hf]
    dsimp only
    rw [if_neg hd]
  · show execHalfReadComplete rid .fault pos s = _
    rw [execHalfReadComplete, hf]
    dsimp only
    rw [State.event_of_not_halted hs]

/-- R123: the CANCELLED outcome of a CLOSE is settled. -/
theorem exec_cancelledOutcomeSettle {s : State} {i : StreamId} {o : Outcome} (ho : s.writer.cancelled.find? (fun o => o.stream = i) = some o)
    (hs : s.engine.state ≠ .halted) : exec (.cancelledOutcomeSettle i) s = .next ((Ev.start s).settleCancelled o).finish := by
  show execCancelledOutcomeSettle i s = _
  rw [execCancelledOutcomeSettle, ho]
  dsimp only
  rw [State.event_of_not_halted hs]

theorem Heard.wf_of_ne {heard : Heard} (h : heard ≠ .reply []) : heard.wf = true := by
  cases heard with
  | silence => rfl
  | reply bytes =>
    cases bytes with
    | nil => exact absurd rfl h
    | cons => rfl

theorem exec_requestExchangeEnd {s : State} {p : PortId} {t : TagId} {periodic : Bool} {frame : List Byte} {heard : Heard}
    (hl : (s.port p).line = .request t periodic frame) (hh : heard ≠ .reply []) (hs : s.engine.state ≠ .halted) (echo : List Byte) :
    exec (.requestExchangeEnd p echo heard) s = .next ((Ev.start s).requestExchange p t periodic frame echo heard).finish := by
  show execRequestExchangeEnd p echo heard s = _
  rw [execRequestExchangeEnd, hl]
  dsimp only
  rw [if_pos (Heard.wf_of_ne hh), State.event_of_not_halted hs]

theorem exec_fetchExchangeEnd {s : State} {p : PortId} {t : TagId} {frame : List Byte} {heard : Heard}
    (hl : (s.port p).line = .fetch t frame) (hh : heard ≠ .reply []) (hs : s.engine.state ≠ .halted) (echo : List Byte) :
    exec (.fetchExchangeEnd p echo heard) s = .next ((Ev.start s).fetchExchange p t frame echo heard).finish := by
  show execFetchExchangeEnd p echo heard s = _
  rw [execFetchExchangeEnd, hl]
  dsimp only
  rw [if_pos (Heard.wf_of_ne hh), State.event_of_not_halted hs]

theorem exec_probeExchangeEnd {s : State} {p : PortId} {a : Byte} {frame : List Byte} {heard : Heard}
    (hl : (s.port p).line = .probe a frame) (hh : heard ≠ .reply []) (hs : s.engine.state ≠ .halted) (echo : List Byte) :
    exec (.probeExchangeEnd p echo heard) s = .next ((Ev.start s).probeExchange p a frame echo heard).finish := by
  show execProbeExchangeEnd p echo heard s = _
  rw [execProbeExchangeEnd, hl]
  dsimp only
  rw [if_pos (Heard.wf_of_ne hh), State.event_of_not_halted hs]

/-! ### The costs that a CONFIGURE reads -/

/-- R4, R30: the first context with a parity error among those read halts the engine, and no other is read after it. -/
theorem Ev.checkCtxs_of_bad {e : Ev} (h : e.halted = false) {before after : List StreamId} {i : StreamId}
    (hg : ∀ j ∈ before, (e.m.ctx j).parityOk = true) (hb : (e.m.ctx i).parityOk = false) :
    e.checkCtxs (before ++ i :: after) = e.haltParity i := by
  have hsplit : e.checkCtxs (before ++ i :: after) = (e.checkCtxs before).checkCtxs (i :: after) := Ev.forEach_append _ _ _ _
  rw [hsplit, Ev.checkCtxs_of_good h hg, Ev.checkCtxs, Ev.forEach_cons_of_not_halted _ _ _ h, Ev.withCtx_bad hb]
  exact Ev.forEach_of_halted _ _ (Ev.halt_halted _ _ _)

/-- A stream of a list taken from all of them, with those before it. -/
theorem filter_allStreams_split {f : StreamId → Bool} {i : StreamId} (h : f i = true) : ∃ before after,
    allStreams.filter f = before ++ i :: after ∧ ∀ j ∈ before, j < i ∧ f j = true := by
  have hsplit : allStreams = allStreams.take i.val ++ i :: allStreams.drop (i.val + 1) := by
    rw [← List.singleton_append, ← List.append_assoc, ← allStreams_take_succ, List.take_append_drop]
  refine ⟨(allStreams.take i.val).filter f, (allStreams.drop (i.val + 1)).filter f, ?_, fun j hj => ?_⟩
  · conv_lhs => rw [hsplit]
    rw [List.filter_append, List.filter_cons_of_pos h]
  · obtain ⟨hmem, hf⟩ := List.mem_filter.1 hj
    refine ⟨?_, hf⟩
    rw [allStreams_eq] at hmem
    obtain ⟨k, hk, he⟩ := List.mem_take_iff_getElem.1 hmem
    rw [List.getElem_finRange] at he
    subst he
    rw [Fin.lt_def, Fin.val_cast]
    simp only
    omega

/-- R4, R30: a CONFIGURE that meets a parity error among the costs it reads. -/
theorem exec_configure_of_bad {s : State} {p : PortId} {v : Byte} {r : Read} {cb : Bytes32} (ht : s.portTake = some (p, v, r))
    (hs : s.engine.state ≠ .halted) (hact : byteAt cb 0 = 1) {before after : List StreamId} {i : StreamId}
    (hreads : s.configureReads p cb = before ++ i :: after) (hg : ∀ j ∈ before, (s.ctx j).parityOk = true)
    (hb : (s.ctx i).parityOk = false) :
    exec (.configure cb) s = .next (Ev.haltParity (Ev.start (s.completed r.rid)) i).finish := by
  have hreads' : (Ev.start (s.completed r.rid)).m.configureReads p cb = before ++ i :: after := hreads
  have hbody : ((Ev.start (s.completed r.rid)).checkCtxs ((Ev.start (s.completed r.rid)).m.configureReads p cb)).andThen (fun e' =>
      if (Ev.start (s.completed r.rid)).m.configureResult p cb = .accepted then e'.takeConfig p cb else e') =
      Ev.haltParity (Ev.start (s.completed r.rid)) i := by
    rw [hreads', Ev.checkCtxs_of_bad rfl hg hb]
    exact Ev.andThen_of_halted (Ev.halt_halted _ _ _) _
  rw [exec_configure hact, State.decidePort_eq ht hs (congrArg₂ Prod.mk hbody rfl), Ev.andThen_of_halted (Ev.haltParity_halted _ _)]

/-! ### The operations of an event that read a context first -/

theorem Ev.deliver_of_bad {e : Ev} {o : Outcome} (hb : (e.m.ctx o.stream).parityOk = false) : e.deliver o = e.haltParity o.stream :=
  Ev.withCtx_bad hb _

theorem Ev.planStream_of_bad {e : Ev} {i : StreamId} (hb : (e.m.ctx i).parityOk = false) (p : PortId) :
    e.planStream p i = e.haltParity i := Ev.withCtx_bad hb _

theorem Ev.removeItem_of_bad {e : Ev} {i : StreamId} (hb : (e.m.ctx i).parityOk = false) (p : PortId) (code : OutcomeCode) :
    e.removeItem p code i = e.haltParity i := Ev.withCtx_bad hb _

theorem Ev.releaseTag_of_bad {e : Ev} {p : PortId} {t : TagId} (hb : (e.m.ctx ((e.m.port p).tag t).stream).parityOk = false)
    (code : OutcomeCode) (nodeCode : Byte) (payload : List Byte) :
    e.releaseTag p t code nodeCode payload = e.haltParity ((e.m.port p).tag t).stream := by
  unfold Ev.releaseTag
  exact Ev.withCtx_bad (by exact hb) _

theorem Ev.periodic_of_bad {e : Ev} {p : PortId} {x : Entry} {rest : List Entry} (hc : (e.m.port p).current = x :: rest)
    (hb : (e.m.ctx x.stream).parityOk = false) :
    e.periodic p = Ev.haltParity (e.modPort p (fun q => { q with current := rest })) x.stream := by
  rw [Ev.periodic, Ev.port_eq, hc, Ev.takeUp]
  exact Ev.withCtx_bad (by exact hb) _

theorem cycleReached_iff (now due : Word) : cycleReached now due = true ↔ (now - due).toNat < 2 ^ 31 := decide_eq_true_iff

theorem State.offer_fetchList_of_bad {s : State} {p : PortId} {t : TagId} {rest : List TagId} (hl : (s.port p).fetchList = t :: rest)
    (hb : (s.ctx ((s.port p).tag t).stream).parityOk = false) (hr : cycleReached (s.port p).cycle ((s.port p).tag t).ready = true) :
    s.offer p .fetchList = .parity ((s.port p).tag t).stream := by
  unfold State.offer
  dsimp only
  rw [hl]
  exact (if_neg (not_not.2 hr)).trans (if_pos (ne_true_of_eq_false hb))

/-- R55: the head of the queue is the first item of the class URGENT, or of NORMAL where there is none. -/
theorem Port.head_iff (q : Port) (x : Entry) :
    q.head = some x ↔ ∃ rest, q.urgent = x :: rest ∨ (q.urgent = [] ∧ q.normal = x :: rest) := by
  unfold Port.head
  cases hu : q.urgent with
  | cons y ys =>
    simp only [Option.some.injEq, List.cons.injEq, reduceCtorEq, false_and, or_false]
    exact ⟨fun h => ⟨ys, h, rfl⟩, fun ⟨_, h, _⟩ => h⟩
  | nil =>
    simp only [reduceCtorEq, false_or, true_and]
    cases q.normal with
    | nil => simp
    | cons y ys => simp

theorem State.offer_queue_of_bad {s : State} {p : PortId} {x : Entry} (hh : (s.port p).head = some x)
    (hb : (s.ctx x.stream).parityOk = false) : s.offer p .queue = .parity x.stream := by
  unfold State.offer
  dsimp only
  rw [hh]
  exact if_pos (ne_true_of_eq_false hb)

theorem Ev.headRead_of_bad {e : Ev} {p : PortId} {x : Entry} (hh : (e.m.port p).head = some x) (hx : x.source = .notRead)
    (hb : (e.m.ctx x.stream).parityOk = false) : e.headRead p = e.haltParity x.stream := by
  obtain ⟨i, src⟩ := x
  obtain rfl : src = .notRead := hx
  unfold Ev.headRead
  rw [Ev.port_eq, hh]
  exact Ev.withCtx_bad hb _

/-- R59, R60: a selection that meets a parity error halts, at the list offered first or at the other. -/
theorem Ev.selection_of_bad {e : Ev} {p : PortId} {i : StreamId} (opening : Bool) :
    (e.m.offer p (e.m.port p).turn = .parity i → e.selection p opening = e.haltParity i) ∧
    (e.m.offer p (e.m.port p).turn = .passes ∨ (e.m.offer p (e.m.port p).turn = .tooLong ∧ opening = true) →
      e.m.offer p (e.m.port p).turn.other = .parity i → e.selection p opening = e.haltParity i) := by
  have hsecond (tooLong : Bool) (h : e.m.offer p (e.m.port p).turn.other = .parity i) :
      e.second p (e.m.port p).turn opening tooLong = e.haltParity i := by
    unfold Ev.second
    rw [h]; rfl
  unfold Ev.selection
  dsimp only
  rw [Ev.port_eq]
  refine ⟨fun h => by rw [h]; rfl, fun h hb => ?_⟩
  obtain h | ⟨h, rfl⟩ := h
  · rw [h]; exact hsecond _ hb
  · rw [h]; exact hsecond _ hb

/-- Settles O33. -/
theorem parityErrorHalts : Obligations.ParityErrorHalts := by
  unfold Obligations.ParityErrorHalts
  refine ⟨fun s i hs hb => ?commands, fun e i h hb => ?operations, fun e i f hg => Ev.withCtx_of_good hg f, fun _ _ => rfl,
    fun e code detail => ⟨rfl, Ev.halt_finish e code detail⟩⟩
  case commands =>
    dsimp only
    refine ⟨fun v r hh c ht hc => ?_, fun v q r x ht => ?_, fun r x hf => ?_, fun rid pos job f hf => ⟨fun hw x => ?_, fun piece hw => ?_⟩,
      fun o ho => ?_, fun p t frame echo heard hh hi => ⟨fun periodic hl => ?_, fun hl => ?_⟩,
      fun p v r cb ht hact hst hr hdiff hnone hread hbefore => ?_⟩
    · have hexec : exec c s = .next (Ev.haltParity (Ev.start (s.completed r.rid)) i).finish := by
        obtain rfl | ⟨rfl, href⟩ | ⟨hwf, hc⟩ := hc
        · exact congrArg _ (State.entryFault_of_bad ht hs hb)
        · obtain ⟨result, href⟩ := stateRefusal_of_refused href
          rw [exec_streamBadAction ht href, State.decideStream_of_bad ht hs hb]
        · obtain ⟨body, hexec⟩ := exec_streamRequest s hwf hc
          rw [hexec, State.decideStream_of_bad ht hs hb]
      exact ⟨_, hexec, Ev.haltParity_finish _ i⟩
    · exact ⟨_, exec_consumedReadComplete_of_bad ht hs hb x, Ev.haltParity_finish _ i⟩
    · refine ⟨_, exec_consumedRefreshComplete hf hs x, ?_⟩
      rw [Ev.refreshEnd, Ev.withCtx_bad (by exact hb)]
      exact Ev.haltParity_finish _ i
    · obtain ⟨hdata, hfault⟩ := exec_selectorReadComplete hf hw hs pos
      cases x with
      | data v => exact ⟨_, hdata v, by rw [Ev.sourceEnd_of_bad hb]; exact Ev.haltParity_finish _ i⟩
      | fault => exact ⟨_, hfault, by rw [Ev.sourceReadFault, Ev.sourceEnd_of_bad hb]; exact Ev.haltParity_finish _ i⟩
    · obtain ⟨hdata, -, hfault⟩ := exec_halfReadComplete hf hw hs pos
      exact ⟨⟨_, hfault, by rw [Ev.sourceReadFault, Ev.sourceEnd_of_bad hb]; exact Ev.haltParity_finish _ i⟩,
        fun d hd => ⟨_, hdata d hd, by rw [Ev.sourceEnd_of_bad hb]; exact Ev.haltParity_finish _ i⟩⟩
    · have hi : o.stream = i := by simpa using List.find?_some ho
      subst hi
      refine ⟨_, exec_cancelledOutcomeSettle ho hs, ?_⟩
      rw [Ev.settleCancelled, Ev.withCtx_bad (by exact hb)]
      exact Ev.haltParity_finish _ _
    · subst hi
      refine ⟨_, exec_requestExchangeEnd hl hh hs echo, ?_⟩
      unfold Ev.requestExchange
      dsimp only
      rw [Ev.withCtx_bad (by exact hb)]
      exact Ev.haltParity_finish _ _
    · subst hi
      refine ⟨_, exec_fetchExchangeEnd hl hh hs echo, ?_⟩
      unfold Ev.fetchExchange
      dsimp only
      rw [Ev.withCtx_bad (by exact hb)]
      exact Ev.haltParity_finish _ _
    · have hreads : s.configureReads p cb = s.openOneShots p := by
        refine (if_pos (by rw [hst, hr]; rfl)).trans (if_pos ?_)
        rw [Bool.and_eq_true, Budget.changes_iff]
        exact ⟨hdiff, decide_eq_true hnone⟩
      have hmem := (s.mem_openOneShots p i).2 hread
      obtain ⟨before, after, hlist, hlt⟩ := filter_allStreams_split (f := fun j =>
        (s.ctx j).state = .isOpen && (s.ctx j).params.oneShot && (s.ctx j).params.portId = p) (List.mem_filter.1 hmem).2
      refine ⟨_, exec_configure_of_bad ht hs hact (hreads.trans hlist) (fun j hj => ?_) hb, Ev.haltParity_finish _ i⟩
      obtain ⟨hji, hpick⟩ := hlt j hj
      exact hbefore j hji ((s.mem_openOneShots p j).1 (List.mem_filter.2 ⟨mem_allStreams j, hpick⟩))
  case operations =>
    dsimp only
    refine ⟨fun f => Ev.withCtx_bad hb f, fun o ho => by subst ho; exact Ev.deliver_of_bad hb,
      fun p code => ⟨Ev.planStream_of_bad hb p, Ev.removeItem_of_bad hb p code⟩,
      fun p t code nodeCode payload hi => by subst hi; exact Ev.releaseTag_of_bad hb code nodeCode payload,
      fun p x rest hc hi => by subst hi; exact Ev.periodic_of_bad hc hb,
      fun p t rest hl hi hr => by subst hi; exact State.offer_fetchList_of_bad hl hb ((cycleReached_iff _ _).2 hr),
      fun p x hh hi => ?_, fun p opening => Ev.selection_of_bad opening, fun p pick f hp hg => ?_⟩
    · subst hi
      have hhead := ((e.m.port p).head_iff x).2 hh
      exact ⟨State.offer_queue_of_bad hhead hb, fun hx => Ev.headRead_of_bad hhead hx hb⟩
    · exact ⟨_, e.setHolds_of_bad p pick f h i hp hb hg, rfl⟩

end Sys2Proof.Machine
end

section
/-! PROOFS. The reply of an exchange: what is whole, and what a whole reply says (R64 to R66, R160). -/

namespace Sys2Proof.Machine

open Sys2Proof

/-! ### The CRC at the end of a reply -/

theorem le2_length (x : BitVec 16) : (le2 x).length = 2 := rfl

theorem withCrc_length (xs : List Byte) : (withCrc xs).length = xs.length + 2 := by rw [withCrc, List.length_append, le2_length]

theorem withCrc_take (xs : List Byte) : (withCrc xs).take ((withCrc xs).length - 2) = xs := by
  rw [withCrc_length, Nat.add_sub_cancel, withCrc, List.take_left]

theorem withCrc_drop (xs : List Byte) : (withCrc xs).drop ((withCrc xs).length - 2) = le2 (crc16 xs) := by
  rw [withCrc_length, Nat.add_sub_cancel, withCrc, List.drop_left]

/-- A reply with the right CRC is the covered bytes with theirs. -/
theorem eq_withCrc {r : List Byte} (h : r.drop (r.length - 2) = le2 (crc16 (r.take (r.length - 2)))) :
    r = withCrc (r.take (r.length - 2)) := by
  rw [withCrc, ← h, List.take_append_drop]

/-! ### What a whole reply says -/

/-- R66 checks 4 and 5: what a body says under a reply type. -/
def replySays (kind : FrameKind) (inLen : Nat) (ty : Byte) (body : List Byte) (r : Reply) : Prop :=
  (ty = 0x81 ∧ kind ≠ .probe ∧ body.length = inLen ∧ r = .done body) ∨
  (∃ h : Byte, body = [h] ∧
    ((ty = 0x82 ∧ kind = .request ∧ 1 ≤ h.toNat ∧ h.toNat ≤ 15 ∧ r = .defer h) ∨
     (ty = 0x83 ∧ kind ≠ .probe ∧ h ≠ 0 ∧ r = .reject h) ∨
     (ty = 0x84 ∧ kind = .fetch ∧ 1 ≤ h.toNat ∧ h.toNat ≤ 15 ∧ r = .pending h) ∨
     (ty = 0x85 ∧ kind = .fetch ∧ r = .noTag) ∨ (ty = 0x86 ∧ kind = .probe ∧ r = .present)))

/-- R66 checks 4 and 5, as the decoder makes them. -/
def replyOf (kind : FrameKind) (inLen : Nat) (ty : Byte) (body : List Byte) : Option Reply :=
  let first := body.headD 0
  if ty = 0x81 then
    if kind ≠ .probe ∧ body.length = inLen then some (.done body) else none
  else if ty = 0x82 then
    if kind = .request ∧ body.length = 1 ∧ 1 ≤ first.toNat ∧ first.toNat ≤ 15 then some (.defer first) else none
  else if ty = 0x83 then
    if kind ≠ .probe ∧ body.length = 1 ∧ first ≠ 0 then some (.reject first) else none
  else if ty = 0x84 then
    if kind = .fetch ∧ body.length = 1 ∧ 1 ≤ first.toNat ∧ first.toNat ≤ 15 then some (.pending first) else none
  else if ty = 0x85 then
    if kind = .fetch ∧ body.length = 1 then some .noTag else none
  else if ty = 0x86 then
    if kind = .probe ∧ body.length = 1 then some .present else none
  else none

theorem ite_some_iff {α : Type} {P : Prop} [Decidable P] {x r : α} : (if P then some x else none) = some r ↔ P ∧ r = x := by
  by_cases h : P <;> simp [h, eq_comm]

/-- A body of one byte, with a condition on that byte. -/
theorem one_byte_iff {body : List Byte} {P : Byte → Prop} : (body.length = 1 ∧ P (body.headD 0)) ↔ ∃ h, body = [h] ∧ P h := by
  constructor
  · rintro ⟨hl, hp⟩
    obtain ⟨h, rfl⟩ := List.length_eq_one_iff.1 hl
    exact ⟨h, rfl, hp⟩
  · rintro ⟨h, rfl, hp⟩
    exact ⟨rfl, hp⟩

theorem replyOf_iff (kind : FrameKind) (inLen : Nat) (ty : Byte) (body : List Byte) (r : Reply) :
    replyOf kind inLen ty body = some r ↔ replySays kind inLen ty body r := by
  unfold replyOf replySays
  by_cases h81 : ty = 0x81
  · subst h81
    rw [if_pos rfl, ite_some_iff]
    simp [and_assoc]
  rw [if_neg h81]
  by_cases h82 : ty = 0x82
  · subst h82
    have := one_byte_iff (body := body) (P := fun h => kind = .request ∧ 1 ≤ h.toNat ∧ h.toNat ≤ 15 ∧ r = .defer h)
    rw [if_pos rfl, ite_some_iff]
    simp only [and_assoc, and_left_comm (b := body.length = 1), this]
    simp
  rw [if_neg h82]
  by_cases h83 : ty = 0x83
  · subst h83
    have := one_byte_iff (body := body) (P := fun h => kind ≠ .probe ∧ h ≠ 0 ∧ r = .reject h)
    rw [if_pos rfl, ite_some_iff]
    simp only [and_assoc, and_left_comm (b := body.length = 1), this]
    simp
  rw [if_neg h83]
  by_cases h84 : ty = 0x84
  · subst h84
    have := one_byte_iff (body := body) (P := fun h => kind = .fetch ∧ 1 ≤ h.toNat ∧ h.toNat ≤ 15 ∧ r = .pending h)
    rw [if_pos rfl, ite_some_iff]
    simp only [and_assoc, and_left_comm (b := body.length = 1), this]
    simp
  rw [if_neg h84]
  by_cases h85 : ty = 0x85
  · subst h85
    have := one_byte_iff (body := body) (P := fun _ => kind = .fetch ∧ r = .noTag)
    rw [if_pos rfl, ite_some_iff]
    simp only [and_assoc, and_left_comm (b := body.length = 1), this]
    simp
  rw [if_neg h85]
  by_cases h86 : ty = 0x86
  · subst h86
    have := one_byte_iff (body := body) (P := fun _ => kind = .probe ∧ r = .present)
    rw [if_pos rfl, ite_some_iff]
    simp only [and_assoc, and_left_comm (b := body.length = 1), this]
    simp
  rw [if_neg h86]
  constructor
  · exact fun h => absurd h.symm (by simp)
  · rintro (⟨h, _⟩ | ⟨x, _, ⟨h, _⟩ | ⟨h, _⟩ | ⟨h, _⟩ | ⟨h, _⟩ | ⟨h, _⟩⟩)
    · exact absurd h h81
    · exact absurd h h82
    · exact absurd h h83
    · exact absurd h h84
    · exact absurd h h85
    · exact absurd h h86

/-! ### The checks of a whole reply -/

/-- R66 checks 2 to 5 on a reply with the right CRC. -/
theorem parseReply_withCrc (kind : FrameKind) (node tag : Byte) (inLen : Nat) (ty n tg l x y : Byte) (body : List Byte) :
    parseReply kind node tag inLen (withCrc ([ty, n, tg, l, x, y] ++ body)) =
      if n ≠ node then none else if kind ≠ .probe ∧ tg ≠ tag then none else replyOf kind inLen ty body := by
  unfold parseReply
  rw [withCrc_take, withCrc_drop, if_neg (not_not.2 rfl)]
  have h0 : (withCrc ([ty, n, tg, l, x, y] ++ body))[0]? = some ty := rfl
  have h1 : (withCrc ([ty, n, tg, l, x, y] ++ body))[1]? = some n := rfl
  have h2 : (withCrc ([ty, n, tg, l, x, y] ++ body))[2]? = some tg := rfl
  simp only [h0, h1, h2, ne_eq, Option.some.injEq]
  rfl

theorem parseReply_eq_none {kind : FrameKind} {node tag : Byte} {inLen : Nat} {r : List Byte}
    (h : r.drop (r.length - 2) ≠ le2 (crc16 (r.take (r.length - 2)))) : parseReply kind node tag inLen r = none := if_pos h

theorem parseReply_withCrc_iff {kind : FrameKind} {node tag : Byte} {inLen : Nat} {ty n tg l x y : Byte} {body : List Byte} {r : Reply} :
    parseReply kind node tag inLen (withCrc ([ty, n, tg, l, x, y] ++ body)) = some r ↔
      n = node ∧ (kind ≠ .probe → tg = tag) ∧ replySays kind inLen ty body r := by
  rw [parseReply_withCrc, ← replyOf_iff]
  by_cases hn : n = node
  · by_cases ht : kind ≠ .probe ∧ tg ≠ tag
    · rw [if_neg (not_not.2 hn), if_pos ht]
      exact ⟨fun h => absurd h (by simp), fun h => absurd (h.2.1 ht.1) ht.2⟩
    · rw [if_neg (not_not.2 hn), if_neg ht]
      exact ⟨fun h => ⟨hn, fun hk => by_contra fun hg => ht ⟨hk, hg⟩, h⟩, fun h => h.2.2⟩
  · rw [if_pos hn]
    exact ⟨fun h => absurd h (by simp), fun h => absurd h.1 hn⟩

/-! ### Received whole -/

theorem wholeReply_iff {frame cost : Nat} {bytes w : List Byte} : wholeReply frame cost bytes = some w ↔
    ∃ d, bytes[3]? = some d ∧ 8 + d.toNat ≤ bytes.length ∧ frame + 6 + (8 + d.toNat) ≤ cost ∧ w = bytes.take (8 + d.toNat) := by
  unfold wholeReply
  rcases hb : bytes[3]? with _ | d
  · simp
  · simp only [ite_some_iff, and_assoc, Option.some.injEq, exists_eq_left']

/-- Eight bytes and more of them: the six of the header, the body, the CRC. -/
theorem eq_header_append : ∀ {w : List Byte}, 6 ≤ w.length → ∃ a b c d e f, w = [a, b, c, d, e, f] ++ w.drop 6
  | a :: b :: c :: d :: e :: f :: _, _ => ⟨a, b, c, d, e, f, rfl⟩
  | [], h | [_], h | [_, _], h | [_, _, _], h | [_, _, _, _], h | [_, _, _, _, _], h => absurd h (by simp)

/-- A whole reply with the right CRC: its header, with the body's length at place 3, its body, its CRC. -/
theorem whole_of_crc {bytes : List Byte} {d : Byte} (hd : bytes[3]? = some d) (hl : 8 + d.toNat ≤ bytes.length)
    (hc : (bytes.take (8 + d.toNat)).drop ((bytes.take (8 + d.toNat)).length - 2) =
      le2 (crc16 ((bytes.take (8 + d.toNat)).take ((bytes.take (8 + d.toNat)).length - 2)))) :
    ∃ (ty n tg x y : Byte) (body : List Byte), body.length = d.toNat ∧
      bytes.take (8 + d.toNat) = withCrc ([ty, n, tg, BitVec.ofNat 8 body.length, x, y] ++ body) := by
  have hlen : (bytes.take (8 + d.toNat)).length = 8 + d.toNat := by rw [List.length_take]; omega
  have hw := eq_withCrc hc
  rw [hlen] at hw
  obtain ⟨a, b, c, l, x, y, hs⟩ :=
    eq_header_append (w := (bytes.take (8 + d.toNat)).take (8 + d.toNat - 2)) (by rw [List.length_take, hlen]; omega)
  have hbody : (((bytes.take (8 + d.toNat)).take (8 + d.toNat - 2)).drop 6).length = d.toNat := by
    rw [List.length_drop, List.length_take, hlen]; omega
  have hl3 : l = d := by
    have h3 : (bytes.take (8 + d.toNat))[3]? = some d := by rw [List.getElem?_take_of_lt (by omega), hd]
    rw [hw, hs] at h3
    exact Option.some.inj h3
  refine ⟨a, b, c, x, y, _, hbody, ?_⟩
  rw [hbody, BitVec.ofNat_toNat, BitVec.setWidth_eq]
  subst hl3
  exact hw.trans (congrArg withCrc hs)

/-- The reply of `withCrc`, followed by more bytes, is received whole. -/
theorem wholeReply_withCrc {frame cost : Nat} {ty n tg x y : Byte} {body rest : List Byte} (hb : body.length < 256)
    (hc : frame + 6 + (8 + body.length) ≤ cost) :
    wholeReply frame cost (withCrc ([ty, n, tg, BitVec.ofNat 8 body.length, x, y] ++ body) ++ rest) =
      some (withCrc ([ty, n, tg, BitVec.ofNat 8 body.length, x, y] ++ body)) := by
  have hlen : (withCrc ([ty, n, tg, BitVec.ofNat 8 body.length, x, y] ++ body)).length = 8 + body.length := by
    rw [withCrc_length, List.length_append]; simp only [List.length_cons, List.length_nil]; omega
  have hd : (BitVec.ofNat 8 body.length : Byte).toNat = body.length := by
    rw [BitVec.toNat_ofNat]; exact Nat.mod_eq_of_lt hb
  refine wholeReply_iff.2 ⟨BitVec.ofNat 8 body.length, rfl, ?_, ?_, ?_⟩
  · rw [hd, List.length_append, hlen]; omega
  · rw [hd]; exact hc
  · rw [hd, ← hlen, List.take_left]

/-- R65, R66: the replies that are good ones. -/
theorem reply_good_iff {kind : FrameKind} {frame cost : Nat} {node tag : Byte} {inLen : Nat} {bytes : List Byte} {r : Reply} :
    (wholeReply frame cost bytes).bind (parseReply kind node tag inLen) = some r ↔
      ∃ (ty tg x y : Byte) (body rest : List Byte),
        bytes = withCrc ([ty, node, tg, BitVec.ofNat 8 body.length, x, y] ++ body) ++ rest ∧ body.length < 256 ∧
        frame + 6 + (8 + body.length) ≤ cost ∧ (kind ≠ .probe → tg = tag) ∧ replySays kind inLen ty body r := by
  rw [Option.bind_eq_some_iff]
  constructor
  · rintro ⟨w, hw, hp⟩
    obtain ⟨d, hd, hl, hcost, rfl⟩ := wholeReply_iff.1 hw
    have hcrc := not_not.1 fun h => absurd (hp.symm.trans (parseReply_eq_none h)) (by simp)
    obtain ⟨ty, n, tg, x, y, body, hb, he⟩ := whole_of_crc hd hl hcrc
    rw [he] at hp
    obtain ⟨rfl, htag, hsays⟩ := parseReply_withCrc_iff.1 hp
    refine ⟨ty, tg, x, y, body, bytes.drop (8 + d.toNat), ?_, hb ▸ d.isLt, hb ▸ hcost, htag, hsays⟩
    rw [← he, List.take_append_drop]
  · rintro ⟨ty, tg, x, y, body, rest, rfl, hb, hcost, htag, hsays⟩
    exact ⟨_, wholeReply_withCrc hb hcost, parseReply_withCrc_iff.2 ⟨rfl, htag, hsays⟩⟩

/-! ### The ending -/

theorem ending_of_mismatch {kind : FrameKind} {frame echo : List Byte} (h : echo ≠ frame) (node tag : Byte) (inLen cost : Nat) (heard : Heard) :
    ending kind frame echo node tag inLen cost heard = .mismatch := if_pos h

theorem ending_silence {kind : FrameKind} (frame : List Byte) (node tag : Byte) (inLen cost : Nat) :
    ending kind frame frame node tag inLen cost .silence = .silent := if_neg (not_not.2 rfl)

theorem ending_reply {kind : FrameKind} (frame : List Byte) (node tag : Byte) (inLen cost : Nat) (bytes : List Byte) :
    ending kind frame frame node tag inLen cost (.reply bytes) =
      ((wholeReply frame.length cost bytes).bind (parseReply kind node tag inLen)).elim .corrupt .good := by
  refine (if_neg (not_not.2 rfl)).trans ?_
  show (match (wholeReply frame.length cost bytes).bind (parseReply kind node tag inLen) with
    | none => Ending.corrupt
    | some r => .good r) = _
  cases (wholeReply frame.length cost bytes).bind (parseReply kind node tag inLen) <;> rfl

theorem elim_good_iff {o : Option Reply} {r : Reply} : o.elim Ending.corrupt Ending.good = .good r ↔ o = some r := by
  cases o <;> simp

theorem elim_corrupt {o : Option Reply} (h : ∀ r, o.elim Ending.corrupt Ending.good ≠ .good r) :
    o.elim Ending.corrupt Ending.good = .corrupt := by
  cases o with
  | none => rfl
  | some r => exact absurd rfl (h r)

/-- Settles O47. -/
theorem replyDecoded : Obligations.ReplyDecoded := by
  intro kind frame echo node tag inLen cost heard
  refine ⟨fun h => ending_of_mismatch h .., ?_, ?_, ?_⟩
  · rintro rfl rfl
    exact ending_silence ..
  · rintro r rfl
    cases heard with
    | silence =>
      refine ⟨fun h => absurd (h.symm.trans (ending_silence ..)) (by simp), ?_⟩
      rintro ⟨_, _, _, _, _, _, h, _⟩
      exact absurd h (by simp)
    | reply bytes =>
      refine (iff_of_eq (congrArg (· = Ending.good r) (ending_reply ..))).trans (elim_good_iff.trans (reply_good_iff.trans ?_))
      simp only [Heard.reply.injEq]
      rfl
  · rintro bytes rfl rfl h
    refine (ending_reply ..).trans (elim_corrupt fun r hr => h r ?_)
    exact (ending_reply ..).trans hr

end Sys2Proof.Machine
end

section
/-! PROOFS. The ends of exchanges (R67, R73, R76, R79). -/

namespace Sys2Proof.Machine

open Sys2Proof

theorem Ev.requestExchange_of_good {e : Ev} {p : PortId} {t : TagId} (h : (e.m.ctx ((e.m.port p).tag t).stream).parityOk = true)
    (periodic : Bool) (frame echo : List Byte) (heard : Heard) : e.requestExchange p t periodic frame echo heard =
      let q := e.m.port p
      let g := q.tag t
      let c := e.m.ctx g.stream
      let en := ending .request frame echo g.node (tagByte t g.epoch) c.params.inLen.toNat c.params.cost heard
      e.exchangeEnd p t g.node periodic (occupancy frame.length c.params.cost heard) (requestEnd q.cycle q.deferTimeout en) en.report :=
  if_pos h

theorem Ev.fetchExchange_of_good {e : Ev} {p : PortId} {t : TagId} (h : (e.m.ctx ((e.m.port p).tag t).stream).parityOk = true)
    (frame echo : List Byte) (heard : Heard) : e.fetchExchange p t frame echo heard =
      let q := e.m.port p
      let g := q.tag t
      let c := e.m.ctx g.stream
      let en := ending .fetch frame echo g.node (tagByte t g.epoch) c.params.inLen.toNat c.params.fetchCost heard
      e.exchangeEnd p t g.node false (occupancy frame.length c.params.fetchCost heard) (fetchEnd q.cycle en) en.report :=
  if_pos h

/-- Settles O49. -/
theorem exchangeEnds : Obligations.ExchangeEnds := by
  intro s p echo heard hs hh
  refine ⟨fun t periodic frame hl hp => ?_, fun t frame hl hp => ?_, fun a frame hl => ?_⟩
  · refine (exec_requestExchangeEnd hl hh hs echo).trans ?_
    rw [Ev.requestExchange_of_good (e := Ev.start s) hp]
    rfl
  · refine (exec_fetchExchangeEnd hl hh hs echo).trans ?_
    rw [Ev.fetchExchange_of_good (e := Ev.start s) hp]
    rfl
  · exact exec_probeExchangeEnd hl hh hs echo

end Sys2Proof.Machine
end

section
/-! PROOFS. The Result Writer: what writing, losing and suppressing an outcome do, and how an outcome is settled (R109 to R123). -/

namespace Sys2Proof.Machine

open Sys2Proof

/-! ### The tests of an outcome -/

theorem Ctx.suppresses_iff (c : Ctx) (o : Outcome) : c.suppresses o = true ↔
    c.params.delivery = 2 ∧ o.code = .ok ∧ c.signature = some (crc32 o.payload) := by
  simp only [Ctx.suppresses, Params.onChange, Bool.and_eq_true, decide_eq_true_eq, and_assoc]

theorem Ctx.hasRoom_iff (c : Ctx) : c.hasRoom = true ↔ (c.produced - c.cached).toNat < c.params.slotCount.toNat := decide_eq_true_iff

theorem Params.overwrite_iff (q : Params) : q.overwrite = true ↔ q.overflow = 2 := decide_eq_true_iff

theorem Writer.waits_iff (w : Writer) (i : StreamId) : w.waits i = true ↔ ∃ x ∈ w.outcomes, x.stream = i := by
  simp [Writer.waits]

theorem Writer.full_iff (w : Writer) : w.full = true ↔ 128 ≤ w.outcomes.length := decide_eq_true_iff

/-! ### The slot -/

theorem flagBit_zero (b : Bool) : flagBit b 0 = if b then 1 else 0 := by cases b <;> rfl

theorem flagBit_one (b : Bool) : flagBit b 1 = if b then 2 else 0 := by cases b <;> rfl

theorem slotBytes_eq (c : Ctx) (o : Outcome) (lapped : Bool) : slotBytes c o lapped =
    let whole := o.code = .ok ∧ 0 < c.params.inLen.toNat
    le4 c.produced ++ le4 o.issue ++ le4 o.done ++
      [o.code.byte, o.nodeCode, (if c.lossMark then 1 else 0) ||| (if lapped then 2 else 0), if whole then c.params.inLen else 0] ++
      (if whole then o.payload ++ zeros ((c.params.inLen.toNat + 15) / 16 * 16 - o.payload.length) else []) := by
  unfold slotBytes
  rw [flagBit_zero, flagBit_one]
  rfl

theorem Ctx.slotWritten_eq (c : Ctx) (o : Outcome) : c.slotWritten o = { c.finished o false with
    produced := c.produced + 1, lossMark := false
    signature := if c.params.delivery = 2 ∧ o.code = .ok then some (crc32 o.payload) else c.signature } := by
  have hsig : (c.params.onChange && decide (o.code = .ok)) = true ↔ c.params.delivery = 2 ∧ o.code = .ok := by
    simp only [Params.onChange, Bool.and_eq_true, decide_eq_true_eq]
  unfold Ctx.slotWritten
  rw [if_congr hsig rfl rfl]

/-! ### What a settled outcome does -/

theorem Ev.writeSlot_eq (e : Ev) (o : Outcome) (lapped : Bool) : e.writeSlot o lapped = { e with
    m := e.m.setCtx o.stream ((e.m.ctx o.stream).slotWritten o)
    slots := e.slots ++ e.m.slotWrites o lapped
    dirty := if o.stream ∈ e.dirty then e.dirty else e.dirty ++ [o.stream]
    causes := if (e.m.ctx o.stream).params.notify = 1 then e.causes ||| causeStream else e.causes } := by
  unfold Ev.writeSlot
  dsimp only
  rw [Ev.publish_eq]
  by_cases h : (e.m.ctx o.stream).params.notify = 1
  · rw [if_pos h]
    exact (if_pos h).trans rfl
  · rw [if_neg h]
    exact (if_neg h).trans rfl

theorem Ev.lose_eq (e : Ev) (o : Outcome) : e.lose o = { e with
    m := e.m.setCtx o.stream ((e.m.ctx o.stream).lost o), dirty := if o.stream ∈ e.dirty then e.dirty else e.dirty ++ [o.stream] } :=
  Ev.publish_eq ..

theorem Ev.suppress_eq (e : Ev) (o : Outcome) : e.suppress o = { e with
    m := e.m.setCtx o.stream ((e.m.ctx o.stream).finished o false)
    dirty := if o.stream ∈ e.dirty then e.dirty else e.dirty ++ [o.stream] } :=
  Ev.publish_eq ..

theorem Ev.noRoom_eq (e : Ev) (o : Outcome) :
    e.noRoom o = if (e.m.ctx o.stream).params.overflow = 2 then e.writeSlot o true else e.lose o :=
  if_congr (Params.overwrite_iff _) rfl rfl

/-- Settles O52. -/
theorem outcomeEffects : Obligations.OutcomeEffects := by
  intro e o lapped
  refine ⟨?_, Ev.lose_eq e o, Ev.suppress_eq e o⟩
  rw [Ev.writeSlot_eq, Ctx.slotWritten_eq, State.slotWrites, slotBytes_eq]
  rfl

/-! ### How an outcome is settled -/

theorem Ev.deliver_of_closing {e : Ev} {o : Outcome} (hp : (e.m.ctx o.stream).parityOk = true) (h : (e.m.ctx o.stream).state = .closing) :
    e.deliver o = e.discard o := (if_pos hp).trans (if_pos h)

theorem Ev.deliver_of_behind {e : Ev} {o : Outcome} (hp : (e.m.ctx o.stream).parityOk = true) (h : (e.m.ctx o.stream).state ≠ .closing)
    (hb : (∃ x ∈ e.m.writer.outcomes, x.stream = o.stream) ∨ (e.m.ctx o.stream).refreshOutstanding = true) :
    e.deliver o = if e.m.writer.full then e.lose o else e.wait o :=
  have hb' : (e.m.writer.waits o.stream || (e.m.ctx o.stream).refreshOutstanding) = true := by
    rw [Bool.or_eq_true, Writer.waits_iff]; exact hb
  (if_pos hp).trans ((if_neg h).trans (if_pos hb'))

theorem Ev.deliver_of_first {e : Ev} {o : Outcome} (hp : (e.m.ctx o.stream).parityOk = true) (h : (e.m.ctx o.stream).state ≠ .closing)
    (hb : ¬ ((∃ x ∈ e.m.writer.outcomes, x.stream = o.stream) ∨ (e.m.ctx o.stream).refreshOutstanding = true)) :
    e.deliver o = if (e.m.ctx o.stream).suppresses o then e.suppress o
      else if (e.m.ctx o.stream).hasRoom then e.writeSlot o false else e.testFull o :=
  have hb' : ¬ (e.m.writer.waits o.stream || (e.m.ctx o.stream).refreshOutstanding) = true := by
    rw [Bool.or_eq_true, Writer.waits_iff]; exact hb
  (if_pos hp).trans ((if_neg h).trans (if_neg hb'))

theorem Ev.wait_askRefresh (e : Ev) (o : Outcome) : (e.wait o).askRefresh o.stream = { e with m :=
    { ({ e.m with writer := { e.m.writer with outcomes := e.m.writer.outcomes ++ [o] } } : State).setCtx o.stream
        { e.m.ctx o.stream with refreshOutstanding := true } with
      smi := e.m.smi.ask (.refresh o.stream) (e.m.page (0xC00 + 4 * o.stream.val)) 4 } } := rfl

/-- Settles O53. -/
theorem outcomeSettled : Obligations.OutcomeSettled := by
  intro e o hp
  refine ⟨fun h => Ev.deliver_of_closing hp h, fun h => ⟨fun hb hf => ?_, fun hb hf => ?_, fun hb hr => ?_, fun hb hr hm => ?_,
    fun hb hr hm hh => ?_, fun hb hr hm hh hf => ?_, fun hb hr hm hh hf => ?_⟩⟩
  · exact (Ev.deliver_of_behind hp h hb).trans (if_pos ((Writer.full_iff _).2 hf))
  · exact (Ev.deliver_of_behind hp h hb).trans (if_neg fun hw => absurd ((Writer.full_iff _).1 hw) (by exact not_le.2 hf))
  · exact (Ev.deliver_of_first hp h hb).trans (if_pos ((Ctx.suppresses_iff ..).2 hr))
  all_goals refine (Ev.deliver_of_first hp h hb).trans ((if_neg fun hs => hr ((Ctx.suppresses_iff ..).1 hs)).trans ?_)
  · exact if_pos ((Ctx.hasRoom_iff _).2 hm)
  all_goals refine (if_neg fun hs => hm ((Ctx.hasRoom_iff _).1 hs)).trans ?_
  · exact (if_pos hh).trans (Ev.noRoom_eq e o)
  all_goals refine (if_neg (ne_true_of_eq_false hh)).trans ?_
  · exact if_pos ((Writer.full_iff _).2 hf)
  · exact (if_neg fun hw => absurd ((Writer.full_iff _).1 hw) (by exact not_le.2 hf)).trans (Ev.wait_askRefresh e o)

end Sys2Proof.Machine
end

section
/-! PROOFS. The Result Writer: the end of a refresh, the CANCELLED outcome of a CLOSE, and the completion of a close (R12, R41, R115 to
R117, R123). -/

namespace Sys2Proof.Machine

open Sys2Proof

/-! ### The end of a refresh -/

theorem Ev.refreshEnd_of_closing {e : Ev} {i : StreamId} (hp : (e.m.ctx i).parityOk = true) (h : (e.m.ctx i).state = .closing)
    (v : Option Word) : e.refreshEnd i v = (e.modCtx i (fun c => { c with refreshOutstanding := false })).tryClose i :=
  (if_pos hp).trans (if_pos h)

theorem Ev.refreshEnd_of_fault {e : Ev} {i : StreamId} (hp : (e.m.ctx i).parityOk = true) (h : (e.m.ctx i).state ≠ .closing) :
    e.refreshEnd i none = e.refreshFault i :=
  (if_pos hp).trans (if_neg h)

theorem Ev.refreshEnd_of_data {e : Ev} {i : StreamId} (hp : (e.m.ctx i).parityOk = true) (h : (e.m.ctx i).state ≠ .closing) (v : Word) :
    e.refreshEnd i (some v) = e.refreshData i v :=
  (if_pos hp).trans (if_neg h)

theorem Ev.refreshFault_eq (m : State) (i : StreamId) : (Ev.start m).refreshFault i =
    ({ Ev.start { m.setCtx i { m.ctx i with refreshOutstanding := false, oneShot := .idle, holds := { (m.ctx i).holds with memoryFault := true } }
        with writer := { m.writer with outcomes := m.writer.outcomes.filter (fun o => o.stream ≠ i) } } with dirty := [i] } : Ev).forEach
      (m.writer.outcomes.filter (fun o => o.stream = i)) Ev.lose := by
  unfold Ev.refreshFault
  dsimp only
  rw [Ev.publish_eq]
  rfl

theorem Ev.refreshData_eq (m : State) (i : StreamId) (v : Word) : (Ev.start m).refreshData i v =
    ({ Ev.start { m.setCtx i ((m.ctx i).refreshed v) with
          writer := { m.writer with outcomes := m.writer.outcomes.filter (fun o => o.stream ≠ i) } } with
        dirty := if ((m.ctx i).refreshed v).consumedInvalid = (m.ctx i).consumedInvalid then [] else [i] } : Ev).forEach
      (m.writer.outcomes.filter (fun o => o.stream = i)) (Ev.settleWaiting ((m.ctx i).consumedValid v)) := by
  unfold Ev.refreshData
  dsimp only
  by_cases h : ((m.ctx i).refreshed v).consumedInvalid = (m.ctx i).consumedInvalid
  · rw [if_pos h]
    exact congrArg (fun e : Ev => (e.takeWaiting i).forEach _ _) (if_pos h)
  · rw [if_neg h]
    exact congrArg (fun e : Ev => (e.takeWaiting i).forEach _ _) ((if_neg h).trans (if_neg List.not_mem_nil))

theorem Ctx.consumedValid_eq (c : Ctx) (v : Word) : c.consumedValid v =
    decide (if c.params.overflow = 2 then (c.produced - v).toNat < 2 ^ 31 else (c.produced - v).toNat ≤ c.params.slotCount.toNat) := by
  unfold Ctx.consumedValid
  by_cases h : c.params.overflow = 2
  · rw [if_pos ((Params.overwrite_iff _).2 h)]
    exact decide_eq_decide.2 (by rw [if_pos h])
  · rw [if_neg (mt (Params.overwrite_iff _).1 h)]
    exact decide_eq_decide.2 (by rw [if_neg h])

theorem Ctx.refreshed_eq (c : Ctx) (v : Word) : c.refreshed v =
    { c with
      refreshOutstanding := false, cached := if c.consumedValid v then v else c.cached, consumedInvalid := !c.consumedValid v } := by
  unfold Ctx.refreshed
  cases c.consumedValid v <;> rfl

theorem Ev.settleWaiting_of_repeats {e : Ev} {o : Outcome} (h : (e.m.ctx o.stream).suppresses o = true) (valid : Bool) :
    e.settleWaiting valid o = e.suppress o := if_pos h

theorem Ev.settleWaiting_of_room {e : Ev} {o : Outcome} {valid : Bool} (h : ¬ (e.m.ctx o.stream).suppresses o = true)
    (hr : (valid && (e.m.ctx o.stream).hasRoom) = true) : e.settleWaiting valid o = e.writeSlot o false := (if_neg h).trans (if_pos hr)

theorem Ev.settleWaiting_of_full {e : Ev} {o : Outcome} {valid : Bool} (h : ¬ (e.m.ctx o.stream).suppresses o = true)
    (hr : ¬ (valid && (e.m.ctx o.stream).hasRoom) = true) :
    e.settleWaiting valid o = if (e.m.ctx o.stream).params.overflow = 2 then e.writeSlot o true else e.lose o :=
  (if_neg h).trans ((if_neg hr).trans (Ev.noRoom_eq e o))

theorem validRoom_iff (c : Ctx) (valid : Bool) :
    (valid && c.hasRoom) = true ↔ valid = true ∧ (c.produced - c.cached).toNat < c.params.slotCount.toNat := by
  rw [Bool.and_eq_true, Ctx.hasRoom_iff]

/-- Settles O54. -/
theorem refreshEnds : Obligations.RefreshEnds := by
  refine ⟨fun s i f hf hs hp => ⟨fun hc r => ?_, fun hc => ?_, fun hc v => ?_⟩, fun e valid o => ⟨fun hr => ?_, fun hr hm => ?_,
    fun hr hm => ?_⟩⟩
  · rw [exec_consumedRefreshComplete hf hs, Ev.refreshEnd_of_closing (by exact hp) (by exact hc)]
    rfl
  · rw [exec_consumedRefreshComplete hf hs, ReadResult.value?, Ev.refreshEnd_of_fault (by exact hp) (by exact hc), Ev.refreshFault_eq]
    rfl
  · rw [exec_consumedRefreshComplete hf hs, ReadResult.value?, Ev.refreshEnd_of_data (by exact hp) (by exact hc), Ev.refreshData_eq,
      Ctx.refreshed_eq, Ctx.consumedValid_eq]
    rfl
  · exact Ev.settleWaiting_of_repeats ((Ctx.suppresses_iff ..).2 hr) valid
  · exact Ev.settleWaiting_of_room (mt (Ctx.suppresses_iff ..).1 hr) ((validRoom_iff ..).2 hm)
  · exact Ev.settleWaiting_of_full (mt (Ctx.suppresses_iff ..).1 hr) (mt (validRoom_iff ..).1 hm)

/-! ### The CANCELLED outcome of a CLOSE -/

theorem Ev.settleCancelled_of_good {m : State} {o : Outcome} (hp : (m.ctx o.stream).parityOk = true) :
    (Ev.start m).settleCancelled o =
      let e := Ev.start { m with writer := { m.writer with cancelled := m.writer.cancelled.filter (fun x => x.stream ≠ o.stream) } }
      ((if (m.ctx o.stream).hasRoom then e.writeSlot o false else e.noRoom o).modCtx o.stream
        (fun c => { c with closeOutcome := false })).tryClose o.stream :=
  if_pos hp

/-- Settles O55. -/
theorem cancelledOutcomeSettled : Obligations.CancelledOutcomeSettled := by
  refine ⟨fun s i o ho hs hp => ?_, fun e i hh => ⟨fun h => ?_, fun h => ?_⟩⟩
  · obtain rfl : o.stream = i := by simpa using List.find?_some ho
    rw [exec_cancelledOutcomeSettle ho hs, Ev.settleCancelled_of_good hp]
    dsimp only
    rw [Ev.noRoom_eq, if_congr (Ctx.hasRoom_iff _) rfl rfl]
    rfl
  · exact Ev.tryClose_of_not_free (mt (Ctx.closes_iff _).1 h)
  · exact (Ev.tryClose_of_free hh ((Ctx.closes_iff _).2 h)).trans (Ev.completeClose_eq e i)

end Sys2Proof.Machine
end

section
/-! PROOFS. The release of a tag, the fetch list, and the node table (R56, R67, R70, R74, R76, R78, R86 to R92). -/

namespace Sys2Proof.Machine

open Sys2Proof

/-! ### The retry -/

theorem Holds.any_eq_false_iff (h : Holds) : h.any = false ↔ h = ⟨false, false, false⟩ := by
  obtain ⟨a, b, d⟩ := h
  simp [Holds.any, and_assoc]

theorem Ctx.gate_iff (c : Ctx) : c.gate = true ↔ c.state = .isOpen ∧ c.paused = false ∧ c.holds = ⟨false, false, false⟩ := by
  simp only [Ctx.gate, Bool.and_eq_true, decide_eq_true_eq, Bool.not_eq_true', Holds.any_eq_false_iff, and_assoc]

theorem Outcome.retryable_iff (o : Outcome) :
    o.retryable = true ↔ o.code = .silent ∨ o.code = .corrupt ∨ (o.code = .rejected ∧ o.nodeCode = 1) := by
  simp only [Outcome.retryable, Bool.or_eq_true, Bool.and_eq_true, decide_eq_true_eq, or_assoc]

theorem Ctx.mayRetry_iff (c : Ctx) (q : Port) (o : Outcome) : c.mayRetry q o = true ↔ c.params.kind = 2 ∧
    (o.code = .silent ∨ o.code = .corrupt ∨ (o.code = .rejected ∧ o.nodeCode = 1)) ∧ 0 < c.retriesLeft ∧
    c.state = .isOpen ∧ c.paused = false ∧ c.holds = ⟨false, false, false⟩ ∧ q.urgent.length + q.normal.length < 64 := by
  simp only [Ctx.mayRetry, Bool.and_eq_true, Params.oneShot_iff, Outcome.retryable_iff, Ctx.gate_iff, decide_eq_true_eq, and_assoc]
  rfl

theorem Port.enqueue_eq (q : Params) (x : Entry) (r : Port) :
    r.enqueue q.urgent x = if q.cls = 1 then { r with urgent := r.urgent ++ [x] } else { r with normal := r.normal ++ [x] } :=
  if_congr decide_eq_true_iff rfl rfl

/-! ### The release of a tag -/

theorem Ev.port_modPort_same (e : Ev) (p : PortId) (f : Port → Port) : (e.modPort p f).port p = f (e.m.port p) :=
  State.port_setPort_same ..

theorem Ev.releaseTag_of_kept {e : Ev} {p : PortId} {t : TagId} (hp : (e.m.ctx ((e.m.port p).tag t).stream).parityOk = true)
    (code : OutcomeCode) (nodeCode : Byte) (payload : List Byte) :
    let q := e.m.port p
    let g := q.tag t
    let o : Outcome := ⟨g.stream, code, nodeCode, g.issue, q.cycle, payload⟩
    ¬ (e.m.ctx g.stream).mayRetry (q.freeTagEntry t) o = true →
    e.releaseTag p t code nodeCode payload = ((e.modPort p (Port.freeTagEntry t)).deliver o).andThen
      (fun e => (e.modCtx g.stream (fun c => { c with tagRef := none })).tryClose g.stream) := by
  intro q g o h
  refine (if_pos hp).trans (congrArg (fun e' : Ev => e'.andThen _) (if_neg ?_))
  rw [Ev.port_modPort_same]
  exact h

theorem Ev.releaseTag_of_retry {e : Ev} {p : PortId} {t : TagId} (hp : (e.m.ctx ((e.m.port p).tag t).stream).parityOk = true)
    (code : OutcomeCode) (nodeCode : Byte) (payload : List Byte) :
    let q := e.m.port p
    let g := q.tag t
    let o : Outcome := ⟨g.stream, code, nodeCode, g.issue, q.cycle, payload⟩
    (e.m.ctx g.stream).mayRetry (q.freeTagEntry t) o = true →
    e.releaseTag p t code nodeCode payload =
      ((e.modPort p (Port.freeTagEntry t)).retry p g.stream (e.m.ctx g.stream)).andThen
        (fun e => (e.modCtx g.stream (fun c => { c with tagRef := none })).tryClose g.stream) := by
  intro q g o h
  refine (if_pos hp).trans (congrArg (fun e' : Ev => e'.andThen _) (if_pos ?_))
  rw [Ev.port_modPort_same]
  exact h

theorem Port.queues_freeTagEntry (q : Port) (t : TagId) :
    (q.freeTagEntry t).urgent = q.urgent ∧ (q.freeTagEntry t).normal = q.normal := by
  unfold Port.freeTagEntry Port.setNode
  dsimp only
  split <;> exact ⟨rfl, rfl⟩

/-! ### The fetch list -/

theorem placeTag_places (tagOf : TagId → Tag) (t : TagId) (xs : List TagId) : ∃ before after, xs = before ++ after ∧
    placeTag tagOf t xs = before ++ t :: after ∧ (∀ u ∈ before, (tagOf t).before (tagOf u) = false) ∧
    (∀ u rest, after = u :: rest → (tagOf t).before (tagOf u) = true) := by
  induction xs with
  | nil => exact ⟨[], [], rfl, rfl, by simp, by simp⟩
  | cons u rest ih =>
    by_cases hb : (tagOf t).before (tagOf u) = true
    · refine ⟨[], u :: rest, rfl, if_pos hb, by simp, ?_⟩
      rintro v _ h
      obtain ⟨rfl, -⟩ := List.cons.inj h
      exact hb
    · obtain ⟨before, after, hxs, hplace, hbefore, hafter⟩ := ih
      refine ⟨u :: before, after, congrArg (u :: ·) hxs, (if_neg hb).trans (congrArg (u :: ·) hplace), ?_, hafter⟩
      rintro v hv
      rcases List.mem_cons.1 hv with rfl | hv
      · exact eq_false_of_ne_true hb
      · exact hbefore v hv

theorem Tag.before_iff (a b : Tag) : a.before b = true ↔
    (a.ready ≠ b.ready ∧ (b.ready - a.ready).toNat < 2 ^ 31) ∨
    (a.ready = b.ready ∧ a.stamp ≠ b.stamp ∧ (b.stamp - a.stamp).toNat < 2 ^ 31) := by
  unfold Tag.before
  by_cases h : a.ready = b.ready
  · rw [if_pos h, Bool.and_eq_true, decide_eq_true_eq, decide_eq_true_eq]
    exact ⟨fun h' => .inr ⟨h, h'⟩, fun h' => h'.elim (fun h' => absurd h h'.1) And.right⟩
  · rw [if_neg h, decide_eq_true_eq]
    exact ⟨fun h' => .inl ⟨h, h'⟩, fun h' => h'.elim And.right (fun h' => absurd h'.1 h)⟩

theorem Port.setTag_setTag (q : Port) (t : TagId) (g g' : Tag) : (q.setTag t g).setTag t g' = q.setTag t g' := by
  unfold Port.setTag
  rw [Vector.set_set]

theorem Port.deferTag_setTag (q : Port) (t : TagId) (g : Tag) (ready : Word) : (q.setTag t g).deferTag t ready =
    { q.setTag t { g with state := .deferred, ready := ready } with
      fetchList := placeTag (q.setTag t { g with state := .deferred, ready := ready }).tag t q.fetchList } := by
  have htag : (q.setTag t g).tag t = g := by unfold Port.setTag Port.tag; rw [get_set, if_pos rfl]
  unfold Port.deferTag
  dsimp only
  rw [htag, Port.setTag_setTag]
  rfl

/-- Settles O50. -/
theorem tagSettled : Obligations.TagSettled := by
  refine ⟨fun e p t code nodeCode payload hh hp => ?_, fun e p t ready deadline => ?_, placeTag_places, Tag.before_iff⟩
  · intro q g i c freed clears retried item requeued counted again
    have hfreed : q.freeTagEntry t = freed := rfl
    have hretry : c.mayRetry (q.freeTagEntry t) ⟨i, code, nodeCode, g.issue, q.cycle, payload⟩ = true ↔ retried := by
      rw [Ctx.mayRetry_iff, (q.queues_freeTagEntry t).1, (q.queues_freeTagEntry t).2]
    refine ⟨fun h => (Ev.releaseTag_of_kept hp code nodeCode payload (mt hretry.1 h)).trans rfl, fun h => ?_⟩
    refine (Ev.releaseTag_of_retry hp code nodeCode payload (hretry.2 h)).trans ?_
    rw [Ev.andThen_of_not_halted (by simpa [Ev.retry] using hh)]
    show clears _ = clears _
    refine congrArg clears ?_
    have hq : freed.enqueue c.params.urgent (newItem i c.params) = requeued := Port.enqueue_eq ..
    unfold Ev.retry
    rw [Ev.modPort_modPort]
    show Ev.publish { e with m := e.m.setPort p (freed.enqueue c.params.urgent (newItem i c.params)) } i _ = _
    rw [hq, Ev.publish_eq, Ev.publish_eq]
    rfl
  · exact congrArg (fun q : Port => { e with m := e.m.setPort p q }) (Port.deferTag_setTag ..)

end Sys2Proof.Machine
end

section
/-! PROOFS. The reports to the node table (R67, R86 to R92). -/

namespace Sys2Proof.Machine

open Sys2Proof

/-! ### The entry of a node after a report -/

theorem Node.afterHeard_of_unknown {n : Node} (h : n.state = .unknown) (probe : Bool) (c : Word) :
    n.afterHeard probe c = { n with state := .present, silence := 0, lastHeard := c, probeDue := none } := by
  unfold Node.afterHeard; rw [h]

theorem Node.afterHeard_of_present {n : Node} (h : n.state = .present) (probe : Bool) (c : Word) :
    n.afterHeard probe c = { n with silence := 0, lastHeard := c } := by
  unfold Node.afterHeard; rw [h]

theorem Node.afterHeard_of_lost {n : Node} (h : n.state = .lost) (probe : Bool) (c : Word) :
    n.afterHeard probe c = if probe then { n with state := .present, silence := 0, lastHeard := c, probeDue := none }
      else { n with lastHeard := c } := by
  unfold Node.afterHeard; rw [h]

theorem Node.afterSilence_of_lost {n : Node} (h : n.state = .lost) (probe : Bool) (c : Word) (limit : Nat) :
    n.afterSilence probe c limit = if probe then { n with probeDue := some (c + 16) } else n := by
  unfold Node.afterSilence; rw [h]; rfl

theorem Node.afterSilence_of_present {n : Node} (h : n.state = .present) (probe : Bool) (c : Word) (limit : Nat) :
    n.afterSilence probe c limit = if probe then n else if n.silence + 1 = limit then
      { n with state := .lost, silence := n.silence + 1, probeDue := some (c + 16) } else { n with silence := n.silence + 1 } := by
  unfold Node.afterSilence; rw [h]; rfl

theorem Node.afterSilence_of_unknown {n : Node} (h : n.state = .unknown) (probe : Bool) (c : Word) (limit : Nat) :
    n.afterSilence probe c limit = if n.silence + 1 = limit then
        { n with state := .lost, silence := n.silence + 1, probeDue := some (c + 16) }
      else { n with silence := n.silence + 1, probeDue := if probe then some (c + 1) else n.probeDue } := by
  unfold Node.afterSilence; rw [h]; rfl

theorem Node.counted_state (n : Node) (r : Report) : (n.counted r).state = n.state := by unfold Node.counted; split <;> rfl

theorem Node.counted_silence (n : Node) (r : Report) : (n.counted r).silence = n.silence := by unfold Node.counted; split <;> rfl

theorem Node.after_of_silent (n : Node) {r : Report} (hr : r = .silence ∨ r = .corrupt) (probe : Bool) (c : Word) (limit : Nat) :
    n.after r probe c limit = (n.counted r).afterSilence probe c limit := by
  rcases hr with rfl | rfl <;> rfl

theorem Node.unknown_or_present {n : Node} (h : n.state ≠ .lost) : n.state = .unknown ∨ n.state = .present := by
  cases hst : n.state with
  | lost => exact absurd hst h
  | unknown => exact .inl rfl
  | present => exact .inr rfl

/-- R88 step 1: the exchange that reaches the silence limit makes a node LOST. -/
theorem Node.afterSilence_of_limit {n : Node} (h : n.state ≠ .lost) {probe : Bool} (hp : probe = false ∨ n.state = .unknown) (c : Word) :
    n.afterSilence probe c (n.silence + 1) = { n with state := .lost, silence := n.silence + 1, probeDue := some (c + 16) } := by
  rcases Node.unknown_or_present h with hst | hst
  · exact (Node.afterSilence_of_unknown hst ..).trans (if_pos rfl)
  · have hp : ¬ probe = true := ne_true_of_eq_false (hp.resolve_right (by rw [hst]; simp))
    exact (Node.afterSilence_of_present hst ..).trans ((if_neg hp).trans (if_pos rfl))

theorem Node.afterSilence_of_below {n : Node} (h : n.state ≠ .lost) {limit : Nat} (hl : n.silence + 1 ≠ limit) (c : Word) :
    n.afterSilence false c limit = { n with silence := n.silence + 1 } := by
  rcases Node.unknown_or_present h with hst | hst
  · exact (Node.afterSilence_of_unknown hst ..).trans (if_neg hl)
  · exact (Node.afterSilence_of_present hst ..).trans (if_neg hl)

/-! ### The report -/

theorem Port.count_eq (q : Port) (r : Report) : q.count r = { q with
    silentCount := if r = .silence then q.silentCount + 1 else q.silentCount
    corruptCount := if r = .corrupt then q.corruptCount + 1 else q.corruptCount
    lineErrors := if r = .nothing then q.lineErrors + 1 else q.lineErrors } := by
  cases r <;> rfl

theorem Ev.removeItems_ofNode (e : Ev) (p : PortId) (code : OutcomeCode) (a : Byte) :
    e.removeItems p code (fun c => c.params.node = a) = e.forEach (e.m.port p).queued
      (fun i e => e.withCtx i fun c e => if c.params.node = a then e.removeItem p code i else e) := by
  have hpick : ∀ (c : Ctx) (x y : Ev), (if decide (c.params.node = a) = true then x else y) = if c.params.node = a then x else y :=
    fun c x y => if_congr decide_eq_true_iff rfl rfl
  unfold Ev.removeItems
  simp only [hpick]
  rfl

section Reporting

variable {e : Ev} {p : PortId} {a : Byte} {probe : Bool} {r : Report}

theorem Ev.reportNode_of_same (h : ((e.m.port p).nodeAfter a probe r).state = ((e.m.port p).node a).state) :
    e.reportNode p a probe r = e.modPort p (fun q => (q.count r).setNode a ((e.m.port p).nodeAfter a probe r)) := if_pos h

theorem Ev.reportNode_of_lost (h : ((e.m.port p).nodeAfter a probe r).state ≠ ((e.m.port p).node a).state)
    (hl : ((e.m.port p).nodeAfter a probe r).state = .lost) :
    e.reportNode p a probe r = ((e.modPort p (fun q => (q.count r).setNode a ((e.m.port p).nodeAfter a probe r))).nodeLoss p a).andThen
      (fun e => (e.modPort p (Port.record a)).report p) :=
  (if_neg h).trans (congrArg (fun e' : Ev => e'.andThen _) (if_pos hl))

theorem Ev.reportNode_of_found (h : ((e.m.port p).nodeAfter a probe r).state ≠ ((e.m.port p).node a).state)
    (hw : ((e.m.port p).node a).state = .lost) :
    e.reportNode p a probe r = ((e.modPort p (fun q => (q.count r).setNode a ((e.m.port p).nodeAfter a probe r))).holdNode p a false).andThen
      (fun e => (e.modPort p (Port.record a)).report p) :=
  have hl : ((e.m.port p).nodeAfter a probe r).state ≠ .lost := fun hl => h (hl.trans hw.symm)
  (if_neg h).trans (congrArg (fun e' : Ev => e'.andThen _) ((if_neg hl).trans (if_pos hw)))

theorem Ev.reportNode_of_moved (h : ((e.m.port p).nodeAfter a probe r).state ≠ ((e.m.port p).node a).state)
    (hl : ((e.m.port p).nodeAfter a probe r).state ≠ .lost) (hw : ((e.m.port p).node a).state ≠ .lost) :
    e.reportNode p a probe r = (e.modPort p (fun q => (q.count r).setNode a ((e.m.port p).nodeAfter a probe r))).andThen
      (fun e => (e.modPort p (Port.record a)).report p) :=
  (if_neg h).trans (congrArg (fun e' : Ev => e'.andThen _) ((if_neg hl).trans (if_neg hw)))

end Reporting

/-- Settles O51. -/
theorem nodeReports : Obligations.NodeReports := by
  refine ⟨fun n probe c limit => ⟨fun h => Node.afterHeard_of_unknown h .., fun h => Node.afterHeard_of_present h ..,
    fun h => Node.afterHeard_of_lost h .., fun h => Node.afterHeard_of_lost h .., rfl, fun r hr => ?_⟩, fun e p a probe r => ?_⟩
  · intro k lost
    have hst := n.counted_state r
    have hsl := n.counted_silence r
    refine ⟨fun h => ?_, fun h => ?_, fun h hp hl => ?_, fun h hl => ?_, fun h hl => ?_⟩
    · exact (n.after_of_silent hr ..).trans (Node.afterSilence_of_lost (hst.trans h) ..)
    · exact (n.after_of_silent hr ..).trans (Node.afterSilence_of_lost (hst.trans h) ..)
    · subst hl
      rw [n.after_of_silent hr]
      have := Node.afterSilence_of_limit (n := n.counted r) (by rwa [hst]) (hp.imp_right hst.trans) c
      rw [hsl] at this
      exact this
    · rw [n.after_of_silent hr, Node.afterSilence_of_below (by rwa [hst]) (by rwa [hsl]), hsl]
      rfl
    · rw [n.after_of_silent hr, Node.afterSilence_of_unknown (hst.trans h), if_neg (by rwa [hsl]), hsl]
      rfl
  · intro q was after now counted e' recorded loses
    have hmod : e.modPort p (fun q => (q.count r).setNode a ((e.m.port p).nodeAfter a probe r)) = e' :=
      congrArg (fun q' : Port => { e with m := e.m.setPort p (q'.setNode a ((e.m.port p).nodeAfter a probe r)) }) (Port.count_eq ..)
    refine ⟨fun h => ?_, fun h hl => ?_, fun h hw => ?_, fun h hl hw => ?_⟩
    · rw [Ev.reportNode_of_same h, hmod]
    · rw [Ev.reportNode_of_lost h hl, hmod, Ev.nodeLoss, funext fun e => Ev.removeItems_ofNode e p .nodeLost a]
      rfl
    · rw [Ev.reportNode_of_found h hw, hmod]
      rfl
    · rw [Ev.reportNode_of_moved h hl hw, hmod]
      rfl

end Sys2Proof.Machine
end

section
/-! PROOFS. The end of a START frame (R102, R103). -/

namespace Sys2Proof.Machine

open Sys2Proof

/-! ### Operations carried on -/

theorem Ev.andThen_congr {e : Ev} {f g : Ev → Ev} (h : e.halted = false → f e = g e) : e.andThen f = e.andThen g := by
  cases hh : e.halted
  · rw [Ev.andThen_of_not_halted hh, Ev.andThen_of_not_halted hh, h hh]
  · rw [Ev.andThen_of_halted hh, Ev.andThen_of_halted hh]

theorem Ev.onlyIf_of_true {e : Ev} (hh : e.halted = false) {b : Bool} (hb : b = true) (f : Ev → Ev) : e.onlyIf b f = f e :=
  (if_pos hb).trans (Ev.andThen_of_not_halted hh f)

theorem Ev.onlyIf_of_false {e : Ev} {b : Bool} (hb : ¬ b = true) (f : Ev → Ev) : e.onlyIf b f = e := if_neg hb

theorem Ev.onlyIf_eq {e : Ev} (hh : e.halted = false) (P : Prop) [Decidable P] (f : Ev → Ev) :
    e.onlyIf (decide P) f = if P then f e else e := by
  by_cases hP : P
  · rw [Ev.onlyIf_of_true hh (decide_eq_true hP), if_pos hP]
  · rw [Ev.onlyIf_of_false (by simpa using hP), if_neg hP]

/-! ### The end of the work of a port -/

/-- R54: where every item is removed, the check of its context is the one that its removal makes. -/
theorem Ev.removeItems_all (e : Ev) (p : PortId) (code : OutcomeCode) :
    e.removeItems p code (fun _ => true) = e.forEach (((e.m.port p).urgent ++ (e.m.port p).normal).map Entry.stream) (Ev.removeItem p code) := by
  refine congrArg (e.forEach _) (funext fun i => funext fun e => ?_)
  cases hp : (e.m.ctx i).parityOk
  · exact (Ev.withCtx_bad hp _).trans (Ev.removeItem_of_bad hp p code).symm
  · exact (Ev.withCtx_of_good hp _).trans (if_pos rfl)

/-- Every tag of a port that is not FREE ends with PORT_STOPPED. -/
def Ev.stopTags (p : PortId) (e : Ev) : Ev :=
  e.forEach (allTags.filter (fun t => ((e.port p).tag t).state ≠ .free)) (fun t => Ev.releaseTag p t .portStopped 0 [])

/-- Every queue item of a port ends with PORT_STOPPED. -/
def Ev.stopItems (p : PortId) (e : Ev) : Ev :=
  e.forEach (((e.port p).urgent ++ (e.port p).normal).map Entry.stream) (Ev.removeItem p .portStopped)

theorem Ev.stopWork_eq (e : Ev) (p : PortId) : e.stopWork p = (e.stopTags p).andThen (Ev.stopItems p) :=
  congrArg (e.stopTags p).andThen (funext fun e => Ev.removeItems_all e p .portStopped)

theorem Ev.andThen_assoc (e : Ev) (f g : Ev → Ev) : (e.andThen fun e => (f e).andThen g) = (e.andThen f).andThen g := by
  cases hh : e.halted
  · rw [Ev.andThen_of_not_halted hh, Ev.andThen_of_not_halted hh]
  · rw [Ev.andThen_of_halted hh, Ev.andThen_of_halted hh, Ev.andThen_of_halted hh]

theorem Ev.andThen_stopWork (e : Ev) (p : PortId) : e.andThen (Ev.stopWork p) = (e.andThen (Ev.stopTags p)).andThen (Ev.stopItems p) := by
  rw [← Ev.andThen_assoc]
  exact congrArg e.andThen (funext fun e => Ev.stopWork_eq e p)

/-! ### The end of a START frame -/

/-- R102: a port after the check of the echo of its START frame. -/
def Port.startChecked (q : Port) (ok : Bool) : Port := { q with
  line := .idle, freeAt := 12
  lineErrors := if ok then q.lineErrors else q.lineErrors + 1
  startMismatches := if q.state = .syncing ∨ q.state = .running then (if ok then 0 else q.startMismatches + 1) else q.startMismatches }

theorem Port.cycling_iff (q : Port) : q.cycling = true ↔ q.state = .syncing ∨ q.state = .running := by
  simp only [Port.cycling, Bool.or_eq_true, decide_eq_true_eq]

theorem Port.startChecked_eq (q : Port) (ok : Bool) :
    { if ok then q.startMatch else q.startMismatch with line := .idle, freeAt := Config.startUnits } = q.startChecked ok := by
  have hc : ∀ x y : Nat, (if q.cycling then x else y) = if q.state = .syncing ∨ q.state = .running then x else y :=
    fun x y => if_congr q.cycling_iff rfl rfl
  unfold Port.startChecked Port.startMatch Port.startMismatch
  cases ok
  · simp only [hc]; rfl
  · simp only [hc]; rfl

theorem Port.faults_iff (q : Port) (ok : Bool) :
    (!ok && (q.startChecked ok).cycling && decide (2 ≤ (q.startChecked ok).startMismatches)) = true ↔
      (q.state = .syncing ∨ q.state = .running) ∧ ok = false ∧ 1 ≤ q.startMismatches := by
  rw [Bool.and_eq_true, Bool.and_eq_true, Bool.not_eq_true', Port.cycling_iff, decide_eq_true_eq]
  show (ok = false ∧ (q.state = .syncing ∨ q.state = .running)) ∧ 2 ≤ ite _ _ _ ↔ _
  constructor
  · rintro ⟨⟨hok, hc⟩, h2⟩
    rw [if_pos hc, hok] at h2
    exact ⟨hc, hok, Nat.le_of_succ_le_succ h2⟩
  · rintro ⟨hc, hok, h1⟩
    rw [if_pos hc, hok]
    exact ⟨⟨rfl, hc⟩, Nat.succ_le_succ h1⟩

theorem exec_startFrameEnd {s : State} {p : PortId} {frame : List Byte} (hs : s.engine.state ≠ .halted)
    (hl : (s.port p).line = .start frame) (echo : List Byte) :
    exec (.startFrameEnd p echo) s = .next ((Ev.start s).startEnd p (decide (echo = frame))).finish := by
  show execStartFrameEnd p echo s = _
  rw [execStartFrameEnd, hl]
  dsimp only
  rw [State.event_of_not_halted hs]

/-- R102, R103, R50: what the end of a START frame goes on with. -/
theorem Ev.startEnd_eq (m : State) (p : PortId) (ok : Bool) : (Ev.start m).startEnd p ok =
    let q := (m.port p).startChecked ok
    let e := Ev.start (m.setPort p q)
    if !ok && q.cycling && 2 ≤ q.startMismatches then e.enterFaulted p else if q.state = .syncing then e else e.periodic p := by
  unfold Ev.startEnd
  dsimp only
  have he : (Ev.start m).modPort p (fun q => { if ok then q.startMatch else q.startMismatch with line := .idle, freeAt := Config.startUnits }) =
      Ev.start (m.setPort p ((m.port p).startChecked ok)) :=
    congrArg (fun q => Ev.start (m.setPort p q)) (Port.startChecked_eq ..)
  have hq : (Ev.start (m.setPort p ((m.port p).startChecked ok))).port p = (m.port p).startChecked ok := State.port_setPort_same ..
  rw [he, hq]

/-! ### The fault of a port -/

/-- The entries of a list of planned entries end with PORT_STOPPED in cycle `c`. -/
def Ev.stopListed (c : Word) (xs : List Entry) (e : Ev) : Ev :=
  e.forEach xs (fun x => Ev.deliver ⟨x.stream, .portStopped, 0, c, c, []⟩)

theorem Ev.stopEntries_eq (e : Ev) (p : PortId) (xs : List Entry) : e.stopEntries p xs = e.stopListed (e.m.port p).cycle xs := rfl

theorem Ev.enterFaulted_eq (m : State) (p : PortId) (q : Port) : (Ev.start (m.setPort p q)).enterFaulted p =
    let ended := Ev.start (m.setPort p { q with line := .idle, cycleTimer := false, windowOpen := false, current := [], nextPlan := [] })
    ((((ended.stopListed q.cycle (q.current ++ q.nextPlan)).andThen (Ev.stopTags p)).andThen (Ev.stopItems p)).andThen
      (fun e => if q.state = .running then e.holdPort p true else e)).andThen fun e =>
        (e.modPort p (fun q => { q with state := .faulted, faultReason := .startEcho })).report p := by
  have hq : (Ev.start (m.setPort p q)).port p = q := State.port_setPort_same ..
  unfold Ev.enterFaulted
  dsimp only
  have hmod : (Ev.start (m.setPort p q)).modPort p
      (fun q => { q with line := .idle, cycleTimer := false, windowOpen := false, current := [], nextPlan := [] }) =
      Ev.start (m.setPort p { q with line := .idle, cycleTimer := false, windowOpen := false, current := [], nextPlan := [] }) := by
    unfold Ev.modPort
    rw [Ev.start_m, State.port_setPort_same, State.setPort_setPort]
    rfl
  rw [hq, hmod, Ev.andThen_stopWork, Ev.stopEntries_eq, Ev.start_m, State.port_setPort_same]
  exact congrArg (fun e : Ev => e.andThen _) (Ev.andThen_congr fun hh => Ev.onlyIf_eq hh ..)

/-- Settles O42. -/
theorem startFrameEnds : Obligations.StartFrameEnds := by
  intro s p frame echo hs hl q counts q' e faults
  have hq' : q.startChecked (decide (echo = frame)) = q' := by
    have hecho : ∀ x y : Nat, (if decide (echo = frame) = true then x else y) = if echo = frame then x else y :=
      fun x y => if_congr decide_eq_true_iff rfl rfl
    have hline : ∀ x y : Word, (if decide (echo = frame) = true then x else y) = if echo = frame then x else y :=
      fun x y => if_congr decide_eq_true_iff rfl rfl
    unfold Port.startChecked
    rw [hecho, hline]
  have hfaults := Port.faults_iff q (decide (echo = frame))
  rw [hq', decide_eq_false_iff_not] at hfaults
  have hexec : exec (.startFrameEnd p echo) s = .next (if !(decide (echo = frame)) && q'.cycling && 2 ≤ q'.startMismatches then
      e.enterFaulted p else if q'.state = .syncing then e else e.periodic p).finish := by
    rw [exec_startFrameEnd hs hl, Ev.startEnd_eq, show (s.port p).startChecked _ = q' from hq']
  refine ⟨fun hn hst => ?_, fun hn hst => ?_, fun hf => ?_⟩
  · rw [hexec, if_neg (mt hfaults.1 hn), if_pos hst]
    exact congrArg Host.Outcome.next (Ev.finish_sends rfl rfl rfl)
  · rw [hexec, if_neg (mt hfaults.1 hn), if_neg hst]
  · rw [hexec, if_pos (hfaults.2 hf), Ev.enterFaulted_eq]
    rfl

end Sys2Proof.Machine
end

section
/-! PROOFS. The issue of a REQUEST, the start of a FETCH, the queue's head, and the frames (R63, R69, R71, R72, R75, R160, R161). -/

namespace Sys2Proof.Machine

open Sys2Proof

/-! ### The lowest FREE tag -/

theorem allTags_eq : allTags = List.finRange 32 := by decide

theorem mem_allTags (t : TagId) : t ∈ allTags := by rw [allTags_eq]; exact List.mem_finRange t

theorem Port.freeTag_iff (q : Port) (t : TagId) :
    q.freeTag = some t ↔ (q.tag t).state = .free ∧ ∀ u, u < t → (q.tag u).state ≠ .free := by
  unfold Port.freeTag
  rw [allTags_eq, ← Fin.find?_eq_find?_finRange, Fin.find?_eq_some_iff]
  simp

theorem Port.freeTag_isSome_iff (q : Port) : q.freeTag.isSome = true ↔ ∃ t, (q.tag t).state = .free := by
  unfold Port.freeTag
  simp [mem_allTags]

/-! ### The issue of a REQUEST -/

theorem Entry.payload_eq (x : Entry) : x.payload = match x.source with | .present d => d | _ => [] := rfl

theorem Port.freeAt_setNode (q : Port) (a : Byte) (n : Node) : (q.setNode a n).freeAt = q.freeAt := by
  unfold Port.setNode; split <;> rfl

theorem Ev.issue_of_free {e : Ev} {p : PortId} {t : TagId} (ht : (e.m.port p).freeTag = some t) (periodic : Bool) (x : Entry) (c : Ctx) :
    e.issue p periodic x c =
      let q := e.m.port p
      let a := c.params.node
      let epoch := (q.tag t).epoch + 1
      let q' : Port := { (q.setTag t { q.tag t with
          state := .waiting, epoch := epoch, stream := x.stream, node := a, issue := q.cycle, stamp := q.allocations }).setNode a
          { q.node a with tagsHeld := (q.node a).tagsHeld + 1 } with
        allocations := q.allocations + 1, line := .request t periodic (requestFrame c.params t epoch x.payload), itemStart := q.freeAt }
      let k := e.m.ctx x.stream
      { e with
        m := (e.m.setPort p q').setCtx x.stream
          { k with tagRef := some (t, epoch), oneShot := if periodic then k.oneShot else .inFlight }
        dirty := if periodic ∨ x.stream ∈ e.dirty then e.dirty else e.dirty ++ [x.stream] } := by
  unfold Ev.issue
  rw [Ev.port_eq, ht]
  dsimp only
  have hmod : e.modPort p (fun q => (q.allocate t x.stream c.params.node).startItem
      (.request t periodic (requestFrame c.params t (((e.m.port p).tag t).epoch + 1) x.payload))) =
      { e with m := e.m.setPort p { ((e.m.port p).setTag t { (e.m.port p).tag t with
          state := .waiting, epoch := ((e.m.port p).tag t).epoch + 1, stream := x.stream, node := c.params.node,
          issue := (e.m.port p).cycle, stamp := (e.m.port p).allocations }).setNode c.params.node
          { (e.m.port p).node c.params.node with tagsHeld := ((e.m.port p).node c.params.node).tagsHeld + 1 } with
        allocations := (e.m.port p).allocations + 1
        line := .request t periodic (requestFrame c.params t (((e.m.port p).tag t).epoch + 1) x.payload)
        itemStart := (e.m.port p).freeAt } } := by
    unfold Ev.modPort Port.allocate Port.startItem
    dsimp only
    rw [Port.freeAt_setNode]
    rfl
  rw [hmod]
  cases periodic
  · rw [if_neg (by simp), Ev.publish_eq]
    simp only [Bool.false_eq_true, false_or]
    rfl
  · rw [if_pos rfl]
    simp only [true_or, if_true]
    rfl

@[simp] theorem Ev.issue_halted (e : Ev) (p : PortId) (periodic : Bool) (x : Entry) (c : Ctx) :
    (e.issue p periodic x c).halted = e.halted := by
  unfold Ev.issue
  cases (e.port p).freeTag with
  | none => rfl
  | some t => cases periodic <;> simp

/-! ### The start of a FETCH, and of the head of the queue -/

theorem Ev.startFetch_of_cons {e : Ev} {p : PortId} {t : TagId} {rest : List TagId} (h : (e.m.port p).fetchList = t :: rest) :
    e.startFetch p = { e with m := e.m.setPort p ({ e.m.port p with
      fetchList := rest
      line := .fetch t (withCrc [0x03, ((e.m.port p).tag t).node, tagByte t ((e.m.port p).tag t).epoch, 0, 0, 0, 0, 0])
      itemStart := (e.m.port p).freeAt }.setTag t { (e.m.port p).tag t with state := .fetching }) } := by
  unfold Ev.startFetch
  rw [Ev.port_eq, h]
  rfl

theorem Port.head_eq_none_iff (q : Port) :
    q.head = none ↔ ∀ x, ¬ ∃ rest, q.urgent = x :: rest ∨ (q.urgent = [] ∧ q.normal = x :: rest) := by
  simp only [← Port.head_iff, Option.eq_none_iff_forall_ne_some, ne_eq]

theorem Ev.headRead_of_read {e : Ev} {p : PortId} (h : ∀ x, (e.m.port p).head = some x → x.source ≠ .notRead) : e.headRead p = e := by
  unfold Ev.headRead
  rw [Ev.port_eq]
  rcases hh : (e.m.port p).head with _ | ⟨i, src⟩
  · rfl
  · have hsrc : src ≠ .notRead := h _ hh
    cases src with
    | notRead => exact absurd rfl hsrc
    | _ => rfl

theorem Ev.headRead_of_good {e : Ev} {p : PortId} {i : StreamId} (hh : (e.m.port p).head = some ⟨i, .notRead⟩)
    (hp : (e.m.ctx i).parityOk = true) : e.headRead p =
      (e.modPort p (Port.setItemSource i (.selector e.m.smi.nextRid))).askSelector i (e.m.ctx i) := by
  unfold Ev.headRead
  rw [Ev.port_eq, hh]
  exact Ev.withCtx_of_good hp _

theorem Ev.startHead_of_none {e : Ev} {p : PortId} (h : (e.m.port p).head = none) : e.startHead p = e := by
  unfold Ev.startHead
  rw [Ev.port_eq, h]

theorem Ev.startHead_of_good {e : Ev} {p : PortId} {x : Entry} (hh : e.halted = false) (h : (e.m.port p).head = some x)
    (hp : (e.m.ctx x.stream).parityOk = true) : e.startHead p =
      ((e.modPort p (Port.dequeue x.stream)).issue p false x (e.m.ctx x.stream)).headRead p := by
  unfold Ev.startHead
  rw [Ev.port_eq, h]
  dsimp only
  have hctx : (e.modPort p (Port.dequeue x.stream)).m.ctx x.stream = e.m.ctx x.stream := rfl
  have hissued : ((e.modPort p (Port.dequeue x.stream)).issue p false x (e.m.ctx x.stream)).halted = false := by
    rw [Ev.issue_halted]; exact hh
  rw [Ev.withCtx_of_good (by rw [hctx]; exact hp), hctx, Ev.andThen_of_not_halted hissued]

/-! ### The frames -/

theorem tagByte_fields (t : TagId) (epoch : BitVec 2) : (tagByte t epoch).extractLsb' 0 5 = BitVec.ofNat 5 t.val ∧
    (tagByte t epoch).extractLsb' 5 2 = epoch ∧ (tagByte t epoch).getLsbD 7 = false := by
  revert t epoch
  decide

theorem requestFrame_length (q : Params) (t : TagId) (epoch : BitVec 2) (data : List Byte) :
    (requestFrame q t epoch data).length = 10 + data.length := by
  unfold requestFrame
  rw [withCrc_length]
  simp only [List.length_append, List.length_cons, List.length_nil, le2_length]
  omega

theorem Line.driverEnable_iff (l : Line) (n : Nat) : l.driverEnable n = true ↔ ∃ f, n < f.length ∧
    (l = .start f ∨ (∃ t periodic, l = .request t periodic f) ∨ (∃ t, l = .fetch t f) ∨ ∃ a, l = .probe a f) := by
  cases l <;> simp [Line.driverEnable]

theorem crc_values : crc16 [0x31, 0x32, 0x33, 0x34, 0x35, 0x36, 0x37, 0x38, 0x39] = 0x29B1 ∧
    crc32 [0x31, 0x32, 0x33, 0x34, 0x35, 0x36, 0x37, 0x38, 0x39] = 0xCBF43926 := by decide +kernel

/-- Settles O44. -/
theorem requestAndFetchIssued : Obligations.RequestAndFetchIssued := by
  refine ⟨fun e p periodic x c t hfree hlow => ?_, fun e p t rest h => Ev.startFetch_of_cons h, fun e p => ⟨fun h => ?_, fun i hh hp => ?_,
    fun h => ?_, fun x hx hh hp => ?_⟩, fun bytes cycle k node q t epoch data => ?_, crc_values.1, crc_values.2, Line.driverEnable_iff⟩
  · rw [Ev.issue_of_free ((Port.freeTag_iff ..).2 ⟨hfree, hlow⟩), Entry.payload_eq]
    rfl
  · exact Ev.headRead_of_read fun x hx => h x ((Port.head_iff ..).1 hx)
  · rw [Ev.headRead_of_good ((Port.head_iff ..).2 hh) hp]
    rfl
  · exact Ev.startHead_of_none ((Port.head_eq_none_iff _).2 h)
  · exact Ev.startHead_of_good hh ((Port.head_iff ..).2 hx) hp
  · obtain ⟨hnum, hepoch, htop⟩ := tagByte_fields t epoch
    exact ⟨rfl, hnum, hepoch, htop, rfl, rfl, rfl, rfl, rfl, requestFrame_length .., rfl, rfl⟩

end Sys2Proof.Machine
end

section
/-! PROOFS. The selection (R55, R56, R59 to R61). -/

namespace Sys2Proof.Machine

open Sys2Proof

/-! ### What a list offers -/

theorem Entry.ready_iff (x : Entry) : x.ready = true ↔ x.source = .noneNeeded ∨ ∃ d, x.source = .present d := by
  unfold Entry.ready
  cases x.source <;> simp

theorem Port.eligible_iff (q : Port) (x : Entry) (c : Ctx) : q.eligible x c = true ↔
    (x.source = .noneNeeded ∨ ∃ d, x.source = .present d) ∧ (∃ t, (q.tag t).state = .free) ∧ (q.node c.params.node).tagsHeld < 8 := by
  unfold Port.eligible
  rw [Bool.and_eq_true, Bool.and_eq_true, Entry.ready_iff, Port.freeTag_isSome_iff, decide_eq_true_eq, and_assoc]
  rfl

theorem fitsAt_iff (units position cost : Nat) : fitsAt units position cost = true ↔ position + cost + 8 ≤ units := decide_eq_true_iff

section Offers

variable {s : State} {p : PortId}

theorem State.offer_fetchList_nil (h : (s.port p).fetchList = []) : s.offer p .fetchList = .passes := by
  unfold State.offer
  dsimp only
  rw [h]

theorem State.offer_fetchList_cons {t : TagId} {rest : List TagId} (h : (s.port p).fetchList = t :: rest) : s.offer p .fetchList =
    if ¬ cycleReached (s.port p).cycle ((s.port p).tag t).ready then .passes
    else if ¬ (s.ctx ((s.port p).tag t).stream).parityOk then .parity ((s.port p).tag t).stream
    else if fitsAt (s.budget p).figures.units (s.port p).freeAt (s.ctx ((s.port p).tag t).stream).params.fetchCost then .fits
    else .tooLong := by
  unfold State.offer
  dsimp only
  rw [h]

theorem State.offer_queue_none (h : (s.port p).head = none) : s.offer p .queue = .passes := by
  unfold State.offer
  dsimp only
  rw [h]

theorem State.offer_queue_some {x : Entry} (h : (s.port p).head = some x) : s.offer p .queue =
    if ¬ (s.ctx x.stream).parityOk then .parity x.stream
    else if ¬ (s.port p).eligible x (s.ctx x.stream) then .passes
    else if fitsAt (s.budget p).figures.units (s.port p).freeAt (s.ctx x.stream).cost then .fits else .tooLong := by
  unfold State.offer
  dsimp only
  rw [h]

theorem State.offer_fetchList_of_later {t : TagId} {rest : List TagId} (h : (s.port p).fetchList = t :: rest)
    (hr : 2 ^ 31 ≤ ((s.port p).cycle - ((s.port p).tag t).ready).toNat) : s.offer p .fetchList = .passes :=
  (State.offer_fetchList_cons h).trans (if_pos fun hc => absurd ((cycleReached_iff ..).1 hc) (not_lt.2 hr))

theorem State.offer_fetchList_of_ready {t : TagId} {rest : List TagId} (h : (s.port p).fetchList = t :: rest)
    (hr : ((s.port p).cycle - ((s.port p).tag t).ready).toNat < 2 ^ 31) (hp : (s.ctx ((s.port p).tag t).stream).parityOk = true) :
    s.offer p .fetchList = if (s.port p).freeAt + (24 + max (s.ctx ((s.port p).tag t).stream).params.inLen.toNat 1) + 8 ≤
      (s.budget p).figures.units then .fits else .tooLong :=
  (State.offer_fetchList_cons h).trans ((if_neg (not_not.2 ((cycleReached_iff ..).2 hr))).trans ((if_neg (not_not.2 hp)).trans
    (if_congr (fitsAt_iff ..) rfl rfl)))

theorem State.offer_queue_of_not_eligible {x : Entry} (h : (s.port p).head = some x) (hp : (s.ctx x.stream).parityOk = true)
    (he : ¬ (s.port p).eligible x (s.ctx x.stream) = true) : s.offer p .queue = .passes :=
  (State.offer_queue_some h).trans ((if_neg (not_not.2 hp)).trans (if_pos he))

theorem State.offer_queue_of_eligible {x : Entry} (h : (s.port p).head = some x) (hp : (s.ctx x.stream).parityOk = true)
    (he : (s.port p).eligible x (s.ctx x.stream) = true) : s.offer p .queue =
      if (s.port p).freeAt + (s.ctx x.stream).cost + 8 ≤ (s.budget p).figures.units then .fits else .tooLong :=
  (State.offer_queue_some h).trans ((if_neg (not_not.2 hp)).trans ((if_neg (not_not.2 he)).trans (if_congr (fitsAt_iff ..) rfl rfl)))

end Offers

/-! ### What the selection does -/

section Selections

variable {e : Ev} {p : PortId}

theorem Ev.selection_of_fits (h : e.m.offer p (e.m.port p).turn = .fits) (opening : Bool) :
    e.selection p opening = e.startItem p (e.m.port p).turn := by
  unfold Ev.selection
  dsimp only
  rw [Ev.port_eq, h]

theorem Ev.selection_of_passes (h : e.m.offer p (e.m.port p).turn = .passes) (opening : Bool) :
    e.selection p opening = e.second p (e.m.port p).turn opening false := by
  unfold Ev.selection
  dsimp only
  rw [Ev.port_eq, h]

theorem Ev.selection_of_tooLong (h : e.m.offer p (e.m.port p).turn = .tooLong) (opening : Bool) :
    e.selection p opening =
      if opening then e.second p (e.m.port p).turn opening true else e.closeWindow p (e.m.port p).turn := by
  unfold Ev.selection
  dsimp only
  rw [Ev.port_eq, h]

theorem Ev.second_of_fits {first : Turn} (h : e.m.offer p first.other = .fits) (opening tooLong : Bool) :
    e.second p first opening tooLong = e.startItem p first.other := by
  unfold Ev.second
  rw [h]

theorem Ev.second_of_passes {first : Turn} (h : e.m.offer p first.other = .passes) (opening tooLong : Bool) :
    e.second p first opening tooLong = e := by
  unfold Ev.second
  rw [h]

theorem Ev.second_of_tooLong {first : Turn} (h : e.m.offer p first.other = .tooLong) (opening tooLong : Bool) :
    e.second p first opening tooLong =
      if opening then (if tooLong then e.closeWindow p first else e) else e.closeWindow p first.other := by
  unfold Ev.second
  rw [h]

end Selections

/-! ### The heads -/

theorem Heads.gained_iff (before after : Heads) : before.gained after = true ↔
    (∃ t, after.fetch = some t ∧ before.fetch ≠ some t) ∨
    (after.fetch ≠ none ∧ before.fetchReady = false ∧ after.fetchReady = true) ∨
    (∃ i, after.queue = some i ∧ before.queue ≠ some i) ∨
    (after.queue ≠ none ∧ before.queueReady = false ∧ after.queueReady = true) := by
  unfold Heads.gained
  cases after.fetch <;> cases after.queue <;> simp [or_assoc]

theorem Heads.gained_self (h : Heads) : h.gained h = false := by
  refine eq_false_of_ne_true fun hg => ?_
  rcases (Heads.gained_iff h h).1 hg with ⟨t, h1, h2⟩ | ⟨_, h1, h2⟩ | ⟨t, h1, h2⟩ | ⟨_, h1, h2⟩
  · exact h2 h1
  · exact absurd (h1.symm.trans h2) (by simp)
  · exact h2 h1
  · exact absurd (h1.symm.trans h2) (by simp)

theorem State.heads_fetch_iff (s : State) (p : PortId) (t : TagId) :
    (s.heads p).fetch = some t ↔ ∃ rest, (s.port p).fetchList = t :: rest := List.head?_eq_some_iff

theorem State.heads_queue_iff (s : State) (p : PortId) (i : StreamId) :
    (s.heads p).queue = some i ↔ ∃ x, (s.port p).head = some x ∧ x.stream = i := Option.map_eq_some_iff

theorem State.heads_fetchReady_iff (s : State) (p : PortId) : (s.heads p).fetchReady = true ↔
    ∃ t rest, (s.port p).fetchList = t :: rest ∧ ((s.port p).cycle - ((s.port p).tag t).ready).toNat < 2 ^ 31 := by
  show (s.port p).fetchList.head?.any _ = true ↔ _
  cases (s.port p).fetchList with
  | nil => simp
  | cons t rest =>
    refine (cycleReached_iff ..).trans ⟨fun h => ⟨t, rest, rfl, h⟩, ?_⟩
    rintro ⟨_, _, h, hr⟩
    obtain ⟨rfl, -⟩ := List.cons.inj h
    exact hr

theorem State.heads_queueReady_iff (s : State) (p : PortId) : (s.heads p).queueReady = true ↔
    ∃ x, (s.port p).head = some x ∧ (s.port p).eligible x (s.ctx x.stream) = true := by
  show (s.port p).head.any _ = true ↔ _
  cases (s.port p).head <;> simp

theorem Ev.reselect_of_not {e : Ev} {p : PortId} {before : Heads}
    (h : ¬ ((e.m.port p).windowOpen = true ∧ (e.m.port p).line = .idle ∧ before.gained (e.m.heads p) = true)) (pos : Nat) :
    e.reselect p pos before = e := if_neg h

/-- Settles O45. -/
theorem selectionRules : Obligations.SelectionRules := by
  refine ⟨fun s p => ⟨State.offer_fetchList_nil, fun t rest h => ⟨State.offer_fetchList_of_later h, State.offer_fetchList_of_ready h⟩,
    fun hu hn => State.offer_queue_none (by rw [Port.head, hu, hn]; rfl), fun x hx => ?_⟩, fun e p opening => ?_, fun e p pos before => ?_,
    Heads.gained_iff, fun s p => ?_⟩
  · intro c eligible hp
    have hh := (Port.head_iff ..).2 hx
    exact ⟨fun he => State.offer_queue_of_not_eligible hh hp (mt (Port.eligible_iff ..).1 he),
      fun he => State.offer_queue_of_eligible hh hp ((Port.eligible_iff ..).2 he)⟩
  · intro first other starts closes a b
    have hstarts : ∀ l, starts l = e.startItem p l := fun l => by cases l <;> rfl
    have hother : other = first.other := rfl
    have hb : b = e.m.offer p first.other := rfl
    rw [hstarts, hstarts, hb, hother]
    refine ⟨fun h => Ev.selection_of_fits h opening, fun h h' => (Ev.selection_of_passes h opening).trans (Ev.second_of_fits h' ..),
      fun h h' => (Ev.selection_of_passes h opening).trans (Ev.second_of_passes h' ..),
      fun h h' ho => (Ev.selection_of_passes h opening).trans ((Ev.second_of_tooLong h' ..).trans (if_neg (ne_true_of_eq_false ho))),
      fun h h' ho => (Ev.selection_of_passes h opening).trans ((Ev.second_of_tooLong h' ..).trans (if_pos ho)),
      fun h ho => (Ev.selection_of_tooLong h opening).trans (if_neg (ne_true_of_eq_false ho)), fun h ho h' => ?_, fun h ho h' => ?_,
      fun h ho h' => ?_, rfl⟩
    all_goals refine (Ev.selection_of_tooLong h opening).trans ((if_pos ho).trans ?_)
    · exact Ev.second_of_fits h' ..
    · exact Ev.second_of_passes h' ..
    · exact (Ev.second_of_tooLong h' ..).trans (if_pos ho)
  · refine ⟨fun h => ?_, fun hw hl hg => if_pos ⟨hw, hl, hg⟩, fun hw hl hg => ?_⟩
    · refine Ev.reselect_of_not (fun ⟨hw, hl, hg⟩ => ?_) pos
      rcases h with h | h | rfl
      · exact absurd (hw.symm.trans h) (by simp)
      · exact h hl
      · exact absurd (hg.symm.trans (Heads.gained_self _)) (by simp)
    · exact Ev.reselect_of_not (fun h => absurd (h.2.2.symm.trans hg) (by simp)) pos
  · intro q h head
    have hhead : ∀ x, head x ↔ q.head = some x := fun x => (Port.head_iff ..).symm
    refine ⟨State.heads_fetch_iff s p, State.heads_fetchReady_iff s p, ?_, ?_⟩
    · simp only [hhead]
      exact State.heads_queue_iff s p
    · simp only [hhead, ← Port.eligible_iff]
      exact State.heads_queueReady_iff s p

end Sys2Proof.Machine
end

section
/-! PROOFS. The periodic and the aperiodic window, and the due probe (R50, R57, R61, R71). -/

namespace Sys2Proof.Machine

open Sys2Proof

/-! ### Operations that change no port -/

/-- Changes of no port, and not of the engine. -/
def NoPort : Allow := { port := fun _ _ _ => False, engine := false }

theorem Ev.Does.port_of_noPort {a b : Ev} (d : Ev.Does NoPort a b) (hb : b.halted = false) (r : PortId) : b.m.port r = a.m.port r :=
  Ev.Does.port (K := NoPort) (R := fun _ q q' => q' = q) (fun _ _ => rfl) (fun _ _ _ _ _ h => h.elim) d hb r

theorem Ev.port_deliver {e : Ev} {o : Outcome} (h : e.halted = false) (hb : (e.deliver o).halted = false) (r : PortId) :
    (e.deliver o).m.port r = e.m.port r := (e.does_deliver o h).port_of_noPort hb r

/-! ### The periodic window -/

theorem Ev.periodic_of_nil {e : Ev} {p : PortId} (h : (e.m.port p).current = []) : e.periodic p = e.periodicEnd p := by
  unfold Ev.periodic
  rw [Ev.port_eq, h, Ev.takeUp]

theorem Ev.periodicEnd_of_not_running {e : Ev} {p : PortId} (h : (e.m.port p).state ≠ .running) : e.periodicEnd p = e := if_neg h

theorem Ev.dueProbe_opened (e : Ev) (p : PortId) :
    ((e.modPort p (fun q => { q with windowOpen := true, openingMade := false })).port p).dueProbe = (e.m.port p).dueProbe := by
  rw [Ev.port_modPort_same]; rfl

theorem Ev.periodicEnd_of_no_probe {e : Ev} {p : PortId} (h : (e.m.port p).state = .running) (hd : (e.m.port p).dueProbe = none) :
    e.periodicEnd p = (e.modPort p (fun q => { q with windowOpen := true, openingMade := false })).select p := by
  refine (if_pos h).trans ?_
  dsimp only
  rw [Ev.dueProbe_opened, hd]

theorem Ev.periodicEnd_of_probe {e : Ev} {p : PortId} {a : Byte} (h : (e.m.port p).state = .running)
    (hd : (e.m.port p).dueProbe = some a) : e.periodicEnd p =
      (e.modPort p (fun q => { q with windowOpen := true, openingMade := false })).modPort p (Port.startItem (.probe a (probeFrame a))) := by
  refine (if_pos h).trans ?_
  dsimp only
  rw [Ev.dueProbe_opened, hd]

/-- R50: the periodic window takes up the first entry, once its context is read. -/
theorem Ev.periodic_of_cons {e : Ev} {p : PortId} {x : Entry} {rest : List Entry} (h : (e.m.port p).current = x :: rest)
    (hp : (e.m.ctx x.stream).parityOk = true) :
    let e' := e.modPort p (fun q => { q with current := rest })
    (∀ code, (e.m.port p).skip (e.m.ctx x.stream) = some code →
      e.periodic p = (e'.deliver (Outcome.bare x.stream code (e.m.port p).cycle)).andThen (Ev.takeUp p rest)) ∧
    ((e.m.port p).skip (e.m.ctx x.stream) = none → e.periodic p = e'.issue p true x (e.m.ctx x.stream)) := by
  intro e'
  have hport : e'.port p = { e.m.port p with current := rest } := Ev.port_modPort_same ..
  have hctx : e'.m.ctx x.stream = e.m.ctx x.stream := rfl
  have hskip : Port.skip { e.m.port p with current := rest } (e.m.ctx x.stream) = (e.m.port p).skip (e.m.ctx x.stream) := rfl
  unfold Ev.periodic
  rw [Ev.port_eq, h, Ev.takeUp, Ev.withCtx_of_good (by exact hp), hport, hctx, hskip]
  exact ⟨fun code hs => by rw [hs], fun hs => by rw [hs]⟩

theorem Ev.takeUp_after_deliver {e : Ev} {p : PortId} {rest : List Entry} (h : e.halted = false) (o : Outcome) :
    let e' := e.modPort p (fun q => { q with current := rest })
    (e'.deliver o).andThen (Ev.takeUp p rest) = (e'.deliver o).andThen (fun e => e.periodic p) := by
  intro e'
  refine Ev.andThen_congr fun hb => ?_
  have hcur : (((e'.deliver o).m.port p).current) = rest := by
    rw [Ev.port_deliver (by exact h) hb, Ev.modPort_m, State.port_setPort_same]
  unfold Ev.periodic
  rw [Ev.port_eq, hcur]

/-- R71: an entry is skipped with a code. -/
theorem Ev.periodic_of_skip {e : Ev} {p : PortId} {x : Entry} {rest : List Entry} (hh : e.halted = false)
    (h : (e.m.port p).current = x :: rest) (hp : (e.m.ctx x.stream).parityOk = true) {code : OutcomeCode}
    (hs : (e.m.port p).skip (e.m.ctx x.stream) = some code) : e.periodic p =
      ((e.modPort p (fun q => { q with current := rest })).deliver (Outcome.bare x.stream code (e.m.port p).cycle)).andThen
        (fun e => e.periodic p) := by
  rw [(Ev.periodic_of_cons h hp).1 code hs]
  exact Ev.takeUp_after_deliver hh _

theorem Ev.periodic_of_issue {e : Ev} {p : PortId} {x : Entry} {rest : List Entry}
    (h : (e.m.port p).current = x :: rest) (hp : (e.m.ctx x.stream).parityOk = true)
    (hs : (e.m.port p).skip (e.m.ctx x.stream) = none) : e.periodic p =
      (e.modPort p (fun q => { q with current := rest })).issue p true x (e.m.ctx x.stream) :=
  (Ev.periodic_of_cons h hp).2 hs

theorem Port.freeTag_isNone_iff (q : Port) : q.freeTag.isNone = true ↔ ∀ t, (q.tag t).state ≠ .free := by
  unfold Port.freeTag
  simp [mem_allTags]

section Skip

variable {q : Port} {c : Ctx}

theorem Port.skip_of_tagged (h : c.tagRef ≠ none) : q.skip c = some .skipOverlap :=
  if_pos (Option.isSome_iff_ne_none.2 h)

theorem Port.skip_of_no_tag (h : c.tagRef = none) (hf : ∀ t, (q.tag t).state ≠ .free) : q.skip c = some .skipNoTag :=
  (if_neg (by rw [h]; simp)).trans (if_pos ((Port.freeTag_isNone_iff q).2 hf))

theorem Port.skip_of_limit (h : c.tagRef = none) (hf : ¬ ∀ t, (q.tag t).state ≠ .free) (hl : 8 ≤ (q.node c.params.node).tagsHeld) :
    q.skip c = some .skipNodeLimit :=
  (if_neg (by rw [h]; simp)).trans ((if_neg (mt (Port.freeTag_isNone_iff q).1 hf)).trans (if_pos hl))

theorem Port.skip_of_room (h : c.tagRef = none) (hf : ¬ ∀ t, (q.tag t).state ≠ .free) (hl : (q.node c.params.node).tagsHeld < 8) :
    q.skip c = none :=
  (if_neg (by rw [h]; simp)).trans ((if_neg (mt (Port.freeTag_isNone_iff q).1 hf)).trans (if_neg (not_le.2 hl)))

end Skip

/-! ### The due probe -/

/-- A probe of node `a` is due, from cycle `d` on. -/
def Port.probeDueAt (q : Port) (a : Byte) (d : Word) : Prop := (q.node a).probeDue = some d ∧ (q.cycle - d).toNat < 2 ^ 31

/-- R57: of two nodes with a due probe, the first one goes first: the earlier due, of equals the lower node. -/
def Port.probesBefore (q : Port) (a : Byte) (d : Word) (a' : Byte) (d' : Word) : Prop :=
  (q.cycle - d').toNat < (q.cycle - d).toNat ∨ ((q.cycle - d').toNat = (q.cycle - d).toNat ∧ a.toNat ≤ a'.toNat)

/-- The node chosen so far, once one more is looked at. -/
def Port.probeStep (q : Port) (best : Option (Byte × Word)) (a : Byte) : Option (Byte × Word) :=
  match (q.node a).probeDue with
  | none => best
  | some d =>
    if cycleReached q.cycle d then
      match best with
      | none => some (a, d)
      | some (_, d') => if (q.cycle - d').toNat < (q.cycle - d).toNat then some (a, d) else best
    else best

theorem Port.dueProbe_eq (q : Port) : q.dueProbe = (allNodes.foldl q.probeStep none).map Prod.fst := rfl

/-- What is chosen among the nodes looked at. -/
def Port.probeBest (q : Port) (seen : List Byte) : Option (Byte × Word) → Prop
  | none => ∀ a ∈ seen, ∀ d, ¬ q.probeDueAt a d
  | some (a, d) => q.probeDueAt a d ∧ ∀ a' ∈ seen, ∀ d', q.probeDueAt a' d' → q.probesBefore a d a' d'

theorem Port.probeStep_of_not_due {q : Port} {a : Byte} (h : ∀ d, ¬ q.probeDueAt a d) (best : Option (Byte × Word)) :
    q.probeStep best a = best := by
  unfold Port.probeStep
  cases hd : (q.node a).probeDue with
  | none => rfl
  | some d => exact if_neg fun hr => h d ⟨hd, (cycleReached_iff ..).1 hr⟩

theorem Port.probeStep_of_due {q : Port} {a : Byte} {d : Word} (h : q.probeDueAt a d) (best : Option (Byte × Word)) :
    q.probeStep best a =
      match best with
      | none => some (a, d)
      | some (_, d') => if (q.cycle - d').toNat < (q.cycle - d).toNat then some (a, d) else best := by
  unfold Port.probeStep
  rw [h.1]
  exact if_pos ((cycleReached_iff ..).2 h.2)

/-- What is chosen is the node looked at last, or what was chosen before. -/
theorem Port.probeStep_chooses {q : Port} {best : Option (Byte × Word)} {a b : Byte} {d : Word} (h : q.probeStep best a = some (b, d)) :
    b = a ∨ best = some (b, d) := by
  unfold Port.probeStep at h
  split at h
  · exact .inr h
  split at h
  · split at h
    · exact .inl (Prod.mk.inj (Option.some.inj h)).1.symm
    split at h
    · exact .inl (Prod.mk.inj (Option.some.inj h)).1.symm
    · exact .inr h
  · exact .inr h

/-- A property of a list and one more. -/
theorem forall_mem_snoc {P : Byte → Prop} {seen : List Byte} {a : Byte} (hs : ∀ b ∈ seen, P b) (ha : P a) : ∀ b ∈ seen ++ [a], P b :=
  List.forall_mem_append.2 ⟨hs, List.forall_mem_singleton.2 ha⟩

section Snoc

variable {q : Port} {seen : List Byte} {a : Byte}

theorem Port.probeBest_snoc_of_not_due {best : Option (Byte × Word)} (hb : q.probeBest seen best) (hno : ∀ d, ¬ q.probeDueAt a d) :
    q.probeBest (seen ++ [a]) best :=
  match best, hb with
  | none, hb => forall_mem_snoc hb hno
  | some _, ⟨hdue, hfirst⟩ => ⟨hdue, forall_mem_snoc hfirst fun d hd => absurd hd (hno d)⟩

/-- A node's probe is due at one cycle. -/
theorem Port.probeDueAt_unique {d d' : Word} (h : q.probeDueAt a d) (h' : q.probeDueAt a d') : d' = d := Option.some.inj (h'.1.symm.trans h.1)

theorem Port.probeBest_snoc_alone {d : Word} (hb : q.probeBest seen none) (hd : q.probeDueAt a d) : q.probeBest (seen ++ [a]) (some (a, d)) :=
  ⟨hd, forall_mem_snoc (fun b hs d' hd' => absurd hd' (hb b hs d')) fun d' hd' => by
    rw [Port.probeDueAt_unique hd hd']; exact .inr ⟨rfl, le_rfl⟩⟩

theorem Port.probeBest_snoc_earlier {b : Byte} {d d' : Word} (hb : q.probeBest seen (some (b, d'))) (hd : q.probeDueAt a d)
    (hlt : (q.cycle - d').toNat < (q.cycle - d).toNat) : q.probeBest (seen ++ [a]) (some (a, d)) := by
  refine ⟨hd, forall_mem_snoc (fun c hs d'' hd'' => ?_) fun d'' hd'' => ?_⟩
  · rcases hb.2 c hs d'' hd'' with h | ⟨h, _⟩
    · exact .inl (h.trans hlt)
    · exact .inl (h ▸ hlt)
  · rw [Port.probeDueAt_unique hd hd'']; exact .inr ⟨rfl, le_rfl⟩

theorem Port.probeBest_snoc_later {b : Byte} {d d' : Word} (hb : q.probeBest seen (some (b, d'))) (hd : q.probeDueAt a d)
    (hle : ¬ (q.cycle - d').toNat < (q.cycle - d).toNat) (hba : b.toNat < a.toNat) : q.probeBest (seen ++ [a]) (some (b, d')) := by
  refine ⟨hb.1, forall_mem_snoc hb.2 fun d'' hd'' => ?_⟩
  rw [Port.probeDueAt_unique hd hd'']
  exact (lt_or_eq_of_le (not_lt.1 hle)).imp_right fun h => ⟨h, hba.le⟩

/-- R57: the choice is right for one node more, higher than those seen. -/
theorem Port.probeBest_snoc {best : Option (Byte × Word)} (hs : ∀ b ∈ seen, b.toNat < a.toNat) (hb : q.probeBest seen best)
    (hin : ∀ b d, best = some (b, d) → b ∈ seen) : q.probeBest (seen ++ [a]) (q.probeStep best a) := by
  by_cases hdue : ∃ d, q.probeDueAt a d
  · obtain ⟨d, hd⟩ := hdue
    rw [Port.probeStep_of_due hd]
    match best, hb, hin with
    | none, hb, _ => exact Port.probeBest_snoc_alone hb hd
    | some (b, d'), hb, hin =>
      dsimp only
      split
      next hlt => exact Port.probeBest_snoc_earlier hb hd hlt
      next hle => exact Port.probeBest_snoc_later hb hd hle (hs b (hin b d' rfl))
  · have hno := not_exists.1 hdue
    rw [Port.probeStep_of_not_due hno]
    exact Port.probeBest_snoc_of_not_due hb hno

end Snoc

theorem Port.probeBest_foldl (q : Port) (l : List Byte) (hl : l.Pairwise (fun a b => a.toNat < b.toNat)) :
    q.probeBest l (l.foldl q.probeStep none) ∧ ∀ b d, l.foldl q.probeStep none = some (b, d) → b ∈ l := by
  induction l using List.reverseRecOn with
  | nil => exact ⟨by simp [Port.probeBest], by simp⟩
  | append_singleton l a ih =>
    obtain ⟨hsorted, -, hlast⟩ := List.pairwise_append.1 hl
    obtain ⟨hbest, hin⟩ := ih hsorted
    rw [List.foldl_append]
    refine ⟨Port.probeBest_snoc (fun b hb => hlast b hb a (List.mem_singleton_self a)) hbest hin, fun b d h => ?_⟩
    rcases Port.probeStep_chooses h with rfl | h
    · exact List.mem_append_right _ (List.mem_singleton_self b)
    · exact List.mem_append_left _ (hin b d h)

theorem allNodes_sorted : allNodes.Pairwise (fun a b => a.toNat < b.toNat) := by decide

theorem Port.probeDueAt_mem {q : Port} {a : Byte} {d : Word} (h : q.probeDueAt a d) : a ∈ allNodes := by
  rw [mem_allNodes]
  by_contra hout
  have hnode : q.node a = Node.reset := by
    unfold Port.node nodeIx?
    rw [dif_neg hout]
  have hdue := h.1
  rw [hnode] at hdue
  exact absurd hdue (by simp [Node.reset])

theorem Port.dueProbe_first {q : Port} {a : Byte} (h : q.dueProbe = some a) :
    ∃ d, q.probeDueAt a d ∧ ∀ a' d', q.probeDueAt a' d' → q.probesBefore a d a' d' := by
  obtain ⟨⟨b, d⟩, hbest, rfl⟩ := Option.map_eq_some_iff.1 ((Port.dueProbe_eq q).symm.trans h)
  have hinv := (q.probeBest_foldl allNodes allNodes_sorted).1
  rw [hbest] at hinv
  exact ⟨d, hinv.1, fun a' d' h' => hinv.2 a' (Port.probeDueAt_mem h') d' h'⟩

theorem Port.dueProbe_ne_none {q : Port} {a : Byte} {d : Word} (h : q.probeDueAt a d) : q.dueProbe ≠ none := by
  intro hnone
  have hinv := (q.probeBest_foldl allNodes allNodes_sorted).1
  rw [Option.map_eq_none_iff.1 ((Port.dueProbe_eq q).symm.trans hnone)] at hinv
  exact hinv a (Port.probeDueAt_mem h) d h

/-! ### The windows -/

theorem exec_aperiodicWindowClose (p : PortId) (s : State) : exec (.aperiodicWindowClose p) s =
    .next (s.eventIf (s.port p).windowOpen (fun e => e.modPort p (fun q => { q with windowOpen := false }))) := rfl

/-- Settles O43. -/
theorem periodicAndAperiodicWindow : Obligations.PeriodicAndAperiodicWindow := by
  refine ⟨fun e p h => ⟨fun hs => ?_, fun hs hd => ?_, fun a hs hd => ?_⟩, fun e p x rest hh h hp => ?_,
    fun q a h => ?_, fun q a d h1 h2 => Port.dueProbe_ne_none ⟨h1, h2⟩, fun s p hs => ⟨fun hw => ?_, fun hw => ?_⟩⟩
  · exact (Ev.periodic_of_nil h).trans (Ev.periodicEnd_of_not_running hs)
  · exact (Ev.periodic_of_nil h).trans (Ev.periodicEnd_of_no_probe hs hd)
  · exact (Ev.periodic_of_nil h).trans (Ev.periodicEnd_of_probe hs hd)
  · exact ⟨fun ht => Ev.periodic_of_skip hh h hp (Port.skip_of_tagged ht),
      fun ht hf => Ev.periodic_of_skip hh h hp (Port.skip_of_no_tag ht hf),
      fun ht hf hl => Ev.periodic_of_skip hh h hp (Port.skip_of_limit ht hf hl),
      fun ht hf hl => Ev.periodic_of_issue h hp (Port.skip_of_room ht hf hl)⟩
  · obtain ⟨d, hdue, hfirst⟩ := Port.dueProbe_first h
    exact ⟨d, hdue.1, hdue.2, fun a' d' h1 h2 => hfirst a' d' ⟨h1, h2⟩⟩
  · rw [exec_aperiodicWindowClose, State.eventIf_of_true hw]
    exact congrArg Host.Outcome.next (State.event_of_silent hs rfl)
  · rw [exec_aperiodicWindowClose, State.eventIf_of_false hw]

end Sys2Proof.Machine
end

section
/-! PROOFS. The ends of source reads (R51 to R53, R159). -/

namespace Sys2Proof.Machine

open Sys2Proof

/-! ### The owner of a read -/

/-- An entry of stream `i` waits for the reads of stay `job`. -/
def Entry.waitsFor (i : StreamId) (job : Nat) (x : Entry) : Prop :=
  x.stream = i ∧ (x.source = .selector job ∨ ∃ pieces, x.source = .half job pieces)

theorem Entry.waitsFor_iff (i : StreamId) (job : Nat) (x : Entry) :
    (decide (x.stream = i) && decide (x.source.job? = some job)) = true ↔ x.waitsFor i job := by
  rw [Bool.and_eq_true, decide_eq_true_eq, decide_eq_true_eq]
  refine and_congr_right fun _ => ?_
  cases x.source <;> simp [Source.job?]

/-- The first entry of a list that waits. -/
theorem find?_waits_iff (i : StreamId) (job : Nat) (xs : List Entry) (x : Entry) :
    xs.find? (fun x => x.stream = i && x.source.job? = some job) = some x ↔
      ∃ before after, xs = before ++ x :: after ∧ x.waitsFor i job ∧ ∀ y ∈ before, ¬ y.waitsFor i job := by
  have hbool : ∀ y : Entry, (!(decide (y.stream = i) && decide (y.source.job? = some job))) = true ↔ ¬ y.waitsFor i job := fun y => by
    rw [Bool.not_eq_true', ← Bool.not_eq_true, Entry.waitsFor_iff]
  rw [List.find?_eq_some_iff_append]
  simp only [Entry.waitsFor_iff, hbool]
  exact ⟨fun ⟨hx, before, after, hxs, hb⟩ => ⟨before, after, hxs, hx, hb⟩,
    fun ⟨before, after, hxs, hx, hb⟩ => ⟨hx, before, after, hxs, hb⟩⟩

theorem Port.planOwner_isSome_iff (q : Port) (i : StreamId) (job : Nat) :
    (q.planOwner i job).isSome = true ↔ ∃ x ∈ q.nextPlan, x.waitsFor i job := by
  unfold Port.planOwner
  rw [List.find?_isSome]
  simp only [Entry.waitsFor_iff]

theorem Port.planOwner_eq_none_iff (q : Port) (i : StreamId) (job : Nat) :
    q.planOwner i job = none ↔ ∀ x ∈ q.nextPlan, ¬ x.waitsFor i job := by
  rw [← Option.isNone_iff_eq_none, ← Option.not_isSome, Bool.not_eq_true', ← Bool.not_eq_true, Port.planOwner_isSome_iff]
  simp only [not_exists, not_and]

theorem Port.owner_iff (q : Port) (i : StreamId) (job : Nat) (x : Entry) : q.owner i job = some x ↔
    q.planOwner i job = some x ∨ (q.planOwner i job = none ∧ q.itemOwner i job = some x) := Option.or_eq_some_iff

theorem Port.setOwner_of_plan {q : Port} {i : StreamId} {job : Nat} (h : ∃ x ∈ q.nextPlan, x.waitsFor i job) (src : Source) :
    q.setOwner i job src = q.setPlanSource i src := if_pos ((q.planOwner_isSome_iff i job).2 h)

theorem Port.setOwner_of_item {q : Port} {i : StreamId} {job : Nat} (h : ∀ x ∈ q.nextPlan, ¬ x.waitsFor i job) (src : Source) :
    q.setOwner i job src = q.setItemSource i src :=
  if_neg fun hs => by
    obtain ⟨x, hx, hw⟩ := (q.planOwner_isSome_iff i job).1 hs
    exact h x hx hw

/-! ### The reads of a stream that are out -/

theorem ReadFor.sourceOf_iff (w : ReadFor) (i : StreamId) :
    w.sourceOf i = true ↔ (∃ job, w = .selector i job) ∨ ∃ job piece, w = .half i job piece := by
  cases w <;> simp [ReadFor.sourceOf]

theorem Smi.readsSource_iff (m : Smi) (i : StreamId) : m.readsSource i = true ↔ ∃ r ∈ m.inFlight ++ m.waiting,
    (∃ job, r.what = .selector i job) ∨ ∃ job piece, r.what = .half i job piece := by
  unfold Smi.readsSource
  rw [← List.any_append, List.any_eq_true]
  simp only [ReadFor.sourceOf_iff]

/-! ### The half -/

theorem Ev.forEach_eq_foldl {α : Type} {f : α → Ev → Ev} (hf : ∀ x e, (f x e).halted = e.halted) (xs : List α) {e : Ev}
    (h : e.halted = false) : e.forEach xs f = xs.foldl (fun e x => f x e) e := by
  induction xs generalizing e with
  | nil => rfl
  | cons x xs ih => rw [Ev.forEach_cons_of_not_halted _ _ _ h, ih ((hf x e).trans h), List.foldl_cons]

theorem zipIdx_map_range {α : Type} (g : Nat → α) (n : Nat) : ((List.range n).map g).zipIdx = (List.range n).map (fun k => (g k, k)) := by
  refine List.ext_getElem (by simp) fun k h1 h2 => by simp

theorem Ev.askHalf_eq {e : Ev} (h : e.halted = false) (i : StreamId) (job : Nat) (q : Params) (v : Byte) : e.askHalf i job q v =
    (List.range ((q.outLen.toNat + 63) / 64)).foldl (fun e k =>
      e.ask (.half i job k) (halfAddr q v + BitVec.ofNat 64 (64 * k)) (min 64 (q.outLen.toNat - 64 * k))) e := by
  unfold Ev.askHalf halfPieces
  refine (Ev.forEach_eq_foldl (by exact fun _ _ => rfl) _ h).trans ?_
  rw [zipIdx_map_range, List.foldl_map]

theorem halfPieces_map_none (n : Nat) :
    (halfPieces n).map (fun _ => (none : Option (List Byte))) = List.replicate ((n + 63) / 64) none := by
  unfold halfPieces
  rw [List.map_const', List.length_map, List.length_range]

theorem Source.withPiece_half (job piece : Nat) (d : List Byte) (pieces : List (Option (List Byte))) :
    (Source.half job pieces).withPiece job piece d =
      if ∀ y ∈ pieces.set piece (some d), y ≠ none then .present ((pieces.set piece (some d)).flatMap (fun y => y.getD []))
      else .half job (pieces.set piece (some d)) := by
  refine if_congr ?_ rfl rfl
  simp only [List.all_eq_true, Option.isSome_iff_ne_none]

theorem Ev.selectorData_of_half {e : Ev} (h : e.halted = false) (p : PortId) (i : StreamId) (job : Nat) (q : Params) {v : Byte}
    (hv : v.toNat ≤ 1) : e.selectorData p i job q v =
      (List.range ((q.outLen.toNat + 63) / 64)).foldl (fun e k =>
          e.ask (.half i job k) (halfAddr q v + BitVec.ofNat 64 (64 * k)) (min 64 (q.outLen.toNat - 64 * k)))
        (e.modPort p (Port.setOwner i job (.half job (List.replicate ((q.outLen.toNat + 63) / 64) none)))) := by
  have hv' : v = 0 ∨ v = 1 := by bv_omega
  unfold Ev.selectorData
  rw [if_pos hv', Ev.askHalf_eq (by exact h), halfPieces_map_none]

theorem Ev.selectorData_of_bad (e : Ev) (p : PortId) (i : StreamId) (job : Nat) (q : Params) {v : Byte} (hv : 2 ≤ v.toNat) :
    e.selectorData p i job q v = e.sourceFault p i job := if_neg (by bv_omega)

/-! ### The end of a source read -/

/-- R51, R12, R53, R61: what the end of a source read goes on with: the flag, a close, the head of the queue, a selection. -/
def Ev.sourceEnded (p : PortId) (i : StreamId) (pos : Nat) (before : Heads) (e : Ev) : Ev :=
  ((e.andThen (fun e => (e.modCtx i (fun c => { c with sourceOutstanding := e.m.smi.readsSource i })).tryClose i)).andThen
    (Ev.headRead p)).andThen (Ev.reselect p pos before)

section SourceEnd

variable {s : State} {i : StreamId} {job : Nat}

theorem Ev.sourceEnd_of_none (hp : (s.ctx i).parityOk = true) (ho : (s.port (s.ctx i).params.portId).owner i job = none) (rid pos : Nat)
    (f : PortId → Params → Entry → Ev → Ev) : (Ev.start s).sourceEnd rid i job pos f =
      (Ev.start (s.completed rid)).sourceEnded (s.ctx i).params.portId i pos (s.heads (s.ctx i).params.portId) := by
  have hown : ((Ev.start (s.completed rid)).port ((Ev.start (s.completed rid)).m.ctx i).params.portId).owner i job = none := ho
  refine (Ev.withCtx_of_good (e := Ev.start (s.completed rid)) (by exact hp) _).trans ?_
  dsimp only
  rw [hown]
  rfl

theorem Ev.sourceEnd_of_some (hp : (s.ctx i).parityOk = true) {x : Entry} (ho : (s.port (s.ctx i).params.portId).owner i job = some x)
    (rid pos : Nat) (f : PortId → Params → Entry → Ev → Ev) : (Ev.start s).sourceEnd rid i job pos f =
      (f (s.ctx i).params.portId (s.ctx i).params x (Ev.start (s.completed rid))).sourceEnded (s.ctx i).params.portId i pos
        (s.heads (s.ctx i).params.portId) := by
  have hown : ((Ev.start (s.completed rid)).port ((Ev.start (s.completed rid)).m.ctx i).params.portId).owner i job = some x := ho
  refine (Ev.withCtx_of_good (e := Ev.start (s.completed rid)) (by exact hp) _).trans ?_
  dsimp only
  rw [hown]
  rfl

end SourceEnd

/-- Settles O56. -/
theorem sourceReadEnds : Obligations.SourceReadEnds := by
  refine ⟨fun q i job => ⟨fun x => find?_waits_iff i job q.nextPlan x, fun x => ?_, fun _ => rfl,
      fun src h => Port.setOwner_of_plan h src, fun src h => Port.setOwner_of_item h src⟩,
    Smi.readsSource_iff, fun s rid pos f i job hf hs hp =>
      ⟨fun hw => ⟨fun ho r => ?_, fun x ho => ⟨?_, fun v hv => ?_, fun v hv => ?_⟩⟩,
       fun piece hw => ⟨fun d hd => ?_, fun ho => ⟨?_, fun d hd => ?_⟩, fun x ho => ⟨?_, fun pieces d hx hd => ?_⟩⟩⟩⟩
  · rw [Port.owner_iff, Port.planOwner_eq_none_iff]
    exact or_congr (find?_waits_iff i job q.nextPlan x) (and_congr_right fun _ => find?_waits_iff i job (q.urgent ++ q.normal) x)
  · obtain ⟨hdata, hfault⟩ := exec_selectorReadComplete hf hw hs pos
    cases r with
    | data v => exact (hdata v).trans (congrArg (fun e : Ev => Host.Outcome.next e.finish) (Ev.sourceEnd_of_none hp ho ..))
    | fault => exact hfault.trans (congrArg (fun e : Ev => Host.Outcome.next e.finish) (Ev.sourceEnd_of_none hp ho ..))
  · exact (exec_selectorReadComplete hf hw hs pos).2.trans (congrArg (fun e : Ev => Host.Outcome.next e.finish) (Ev.sourceEnd_of_some hp ho ..))
  · rw [(exec_selectorReadComplete hf hw hs pos).1, Ev.sourceEnd_of_some hp ho, Ev.selectorData_of_bad _ _ _ _ _ hv]
    rfl
  · rw [(exec_selectorReadComplete hf hw hs pos).1, Ev.sourceEnd_of_some hp ho, Ev.selectorData_of_half rfl _ _ _ _ hv]
    rfl
  · exact (exec_halfReadComplete hf hw hs pos).2.1 d hd
  · exact (exec_halfReadComplete hf hw hs pos).2.2.trans (congrArg (fun e : Ev => Host.Outcome.next e.finish) (Ev.sourceEnd_of_none hp ho ..))
  · exact ((exec_halfReadComplete hf hw hs pos).1 d hd).trans (congrArg (fun e : Ev => Host.Outcome.next e.finish) (Ev.sourceEnd_of_none hp ho ..))
  · exact (exec_halfReadComplete hf hw hs pos).2.2.trans (congrArg (fun e : Ev => Host.Outcome.next e.finish) (Ev.sourceEnd_of_some hp ho ..))
  · rw [(exec_halfReadComplete hf hw hs pos).1 d hd, Ev.sourceEnd_of_some hp ho, hx, Source.withPiece_half]
    rfl

end Sys2Proof.Machine
end

section
/-! PROOFS. The plan of the next cycle (R46, R51, R19). -/

namespace Sys2Proof.Machine

open Sys2Proof

/-! ### The streams that load a bucket -/

theorem State.mem_loadedStreams (s : State) (p : PortId) (b : Nat) (i : StreamId) : i ∈ s.loadedStreams p b ↔
    ((s.ctx i).state = .isOpen ∨ (s.ctx i).state = .closing) ∧ (s.ctx i).params.kind = 1 ∧ (s.ctx i).params.portId = p ∧
      (s.ctx i).params.interval.toNat ≤ 6 ∧ b % 2 ^ (s.ctx i).params.interval.toNat = (s.ctx i).phase.toNat := by
  have hlive : (s.ctx i).live = true ↔ (s.ctx i).state = .isOpen ∨ (s.ctx i).state = .closing := by
    simp only [Ctx.live, Bool.or_eq_true, decide_eq_true_eq]
  unfold State.loadedStreams
  simp only [List.mem_flatMap, List.mem_range, List.mem_filter, mem_allStreams, true_and, Bool.and_eq_true, decide_eq_true_eq, hlive,
    Params.periodic_iff, bucketMatches]
  constructor
  · rintro ⟨n, hn, ⟨⟨⟨hst, hk⟩, hp⟩, rfl⟩, hb⟩
    exact ⟨hst, hk, hp, Nat.le_of_lt_succ hn, hb⟩
  · rintro ⟨hst, hk, hp, hn, hb⟩
    exact ⟨_, Nat.lt_succ_of_le hn, ⟨⟨⟨hst, hk⟩, hp⟩, rfl⟩, hb⟩

theorem allStreams_sorted : allStreams.Pairwise (· < ·) := by
  rw [allStreams_eq]
  exact List.pairwise_lt_finRange 256

/-- R46 step 3: by ascending interval exponent, then by ascending index. -/
theorem State.loadedStreams_sorted (s : State) (p : PortId) (b : Nat) : (s.loadedStreams p b).Pairwise (fun i j =>
    (s.ctx i).params.interval.toNat < (s.ctx j).params.interval.toNat ∨
    ((s.ctx i).params.interval = (s.ctx j).params.interval ∧ i < j)) := by
  have hinterval : ∀ n i, i ∈ allStreams.filter (fun i => (s.ctx i).live && (s.ctx i).params.periodic &&
      decide ((s.ctx i).params.portId = p) && decide ((s.ctx i).params.interval.toNat = n) && bucketMatches n (s.ctx i).phase.toNat b) →
      (s.ctx i).params.interval.toNat = n := fun n i hi => by
    have hi := (List.mem_filter.1 hi).2
    simp only [Bool.and_eq_true, decide_eq_true_eq] at hi
    exact hi.1.2
  unfold State.loadedStreams
  refine List.pairwise_flatMap.2 ⟨fun n _ => ?_, List.pairwise_lt_range.imp fun hlt i hi j hj => .inl ?_⟩
  · refine (allStreams_sorted.filter _).imp_of_mem fun hi hj hlt => .inr ⟨BitVec.eq_of_toNat_eq ?_, hlt⟩
    exact (hinterval n _ hi).trans (hinterval n _ hj).symm
  · rw [hinterval _ i hi, hinterval _ j hj]
    exact hlt

theorem State.loadedStreams_nodup (s : State) (p : PortId) (b : Nat) : (s.loadedStreams p b).Nodup :=
  (s.loadedStreams_sorted p b).imp fun h he => by
    subst he
    exact h.elim (lt_irrefl _) (fun h => lt_irrefl _ h.2)

/-! ### What planning makes of the streams it has gone through -/

theorem Smi.ask_reads (m : Smi) (what : ReadFor) (addr : Addr) (len : Nat) :
    (m.ask what addr len).inFlight ++ (m.ask what addr len).waiting =
      m.inFlight ++ m.waiting ++ [{ rid := m.nextRid, what := what, addr := addr, len := len }] := by
  unfold Smi.ask Smi.fill
  dsimp only
  rw [List.append_assoc, List.take_append_drop, List.append_assoc]

/-- The streams of a list that get an entry. -/
def State.planned (m : State) (is : List StreamId) : List StreamId := is.filter (fun i => (m.ctx i).gate)

/-- The entry of a stream has its selector read: it needs source data, and no source read of it is out. -/
def Ctx.needsRead (c : Ctx) : Bool := c.params.outLen ≠ 0 && !c.sourceOutstanding

theorem Ctx.needsRead_iff (c : Ctx) : c.needsRead = true ↔ c.params.outLen ≠ 0 ∧ c.sourceOutstanding = false := by
  rw [Ctx.needsRead, Bool.and_eq_true, decide_eq_true_eq, Bool.not_eq_true']

/-- The streams of a list whose selector is read. -/
def State.planReads (m : State) (is : List StreamId) : List StreamId := (m.planned is).filter (fun i => (m.ctx i).needsRead)

/-- R46 step 4, R51: the source state of an entry made from machine `m`, where the machine is `m'` after it. -/
def Entry.plannedFrom (m m' : State) (x : Entry) : Prop :=
  let c := m.ctx x.stream
  (c.params.outLen = 0 → x.source = .noneNeeded) ∧
  (c.params.outLen ≠ 0 → c.sourceOutstanding = true → x.source = .late) ∧
  (c.params.outLen ≠ 0 → c.sourceOutstanding = false → ∃ job, x.source = .selector job ∧
    { rid := job, what := .selector x.stream job, addr := c.params.sourceBase, len := 1 } ∈ m'.smi.inFlight ++ m'.smi.waiting ∧
    (m'.ctx x.stream).sourceOutstanding = true)

theorem Entry.plannedFrom.mono {m m' m'' : State} {x : Entry} (h : x.plannedFrom m m')
    (hr : ∀ r ∈ m'.smi.inFlight ++ m'.smi.waiting, r ∈ m''.smi.inFlight ++ m''.smi.waiting)
    (hc : ∀ i, (m'.ctx i).sourceOutstanding = true → (m''.ctx i).sourceOutstanding = true) : x.plannedFrom m m'' := by
  refine ⟨h.1, h.2.1, fun h1 h2 => ?_⟩
  obtain ⟨job, hjob, hread, hflag⟩ := h.2.2 h1 h2
  exact ⟨job, hjob, hr _ hread, hc _ hflag⟩

/-- What an event is once planning has gone through the streams `is`. -/
structure Ev.PlannedTo (p : PortId) (e : Ev) (is : List StreamId) (e' : Ev) : Prop where
  frame : e' = { e with m := { e.m with ctxs := e'.m.ctxs, ports := e'.m.ports, smi := e'.m.smi } }
  smi : e'.m.smi = (e.m.planReads is).foldl (fun m i => m.ask (.selector i m.nextRid) (e.m.ctx i).params.sourceBase 1) e.m.smi
  ctx : ∀ i, e'.m.ctx i = if i ∈ e.m.planReads is then { e.m.ctx i with sourceOutstanding := true } else e.m.ctx i
  others : ∀ r, r ≠ p → e'.m.port r = e.m.port r
  entries : ∃ new : List Entry, e'.m.port p = { e.m.port p with nextPlan := (e.m.port p).nextPlan ++ new } ∧
    new.map Entry.stream = e.m.planned is ∧ ∀ x ∈ new, x.plannedFrom e.m e'.m

theorem Ev.PlannedTo.nil (p : PortId) (e : Ev) : Ev.PlannedTo p e [] e where
  frame := rfl
  smi := rfl
  ctx i := rfl
  others _ _ := rfl
  entries := ⟨[], by rw [List.append_nil], rfl, by simp⟩

/-- R46 step 4: an entry without a read. -/
def Ev.addEntry (p : PortId) (x : Entry) (e : Ev) : Ev := e.modPort p (fun q => { q with nextPlan := q.nextPlan ++ [x] })

theorem Ev.planStream_of_shut {e : Ev} {i : StreamId} (hp : (e.m.ctx i).parityOk = true) (hg : ¬ (e.m.ctx i).gate = true) (p : PortId) :
    e.planStream p i = e := (Ev.withCtx_of_good hp _).trans (if_pos hg)

section Gated

variable {e : Ev} {i : StreamId} (hp : (e.m.ctx i).parityOk = true) (hg : (e.m.ctx i).gate = true)

include hp hg

theorem Ev.planStream_of_noSource (ho : (e.m.ctx i).params.outLen = 0) (p : PortId) : e.planStream p i = e.addEntry p ⟨i, .noneNeeded⟩ :=
  (Ev.withCtx_of_good hp _).trans ((if_neg (not_not.2 hg)).trans (if_pos ho))

theorem Ev.planStream_of_late (ho : (e.m.ctx i).params.outLen ≠ 0) (hs : (e.m.ctx i).sourceOutstanding = true) (p : PortId) :
    e.planStream p i = e.addEntry p ⟨i, .late⟩ :=
  (Ev.withCtx_of_good hp _).trans ((if_neg (not_not.2 hg)).trans ((if_neg ho).trans (if_pos hs)))

theorem Ev.planStream_of_read (ho : (e.m.ctx i).params.outLen ≠ 0) (hs : (e.m.ctx i).sourceOutstanding = false) (p : PortId) :
    e.planStream p i = (e.addEntry p ⟨i, .selector e.m.smi.nextRid⟩).askSelector i (e.m.ctx i) :=
  (Ev.withCtx_of_good hp _).trans ((if_neg (not_not.2 hg)).trans ((if_neg ho).trans (if_neg (ne_true_of_eq_false hs))))

end Gated

/-! ### One stream more -/

theorem State.planned_snoc_of_shut {m : State} {i : StreamId} (h : ¬ (m.ctx i).gate = true) (is : List StreamId) :
    m.planned (is ++ [i]) = m.planned is := by
  simp [State.planned, List.filter_append, h]

theorem State.planned_snoc_of_gated {m : State} {i : StreamId} (h : (m.ctx i).gate = true) (is : List StreamId) :
    m.planned (is ++ [i]) = m.planned is ++ [i] := by
  simp [State.planned, List.filter_append, h]

theorem State.planReads_snoc_of_shut {m : State} {i : StreamId} (h : ¬ (m.ctx i).gate = true) (is : List StreamId) :
    m.planReads (is ++ [i]) = m.planReads is := by
  rw [State.planReads, State.planned_snoc_of_shut h, State.planReads]

theorem State.planReads_snoc_of_unread {m : State} {i : StreamId} (h : (m.ctx i).gate = true)
    (hr : (m.ctx i).params.outLen = 0 ∨ (m.ctx i).sourceOutstanding = true) (is : List StreamId) :
    m.planReads (is ++ [i]) = m.planReads is := by
  have hno : ¬ (m.ctx i).needsRead = true := by
    rw [Ctx.needsRead_iff]
    rintro ⟨ho, hs⟩
    exact hr.elim ho fun h => absurd (hs.symm.trans h) (by simp)
  simp [State.planReads, State.planned_snoc_of_gated h, hno]

theorem State.planReads_snoc_of_read {m : State} {i : StreamId} (h : (m.ctx i).gate = true)
    (ho : (m.ctx i).params.outLen ≠ 0) (hs : (m.ctx i).sourceOutstanding = false) (is : List StreamId) :
    m.planReads (is ++ [i]) = m.planReads is ++ [i] := by
  have hyes : (m.ctx i).needsRead = true := (Ctx.needsRead_iff _).2 ⟨ho, hs⟩
  simp [State.planReads, State.planned_snoc_of_gated h, hyes]

section Step

variable {p : PortId} {e e' : Ev} {is : List StreamId} {i : StreamId}

theorem Ev.PlannedTo.ctx_of_new (h : Ev.PlannedTo p e is e') (hi : i ∉ is) : e'.m.ctx i = e.m.ctx i := by
  have hread : i ∉ e.m.planReads is := fun hr => hi (List.mem_of_mem_filter (List.mem_of_mem_filter hr))
  rw [h.ctx, if_neg hread]

theorem Ev.PlannedTo.snoc_shut (h : Ev.PlannedTo p e is e') (hg : ¬ (e.m.ctx i).gate = true) : Ev.PlannedTo p e (is ++ [i]) e' where
  frame := h.frame
  smi := by rw [State.planReads_snoc_of_shut hg]; exact h.smi
  ctx := by rw [State.planReads_snoc_of_shut hg]; exact h.ctx
  others := h.others
  entries := by rw [State.planned_snoc_of_shut hg]; exact h.entries

theorem Ev.port_addEntry_same (e : Ev) (p : PortId) (x : Entry) :
    (e.addEntry p x).m.port p = { e.m.port p with nextPlan := (e.m.port p).nextPlan ++ [x] } := Ev.port_modPort_same ..

theorem Ev.port_addEntry_of_ne (e : Ev) {p r : PortId} (hr : r ≠ p) (x : Entry) : (e.addEntry p x).m.port r = e.m.port r := by
  unfold Ev.addEntry
  rw [Ev.modPort_m, State.port_setPort, if_neg hr]

/-- The entries of a port after one more. -/
theorem Ev.PlannedTo.entries_snoc (h : Ev.PlannedTo p e is e') (hg : (e.m.ctx i).gate = true) {m' : State} {src : Source}
    (hport : m'.port p = { e'.m.port p with nextPlan := (e'.m.port p).nextPlan ++ [⟨i, src⟩] })
    (hnew : Entry.plannedFrom e.m m' ⟨i, src⟩) (hold : ∀ x : Entry, x.plannedFrom e.m e'.m → x.plannedFrom e.m m') :
    ∃ new : List Entry, m'.port p = { e.m.port p with nextPlan := (e.m.port p).nextPlan ++ new } ∧
      new.map Entry.stream = e.m.planned (is ++ [i]) ∧ ∀ x ∈ new, x.plannedFrom e.m m' := by
  obtain ⟨new, hq, hstreams, hfrom⟩ := h.entries
  refine ⟨new ++ [⟨i, src⟩], ?_, ?_, fun x hx => ?_⟩
  · rw [hport, hq, List.append_assoc]
  · rw [List.map_append, hstreams, State.planned_snoc_of_gated hg]
    rfl
  · rcases List.mem_append.1 hx with hx | hx
    · exact hold x (hfrom x hx)
    · rw [List.mem_singleton.1 hx]; exact hnew

theorem Ev.PlannedTo.snoc_unread (h : Ev.PlannedTo p e is e') (hg : (e.m.ctx i).gate = true)
    (hr : (e.m.ctx i).params.outLen = 0 ∨ (e.m.ctx i).sourceOutstanding = true) {src : Source}
    (hnew : ∀ m', Entry.plannedFrom e.m m' ⟨i, src⟩) : Ev.PlannedTo p e (is ++ [i]) (e'.addEntry p ⟨i, src⟩) where
  frame := (congrArg (Ev.addEntry p ⟨i, src⟩) h.frame).trans rfl
  smi := by rw [State.planReads_snoc_of_unread hg hr]; exact h.smi
  ctx := by rw [State.planReads_snoc_of_unread hg hr]; exact h.ctx
  others r hne := (e'.port_addEntry_of_ne hne _).trans (h.others r hne)
  entries := h.entries_snoc hg (e'.port_addEntry_same ..) (hnew _) fun _ hx => hx

theorem Ev.PlannedTo.snoc_read (h : Ev.PlannedTo p e is e') (hg : (e.m.ctx i).gate = true) (hi : i ∉ is)
    (ho : (e.m.ctx i).params.outLen ≠ 0) (hs : (e.m.ctx i).sourceOutstanding = false) :
    Ev.PlannedTo p e (is ++ [i]) ((e'.addEntry p ⟨i, .selector e'.m.smi.nextRid⟩).askSelector i (e.m.ctx i)) := by
  let x : Entry := ⟨i, .selector e'.m.smi.nextRid⟩
  let after := (e'.addEntry p x).askSelector i (e.m.ctx i)
  have hsmi : after.m.smi = e'.m.smi.ask (.selector i e'.m.smi.nextRid) (e.m.ctx i).params.sourceBase 1 := rfl
  have hctx : ∀ j, after.m.ctx j = if j = i then { e'.m.ctx i with sourceOutstanding := true } else e'.m.ctx j := fun j =>
    State.ctx_setCtx ..
  have hread : ∀ r ∈ e'.m.smi.inFlight ++ e'.m.smi.waiting, r ∈ after.m.smi.inFlight ++ after.m.smi.waiting := fun r hr => by
    rw [hsmi, Smi.ask_reads]; exact List.mem_append_left _ hr
  have hflag : ∀ j, (e'.m.ctx j).sourceOutstanding = true → (after.m.ctx j).sourceOutstanding = true := fun j hj => by
    rw [hctx]; split
    · rfl
    · exact hj
  have hnew : x.plannedFrom e.m after.m := by
    refine ⟨fun h0 => absurd h0 ho, fun _ h1 => absurd (hs.symm.trans h1) (by simp), fun _ _ => ⟨_, rfl, ?_, ?_⟩⟩
    · rw [hsmi, Smi.ask_reads]; exact List.mem_append_right _ (List.mem_singleton_self _)
    · rw [hctx, if_pos rfl]
  refine ⟨?_, ?_, fun j => ?_, fun r hne => (e'.port_addEntry_of_ne hne x).trans (h.others r hne),
    h.entries_snoc hg (e'.port_addEntry_same p x) hnew fun y hy => hy.mono hread hflag⟩
  · exact (congrArg (fun e' : Ev => (e'.addEntry p ⟨i, .selector e'.m.smi.nextRid⟩).askSelector i (e.m.ctx i)) h.frame).trans rfl
  · rw [State.planReads_snoc_of_read hg ho hs, List.foldl_append, ← h.smi]
    rfl
  · rw [State.planReads_snoc_of_read hg ho hs, hctx]
    by_cases hj : j = i
    · rw [if_pos hj, if_pos (List.mem_append_right _ (List.mem_singleton.2 hj)), h.ctx_of_new hi, hj]
    · rw [if_neg hj, h.ctx j]
      exact if_congr (by simp [hj]) rfl rfl

/-- R46: planning goes on with one stream more. -/
theorem Ev.PlannedTo.snoc (h : Ev.PlannedTo p e is e') (hi : i ∉ is) (hp : (e.m.ctx i).parityOk = true) :
    Ev.PlannedTo p e (is ++ [i]) (e'.planStream p i) := by
  have hctx := h.ctx_of_new hi
  have hp' : (e'.m.ctx i).parityOk = true := by rwa [hctx]
  by_cases hg : (e.m.ctx i).gate = true
  · have hg' : (e'.m.ctx i).gate = true := by rwa [hctx]
    by_cases ho : (e.m.ctx i).params.outLen = 0
    · rw [Ev.planStream_of_noSource hp' hg' (by rwa [hctx])]
      exact h.snoc_unread hg (.inl ho) fun m' => ⟨fun _ => rfl, fun h0 => absurd ho h0, fun h0 => absurd ho h0⟩
    · cases hs : (e.m.ctx i).sourceOutstanding
      · rw [Ev.planStream_of_read hp' hg' (by rwa [hctx]) (by rwa [hctx]), hctx]
        exact h.snoc_read hg hi ho hs
      · rw [Ev.planStream_of_late hp' hg' (by rwa [hctx]) (by rwa [hctx])]
        exact h.snoc_unread hg (.inr hs) fun m' => ⟨fun h0 => absurd h0 ho, fun _ _ => rfl, fun _ h0 => absurd (hs.symm.trans h0) (by simp)⟩
  · rw [Ev.planStream_of_shut hp' (by rwa [hctx])]
    exact h.snoc_shut hg

end Step

/-- R46: planning over a list of streams without parity errors. -/
theorem Ev.plannedTo_forEach {e : Ev} (h : e.halted = false) (p : PortId) (is : List StreamId) (hn : is.Nodup)
    (hp : ∀ i ∈ is, (e.m.ctx i).parityOk = true) : Ev.PlannedTo p e is (e.forEach is (Ev.planStream p)) := by
  induction is using List.reverseRecOn with
  | nil => exact Ev.PlannedTo.nil p e
  | append_singleton is i ih =>
    obtain ⟨hn, -, hdisj⟩ := List.nodup_append.1 hn
    have hdone := ih hn fun j hj => hp j (List.mem_append_left _ hj)
    have hrun : (e.forEach is (Ev.planStream p)).halted = false := by rw [hdone.frame]; exact h
    rw [Ev.forEach_append, Ev.forEach_cons_of_not_halted _ _ _ hrun, Ev.forEach_nil]
    exact hdone.snoc (fun hi => hdisj i hi i (List.mem_singleton_self i) rfl) (hp i (List.mem_append_right _ (List.mem_singleton_self i)))

theorem Ctx.gate_eq (c : Ctx) : c.gate =
    (decide (c.state = .isOpen) && !c.paused && !c.holds.portNotRunning && !c.holds.nodeLost && !c.holds.memoryFault) := by
  simp only [Ctx.gate, Holds.any, Bool.not_or, Bool.and_assoc]

/-- Settles O46. -/
theorem planBuilt : Obligations.PlanBuilt := by
  intro e p hh hgood q b loaded planned read e' q'
  have hdone : Ev.PlannedTo p e loaded e' := Ev.plannedTo_forEach hh p loaded (e.m.loadedStreams_nodup p b) fun i _ => hgood i
  have hplanned : planned = e.m.planned loaded := List.filter_congr fun i _ => ((e.m.ctx i).gate_eq).symm
  have hread : read = e.m.planReads loaded := congrArg (List.filter _) hplanned
  obtain ⟨new, hq, hstreams, hfrom⟩ := hdone.entries
  have hplan : q'.nextPlan = q.nextPlan ++ new := congrArg Port.nextPlan hq
  rw [hread, hplanned, hplan]
  refine ⟨e.m.mem_loadedStreams p b, e.m.loadedStreams_sorted p b, ?_, hdone.ctx, hdone.others, hq, List.take_left, ?_, fun x hx => ?_⟩
  · exact hdone.frame.trans (congrArg (fun m : Smi =>
      ({ e with m := { e.m with ctxs := e'.m.ctxs, ports := e'.m.ports, smi := m } } : Ev)) hdone.smi)
  · rw [List.drop_left]; exact hstreams
  · rw [List.drop_left] at hx; exact hfrom x hx

end Sys2Proof.Machine
end

section
/-! PROOFS. The START event, in its order (R99, R45, R47, R77, R46, R100, R106). -/

namespace Sys2Proof.Machine

open Sys2Proof

/-! ### The cycle of a port through the event -/

/-- Changes that leave the cycle of every port. -/
def KeepsCycle : Allow := { port := fun _ q q' => q'.cycle = q.cycle, engine := false }

theorem Ev.Does.keepsCycle_of_plans {p : PortId} {a b : Ev} (d : Ev.Does (Plans p) a b) : Ev.Does KeepsCycle a b :=
  d.mono (K := Plans p) (K' := KeepsCycle) (fun _ _ _ hk => by have := congrArg Port.cycle hk.2.1; exact this) id

theorem Ev.does_enterRunning_cycle (e : Ev) (p : PortId) (h : e.halted = false) : Ev.Does KeepsCycle e (e.enterRunning p) := by
  unfold Ev.enterRunning
  refine Ev.Does.andThen (Ev.Does.andThen (Ev.Does.forEach (fun a e _ => Ev.does_holdNode e p a false) _ ?_)
    (fun _ => Ev.does_holdPort _ p false)) (fun h => Ev.does_report _ p h)
  exact e.does_modPort p _ h rfl

/-- Where the event goes on, port `p` is in cycle `c`. -/
def Ev.InCycle (p : PortId) (c : Word) (e : Ev) : Prop := e.halted = false → (e.m.port p).cycle = c

theorem Ev.InCycle.does {p : PortId} {c : Word} {a b : Ev} (h : a.InCycle p c) (ha : a.halted = false) (d : Ev.Does KeepsCycle a b) :
    b.InCycle p c := fun hb =>
  (Ev.Does.port (K := KeepsCycle) (R := fun _ q q' => q'.cycle = q.cycle) (fun _ _ => rfl) (fun _ _ _ _ h1 h2 => h2.trans h1) d hb p).trans
    (h ha)

theorem Ev.InCycle.andThen {p : PortId} {c : Word} {e : Ev} {f : Ev → Ev} (h : e.InCycle p c)
    (d : e.halted = false → Ev.Does KeepsCycle e (f e)) : (e.andThen f).InCycle p c := by
  cases hh : e.halted
  · rw [Ev.andThen_of_not_halted hh]; exact h.does hh (d hh)
  · rw [Ev.andThen_of_halted hh]; exact h

/-! ### The parts of the START event -/

/-- R47: the hand-over in cycle `c`. -/
def Ev.handOverIn (p : PortId) (c : Word) (e : Ev) : Ev :=
  (e.modPort p (fun q => { q with nextPlan := [], current := q.nextPlan.filter Entry.ready })).forEach
    ((e.port p).nextPlan.filter (fun x => !x.ready))
    (fun x => Ev.deliver ⟨x.stream, if x.source = .faulted then .sourceFault else .sourceLate, 0, c, c, []⟩)

theorem Ev.handOver_eq {e : Ev} {p : PortId} {c : Word} (h : (e.m.port p).cycle = c) : e.handOver p = e.handOverIn p c := by
  subst h; rfl

/-- R77: the releases of a RUNNING port whose tags' deadline is cycle `c`. -/
def Ev.deadlinesIn (p : PortId) (c : Word) (e : Ev) : Ev :=
  if (e.port p).state = .running then
    e.forEach (allTags.filter (fun t => decide (((e.port p).tag t).state = .deferred) && decide (((e.port p).tag t).deadline = c)))
      (fun t => Ev.releaseTag p t .timeout 0 [])
  else e

theorem Ev.deadlines_eq {e : Ev} {p : PortId} {c : Word} (hh : e.halted = false) (h : (e.m.port p).cycle = c + 1) :
    e.onlyIf ((e.port p).state = .running) (Ev.deadlines p) = e.deadlinesIn p c := by
  have hc : (e.port p).cycle - 1 = c := by rw [Ev.port_eq, h]; exact add_sub_cancel_right c 1
  rw [Ev.onlyIf_eq hh, Ev.deadlinesIn, Ev.deadlines, hc]
  rfl

/-- R106: the bucket-0 refresh of a port in cycle `c`. -/
def Ev.refreshIn (p : PortId) (c : Word) (e : Ev) : Ev := if c.toNat % 64 = 0 then e.block p else e

theorem Ev.refreshIn_eq {e : Ev} {p : PortId} {c : Word} (h : (e.m.port p).cycle = c) :
    (if (e.port p).cycle.toNat % 64 = 0 then e.block p else e) = e.refreshIn p c := by
  subst h; rfl

/-- R99: the START event after the frame and the entry to RUNNING, for cycle `c + 1`. -/
def Ev.startedIn (p : PortId) (c : Word) (e : Ev) : Ev :=
  (((e.andThen (Ev.handOverIn p (c + 1))).andThen (Ev.deadlinesIn p c)).andThen (Ev.planBuild p)).andThen (Ev.refreshIn p (c + 1))

theorem Ev.does_handOverIn {e : Ev} (h : e.halted = false) (p : PortId) (c : Word) : Ev.Does (Plans p) e (e.handOverIn p c) :=
  Ev.Does.forEach (fun _ e h => e.does_deliver _ h) _ (e.does_plan p _ h (Port.planned_of_kept rfl rfl rfl))

theorem Ev.does_deadlinesIn (e : Ev) (p : PortId) (c : Word) : Ev.Does (Plans p) e (e.deadlinesIn p c) := by
  unfold Ev.deadlinesIn
  split
  · exact Ev.Does.forEach (fun t e h => e.does_releaseTag p t .timeout 0 [] h) _ .refl
  · exact .refl

theorem Ev.started_eq {e : Ev} {p : PortId} {c : Word} (h : e.InCycle p (c + 1)) :
    (((e.andThen (Ev.handOver p)).andThen (fun e => e.onlyIf ((e.port p).state = .running) (Ev.deadlines p))).andThen
      (Ev.planBuild p)).andThen (fun e => if (e.port p).cycle.toNat % 64 = 0 then e.block p else e) = e.startedIn p c := by
  have h2 : (e.andThen (Ev.handOverIn p (c + 1))).InCycle p (c + 1) :=
    h.andThen fun hh => (Ev.does_handOverIn hh p _).keepsCycle_of_plans
  have h3 := h2.andThen (f := Ev.deadlinesIn p c) fun _ => (Ev.does_deadlinesIn _ p c).keepsCycle_of_plans
  have h4 := h3.andThen (f := Ev.planBuild p) fun hh => (Ev.does_planBuild _ p hh).keepsCycle_of_plans
  have hhand : e.andThen (Ev.handOver p) = e.andThen (Ev.handOverIn p (c + 1)) := Ev.andThen_congr fun hh => Ev.handOver_eq (h hh)
  have hdead : (e.andThen (Ev.handOverIn p (c + 1))).andThen (fun e => e.onlyIf ((e.port p).state = .running) (Ev.deadlines p)) =
      (e.andThen (Ev.handOverIn p (c + 1))).andThen (Ev.deadlinesIn p c) := Ev.andThen_congr fun hh => Ev.deadlines_eq hh (h2 hh)
  rw [hhand, hdead]
  exact Ev.andThen_congr fun hh => Ev.refreshIn_eq (h4 hh)

/-! ### The START of the next cycle -/

/-- R44, R45, R99: the port that has sent the START frame of the next cycle. -/
def Port.started (q : Port) (k : Byte) : Port := { q with
  cycle := q.cycle + 1, line := .start (startFrame (q.cycle + 1) k), itemStart := 0, freeAt := 0, windowOpen := false
  openingMade := false, lastPeriodic := q.periodicUsed, lastAperiodic := q.aperiodicUsed, periodicUsed := 0, aperiodicUsed := 0 }

theorem Ev.nextCycle_eq (s : State) (p : PortId) : (Ev.start s).nextCycle p =
    let q := s.port p
    let started := Ev.start (s.setPort p (q.started (s.budget p).cycleIndex))
    Ev.startedIn p q.cycle (if q.state = .syncing ∧ q.cycle + 1 = 8 then started.enterRunning p else started) := by
  have hmod : ((Ev.start s).modPort p (fun q => { q with cycle := q.cycle + 1 })).modPort p
      (Port.sendStart (((Ev.start s).modPort p (fun q => { q with cycle := q.cycle + 1 })).m.budget p).cycleIndex) =
      Ev.start (s.setPort p ((s.port p).started (s.budget p).cycleIndex)) := by
    rw [Ev.modPort_modPort]; rfl
  have hport : (Ev.start (s.setPort p ((s.port p).started (s.budget p).cycleIndex))).port p = (s.port p).started (s.budget p).cycleIndex :=
    State.port_setPort_same ..
  have henter : (decide (((s.port p).started (s.budget p).cycleIndex).state = .syncing) &&
      decide (((s.port p).started (s.budget p).cycleIndex).cycle = Config.runningCycle)) =
      decide ((s.port p).state = .syncing ∧ (s.port p).cycle + 1 = 8) := (Bool.decide_and _ _).symm
  unfold Ev.nextCycle Ev.startCycle
  dsimp only
  rw [hmod, hport, henter, Ev.onlyIf_eq rfl]
  refine Ev.started_eq fun hh => ?_
  split
  next hc =>
    have hin : (Ev.start (s.setPort p ((s.port p).started (s.budget p).cycleIndex))).InCycle p ((s.port p).cycle + 1) :=
      fun _ => congrArg Port.cycle hport
    refine (hin.does rfl (Ev.does_enterRunning_cycle _ p rfl)) ?_
    rwa [if_pos hc] at hh
  next => exact congrArg Port.cycle hport

theorem State.cycleEnds_of {s : State} {p : PortId} (ht : (s.port p).cycleTimer = true) (hl : (s.port p).line = .idle) :
    s.cycleEnds p = true := by
  rw [State.cycleEnds, ht, hl]; rfl

theorem exec_cycleTimerExpiry {s : State} {p : PortId} (hs : s.engine.state ≠ .halted) (hc : s.cycleEnds p = true) :
    exec (.cycleTimerExpiry p) s = .next ((Ev.start s).cycleExpiry p).finish := by
  show Host.Outcome.next (s.eventIf (s.cycleEnds p) (Ev.cycleExpiry p)) = _
  rw [State.eventIf_of_true hc, State.event_of_not_halted hs]

theorem Ev.cycleExpiry_of_cycling {e : Ev} {p : PortId} (h : (e.m.port p).state = .syncing ∨ (e.m.port p).state = .running) :
    e.cycleExpiry p = e.nextCycle p := by
  unfold Ev.cycleExpiry
  rw [Ev.port_eq]
  rcases h with h | h <;> rw [h]

theorem exec_portEnterRunning {s : State} {p : PortId} (hs : s.engine.state ≠ .halted) (hc : s.cycleEnds p = true)
    (hst : (s.port p).state = .syncing) (h8 : (s.port p).cycle + 1 = 8) :
    exec (.portEnterRunning p) s = .next ((Ev.start s).nextCycle p).finish := by
  show Host.Outcome.next (s.eventIf (s.cycleEnds p && decide ((s.port p).state = .syncing) &&
    decide ((s.port p).cycle + 1 = Config.runningCycle)) (Ev.nextCycle p)) = _
  rw [State.eventIf_of_true, State.event_of_not_halted hs]
  rw [hc, decide_eq_true hst, decide_eq_true (by exact h8)]
  rfl

theorem exec_deadlineTimeout {s : State} {p : PortId} (hs : s.engine.state ≠ .halted) (hc : s.cycleEnds p = true)
    (hst : (s.port p).state = .running) {t : TagId} (ht : ((s.port p).tag t).state = .deferred)
    (hd : ((s.port p).tag t).deadline = (s.port p).cycle) :
    exec (.deadlineTimeout p) s = .next ((Ev.start s).nextCycle p).finish := by
  have hpassed : (s.port p).deadlinePassed = true :=
    List.any_eq_true.2 ⟨t, mem_allTags t, by rw [decide_eq_true ht, decide_eq_true hd]; rfl⟩
  show Host.Outcome.next (s.eventIf (s.cycleEnds p && decide ((s.port p).state = .running) && (s.port p).deadlinePassed) (Ev.nextCycle p)) = _
  rw [State.eventIf_of_true, State.event_of_not_halted hs]
  rw [hc, decide_eq_true hst, hpassed]
  rfl

/-- Settles O38. -/
theorem startEventOrder : Obligations.StartEventOrder := by
  intro s p hs ht hl hst q c enters expired started handOver deadlines refresh t
  have hends := State.cycleEnds_of ht hl
  have hnext : ((Ev.start s).nextCycle p).finish = t := congrArg Ev.finish (Ev.nextCycle_eq s p)
  refine ⟨?_, fun he => ?_, fun hr => ?_⟩
  · rw [exec_cycleTimerExpiry hs hends, Ev.cycleExpiry_of_cycling hst, hnext]
  · rw [exec_portEnterRunning hs hends he.1 he.2, hnext]
  · rintro ⟨g, hg⟩
    have hg' : (q.tag g).state = .deferred ∧ (q.tag g).deadline = q.cycle := by
      simpa only [expired, Bool.and_eq_true, decide_eq_true_eq] using hg
    rw [exec_deadlineTimeout hs hends hr hg'.1 hg'.2, hnext]

end Sys2Proof.Machine
end

section
/-! PROOFS. What the parts of an event leave of the ports, where no context has a parity error; the entry of a STOPPING port to DISABLED
(R101, R81, R54). -/

namespace Sys2Proof.Machine

open Sys2Proof

/-! ### What a part of an event leaves -/

/-- From `a` to `b` the event runs on, with port `p` left as `q`, and the other ports and the engine as they were. -/
structure Ev.Leaves (p : PortId) (q : Port) (a b : Ev) : Prop where
  runs : b.halted = false
  good : b.m.parityGood
  port : b.m.port p = q
  others : ∀ r, r ≠ p → b.m.port r = a.m.port r
  engine : b.m.engine = a.m.engine

theorem Ev.Leaves.refl {e : Ev} (h : e.halted = false) (hg : e.m.parityGood) (p : PortId) : Ev.Leaves p (e.m.port p) e e :=
  ⟨h, hg, rfl, fun _ _ => rfl, rfl⟩

theorem Ev.Leaves.trans {p : PortId} {q q' : Port} {a b c : Ev} (h1 : Ev.Leaves p q a b) (h2 : Ev.Leaves p q' b c) : Ev.Leaves p q' a c :=
  ⟨h2.runs, h2.good, h2.port, fun r hr => (h2.others r hr).trans (h1.others r hr), h2.engine.trans h1.engine⟩

theorem Ev.Leaves.andThen {p : PortId} {q q' : Port} {a b : Ev} {f : Ev → Ev} (h1 : Ev.Leaves p q a b) (h2 : Ev.Leaves p q' b (f b)) :
    Ev.Leaves p q' a (b.andThen f) := by
  rw [Ev.andThen_of_not_halted h1.runs]
  exact h1.trans h2

/-- A part made for each member of a list leaves what its steps make of the port, one after the other. -/
theorem Ev.Leaves.forEach {α : Type} {p : PortId} {f : α → Ev → Ev} {g : α → Port → Port}
    (hf : ∀ x (e : Ev), e.halted = false → e.m.parityGood → Ev.Leaves p (g x (e.m.port p)) e (f x e)) (xs : List α) :
    ∀ e : Ev, e.halted = false → e.m.parityGood → Ev.Leaves p (xs.foldl (fun q x => g x q) (e.m.port p)) e (e.forEach xs f) := by
  induction xs with
  | nil => exact fun e h hg => Ev.Leaves.refl h hg p
  | cons x xs ih =>
    intro e h hg
    have h1 := hf x e h hg
    rw [Ev.forEach_cons_of_not_halted _ _ _ h, List.foldl_cons, ← h1.port]
    exact h1.trans (ih _ h1.runs h1.good)

/-- A part that changes no port. -/
theorem Ev.Does.leaves {a b : Ev} (d : Ev.Does NoPort a b) (h : a.halted = false) (hg : a.m.parityGood)
    (he : b.m.engine = a.m.engine) (p : PortId) : Ev.Leaves p (a.m.port p) a b := by
  obtain ⟨hrun, hgood⟩ := d.runs rfl h hg
  exact ⟨hrun, hgood, d.port_of_noPort hrun p, fun r _ => d.port_of_noPort hrun r, he⟩

theorem Ev.leaves_modPort {e : Ev} (h : e.halted = false) (hg : e.m.parityGood) (p : PortId) (f : Port → Port) :
    Ev.Leaves p (f (e.m.port p)) e (e.modPort p f) :=
  ⟨h, hg, State.port_setPort_same .., fun _ hr => (State.port_setPort ..).trans (if_neg hr), rfl⟩

theorem Ev.leaves_report {e : Ev} (h : e.halted = false) (hg : e.m.parityGood) (p r : PortId) : Ev.Leaves p (e.m.port p) e (e.report r) :=
  (Ev.does_report e r h).leaves h hg (by rw [Ev.report_eq]) p

/-! ### Outcomes -/

theorem Ev.engine_writeSlot (e : Ev) (o : Outcome) (lapped : Bool) : (e.writeSlot o lapped).m.engine = e.m.engine := by
  rw [Ev.writeSlot_eq]; rfl

theorem Ev.engine_lose (e : Ev) (o : Outcome) : (e.lose o).m.engine = e.m.engine := by rw [Ev.lose_eq]; rfl

theorem Ev.engine_noRoom (e : Ev) (o : Outcome) : (e.noRoom o).m.engine = e.m.engine := by
  rw [Ev.noRoom_eq]
  split
  · exact e.engine_writeSlot o true
  · exact e.engine_lose o

theorem Ev.engine_testFull (e : Ev) (o : Outcome) : (e.testFull o).m.engine = e.m.engine := by
  unfold Ev.testFull
  split
  · exact e.engine_noRoom o
  split
  · exact e.engine_lose o
  · rfl

theorem Ev.engine_deliver {e : Ev} {o : Outcome} (hp : (e.m.ctx o.stream).parityOk = true) : (e.deliver o).m.engine = e.m.engine := by
  unfold Ev.deliver
  rw [Ev.withCtx_of_good hp]
  split
  · rfl
  split
  · split
    · exact e.engine_lose o
    · rfl
  split
  · rw [Ev.suppress_eq]; rfl
  split
  · exact e.engine_writeSlot o false
  · exact e.engine_testFull o

theorem Ev.leaves_deliver {e : Ev} (h : e.halted = false) (hg : e.m.parityGood) (p : PortId) (o : Outcome) :
    Ev.Leaves p (e.m.port p) e (e.deliver o) := (e.does_deliver o h).leaves h hg (Ev.engine_deliver (hg _)) p

/-- Outcomes delivered one after the other. -/
theorem Ev.leaves_deliverAll {α : Type} {e : Ev} (h : e.halted = false) (hg : e.m.parityGood) (p : PortId) (xs : List α) (o : α → Outcome) :
    Ev.Leaves p (e.m.port p) e (e.forEach xs (fun x => Ev.deliver (o x))) := by
  have hall := Ev.Leaves.forEach (g := fun _ q => q) (fun x e h hg => Ev.leaves_deliver h hg p (o x)) xs e h hg
  rwa [List.foldl_fixed'] at hall
  exact fun _ => rfl

/-! ### The release of a tag -/

theorem Ev.engine_tryClose {e : Ev} (h : e.halted = false) (i : StreamId) : (e.tryClose i).m.engine = e.m.engine := by
  by_cases hc : (decide ((e.m.ctx i).state = .closing) && (e.m.ctx i).nothingOutstanding) = true
  · rw [Ev.tryClose_of_free h hc, Ev.completeClose_eq]; rfl
  · rw [Ev.tryClose_of_not_free hc]

theorem Ev.leaves_clearTag {e : Ev} (h : e.halted = false) (hg : e.m.parityGood) (p : PortId) (i : StreamId) :
    Ev.Leaves p (e.m.port p) e ((e.modCtx i (fun c => { c with tagRef := none })).tryClose i) :=
  (Ev.does_clearTag e i h).leaves h hg (Ev.engine_tryClose (e := e.modCtx i _) h i) p

theorem Ctx.mayRetry_of_not_retryable {o : Outcome} (h : o.retryable = false) (c : Ctx) (q : Port) : ¬ c.mayRetry q o = true := by
  simp [Ctx.mayRetry, h]

/-- R70: the release of a tag with an outcome that is not retried. -/
theorem Ev.leaves_releaseTag {e : Ev} (h : e.halted = false) (hg : e.m.parityGood) (p : PortId) (t : TagId) {code : OutcomeCode}
    (hc : code ≠ .silent ∧ code ≠ .corrupt ∧ code ≠ .rejected) :
    Ev.Leaves p ((e.m.port p).freeTagEntry t) e (e.releaseTag p t code 0 []) := by
  have hno : ∀ i c d, (⟨i, code, 0, c, d, []⟩ : Outcome).retryable = false := fun i c d => by
    simp [Outcome.retryable, hc.1, hc.2.1, hc.2.2]
  rw [Ev.releaseTag_of_kept (hg _) code 0 [] (Ctx.mayRetry_of_not_retryable (hno _ _ _) _ _)]
  have hfreed := Ev.leaves_modPort h hg p (Port.freeTagEntry t)
  have hdelivered := hfreed.trans (Ev.leaves_deliver hfreed.runs hfreed.good p
    ⟨((e.m.port p).tag t).stream, code, 0, ((e.m.port p).tag t).issue, (e.m.port p).cycle, []⟩)
  have hcleared := hdelivered.trans (Ev.leaves_clearTag hdelivered.runs hdelivered.good p ((e.m.port p).tag t).stream)
  rw [hdelivered.port, hfreed.port] at hcleared
  rw [Ev.andThen_of_not_halted hdelivered.runs]
  exact hcleared

/-- What a port is after the release of some tags. -/
structure Port.Freed (ts : List TagId) (q q' : Port) : Prop where
  rest : q' = { q with tags := q'.tags, fetchList := q'.fetchList, nodes := q'.nodes }
  tag : ∀ g, q'.tag g = if g ∈ ts then { q.tag g with state := .free } else q.tag g
  fetch : q'.fetchList = q.fetchList.filter (fun g => g ∉ ts)

theorem Port.tag_setNode (q : Port) (a : Byte) (n : Node) (g : TagId) : (q.setNode a n).tag g = q.tag g := by
  unfold Port.setNode; split <;> rfl

theorem Port.fetchList_setNode (q : Port) (a : Byte) (n : Node) : (q.setNode a n).fetchList = q.fetchList := by
  unfold Port.setNode; split <;> rfl

theorem Port.tag_setTag (q : Port) (t : TagId) (x : Tag) (g : TagId) : (q.setTag t x).tag g = if g = t then x else q.tag g := by
  unfold Port.setTag Port.tag
  exact get_set ..

theorem Port.tag_freeTagEntry (q : Port) (t g : TagId) :
    (q.freeTagEntry t).tag g = if g = t then { q.tag t with state := .free } else q.tag g := by
  unfold Port.freeTagEntry
  rw [Port.tag_setNode, Port.tag_setTag]
  rfl

theorem Port.fetchList_freeTagEntry (q : Port) (t : TagId) : (q.freeTagEntry t).fetchList = q.fetchList.filter (fun u => u ≠ t) := by
  unfold Port.freeTagEntry
  rw [Port.fetchList_setNode]
  rfl

theorem Port.freeTagEntry_rest (q : Port) (t : TagId) : q.freeTagEntry t =
    { q with tags := (q.freeTagEntry t).tags, fetchList := (q.freeTagEntry t).fetchList, nodes := (q.freeTagEntry t).nodes } := by
  unfold Port.freeTagEntry Port.setNode
  dsimp only
  split <;> rfl

theorem Port.freed_nil (q : Port) : Port.Freed [] q q :=
  ⟨rfl, fun _ => by rw [if_neg List.not_mem_nil], by simp⟩

theorem Port.Freed.cons {ts : List TagId} {q q' : Port} {t : TagId} (h : Port.Freed ts (q.freeTagEntry t) q') : Port.Freed (t :: ts) q q' := by
  refine ⟨?_, fun g => ?_, ?_⟩
  · have hrest := h.rest
    rw [q.freeTagEntry_rest t] at hrest
    exact hrest
  · rw [h.tag, Port.tag_freeTagEntry]
    by_cases hg : g = t
    · subst hg; simp
    · simp [hg]
  · rw [h.fetch, Port.fetchList_freeTagEntry, List.filter_filter]
    refine List.filter_congr fun g _ => ?_
    by_cases hg : g = t <;> simp [hg]

theorem Port.freed_foldl (ts : List TagId) : ∀ q : Port, Port.Freed ts q (ts.foldl (fun q t => q.freeTagEntry t) q) := by
  induction ts with
  | nil => exact Port.freed_nil
  | cons t ts ih => exact fun q => (ih _).cons

theorem Ev.leaves_releaseTags {e : Ev} (h : e.halted = false) (hg : e.m.parityGood) (p : PortId) (ts : List TagId) {code : OutcomeCode}
    (hc : code ≠ .silent ∧ code ≠ .corrupt ∧ code ≠ .rejected) :
    Ev.Leaves p (ts.foldl (fun q t => q.freeTagEntry t) (e.m.port p)) e (e.forEach ts (fun t => Ev.releaseTag p t code 0 [])) :=
  Ev.Leaves.forEach (g := Port.freeTagEntry) (fun t _ h hg => Ev.leaves_releaseTag h hg p t hc) ts e h hg

/-! ### The removal of items -/

theorem Ev.leaves_removeItem {e : Ev} (h : e.halted = false) (hg : e.m.parityGood) (p : PortId) (code : OutcomeCode) (i : StreamId) :
    Ev.Leaves p ((e.m.port p).dequeue i) e (e.removeItem p code i) := by
  have hrun := (e.does_removeItem p code i h).runs rfl h hg
  rw [Ev.removeItem_of_good h (hg i)] at hrun ⊢
  have hport : ∀ r, ((e.m.setPort p ((e.m.port p).dequeue i)).setCtx i { e.m.ctx i with oneShot := .inFlight }).port r =
      if r = p then (e.m.port p).dequeue i else e.m.port r := fun r => State.port_setPort ..
  have hgood : ((e.m.setPort p ((e.m.port p).dequeue i)).setCtx i { e.m.ctx i with oneShot := .inFlight }).parityGood := fun j => by
    rw [State.ctx_setCtx]; split
    · exact hg i
    · exact hg j
  have hd := Ev.leaves_deliver (e := { e with
      m := (e.m.setPort p ((e.m.port p).dequeue i)).setCtx i { e.m.ctx i with oneShot := .inFlight }
      dirty := if i ∈ e.dirty then e.dirty else e.dirty ++ [i] }) h hgood p (Outcome.bare i code (e.port p).cycle)
  refine ⟨hrun.1, hrun.2, ?_, fun r hr => ?_, hd.engine⟩
  · exact hd.port.trans ((hport p).trans (if_pos rfl))
  · exact (hd.others r hr).trans ((hport r).trans (if_neg hr))

theorem Port.foldl_dequeue (is : List StreamId) : ∀ q : Port, is.foldl (fun q i => q.dequeue i) q =
    { q with urgent := q.urgent.filter (fun x => x.stream ∉ is), normal := q.normal.filter (fun x => x.stream ∉ is) } := by
  induction is with
  | nil => intro q; simp
  | cons i is ih =>
    have hmore : ∀ xs : List Entry, (xs.filter (fun x => x.stream ≠ i)).filter (fun x => x.stream ∉ is) =
        xs.filter (fun x => x.stream ∉ i :: is) := fun xs => by
      rw [List.filter_filter]
      exact List.filter_congr fun x _ => by simp [Bool.and_comm]
    intro q
    rw [List.foldl_cons, ih]
    unfold Port.dequeue
    dsimp only
    rw [hmore, hmore]

/-- R54: once every item is removed the queue is empty. -/
theorem Port.foldl_dequeue_all (q : Port) :
    ((q.urgent ++ q.normal).map Entry.stream).foldl (fun q i => q.dequeue i) q = { q with urgent := [], normal := [] } := by
  have hgone : ∀ xs : List Entry, (∀ x ∈ xs, x ∈ q.urgent ++ q.normal) →
      xs.filter (fun x => x.stream ∉ (q.urgent ++ q.normal).map Entry.stream) = [] := fun xs hxs =>
    List.filter_eq_nil_iff.2 fun x hx => by
      have hmem : x.stream ∈ (q.urgent ++ q.normal).map Entry.stream := List.mem_map_of_mem (hxs x hx)
      rw [decide_eq_true_eq]
      exact not_not.2 hmem
  rw [Port.foldl_dequeue, hgone _ fun x hx => List.mem_append_left _ hx, hgone _ fun x hx => List.mem_append_right _ hx]

end Sys2Proof.Machine
end

section
/-! PROOFS. The entry of a STOPPING port to DISABLED (R101, R81, R54), and what the START event of a RUNNING port leaves (R99, R77, R47). -/

namespace Sys2Proof.Machine

open Sys2Proof

/-! ### The work of a port ends -/

/-- The tags of a port that are not FREE. -/
def Port.heldTags (q : Port) : List TagId := allTags.filter (fun t => (q.tag t).state ≠ .free)

theorem Port.mem_heldTags (q : Port) (t : TagId) : t ∈ q.heldTags ↔ (q.tag t).state ≠ .free := by
  simp [Port.heldTags, mem_allTags]

theorem Ev.leaves_stopListed {e : Ev} (h : e.halted = false) (hg : e.m.parityGood) (p : PortId) (c : Word) (xs : List Entry) :
    Ev.Leaves p (e.m.port p) e (e.stopListed c xs) :=
  Ev.leaves_deliverAll h hg p xs (fun x => ⟨x.stream, .portStopped, 0, c, c, []⟩)

theorem Ev.leaves_stopTags {e : Ev} (h : e.halted = false) (hg : e.m.parityGood) (p : PortId) :
    Ev.Leaves p ((e.m.port p).heldTags.foldl (fun q t => q.freeTagEntry t) (e.m.port p)) e (e.stopTags p) :=
  Ev.leaves_releaseTags h hg p _ (by simp)

theorem Ev.leaves_stopItems {e : Ev} (h : e.halted = false) (hg : e.m.parityGood) (p : PortId) :
    Ev.Leaves p { e.m.port p with urgent := [], normal := [] } e (e.stopItems p) := by
  rw [← (e.m.port p).foldl_dequeue_all]
  exact Ev.Leaves.forEach (g := Port.dequeue) (fun i _ h hg => Ev.leaves_removeItem h hg p .portStopped i) _ e h hg

/-- What the release of tags leaves of a port but its tags, its fetch list and its node table. -/
theorem Port.Freed.rest_exists {ts : List TagId} {q q' : Port} (h : Port.Freed ts q q') :
    ∃ tags fetchList nodes, q' = { q with tags := tags, fetchList := fetchList, nodes := nodes } := ⟨_, _, _, h.rest⟩

/-! ### The entry to DISABLED -/

/-- R101: the report of the port that has entered DISABLED. -/
def Ev.disable (p : PortId) (e : Ev) : Ev := (e.modPort p (fun q => { q with state := .disabled, cycleTimer := false })).report p

theorem Ev.leaves_disable {e : Ev} (h : e.halted = false) (hg : e.m.parityGood) (p : PortId) :
    Ev.Leaves p { e.m.port p with state := .disabled, cycleTimer := false } e (e.disable p) := by
  have hmod := Ev.leaves_modPort h hg p (fun q => { q with state := .disabled, cycleTimer := false })
  have hreport := hmod.trans (Ev.leaves_report hmod.runs hmod.good p p)
  rwa [hmod.port] at hreport

theorem Ev.enterDisabled_eq (s : State) (p : PortId) : (Ev.start s).enterDisabled p =
    let q := s.port p
    ((((Ev.start (s.setPort p { q with nextPlan := [] })).stopListed q.cycle q.nextPlan).andThen (Ev.stopTags p)).andThen
      (Ev.stopItems p)).andThen (Ev.disable p) := by
  have hcycle : ((Ev.start s).modPort p (fun q => { q with nextPlan := [] })).m.port p = { s.port p with nextPlan := [] } :=
    Ev.port_modPort_same ..
  unfold Ev.enterDisabled
  dsimp only
  rw [Ev.andThen_stopWork, Ev.stopEntries_eq, hcycle]
  rfl

/-- What the entry to DISABLED leaves of the port, of the others and of the engine. -/
theorem Ev.leaves_enterDisabled {s : State} (hg : s.parityGood) (p : PortId) :
    ∃ freed, Port.Freed (s.port p).heldTags { s.port p with nextPlan := [] } freed ∧
      Ev.Leaves p { freed with urgent := [], normal := [], state := .disabled, cycleTimer := false } (Ev.start s)
        ((Ev.start s).enterDisabled p) := by
  rw [Ev.enterDisabled_eq]
  dsimp only
  have h0 := Ev.leaves_modPort (e := Ev.start s) rfl hg p (fun q => { q with nextPlan := [] })
  have h1 := h0.trans (Ev.leaves_stopListed h0.runs h0.good p (s.port p).cycle (s.port p).nextPlan)
  rw [h0.port] at h1
  have h2 := h1.andThen (Ev.leaves_stopTags h1.runs h1.good p)
  rw [h1.port] at h2
  have h3 := h2.andThen (Ev.leaves_stopItems h2.runs h2.good p)
  rw [h2.port] at h3
  have h4 := h3.andThen (Ev.leaves_disable h3.runs h3.good p)
  rw [h3.port] at h4
  exact ⟨_, Port.freed_foldl _ _, h4⟩

theorem Ev.cycleExpiry_of_stopping {e : Ev} {p : PortId} (h : (e.m.port p).state = .stopping) :
    e.cycleExpiry p = e.enterDisabled p := by
  unfold Ev.cycleExpiry
  rw [Ev.port_eq, h]

/-- Settles O41. -/
theorem stoppingPortEndsItsCycle : Obligations.StoppingPortEndsItsCycle := by
  intro s p hs ht hl hst q entries tags items disable t
  have hend : ((Ev.start s).enterDisabled p).finish = t := congrArg Ev.finish (Ev.enterDisabled_eq s p)
  refine ⟨?_, fun hgood => ?_⟩
  · rw [exec_cycleTimerExpiry hs (State.cycleEnds_of ht hl), Ev.cycleExpiry_of_stopping hst, hend]
  · obtain ⟨freed, hfreed, hleft⟩ := Ev.leaves_enterDisabled hgood p
    intro q'
    have hq' : q' = { freed with urgent := [], normal := [], state := .disabled, cycleTimer := false } := by
      show t.port p = _
      rw [← hend, Ev.finish_port]
      exact hleft.port
    obtain ⟨kept, fetchable, nodes, rfl⟩ := hfreed.rest_exists
    rw [hq']
    refine ⟨rfl, rfl, rfl, rfl, rfl, rfl, rfl, rfl, fun g => ?_, ?_, fun r hr => ?_, ?_⟩
    · refine (hfreed.tag g).trans ?_
      by_cases hfree : (q.tag g).state = .free
      · rw [if_neg (by rw [Port.mem_heldTags]; exact not_not.2 hfree), ← hfree]
        rfl
      · rw [if_pos ((Port.mem_heldTags ..).2 hfree)]
        rfl
    · refine hfreed.fetch.trans (List.filter_congr fun g _ => ?_)
      rw [decide_eq_decide, Port.mem_heldTags]
      exact not_not
    · rw [← hend, Ev.finish_port]
      exact hleft.others r hr
    · rw [← hend, Ev.finish_engine]
      exact hleft.engine

end Sys2Proof.Machine
end

section
/-! PROOFS. What the START event of a RUNNING port leaves (R99, R77, R47). -/

namespace Sys2Proof.Machine

open Sys2Proof

/-! ### What the parts of the event leave -/

theorem Ev.leaves_handOverIn {e : Ev} (h : e.halted = false) (hg : e.m.parityGood) (p : PortId) (c : Word) :
    Ev.Leaves p { e.m.port p with nextPlan := [], current := (e.m.port p).nextPlan.filter Entry.ready } e (e.handOverIn p c) := by
  have hmod := Ev.leaves_modPort h hg p (fun q => { q with nextPlan := [], current := q.nextPlan.filter Entry.ready })
  have hall := hmod.trans (Ev.leaves_deliverAll hmod.runs hmod.good p ((e.m.port p).nextPlan.filter (fun x => !x.ready))
    (fun x => ⟨x.stream, if x.source = .faulted then .sourceFault else .sourceLate, 0, c, c, []⟩))
  rwa [hmod.port] at hall

/-- The DEFERRED tags of a port whose deadline is cycle `c`. -/
def Port.expiredTags (q : Port) (c : Word) : List TagId :=
  allTags.filter (fun t => decide ((q.tag t).state = .deferred) && decide ((q.tag t).deadline = c))

theorem Ev.leaves_deadlinesIn {e : Ev} (h : e.halted = false) (hg : e.m.parityGood) {p : PortId} (hr : (e.m.port p).state = .running)
    (c : Word) : Ev.Leaves p (((e.m.port p).expiredTags c).foldl (fun q t => q.freeTagEntry t) (e.m.port p)) e (e.deadlinesIn p c) := by
  have heq : e.deadlinesIn p c = e.forEach ((e.m.port p).expiredTags c) (fun t => Ev.releaseTag p t .timeout 0 []) := if_pos hr
  rw [heq]
  exact Ev.leaves_releaseTags h hg p _ (by simp)

theorem Ev.leaves_planBuild {e : Ev} (h : e.halted = false) (hg : e.m.parityGood) (p : PortId) :
    ∃ plan, Ev.Leaves p { e.m.port p with nextPlan := plan } e (e.planBuild p) := by
  have hdone : Ev.PlannedTo p e _ (e.planBuild p) := Ev.plannedTo_forEach h p _ (e.m.loadedStreams_nodup p _) fun i _ => hg i
  obtain ⟨new, hport, -⟩ := hdone.entries
  obtain ⟨hrun, hgood⟩ := (e.does_planBuild p h).runs rfl h hg
  exact ⟨_, hrun, hgood, hport, hdone.others, by rw [hdone.frame]⟩

theorem Ev.leaves_refreshIn {e : Ev} (h : e.halted = false) (hg : e.m.parityGood) (p : PortId) (c : Word) :
    Ev.Leaves p (e.m.port p) e (e.refreshIn p c) := by
  unfold Ev.refreshIn
  split
  · refine (Ev.does_block e p h).leaves h hg ?_ p
    unfold Ev.block
    split <;> rfl
  · exact Ev.Leaves.refl h hg p

/-- What the START event of a RUNNING port leaves: the port that has sent its frame, its plan handed over, its expired tags released, and
a new plan. -/
theorem Ev.leaves_nextCycle {s : State} (hg : s.parityGood) {p : PortId} (hr : (s.port p).state = .running) :
    let q := (s.port p).started (s.budget p).cycleIndex
    ∃ freed plan, Port.Freed ((s.port p).expiredTags (s.port p).cycle) { q with nextPlan := [], current := q.nextPlan.filter Entry.ready } freed ∧
      Ev.Leaves p { freed with nextPlan := plan } (Ev.start s) ((Ev.start s).nextCycle p) := by
  intro q
  have hnot : ¬ ((s.port p).state = .syncing ∧ (s.port p).cycle + 1 = 8) := fun h => absurd (hr.symm.trans h.1) (by simp)
  have hnext : (Ev.start s).nextCycle p = Ev.startedIn p (s.port p).cycle (Ev.start (s.setPort p q)) := by
    rw [Ev.nextCycle_eq]
    exact congrArg (Ev.startedIn p (s.port p).cycle) (if_neg hnot)
  rw [hnext]
  have h0 := Ev.leaves_modPort (e := Ev.start s) rfl hg p (fun _ => q)
  have h1 := h0.andThen (Ev.leaves_handOverIn h0.runs h0.good p ((s.port p).cycle + 1))
  rw [h0.port] at h1
  have h2 := h1.andThen (Ev.leaves_deadlinesIn h1.runs h1.good (by rw [h1.port]; exact hr) (s.port p).cycle)
  rw [h1.port] at h2
  obtain ⟨plan, hplan⟩ := Ev.leaves_planBuild h2.runs h2.good p
  have h3 := h2.andThen hplan
  rw [h2.port] at h3
  have h4 := h3.andThen (Ev.leaves_refreshIn h3.runs h3.good p ((s.port p).cycle + 1))
  rw [h3.port] at h4
  exact ⟨_, plan, Port.freed_foldl _ _, h4⟩

theorem Port.mem_expiredTags (q : Port) (c : Word) (t : TagId) :
    t ∈ q.expiredTags c ↔ (decide ((q.tag t).state = .deferred) && decide ((q.tag t).deadline = c)) = true := by
  rw [Port.expiredTags, List.mem_filter, and_iff_right (mem_allTags t)]

/-- Settles O39. -/
theorem runningStartLeaves : Obligations.RunningStartLeaves := by
  intro s p hs hgood ht hl hr q expired
  obtain ⟨freed, plan, hfreed, hleft⟩ := Ev.leaves_nextCycle hgood hr
  refine ⟨((Ev.start s).nextCycle p).finish, ?_, ?_, fun r hne => ?_, ?_⟩
  · rw [exec_cycleTimerExpiry hs (State.cycleEnds_of ht hl), Ev.cycleExpiry_of_cycling (.inr hr)]
  · have hq' : ((Ev.start s).nextCycle p).finish.port p = { freed with nextPlan := plan } := (Ev.finish_port ..).trans hleft.port
    have hexpired : ∀ g, g ∈ q.expiredTags q.cycle ↔ expired g = true := fun g => q.mem_expiredTags q.cycle g
    obtain ⟨kept, fetchable, nodes, rfl⟩ := hfreed.rest_exists
    rw [hq']
    refine ⟨hr, rfl, rfl, rfl, rfl, rfl, rfl, rfl, rfl, ht, rfl, rfl, fun g => ?_, ?_⟩
    · exact (hfreed.tag g).trans (if_congr (hexpired g) rfl rfl)
    · refine hfreed.fetch.trans (List.filter_congr fun g _ => ?_)
      rw [decide_not]
      exact congrArg not (Bool.eq_iff_iff.2 (decide_eq_true_iff.trans (hexpired g)))
  · exact (Ev.finish_port ..).trans (hleft.others r hne)
  · exact (Ev.finish_engine _).trans hleft.engine

end Sys2Proof.Machine
end

section
/-! PROOFS. The changes of hold reasons, and the entry to RUNNING (R16, R17, R85, R100, R2). -/

namespace Sys2Proof.Machine

open Sys2Proof

/-! ### NODE_LOST cleared for the LOST nodes -/

/-- The stream is one of port `p`, and its node is among `as`. -/
def Ctx.ofNodes (p : PortId) (as : List Byte) (c : Ctx) : Bool := holdsPicked p (fun c => decide (c.params.node ∈ as)) c

/-- The context once NODE_LOST is cleared for the nodes `as` of port `p`. -/
def Ctx.nodesFound (p : PortId) (as : List Byte) (c : Ctx) : Ctx :=
  { c with holds := { c.holds with nodeLost := c.holds.nodeLost && !c.ofNodes p as } }

theorem Ctx.ofNodes_snoc (p : PortId) (as : List Byte) (a : Byte) (c : Ctx) :
    c.ofNodes p (as ++ [a]) = (c.ofNodes p as || holdsPicked p (fun c => decide (c.params.node = a)) c) := by
  simp only [Ctx.ofNodes, holdsPicked, List.mem_append, List.mem_singleton, Bool.decide_or, Bool.and_or_distrib_left]

theorem Ctx.nodesFound_snoc (p : PortId) (as : List Byte) (a : Byte) (c : Ctx) : c.nodesFound p (as ++ [a]) =
    if holdsPicked p (fun c => decide (c.params.node = a)) (c.nodesFound p as) then
      { c.nodesFound p as with holds := { (c.nodesFound p as).holds with nodeLost := false } }
    else c.nodesFound p as := by
  have hsame : holdsPicked p (fun c => decide (c.params.node = a)) (c.nodesFound p as) =
      holdsPicked p (fun c => decide (c.params.node = a)) c := rfl
  rw [hsame, Ctx.nodesFound, Ctx.ofNodes_snoc]
  cases holdsPicked p (fun c => decide (c.params.node = a)) c with
  | false => rw [Bool.or_false]; rfl
  | true => rw [Bool.or_true]; simp [Ctx.nodesFound]

/-- The streams whose part half is to be rewritten because NODE_LOST is cleared for node `a`. -/
def Ev.foundOf (e : Ev) (p : PortId) (a : Byte) : List StreamId :=
  allStreams.filter (fun i => holdsPicked p (fun c => decide (c.params.node = a)) (e.m.ctx i) && (e.m.ctx i).holds.nodeLost &&
    decide (i ∉ e.dirty))

/-- The event once NODE_LOST is cleared for the nodes `as`. -/
def Ev.foundTo (e : Ev) (p : PortId) (as : List Byte) : Ev :=
  { e with
    m := { e.m with ctxs := tableMap e.m.ctxs (fun _ c => c.nodesFound p as) }
    dirty := e.dirty ++ as.flatMap (e.foundOf p) }

theorem Ev.ctx_foundTo (e : Ev) (p : PortId) (as : List Byte) (i : StreamId) : (e.foundTo p as).m.ctx i = (e.m.ctx i).nodesFound p as :=
  get_tableMap ..

theorem Holds.clear_nodeLost_ne_iff (h : Holds) : decide ({ h with nodeLost := false } ≠ h) = h.nodeLost := by
  obtain ⟨a, b, c⟩ := h
  cases b <;> simp

theorem Holds.clear_portNotRunning_ne_iff (h : Holds) : decide ({ h with portNotRunning := false } ≠ h) = h.portNotRunning := by
  obtain ⟨a, b, c⟩ := h
  cases a <;> simp

theorem mem_foundOf (e : Ev) (p : PortId) (a : Byte) (i : StreamId) : i ∈ e.foundOf p a ↔
    holdsPicked p (fun c => decide (c.params.node = a)) (e.m.ctx i) = true ∧ (e.m.ctx i).holds.nodeLost = true ∧ i ∉ e.dirty := by
  simp [Ev.foundOf, mem_allStreams, and_assoc]

theorem holdsPicked_iff (p : PortId) (pick : Ctx → Bool) (c : Ctx) :
    holdsPicked p pick c = true ↔ c.live = true ∧ c.params.portId = p ∧ pick c = true := by
  simp [holdsPicked, and_assoc]

/-- The streams of one node more that are to be rewritten. -/
theorem Ev.foundTo_dirty_snoc (e : Ev) (p : PortId) {as : List Byte} {a : Byte} (ha : a ∉ as) :
    allStreams.filter (fun i => holdsPicked p (fun c => decide (c.params.node = a)) ((e.foundTo p as).m.ctx i) &&
      decide ({ ((e.foundTo p as).m.ctx i).holds with nodeLost := false } ≠ ((e.foundTo p as).m.ctx i).holds) &&
      decide (i ∉ (e.foundTo p as).dirty)) = e.foundOf p a := by
  refine List.filter_congr fun i _ => ?_
  rw [Ev.ctx_foundTo, Holds.clear_nodeLost_ne_iff]
  show (holdsPicked p (fun c => decide (c.params.node = a)) (e.m.ctx i) && _ && _) = _
  cases hpick : holdsPicked p (fun c => decide (c.params.node = a)) (e.m.ctx i) with
  | false => rfl
  | true =>
    have hnode : (e.m.ctx i).params.node = a := of_decide_eq_true ((holdsPicked_iff ..).1 hpick).2.2
    have hnot : (e.m.ctx i).ofNodes p as = false := by
      rw [Ctx.ofNodes, holdsPicked, hnode, decide_eq_false ha, Bool.and_false]
    have hdirty : i ∈ (e.foundTo p as).dirty ↔ i ∈ e.dirty := by
      refine ⟨fun hi => ?_, List.mem_append_left _⟩
      rcases List.mem_append.1 hi with hi | hi
      · exact hi
      · obtain ⟨b, hb, hib⟩ := List.mem_flatMap.1 hi
        have hnode' : (e.m.ctx i).params.node = b := of_decide_eq_true ((holdsPicked_iff ..).1 ((mem_foundOf ..).1 hib).1).2.2
        exact absurd (hnode ▸ hnode' ▸ hb) ha
    have hlost : ((e.m.ctx i).nodesFound p as).holds.nodeLost = (e.m.ctx i).holds.nodeLost := by
      show ((e.m.ctx i).holds.nodeLost && !(e.m.ctx i).ofNodes p as) = _
      rw [hnot, Bool.not_false, Bool.and_true]
    rw [hlost, decide_eq_decide.2 (not_congr hdirty)]

section Found

variable {e : Ev} {p : PortId} (hh : e.halted = false)
  (hg : ∀ i, (e.m.ctx i).live = true → (e.m.ctx i).params.portId = p → (e.m.ctx i).parityOk = true)

include hh hg

theorem Ev.holdNode_foundTo {as : List Byte} {a : Byte} (ha : a ∉ as) : (e.foundTo p as).holdNode p a false = e.foundTo p (as ++ [a]) := by
  have hgood : ∀ i, holdsPicked p (fun c => decide (c.params.node = a)) ((e.foundTo p as).ctx i) = true →
      ((e.foundTo p as).ctx i).parityOk = true := fun i hi => by
    rw [Ev.ctx_eq, Ev.ctx_foundTo] at hi ⊢
    obtain ⟨hlive, hport, -⟩ := (holdsPicked_iff ..).1 hi
    exact hg i hlive hport
  rw [Ev.holdNode, Ev.setHolds_of_good (e.foundTo p as) p _ _ (by exact hh) hgood]
  refine Ev.ext_fields ?_ rfl ?_ rfl rfl rfl rfl
  · refine congrArg (fun v => ({ e.m with ctxs := v } : State)) (table_ext fun j => ?_)
    have hget : (e.foundTo p as).m.ctxs.get j = (e.m.ctxs.get j).nodesFound p as := get_tableMap ..
    rw [get_tableMap, get_tableMap, hget, Ctx.nodesFound_snoc]
  · show (e.foundTo p as).dirty ++ _ = e.dirty ++ (as ++ [a]).flatMap (e.foundOf p)
    rw [List.flatMap_append, ← List.append_assoc, List.flatMap_singleton]
    exact congrArg ((e.foundTo p as).dirty ++ ·) (e.foundTo_dirty_snoc p ha)

theorem Ev.forEach_holdNode (as : List Byte) (hn : as.Nodup) : e.forEach as (fun a => Ev.holdNode p a false) = e.foundTo p as := by
  induction as using List.reverseRecOn with
  | nil =>
    have hnone : ∀ c : Ctx, c.nodesFound p [] = c := fun c => by
      simp [Ctx.nodesFound, Ctx.ofNodes, holdsPicked]
    refine Ev.ext_fields ?_ rfl ?_ rfl rfl rfl rfl
    · refine congrArg (fun v => ({ e.m with ctxs := v } : State)) (table_ext fun j => ?_)
      rw [get_tableMap, hnone]
      rfl
    · exact (List.append_nil _).symm
  | append_singleton as a ih =>
    obtain ⟨hn, -, hdisj⟩ := List.nodup_append.1 hn
    rw [Ev.forEach_append, ih hn, Ev.forEach_cons_of_not_halted _ _ _ (by exact hh), Ev.forEach_nil]
    exact Ev.holdNode_foundTo hh hg fun ha => hdisj a ha a (List.mem_singleton_self a) rfl

end Found

/-! ### The entry to RUNNING -/

/-- R100, R85: the port that enters RUNNING. -/
def Port.entered (q : Port) : Port := { q with
  state := .running, nodes := tableMap q.nodes (fun k n => n.atRunning (q.nodeEnable.getLsbD (k + 1))), change := NodeChange.zero }

/-- The LOST nodes of a port. -/
def Port.lostNodes (q : Port) : List Byte := allNodes.filter (fun a => (q.node a).state = .lost)

theorem allNodes_nodup : allNodes.Nodup := by decide

theorem Port.node_of_not_mem {q : Port} {a : Byte} (h : a ∉ allNodes) : q.node a = Node.reset := by
  rw [mem_allNodes] at h
  unfold Port.node nodeIx?
  rw [dif_neg h]

theorem Port.mem_lostNodes (q : Port) (a : Byte) : a ∈ q.lostNodes ↔ (q.node a).state = .lost := by
  rw [Port.lostNodes, List.mem_filter, decide_eq_true_eq]
  refine ⟨And.right, fun h => ⟨by_contra fun hout => ?_, h⟩⟩
  rw [Port.node_of_not_mem hout] at h
  exact absurd h (by simp [Node.reset])

/-- R85: an entry of the node table at the entry to RUNNING. -/
theorem Port.node_entered (q : Port) {a : Byte} (h1 : 1 ≤ a.toNat) (h2 : a.toNat ≤ 62) : q.entered.node a =
    { state := .unknown, silence := 0, tagsHeld := (q.node a).tagsHeld, lastHeard := 0
      probeDue := if q.nodeEnable.getLsbD a.toNat then some 8 else none, corrupt := 0 } := by
  have hix : nodeIx? a = some ⟨a.toNat - 1, by omega⟩ := dif_pos ⟨h1, h2⟩
  unfold Port.node
  rw [hix]
  show (tableMap q.nodes _).get _ = _
  rw [get_tableMap]
  show Node.atRunning (q.nodeEnable.getLsbD (a.toNat - 1 + 1)) _ = _
  rw [Nat.sub_add_cancel h1]
  rfl

/-- The streams of port `p` whose part half is to be rewritten because PORT_NOT_RUNNING is cleared after the nodes `as` are found. -/
def Ev.freedOf (e : Ev) (p : PortId) (as : List Byte) : List StreamId :=
  allStreams.filter (fun i => holdsPicked p (fun _ => true) (e.m.ctx i) && (e.m.ctx i).holds.portNotRunning &&
    decide (i ∉ (e.foundTo p as).dirty))

/-- The context once the port is RUNNING and the nodes `as` are found. -/
def Ctx.portFreed (p : PortId) (as : List Byte) (c : Ctx) : Ctx :=
  if holdsPicked p (fun _ => true) c then
    { c with holds := { (c.nodesFound p as).holds with portNotRunning := false } }
  else c.nodesFound p as

section Entering

variable {e : Ev} {p : PortId} (hh : e.halted = false)
  (hg : ∀ i, (e.m.ctx i).live = true → (e.m.ctx i).params.portId = p → (e.m.ctx i).parityOk = true)

include hh hg

theorem Ev.holdPort_foundTo (as : List Byte) : (e.foundTo p as).holdPort p false = { e with
    m := { e.m with ctxs := tableMap e.m.ctxs (fun _ c => c.portFreed p as) }
    dirty := (e.foundTo p as).dirty ++ e.freedOf p as } := by
  have hgood : ∀ i, holdsPicked p (fun _ => true) ((e.foundTo p as).ctx i) = true → ((e.foundTo p as).ctx i).parityOk = true := fun i hi => by
    rw [Ev.ctx_eq, Ev.ctx_foundTo] at hi ⊢
    obtain ⟨hlive, hport, -⟩ := (holdsPicked_iff ..).1 hi
    exact hg i hlive hport
  rw [Ev.holdPort, Ev.setHolds_of_good (e.foundTo p as) p _ _ (by exact hh) hgood]
  refine Ev.ext_fields ?_ rfl ?_ rfl rfl rfl rfl
  · refine congrArg (fun v => ({ e.m with ctxs := v } : State)) (table_ext fun j => ?_)
    have hget : (e.foundTo p as).m.ctxs.get j = (e.m.ctxs.get j).nodesFound p as := get_tableMap ..
    rw [get_tableMap, get_tableMap, hget]
    rfl
  · refine congrArg ((e.foundTo p as).dirty ++ ·) (List.filter_congr fun i _ => ?_)
    rw [Ev.ctx_eq, Ev.ctx_foundTo, Holds.clear_portNotRunning_ne_iff]
    rfl

/-- R100: the entry to RUNNING, where no stream of the port has a parity error. -/
theorem Ev.enterRunning_eq : e.enterRunning p = Ev.report { e with
    m := { e.m.setPort p (e.m.port p).entered with ctxs := tableMap e.m.ctxs (fun _ c => c.portFreed p (e.m.port p).lostNodes) }
    dirty := (e.foundTo p (e.m.port p).lostNodes).dirty ++ e.freedOf p (e.m.port p).lostNodes } p := by
  have hfound := Ev.forEach_holdNode (e := e.modPort p Port.entered) hh hg (e.m.port p).lostNodes (allNodes_nodup.filter _)
  have hfreed := Ev.holdPort_foundTo (e := e.modPort p Port.entered) hh hg (e.m.port p).lostNodes
  show (((e.modPort p Port.entered).forEach (e.m.port p).lostNodes (fun a => Ev.holdNode p a false)).andThen (Ev.holdPort p false)).andThen
    (fun e => e.report p) = _
  rw [hfound, Ev.andThen_of_not_halted (e := (e.modPort p Port.entered).foundTo p (e.m.port p).lostNodes) hh, hfreed]
  exact Ev.andThen_of_not_halted (by exact hh) _

end Entering

theorem Ctx.portFreed_eq (p : PortId) (q : Port) (c : Ctx) : c.portFreed p q.lostNodes =
    if (c.state = .isOpen ∨ c.state = .closing) ∧ c.params.portId = p then
      { c with holds := { c.holds with
          portNotRunning := false
          nodeLost := if (q.node c.params.node).state = .lost then false else c.holds.nodeLost } }
    else c := by
  have hpick : holdsPicked p (fun _ => true) c = true ↔ (c.state = .isOpen ∨ c.state = .closing) ∧ c.params.portId = p := by
    rw [holdsPicked_iff, and_iff_left rfl]
    simp only [Ctx.live, Bool.or_eq_true, decide_eq_true_eq]
  have hof : c.ofNodes p q.lostNodes = (holdsPicked p (fun _ => true) c && decide ((q.node c.params.node).state = .lost)) := by
    simp only [Ctx.ofNodes, holdsPicked, Port.mem_lostNodes, Bool.and_true]
  unfold Ctx.portFreed Ctx.nodesFound
  rw [hof]
  by_cases hp : holdsPicked p (fun _ => true) c = true
  · rw [if_pos hp, if_pos (hpick.1 hp), hp]
    by_cases hl : (q.node c.params.node).state = .lost <;> simp [hl]
  · rw [if_neg hp, if_neg (mt hpick.2 hp), eq_false_of_ne_true hp]
    simp

/-! ### The part halves that the entry to RUNNING rewrites -/

/-- NODE_LOST of a stream is cleared because its node was LOST. -/
def Ctx.ofLost (q : Port) (c : Ctx) : Bool := c.holds.nodeLost && decide ((q.node c.params.node).state = .lost)

/-- A stream of port `p` whose part half is not marked yet. -/
def Ev.cleanOf (e : Ev) (p : PortId) (i : StreamId) : Bool := holdsPicked p (fun _ => true) (e.m.ctx i) && decide (i ∉ e.dirty)

theorem flatMap_filter {α β : Type} (f : α → List β) (P : α → Prop) [DecidablePred P] (xs : List α) :
    (xs.filter (fun a => decide (P a))).flatMap f = xs.flatMap (fun a => if P a then f a else []) := by
  induction xs with
  | nil => rfl
  | cons x xs ih =>
    rw [List.filter_cons, List.flatMap_cons, ← ih]
    by_cases h : P x <;> simp [h]

theorem Ev.found_lostNodes (e : Ev) (p : PortId) : (e.m.port p).lostNodes.flatMap (e.foundOf p) =
    allNodes.flatMap (fun a => allStreams.filter (fun i =>
      e.cleanOf p i && (e.m.ctx i).ofLost (e.m.port p) && decide ((e.m.ctx i).params.node = a))) := by
  unfold Port.lostNodes
  rw [flatMap_filter]
  refine List.flatMap_congr fun a _ => ?_
  unfold Ev.foundOf Ev.cleanOf Ctx.ofLost holdsPicked
  by_cases hl : ((e.m.port p).node a).state = .lost
  · rw [if_pos hl]
    refine List.filter_congr fun i _ => ?_
    by_cases ha : (e.m.ctx i).params.node = a
    · simp only [ha, hl, decide_true, Bool.and_true, Bool.and_assoc, Bool.and_comm (decide (i ∉ e.dirty))]
    · simp [ha]
  · rw [if_neg hl]
    refine (List.filter_eq_nil_iff.2 fun i _ => ?_).symm
    by_cases ha : (e.m.ctx i).params.node = a
    · rw [ha, decide_eq_false hl]; simp
    · simp [ha]

theorem Ev.freed_lostNodes (e : Ev) (p : PortId) : e.freedOf p (e.m.port p).lostNodes =
    allStreams.filter (fun i => e.cleanOf p i && !(e.m.ctx i).ofLost (e.m.port p) && (e.m.ctx i).holds.portNotRunning) := by
  refine List.filter_congr fun i _ => ?_
  unfold Ev.cleanOf
  cases hpick : holdsPicked p (fun _ => true) (e.m.ctx i) with
  | false => rfl
  | true =>
    obtain ⟨hlive, hport, -⟩ := (holdsPicked_iff ..).1 hpick
    have hdirty : i ∉ (e.foundTo p (e.m.port p).lostNodes).dirty ↔ i ∉ e.dirty ∧ ¬ (e.m.ctx i).ofLost (e.m.port p) = true := by
      show i ∉ e.dirty ++ _ ↔ _
      rw [List.mem_append, not_or]
      refine and_congr_right fun hclean => not_congr ?_
      rw [List.mem_flatMap, Ctx.ofLost, Bool.and_eq_true, decide_eq_true_eq]
      constructor
      · rintro ⟨a, ha, hi⟩
        obtain ⟨hof, hlost, -⟩ := (mem_foundOf ..).1 hi
        obtain rfl : (e.m.ctx i).params.node = a := of_decide_eq_true ((holdsPicked_iff ..).1 hof).2.2
        exact ⟨hlost, (Port.mem_lostNodes ..).1 ha⟩
      · rintro ⟨hlost, hnode⟩
        exact ⟨_, (Port.mem_lostNodes ..).2 hnode,
          (mem_foundOf ..).2 ⟨(holdsPicked_iff ..).2 ⟨hlive, hport, decide_eq_true rfl⟩, hlost, hclean⟩⟩
    rw [decide_eq_decide.2 hdirty, Bool.decide_and, Bool.true_and, Bool.true_and, Bool.and_comm]
    simp

/-- Settles O40. -/
theorem holdsAndRunningEntry : Obligations.HoldsAndRunningEntry := by
  refine ⟨fun e p pick f h hg => Ev.setHolds_of_good e p pick f h hg, fun _ _ _ => rfl, fun _ _ _ _ => rfl, fun e p hh hg => ?_⟩
  intro q e' q' clean ofLost
  have he' := (Ev.enterRunning_eq hh hg).trans (Ev.report_eq ..)
  have hport : ∀ r, e'.m.port r = if r = p then q.entered else e.m.port r := fun r => by
    show (e.enterRunning p).m.port r = _
    rw [he']
    exact State.port_setPort ..
  have hq' : q' = q.entered := (hport p).trans (if_pos rfl)
  rw [hq']
  refine ⟨?_, rfl, fun a h1 h2 => q.node_entered h1 h2, fun r hr => (hport r).trans (if_neg hr), fun i => ?_, ?_, ?_, ?_, ?_, ?_⟩
  · show (e.enterRunning p).halted = false
    rw [he']; exact hh
  · show (e.enterRunning p).m.ctx i = _
    rw [he']
    exact (get_tableMap ..).trans (Ctx.portFreed_eq p q (e.m.ctx i))
  · show (e.enterRunning p).dirty = _
    rw [he', Ev.freed_lostNodes]
    show (e.dirty ++ (e.m.port p).lostNodes.flatMap (e.foundOf p)) ++ _ = _
    have hclean : e.cleanOf p = clean := funext fun i => congrArg (· && decide (i ∉ e.dirty)) (Bool.and_true _)
    rw [Ev.found_lostNodes, hclean]
    rfl
  · show p ∈ (e.enterRunning p).blocks
    rw [he']
    by_cases hb : p ∈ e.blocks
    · exact (if_pos hb).symm ▸ hb
    · exact (if_neg hb).symm ▸ List.mem_append_right _ (List.mem_singleton_self p)
  · show (e.enterRunning p).causes = _
    rw [he']
  · show (e.enterRunning p).slots = _
    rw [he']
  · show (e.enterRunning p).acks = _
    rw [he']

end Sys2Proof.Machine
end
